-- ==== Sys2Proof/Word.lean ====
section
/-! DEFINITION. The word types of the block: bytes, slave addresses, command words and primitive words
(spec/00_scope.md R12, spec/30_encoding.md R50). -/

namespace Sys2Proof

/-- An 8-bit unsigned value (R12). -/
abbrev Byte := BitVec 8

/-- A 7-bit slave address (R9, R12). -/
abbrev Addr7 := BitVec 7

/-- A command word `CW[31:0]` (R51). -/
abbrev CmdWord := BitVec 32

/-- A primitive word `PW[15:0]` (R58), and the width in which register values are recorded (R60). -/
abbrev PrimWord := BitVec 16

end Sys2Proof
end

