-- ==== Sys2Proof/Config.lean ====
section
/-! DEFINITION. What an implementation fixes (the parameters of spec/00_scope.md R10), the choices a schedule
can make (spec/41_bus_reference_model.md R70, R80), and the free values of the model. -/

namespace Sys2Proof

/-- `WAIT_POLICY` (R10): every wait spins, or every wait gives up after `TIMEOUT_POLLS` polls. -/
inductive WaitPolicy where
  | spin
  | bounded
  deriving DecidableEq, Repr

/-- `REG_BINDING` (R10, R60, R61): the addresses of the four registers, the bit positions of the flags and
controls, and the bits of `CONTROL` that belong to the initialization collaborator (93 I7). No rule reads it. -/
structure RegBinding where
  statusAddr   : Nat
  status2Addr  : Nat
  controlAddr  : Nat
  dataAddr     : Nat
  sbBit        : Nat
  addrBit      : Nat
  btfBit       : Nat
  rxneBit      : Nat
  txeBit       : Nat
  busyBit      : Nat
  startBit     : Nat
  stopBit      : Nat
  ackBit       : Nat
  controlOther : PrimWord
  deriving DecidableEq, Repr

/-- The reference value of R61, with the instance I2C1 (PRESUMED: general knowledge, log 1) and the bit
positions of R60. -/
def RegBinding.reference : RegBinding where
  statusAddr   := 0x40005414
  status2Addr  := 0x40005418
  controlAddr  := 0x40005400
  dataAddr     := 0x40005410
  sbBit        := 0
  addrBit      := 1
  btfBit       := 2
  rxneBit      := 6
  txeBit       := 7
  busyBit      := 1
  startBit     := 8
  stopBit      := 9
  ackBit       := 10
  controlOther := 0

/-- The parameters the model takes as arguments (R10). They are launch data: no step changes them. -/
structure Params where
  policy       : WaitPolicy
  timeoutPolls : Nat
  lenMax       : Nat
  binding      : RegBinding
  deriving DecidableEq, Repr

/-- DESIGN CHOICE (log 1): the parameter values of the reset state, those of spec/95_test_vectors.md. -/
def Params.atReset : Params where
  policy       := .bounded
  timeoutPolls := 3
  lenMax       := 16
  binding      := .reference

/-- The environment's steps (R74 to R80). -/
inductive EnvStep where
  | stop
  | start
  | address
  | txShift
  | txDone
  | receive
  /-- `EXT_BUSY` takes the given value (R80). -/
  | extBusy (b : Bool)
  deriving DecidableEq, Repr, Inhabited

/-- Who moves at a scheduling point (R70): an environment step, or the engine (the Caller when the engine is IDLE). -/
inductive Choice where
  | env (k : EnvStep)
  | go
  deriving DecidableEq, Repr, Inhabited

/-- DESIGN CHOICE (log 7): what a byte of caller memory that nothing has written reads as. -/
def Config.unlistedByte : Byte := 0x00

/-- Free value (log 4): the n-th choice of a schedule about which nothing is known (R70, 93 I15). -/
opaque Config.freeChoice : Nat → Choice

/-- Free value (log 4): how many scheduling points such a schedule lets an enabled environment step wait, if it stays
enabled, drawn at its n-th choice. Nothing is known of it but that it is finite: the weak fairness of R70 (93 I15). -/
opaque Config.freeDelay : Nat → Nat

/-- Free value (log 4): how many scheduling points of a command may pass before such a schedule gives the engine the
turn, drawn at its n-th choice. Nothing is known of it but that it is finite (R70: "any finite number"). -/
opaque Config.freePatience : Nat → Nat

/-- Free value (log 20): the field `BUSY` of the n-th flag record that the scan's inspect step keeps (R19, R24). -/
opaque Config.freeSnapBusy : Nat → Bool

/-- Free value (log 14): the reserved bits that `STATUS` and `STATUS2` read as at the n-th entry of `T`, under a seed
(93 I6). -/
opaque Config.freeReserved : Nat → Nat → PrimWord

/-- Free value (log 5): the n-th acknowledge of an oracle about which nothing is known (R81, 93 I13). -/
opaque Config.freeAck : Nat → Bool

/-- Free value (log 5): the n-th byte sent by an oracle about which nothing is known (R81, 93 I13). -/
opaque Config.freeByte : Nat → Byte

end Sys2Proof
end

