-- ==== Sys2Proof/Syntax.lean ====
section
/-! DEFINITION. The instruction set whole: the seven commands and the seven Bus Interface primitives of
spec/opcode_table.json, in the table's order, and the assembly syntax of commands
(spec/30_encoding.md R52, R58, R62). -/

namespace Sys2Proof

/-- One constructor per row of the opcode table. Operand ranges are carried by the types: `ADDR` 7 bits, `REG`,
`DATA` and `OPND` 8 bits, the acknowledge bit one bit. `LEN` and `BUF` are side operands and stand in State (R51). -/
inductive Instr where
  /-- `scan` (R98). -/
  | scan
  /-- `write_byte ADDR, DATA` (R106). -/
  | writeByte (addr : Addr7) (data : Byte)
  /-- `write_memory_byte ADDR, REG, DATA` (R107). -/
  | writeMemoryByte (addr : Addr7) (reg data : Byte)
  /-- `read_byte ADDR` (R110). -/
  | readByte (addr : Addr7)
  /-- `read_memory_byte ADDR, REG` (R111). -/
  | readMemoryByte (addr : Addr7) (reg : Byte)
  /-- `read_memory_multi ADDR, REG` with `LEN`, `BUF` (R114). -/
  | readMemoryMulti (addr : Addr7) (reg : Byte)
  /-- `write_memory_multi ADDR, REG` with `LEN`, `BUF` (R121). -/
  | writeMemoryMulti (addr : Addr7) (reg : Byte)
  /-- `ISSUE_START` (R63). -/
  | issueStart
  /-- `ISSUE_STOP` (R64). -/
  | issueStop
  /-- `WRITE_DR b` (R65). -/
  | writeDr (b : Byte)
  /-- `READ_DR` (R66). -/
  | readDr
  /-- `READ_STATUS` (R67). -/
  | readStatus
  /-- `READ_STATUS2` (R68). -/
  | readStatus2
  /-- `SET_ACK e` (R69). -/
  | setAck (e : Bool)
  deriving DecidableEq, Repr

/-- An instruction's word in its format (R50). -/
inductive InstrWord where
  | cmd (w : CmdWord)
  | prim (w : PrimWord)
  deriving DecidableEq, Repr

/-- A buffer's name in assembly text. -/
abbrev BufName := List Char

/-- One line of assembly as written (R62): numbers are not yet range-checked. -/
inductive AsmLine where
  | scan
  | writeByte (addr data : Nat)
  | writeMemoryByte (addr reg data : Nat)
  | readByte (addr : Nat)
  | readMemoryByte (addr reg : Nat)
  | readMemoryMulti (addr reg len : Nat) (buf : BufName)
  | writeMemoryMulti (addr reg len : Nat) (buf : BufName)
  /-- `buf NAME = [b0, b1, ...]`. -/
  | bufBytes (name : BufName) (bytes : List Nat)
  /-- `buf NAME[n]`. -/
  | bufSize (name : BufName) (n : Nat)
  deriving DecidableEq, Repr

end Sys2Proof
end

