-- ==== Sys2Proof/WellFormed.lean ====
section
/-! DEFINITION. The checks on what is written from outside: assembly operands (spec/30_encoding.md R62), parameters
(spec/00_scope.md R10) and primitive operand fields (R58). An `Instr` needs no check of its own: its operand types
hold exactly the values its encoding admits. -/

namespace Sys2Proof

/-- `ADDR` must be 0 to 127 (R62). -/
def addrInRange (a : Nat) : Bool := decide (a < 128)

/-- `REG`, `DATA` and each buffer byte must be 0 to 255 (R62). -/
def byteInRange (b : Nat) : Bool := decide (b < 256)

/-- `LEN` must be at least 1 (R62) and fits the operand as written, at most 2^32 - 1 (R51). -/
def lenInRange (n : Nat) : Bool := decide (1 ≤ n) && decide (n < 2 ^ 32)

/-- The operand check of one assembly line (R62). That a buffer may have any size, 0 included, or list no byte is the
model's choice (DESIGN CHOICE, log 21). -/
def AsmLine.wellFormed : AsmLine → Bool
  | .scan => true
  | .writeByte a d => addrInRange a && byteInRange d
  | .writeMemoryByte a r d => addrInRange a && byteInRange r && byteInRange d
  | .readByte a => addrInRange a
  | .readMemoryByte a r => addrInRange a && byteInRange r
  | .readMemoryMulti a r n _ => addrInRange a && byteInRange r && lenInRange n
  | .writeMemoryMulti a r n _ => addrInRange a && byteInRange r && lenInRange n
  | .bufBytes _ bs => bs.all byteInRange
  | .bufSize _ _ => true

/-- `TIMEOUT_POLLS` and `LEN_MAX` are naturals of at least 1 (R10). -/
def Params.wellFormed (q : Params) : Bool := decide (1 ≤ q.timeoutPolls) && decide (1 ≤ q.lenMax)

end Sys2Proof
end

