-- ==== Sys2Proof/Decode.lean ====
section
/-! DEFINITION. The decoder of command and primitive words, total and rejecting by name, and after it the encoder
(spec/30_encoding.md R51 to R53, R56, R58, R59). -/

namespace Sys2Proof

/-- Why a word is no instruction. -/
inductive DecodeError where
  /-- `OPC` 0x7 to 0xF (R56). -/
  | reservedOpc
  /-- A should-be-zero field of the command is nonzero (R52, R56). -/
  | nonzeroReserved
  /-- `PK` 0x0 or 0x8 to 0xF (R58). -/
  | reservedPk
  /-- A reserved or unused bit of the primitive word is nonzero (R58, R59). -/
  | nonzeroPrimBits
  deriving DecidableEq, Repr

/-- What the decoder answers. -/
inductive Decoded where
  | instr (i : Instr)
  | reject (e : DecodeError)
  deriving DecidableEq, Repr

/-! Fields of the two formats (R51, R58). -/

/-- `OPC`, bits [3:0]. -/
def CmdWord.opc (w : CmdWord) : BitVec 4 := w.extractLsb' 0 4

/-- Reserved bits [7:4]. -/
def CmdWord.reservedLow (w : CmdWord) : BitVec 4 := w.extractLsb' 4 4

/-- `ADDR`, bits [14:8] (R54). -/
def CmdWord.addr (w : CmdWord) : Addr7 := w.extractLsb' 8 7

/-- Reserved bit [15]. -/
def CmdWord.reservedHigh (w : CmdWord) : BitVec 1 := w.extractLsb' 15 1

/-- `REG`, bits [23:16] (R54). -/
def CmdWord.reg (w : CmdWord) : Byte := w.extractLsb' 16 8

/-- `DATA`, bits [31:24] (R54). -/
def CmdWord.data (w : CmdWord) : Byte := w.extractLsb' 24 8

/-- `PK`, bits [15:12]. -/
def PrimWord.pk (w : PrimWord) : BitVec 4 := w.extractLsb' 12 4

/-- Reserved bits [11:8]. -/
def PrimWord.reserved (w : PrimWord) : BitVec 4 := w.extractLsb' 8 4

/-- `OPND`, bits [7:0]. -/
def PrimWord.opnd (w : PrimWord) : Byte := w.extractLsb' 0 8

/-- The instruction where the should-be-zero fields are zero, else a rejection. -/
def decodeIf (zero : Bool) (i : Instr) (e : DecodeError) : Decoded :=
  if zero then .instr i else .reject e

/-- Decoding a command word: the operation code first, then the should-be-zero fields of its row (R52, R55). -/
def decodeCmd (w : CmdWord) : Decoded :=
  let rsv : Bool := CmdWord.reservedLow w = 0 && CmdWord.reservedHigh w = 0
  let a := CmdWord.addr w
  let r := CmdWord.reg w
  let d := CmdWord.data w
  if CmdWord.opc w = 0x0 then decodeIf (rsv && a = 0 && r = 0 && d = 0) .scan .nonzeroReserved
  else if CmdWord.opc w = 0x1 then decodeIf (rsv && r = 0) (.writeByte a d) .nonzeroReserved
  else if CmdWord.opc w = 0x2 then decodeIf rsv (.writeMemoryByte a r d) .nonzeroReserved
  else if CmdWord.opc w = 0x3 then decodeIf (rsv && r = 0 && d = 0) (.readByte a) .nonzeroReserved
  else if CmdWord.opc w = 0x4 then decodeIf (rsv && d = 0) (.readMemoryByte a r) .nonzeroReserved
  else if CmdWord.opc w = 0x5 then decodeIf (rsv && d = 0) (.readMemoryMulti a r) .nonzeroReserved
  else if CmdWord.opc w = 0x6 then decodeIf (rsv && d = 0) (.writeMemoryMulti a r) .nonzeroReserved
  else .reject .reservedOpc

/-- Decoding a primitive word (R58, R59). -/
def decodePrim (w : PrimWord) : Decoded :=
  let rsv : Bool := PrimWord.reserved w = 0
  let o := PrimWord.opnd w
  if PrimWord.pk w = 0x1 then decodeIf (rsv && o = 0) .issueStart .nonzeroPrimBits
  else if PrimWord.pk w = 0x2 then decodeIf (rsv && o = 0) .issueStop .nonzeroPrimBits
  else if PrimWord.pk w = 0x3 then decodeIf rsv (.writeDr o) .nonzeroPrimBits
  else if PrimWord.pk w = 0x4 then decodeIf (rsv && o = 0) .readDr .nonzeroPrimBits
  else if PrimWord.pk w = 0x5 then decodeIf (rsv && o = 0) .readStatus .nonzeroPrimBits
  else if PrimWord.pk w = 0x6 then decodeIf (rsv && o = 0) .readStatus2 .nonzeroPrimBits
  else if PrimWord.pk w = 0x7 then
    decodeIf (rsv && (o = 0 || o = 1)) (.setAck (decide (o = 1))) .nonzeroPrimBits
  else .reject .reservedPk

/-- Decoding any word of either format. -/
def decode : InstrWord → Decoded
  | .cmd w => decodeCmd w
  | .prim w => decodePrim w

/-! The encoder, from the layouts of R51 to R53 and R58. -/

/-- A command word from its fields: `DATA` at bit 24, `REG` at 16, `ADDR` at 8, `OPC` at 0 (R51). -/
def cmdWord (opc : BitVec 4) (addr : Addr7) (reg data : Byte) : CmdWord :=
  (data.setWidth 32 <<< 24) ||| (reg.setWidth 32 <<< 16) ||| (addr.setWidth 32 <<< 8) ||| opc.setWidth 32

/-- A primitive word from its kind, at bit 12, and operand (R58). -/
def primWord (pk : BitVec 4) (opnd : Byte) : PrimWord :=
  (pk.setWidth 16 <<< 12) ||| opnd.setWidth 16

/-- The operand byte of `SET_ACK` (R58). -/
def ackOperand (e : Bool) : Byte := if e then 1 else 0

/-- The word of an instruction. -/
def encode : Instr → InstrWord
  | .scan => .cmd (cmdWord 0x0 0 0 0)
  | .writeByte a d => .cmd (cmdWord 0x1 a 0 d)
  | .writeMemoryByte a r d => .cmd (cmdWord 0x2 a r d)
  | .readByte a => .cmd (cmdWord 0x3 a 0 0)
  | .readMemoryByte a r => .cmd (cmdWord 0x4 a r 0)
  | .readMemoryMulti a r => .cmd (cmdWord 0x5 a r 0)
  | .writeMemoryMulti a r => .cmd (cmdWord 0x6 a r 0)
  | .issueStart => .prim (primWord 0x1 0)
  | .issueStop => .prim (primWord 0x2 0)
  | .writeDr b => .prim (primWord 0x3 b)
  | .readDr => .prim (primWord 0x4 0)
  | .readStatus => .prim (primWord 0x5 0)
  | .readStatus2 => .prim (primWord 0x6 0)
  | .setAck e => .prim (primWord 0x7 (ackOperand e))

/-! The match and mask of each row (R53, R58). -/

/-- `match` of the row of an instruction. -/
def rowMatch : Instr → Nat
  | .scan => 0x00000000
  | .writeByte _ _ => 0x00000001
  | .writeMemoryByte _ _ _ => 0x00000002
  | .readByte _ => 0x00000003
  | .readMemoryByte _ _ => 0x00000004
  | .readMemoryMulti _ _ => 0x00000005
  | .writeMemoryMulti _ _ => 0x00000006
  | .issueStart => 0x1000
  | .issueStop => 0x2000
  | .writeDr _ => 0x3000
  | .readDr => 0x4000
  | .readStatus => 0x5000
  | .readStatus2 => 0x6000
  | .setAck _ => 0x7000

/-- `mask` of the row of an instruction. -/
def rowMask : Instr → Nat
  | .scan => 0xFFFFFFFF
  | .writeByte _ _ => 0x00FF80FF
  | .writeMemoryByte _ _ _ => 0x000080FF
  | .readByte _ => 0xFFFF80FF
  | .readMemoryByte _ _ => 0xFF0080FF
  | .readMemoryMulti _ _ => 0xFF0080FF
  | .writeMemoryMulti _ _ => 0xFF0080FF
  | .issueStart => 0xFFFF
  | .issueStop => 0xFFFF
  | .writeDr _ => 0xFF00
  | .readDr => 0xFFFF
  | .readStatus => 0xFFFF
  | .readStatus2 => 0xFFFF
  | .setAck _ => 0xFFFE

/-- A word selects an instruction's row when it has the row's format and `w & mask = match` (R53). -/
def selectsRow (w : InstrWord) (i : Instr) : Bool :=
  match w, encode i with
  | .cmd x, .cmd _ => x &&& BitVec.ofNat 32 (rowMask i) == BitVec.ofNat 32 (rowMatch i)
  | .prim x, .prim _ => x &&& BitVec.ofNat 16 (rowMask i) == BitVec.ofNat 16 (rowMatch i)
  | .cmd _, .prim _ => false
  | .prim _, .cmd _ => false

/-- The instruction in an answer of the decoder, if there is one. -/
def Decoded.toOption : Decoded → Option Instr
  | .instr i => some i
  | .reject _ => none

/-- The word of either format with the given number of bits and value; none for another width or a value too wide. -/
def tableWord (nbits w : Nat) : Option InstrWord :=
  if nbits = 32 then if w < 2 ^ 32 then some (.cmd (BitVec.ofNat 32 w)) else none
  else if nbits = 16 then if w < 2 ^ 16 then some (.prim (BitVec.ofNat 16 w)) else none
  else none

/-- The instruction the decoder reads from a word numbered as the opcode table numbers it. Each format is one word of
one fixed length (R50), so bit 0 of the table is bit 0 of the word. -/
def decodeTableWord (nbits w : Nat) : Option Instr :=
  match tableWord nbits w with
  | some x => (decode x).toOption
  | none => none

end Sys2Proof
end

