-- ==== Sys2Proof/Machine/State.lean ====
section
/-! DEFINITION. The machine's state as plain data (spec/10_state.md R16 to R32), the reasons a step can stop
(spec/60_exceptions.md R132, R133), and the state after reset (spec/70_reset_and_hazards.md R143). -/

namespace Sys2Proof.Machine

open Sys2Proof

/-! ## Engine -/

/-- The step labels of the sequencer (R20) and of the step tables (R98, R106, R107, R110, R111, R114, R121). -/
inductive Label where
  | idle | done | abort
  | busFreeWait | start | startWait | addrWrite | addrAcked | clearAddr | txeWait
  | registerByte | regTxeWait | dataByte | transferComplete | stop
  | restart | restartWait | addrRead | addrAckedR | disableAck | clearAddrR | rxneWait | capture
  | initAck | loop | rxneWaitN | captureN
  | scanInit | probeStart | probeStartWait | probeAddr | settle | probeStop | inspect | probeClear | next
  deriving DecidableEq, Repr

/-- The operation of a latched command (R21, R52). -/
inductive Op where
  | scan | writeByte | writeMemoryByte | readByte | readMemoryByte | readMemoryMulti | writeMemoryMulti
  deriving DecidableEq, Repr

/-- A reference to a Transfer Buffer: its first byte's place in the caller's memory and its length `|BUF|` (R51, log 7). -/
structure BufRef where
  base : Nat
  size : Nat
  deriving DecidableEq, Repr

/-- The command record (R21). -/
structure Command where
  op   : Op
  addr : Addr7
  reg  : Byte
  data : Byte
  len  : Nat
  buf  : BufRef
  deriving DecidableEq, Repr

/-- What a read of `STATUS` returns: the five flags of one instant (R67, R27). -/
structure StatusFlags where
  sb   : Bool
  addr : Bool
  txe  : Bool
  btf  : Bool
  rxne : Bool
  deriving DecidableEq, Repr

/-- The flag record: exactly six Boolean fields (R24). -/
structure FlagRecord where
  sb   : Bool
  addr : Bool
  txe  : Bool
  btf  : Bool
  rxne : Bool
  busy : Bool
  deriving DecidableEq, Repr

/-- The engine's working registers (R19). `none` is the spec's own unwritten value (R23, R143). -/
structure Engine where
  pc    : Label
  cmd   : Option Command
  rem   : Option Nat
  idx   : Option Nat
  sa    : Option Nat
  polls : Nat
  snap  : Option FlagRecord
  deriving DecidableEq, Repr

/-- The command's results as the Caller reads them (R22, R57). -/
inductive Result where
  | ok | nak | timeout | rejected
  deriving DecidableEq, Repr

/-! ## Bus Interface -/

/-- The direction bit of an address byte (R9): write 0, read 1. -/
inductive Dir where
  | write | read
  deriving DecidableEq, Repr

/-- The peripheral's protocol phase (R72). -/
inductive PMode where
  | pIdle
  | pStart
  | pAddr (b : Byte)
  | pTxWaitClr
  | pTx
  | pRxWaitClr
  | pRx
  | pRxDone
  | pNacked
  deriving DecidableEq, Repr

/-- The Bus Interface state (R24, R25, R26). In `drTx` and `shift` `none` is empty; in `drRx` it is unwritten (R23). -/
structure Periph where
  sb           : Bool
  addr         : Bool
  txe          : Bool
  btf          : Bool
  rxne         : Bool
  busy         : Bool
  ackEn        : Bool
  reqStart     : Bool
  reqStop      : Bool
  drTx         : Option Byte
  shift        : Option Byte
  drRx         : Option Byte
  mode         : PMode
  addrResolved : Bool
  target       : Option (Addr7 × Dir)
  owner        : Bool
  extBusy      : Bool
  initialized  : Bool
  deriving DecidableEq, Repr

/-! ## Traces, memory, slaves -/

/-- The bus events of the trace `B` (R28). -/
inductive BusEvent where
  /-- A start condition. -/
  | S
  /-- A repeated start. -/
  | Sr
  /-- An address byte and the slave's acknowledge. -/
  | A (b : Byte) (k : Bool)
  /-- A data byte of the master and the slave's acknowledge. -/
  | W (b : Byte) (k : Bool)
  /-- A data byte of the slave and the master's acknowledge. -/
  | R (b : Byte) (m : Bool)
  /-- A stop condition. -/
  | P
  deriving DecidableEq, Repr

/-- An entry of the primitive trace `T`: the primitive word and, for a read, the value returned, encoded as R60
gives (R29, R58). -/
structure PrimRecord where
  word : PrimWord
  ret  : Option PrimWord
  deriving DecidableEq, Repr

/-- A byte memory: address and byte pairs, addresses strictly rising, no entry equal to what an unlisted address
reads as. -/
abbrev Memory := List Host.Cell

/-- One present slave of the reference mock (R82). -/
structure MockSlave where
  addr      : Addr7
  mem       : Memory
  ptr       : Byte
  expectPtr : Bool
  deriving DecidableEq, Repr

/-- `SLAVES` (R81, R82): the reference mock, its slaves in rising order of address, or an oracle given by its
answers still to come, after which they are free (log 5). -/
inductive Slaves where
  | mock (present : List MockSlave)
  | oracle (acks : List Bool) (bytes : List Byte)
  deriving DecidableEq, Repr

/-- What the reserved bits of `STATUS` and `STATUS2` read as: 0 (R60, the reference value of 93 I6), or any value (93 I6),
given for the first entries of `T` and then free under a seed (log 14). -/
inductive ReservedBits where
  | zero
  | drawn (given : List PrimWord) (seed : Nat)
  deriving DecidableEq, Repr

/-! ## The outside -/

/-- The side operands of a command (R51). `LEN` is 0 to 2^32 - 1 as written. -/
structure SideOperands where
  len : BitVec 32
  buf : BufRef
  deriving DecidableEq, Repr

/-- A move of the Caller: the initialization call (R145), or issuing a command (R55). -/
inductive Call where
  | init
  | command (cw : CmdWord) (len : BitVec 32) (buf : BufRef)
  deriving DecidableEq, Repr

/-- What a launch of the environment fixes (R143, R144, 93 I6). -/
structure Launch where
  slaves   : Slaves
  extBusy  : Bool
  reserved : ReservedBits
  deriving DecidableEq, Repr

/-- What the next machine step does, where the schedule says so: a choice of R70, a hardware reset (R144, log 13),
or a primitive word presented to the Bus Interface from outside the engine (R59, log 12). -/
inductive Pick where
  | choose (c : Choice)
  | reset (l : Launch)
  | prim (w : PrimWord)
  deriving DecidableEq, Repr

/-! ## State -/

/-- The whole machine: engine `e`, Bus Interface `p`, outputs, caller memory, traces, environment, parameters and
the inputs still to come. -/
structure State where
  e         : Engine
  p         : Periph
  result    : Option Result
  rdata     : Option Byte
  scanOut   : List Addr7
  mem       : Memory
  busTrace  : List BusEvent
  primTrace : List PrimRecord
  slaves    : Slaves
  reserved  : ReservedBits
  params    : Params
  side      : SideOperands
  calls     : List Call
  script    : List Pick
  freeTail  : Bool
  picks     : Nat
  waiting   : Option (EnvStep × Nat)
  patience  : Nat
  draws     : Nat
  snaps     : Nat
  deriving DecidableEq, Repr

/-- Why the machine stops. The first four are the model faults of R132, raised where the spec's pseudocode raises
them; all are safe: the model stops and claims nothing of the hardware. -/
inductive Fault where
  /-- `UnwrittenRead` (R23, R66, R132, 93 I8): `READ_DR` of an unwritten `P.dr_rx`, a step that reads an unwritten
  engine register, a read of `RDATA` that is none. Raised by `readWritten` alone. Safe. -/
  | unwrittenRead
  /-- `DataOverrun` (R65): `WRITE_DR` while `P.dr_tx` is full. Safe. -/
  | dataOverrun
  /-- `WriteOutOfPhase` (R65): `WRITE_DR` outside `PSTART` and `PTX`. Safe. -/
  | writeOutOfPhase
  /-- `ReservedPrimitive` (R59): a primitive word with a reserved kind or a nonzero reserved bit. Safe. -/
  | reservedPrimitive
  /-- A buffer index at or above `|BUF|` (R34): no such byte exists. Raised by `BufRead` and `BufWrite`; no accepted
  command reaches it. Safe (log 8). -/
  | bufferRange
  /-- The engine stands at a label outside the step table of its command, or away from IDLE with no command, so with no
  table (R20, R21). Raised by the sequencer; no run reaches it. Safe (log 9). -/
  | labelOutsideTable
  deriving DecidableEq, Repr

/-- Why an action has no successor (R134). -/
inductive Refusal where
  /-- Raised by an arm of the dispatch that has no meaning yet. Safe. -/
  | notModelled (mnemonic : String)
  /-- A command issued while `E.pc` is not IDLE (R133). Safe: the spec gives it no successor. -/
  | engineBusy
  /-- A command issued before the initialization call (R133, R145). Safe: the spec gives it no successor. -/
  | notInitialized
  /-- A second initialization call (R145). Safe: the spec gives it no successor. -/
  | alreadyInitialized
  deriving DecidableEq, Repr

/-! ## Reset (R143) -/

/-- The engine after reset. -/
def Engine.reset : Engine where
  pc    := .idle
  cmd   := none
  rem   := none
  idx   := none
  sa    := none
  polls := 0
  snap  := none

/-- The Bus Interface after reset; `P.BUSY` is `EXT_BUSY`. -/
def Periph.reset (extBusy : Bool) : Periph where
  sb           := false
  addr         := false
  txe          := false
  btf          := false
  rxne         := false
  busy         := extBusy
  ackEn        := false
  reqStart     := false
  reqStop      := false
  drTx         := none
  shift        := none
  drRx         := none
  mode         := .pIdle
  addrResolved := false
  target       := none
  owner        := false
  extBusy      := extBusy
  initialized  := false

/-- `expect_ptr` of every mock slave false, as at launch (R82, R143). -/
def Slaves.fresh : Slaves → Slaves
  | .mock present => .mock (present.map fun m => { m with expectPtr := false })
  | .oracle acks bytes => .oracle acks bytes

/-- The machine just launched with given parameters and environment, and the caller's memory, moves and schedule as
they are given (R143). -/
def State.launch (q : Params) (l : Launch) (mem : Memory) (calls : List Call) (script : List Pick) : State where
  e         := .reset
  p         := .reset l.extBusy
  result    := none
  rdata     := none
  scanOut   := []
  mem       := mem
  busTrace  := []
  primTrace := []
  slaves    := l.slaves.fresh
  reserved  := l.reserved
  params    := q
  side      := ⟨0, ⟨0, 0⟩⟩
  calls     := calls
  script    := script
  freeTail  := false
  picks     := 0
  waiting   := none
  patience  := 0
  draws     := 0
  snaps     := 0

/-- The machine right after reset: R143, with the launch parameters of logs 1, 2 and 14, nothing listed in memory, no
Caller move and no scripted choice. -/
def State.reset : State :=
  State.launch .atReset ⟨.mock [], false, .zero⟩ [] [] []

end Sys2Proof.Machine
end

