-- ==== Sys2Proof/Machine/Flags.lean ====
section
/-! DEFINITION. The status flags: what a read of each register returns and how it is encoded
(spec/10_state.md R24, R27; spec/30_encoding.md R60), and the wait conditions over them
(spec/42_phase_sequencer.md R90). -/

namespace Sys2Proof.Machine

open Sys2Proof

/-- The five flags of `STATUS` of one instant (R67). -/
def Periph.status (p : Periph) : StatusFlags where
  sb   := p.sb
  addr := p.addr
  txe  := p.txe
  btf  := p.btf
  rxne := p.rxne

/-- The flag record of a read of `STATUS`. The read returns no `BUSY` (R67), so that field is given beside it (R24,
log 20). -/
def StatusFlags.withBusy (f : StatusFlags) (busy : Bool) : FlagRecord where
  sb   := f.sb
  addr := f.addr
  txe  := f.txe
  btf  := f.btf
  rxne := f.rxne
  busy := busy

/-- One flag at a bit position of a 16-bit register value. -/
def flagAt (b : Bool) (pos : Nat) : PrimWord := if b then 1#16 <<< pos else 0#16

/-- The flags of `STATUS` at the positions of R60. -/
def StatusFlags.word (f : StatusFlags) : PrimWord :=
  flagAt f.sb 0 ||| flagAt f.addr 1 ||| flagAt f.btf 2 ||| flagAt f.rxne 6 ||| flagAt f.txe 7

/-- The flag of `STATUS2` at the position of R60. -/
def status2Word (busy : Bool) : PrimWord := flagAt busy 1

/-- What the reserved bits read as at the `n`-th entry of `T` (R60, 93 I6, log 14). -/
def ReservedBits.bitsAt (r : ReservedBits) (n : Nat) : PrimWord :=
  match r with
  | .zero => 0#16
  | .drawn given seed => (given[n]?).getD (Config.freeReserved seed n)

/-- A register value: the flags at their positions, the bits outside the mask of the named positions as reserved. -/
def withReserved (flags mask rsv : PrimWord) : PrimWord := flags ||| (rsv &&& ~~~mask)

/-- The reserved bits that the next entry of `T` would show. -/
def State.reservedNow (s : State) : PrimWord := s.reserved.bitsAt s.primTrace.length

/-- The value a read of `STATUS` records (R58, R60): `SB`, `ADDR`, `BTF`, `RXNE`, `TXE` are bits 0, 1, 2, 6 and 7. -/
def State.statusValue (s : State) : PrimWord := withReserved s.p.status.word 0x00C7#16 s.reservedNow

/-- The value a read of `STATUS2` records (R58, R60): `BUSY` is bit 1. -/
def State.status2Value (s : State) : PrimWord := withReserved (status2Word s.p.busy) 0x0002#16 s.reservedNow

/-- The four registers of the Bus Interface (R27). -/
inductive BusReg where
  | status | status2 | control | data
  deriving DecidableEq, Repr

/-- The bits of `STATUS` that a binding names (R60). -/
def RegBinding.statusMask (g : RegBinding) : PrimWord :=
  flagAt true g.sbBit ||| flagAt true g.addrBit ||| flagAt true g.btfBit ||| flagAt true g.rxneBit |||
    flagAt true g.txeBit

/-- The bit of `STATUS2` that a binding names. -/
def RegBinding.status2Mask (g : RegBinding) : PrimWord := flagAt true g.busyBit

/-- The bits of `CONTROL` that belong to this block under a binding. -/
def RegBinding.controlMask (g : RegBinding) : PrimWord :=
  flagAt true g.startBit ||| flagAt true g.stopBit ||| flagAt true g.ackBit

/-- The register's value under a binding, its reserved bits reading as `rsv`, without any side effect of a read (R27,
R60, R61, 93 I6): `CONTROL` shows the pending requests, the acknowledge bit and the bits of the initialization
collaborator (93 I7); `DATA` shows `P.dr_rx` and holds no value while that is unwritten. -/
def registerView (g : RegBinding) (rsv : PrimWord) (p : Periph) : BusReg → Option PrimWord
  | .status =>
      some (withReserved
        (flagAt p.sb g.sbBit ||| flagAt p.addr g.addrBit ||| flagAt p.btf g.btfBit ||| flagAt p.rxne g.rxneBit |||
          flagAt p.txe g.txeBit) (RegBinding.statusMask g) rsv)
  | .status2 => some (withReserved (flagAt p.busy g.busyBit) (RegBinding.status2Mask g) rsv)
  | .control =>
      some (withReserved
        (flagAt p.reqStart g.startBit ||| flagAt p.reqStop g.stopBit ||| flagAt p.ackEn g.ackBit)
        (RegBinding.controlMask g) g.controlOther)
  | .data => p.drRx.map fun b => b.setWidth 16

/-- The register at an address, under a binding (R43, R61). -/
def RegBinding.registerAt (g : RegBinding) (a : Nat) : Option BusReg :=
  if a = g.statusAddr then some .status
  else if a = g.status2Addr then some .status2
  else if a = g.controlAddr then some .control
  else if a = g.dataAddr then some .data
  else none

/-- The conditions the poller waits for (R90). -/
inductive WaitCond where
  | notBusy | sb | addr | txe | btf | rxne
  deriving DecidableEq, Repr

/-- The result a command gets when the wait expires: classed by the wait, not by the bus event (R90, R127). -/
def WaitCond.expiry : WaitCond → Result
  | .addr | .btf => .nak
  | .notBusy | .sb | .txe | .rxne => .timeout

/-- Whether the condition holds of the flags as they stand (R90). The poller tests what its read returns;
`pollOnce_eq` in Laws/Ops.lean says the two agree. -/
def WaitCond.holds (c : WaitCond) (p : Periph) : Bool :=
  match c with
  | .notBusy => !p.busy
  | .sb => p.sb
  | .addr => p.addr
  | .txe => p.txe
  | .btf => p.btf
  | .rxne => p.rxne

/-- The code of a result as the Caller reads it (R57). -/
def Result.code : Result → Nat
  | .ok => 0
  | .nak => 1
  | .timeout => 2
  | .rejected => 3

end Sys2Proof.Machine
end

