-- ==== Sys2Proof/Machine/Operands.lean ====
section
/-! DEFINITION. Operand forms: the address byte (spec/20_memory.md R38), the parts of an address byte as the
peripheral reads it (spec/41_bus_reference_model.md R76), operations that take side operands (spec/30_encoding.md R52). -/

namespace Sys2Proof.Machine

open Sys2Proof

/-- The direction bit (R9). -/
def Dir.bit : Dir → Byte
  | .write => 0
  | .read => 1

/-- `addr_byte(a, d) = ((zext_8(a) << 1) | d)[7:0]` (R38). -/
def addrByte (a : Addr7) (d : Dir) : Byte := (a.setWidth 8 <<< 1) ||| d.bit

/-- Bits [7:1] of an address byte (R76). -/
def addrOfByte (b : Byte) : Addr7 := b.extractLsb' 1 7

/-- Bit [0] of an address byte as a direction (R76). -/
def dirOfByte (b : Byte) : Dir := if b.extractLsb' 0 1 = 0#1 then .write else .read

/-- The scan's candidate as a slave address; the scan probes 0 to 127 only (R103). -/
def probeAddr (n : Nat) : Addr7 := BitVec.ofNat 7 n

/-- Whether the operation takes `LEN` and `BUF` (R52). -/
def Op.takesBuffer : Op → Bool
  | .readMemoryMulti | .writeMemoryMulti => true
  | .scan | .writeByte | .writeMemoryByte | .readByte | .readMemoryByte => false

/-- The operation code (R52). -/
def Op.code : Op → BitVec 4
  | .scan => 0
  | .writeByte => 1
  | .writeMemoryByte => 2
  | .readByte => 3
  | .readMemoryByte => 4
  | .readMemoryMulti => 5
  | .writeMemoryMulti => 6

end Sys2Proof.Machine
end

