-- ==== Sys2Proof/Machine/Ops.lean ====
section
/-! DEFINITION. The named operations: byte memory in canonical form, the Transfer Buffer (spec/20_memory.md R34,
R35), the traces (spec/10_state.md R28, R29), register access, the Bus Interface primitives as shared operations
(spec/40_bus_primitives.md), and the one way a command fails and returns (spec/60_exceptions.md R128, R129). -/

namespace Sys2Proof.Machine

open Sys2Proof

/-! ## Memory -/

/-- The byte at an address; an unlisted address reads as `Config.unlistedByte`. -/
def Memory.read : Memory → Nat → Byte
  | [], _ => Config.unlistedByte
  | (k, v) :: rest, a => if a = k then v else Memory.read rest a

/-- Puts a byte in front of a memory, unless it is what an unlisted address reads as. -/
def Memory.put (a : Nat) (v : Byte) (m : Memory) : Memory :=
  if v = Config.unlistedByte then m else (a, v) :: m

/-- Sets the byte at an address, keeping the canonical form. -/
def Memory.write : Memory → Nat → Byte → Memory
  | [], a, v => Memory.put a v []
  | (k, w) :: rest, a, v =>
    if a < k then Memory.put a v ((k, w) :: rest)
    else if a = k then Memory.put a v rest
    else (k, w) :: Memory.write rest a v

/-- The canonical form from a lowest address on. -/
def Memory.wfFrom : Nat → Memory → Bool
  | _, [] => true
  | lo, (k, v) :: rest => decide (lo ≤ k) && decide (v ≠ Config.unlistedByte) && Memory.wfFrom (k + 1) rest

/-- The canonical form: addresses strictly rising, no entry equal to what an unlisted address reads as. -/
def Memory.wf (m : Memory) : Bool := Memory.wfFrom 0 m

/-- `n` consecutive bytes. -/
def Memory.readBytes (m : Memory) (base : Nat) : Nat → List Byte
  | 0 => []
  | n + 1 => m.read base :: Memory.readBytes m (base + 1) n

/-- Consecutive bytes written from an address on. -/
def Memory.writeBytes (m : Memory) (base : Nat) : List Byte → Memory
  | [] => m
  | b :: bs => Memory.writeBytes (m.write base b) (base + 1) bs

/-! ## Registers and traces -/

/-- Moves the sequencer (R13 `pc <- L`). -/
def State.setPc (s : State) (l : Label) : State := { s with e := { s.e with pc := l } }

/-- Sets the poll counter. -/
def State.setPolls (s : State) (n : Nat) : State := { s with e := { s.e with polls := n } }

/-- Replaces the Bus Interface state. -/
def State.setP (s : State) (p : Periph) : State := { s with p := p }

/-- Appends a bus event to `B` (R13 `emit`). -/
def State.emit (s : State) (ev : BusEvent) : State := { s with busTrace := s.busTrace ++ [ev] }

/-- Appends a primitive's word, and the value it returned, to `T` (R29, R58). -/
def State.record (s : State) (w : PrimWord) (ret : Option PrimWord) : State :=
  { s with primTrace := s.primTrace ++ [⟨w, ret⟩] }

/-- `BUSY_E`: a command is in progress (R22). -/
def State.busyE (s : State) : Bool := decide (s.e.pc ≠ .idle)

/-- The value of a register that may be unwritten; a read of one that nothing has written faults (R23, R66, R132, R143,
92 D41, 93 I8). No other definition raises this fault. -/
def readWritten {α : Type} : Option α → Except Fault α
  | some v => .ok v
  | none => .error .unwrittenRead

/-- The Caller's read of `RDATA` (R22, R23, log 6). -/
def State.readRdata (s : State) : Except Fault Byte := readWritten s.rdata

/-! ## The Transfer Buffer (R34, R35) -/

/-- `BufRead(i)`. -/
def bufRead (r : BufRef) (i : Nat) (s : State) : Except Fault Byte :=
  if i < r.size then .ok (s.mem.read (r.base + i)) else .error .bufferRange

/-- `BufWrite(i, v)`. -/
def bufWrite (r : BufRef) (i : Nat) (v : Byte) (s : State) : Except Fault State :=
  if i < r.size then .ok { s with mem := s.mem.write (r.base + i) v } else .error .bufferRange

/-! ## Bus Interface primitives (R63 to R69): the shared operations

Each appends its word to `T`. The sequencer issues them; the instructions' meanings are in Primitives.lean. -/

/-- R63: `P.req_start <- 1`. -/
def primIssueStart (s : State) : State :=
  (s.setP { s.p with reqStart := true }).record (primWord 0x1 0) none

/-- R64: `P.req_stop <- 1; P.req_start <- 0`. -/
def primIssueStop (s : State) : State :=
  (s.setP { s.p with reqStop := true, reqStart := false }).record (primWord 0x2 0) none

/-- R65: the address byte in `PSTART`, a data byte in `PTX`, else a model fault. -/
def primWriteDr (b : Byte) (s : State) : Except Fault State :=
  match s.p.mode with
  | .pStart =>
      .ok ((s.setP { s.p with sb := false, addrResolved := false, target := none, mode := .pAddr b }).record
        (primWord 0x3 b) none)
  | .pTx =>
      if s.p.drTx = none then
        .ok ((s.setP { s.p with drTx := some b, txe := false, btf := false }).record (primWord 0x3 b) none)
      else .error .dataOverrun
  | .pIdle | .pAddr _ | .pTxWaitClr | .pRxWaitClr | .pRx | .pRxDone | .pNacked => .error .writeOutOfPhase

/-- R66: the received byte, unless none has been received yet (R23); `RXNE` and `BTF` clear. -/
def primReadDr (s : State) : Except Fault (Byte × State) :=
  (readWritten s.p.drRx).map fun v =>
    (v, (s.setP { s.p with rxne := false, btf := false }).record (primWord 0x4 0) (some (v.setWidth 16)))

/-- R67: the five status flags; nothing changes. -/
def primReadStatus (s : State) : StatusFlags × State :=
  (s.p.status, s.record (primWord 0x5 0) (some s.statusValue))

/-- What a read of `STATUS2` does to the Bus Interface (R68). -/
def Periph.clearAddr (p : Periph) : Periph :=
  if p.addr then
    match p.mode with
    | .pTxWaitClr => { p with addr := false, mode := .pTx, txe := true }
    | .pRxWaitClr => { p with addr := false, mode := .pRx }
    | .pIdle | .pStart | .pAddr _ | .pTx | .pRx | .pRxDone | .pNacked => { p with addr := false }
  else p

/-- R68: `BUSY` as it was; the address status clears. -/
def primReadStatus2 (s : State) : Bool × State :=
  (s.p.busy, (s.setP s.p.clearAddr).record (primWord 0x6 0) (some s.status2Value))

/-- R69: `P.ack_en <- e`. -/
def primSetAck (e : Bool) (s : State) : State :=
  (s.setP { s.p with ackEn := e }).record (primWord 0x7 (ackOperand e)) none

/-! ## Failing and returning (R86, R128, R129) -/

/-- Taking the exception: a wait of the given class expires (R91, R128). -/
def takeAbort (cls : Result) (s : State) : State :=
  { s with result := some cls, e := { s.e with polls := 0, pc := .abort } }

/-- Step `ABORT`: a stop is issued, then the command returns (R128). -/
def abortStep (s : State) : State := (primIssueStop s).setPc .done

/-- Step `DONE`, the return from a command, completed or aborted: a result already set is kept (R86, R129). -/
def doneStep (s : State) : State :=
  { s with
    result := some (s.result.getD .ok)
    e := { s.e with cmd := none, polls := 0, pc := .idle } }

end Sys2Proof.Machine
end

