-- ==== Sys2Proof/Machine/Primitives.lean ====
section
/-! DEFINITION. The meanings of the seven Bus Interface primitives (spec/40_bus_primitives.md R63 to R69). A value a
primitive returns is in its `T` entry. -/

namespace Sys2Proof.Machine

open Sys2Proof

/-- A step that may fault, as an outcome. -/
def outcomeOf : Except Fault State → Host.Outcome State Fault Refusal
  | .ok s => .next s
  | .error f => .fault f

/-- `ISSUE_START` (R63). -/
def execIssueStart (s : State) : Host.Outcome State Fault Refusal := .next (primIssueStart s)

/-- `ISSUE_STOP` (R64). -/
def execIssueStop (s : State) : Host.Outcome State Fault Refusal := .next (primIssueStop s)

/-- `WRITE_DR b` (R65). -/
def execWriteDr (b : Byte) (s : State) : Host.Outcome State Fault Refusal := outcomeOf (primWriteDr b s)

/-- `READ_DR` (R66). -/
def execReadDr (s : State) : Host.Outcome State Fault Refusal := outcomeOf ((primReadDr s).map Prod.snd)

/-- `READ_STATUS` (R67). -/
def execReadStatus (s : State) : Host.Outcome State Fault Refusal := .next (primReadStatus s).2

/-- `READ_STATUS2` (R68). -/
def execReadStatus2 (s : State) : Host.Outcome State Fault Refusal := .next (primReadStatus2 s).2

/-- `SET_ACK e` (R69). -/
def execSetAck (e : Bool) (s : State) : Host.Outcome State Fault Refusal := .next (primSetAck e s)

end Sys2Proof.Machine
end

