-- ==== Sys2Proof/Machine/Accept.lean ====
section
/-! DEFINITION. Acceptance of a command (spec/30_encoding.md R55, R56) and its gating (spec/60_exceptions.md R133,
R134). The meaning of a command as an instruction is its acceptance; its step table then runs in the sequencer. -/

namespace Sys2Proof.Machine

open Sys2Proof

/-- The Caller may issue a command only in IDLE and after initialization; otherwise the action has no successor
(R133, R134). Refusal is tested before acceptance (R130). -/
def gated (s : State) (run : State → Host.Outcome State Fault Refusal) : Host.Outcome State Fault Refusal :=
  if s.e.pc = .idle then
    if s.p.initialized then run s else .refused .notInitialized
  else .refused .engineBusy

/-- A rejected command: `RESULT` is `REJECTED`, `RDATA` is none, nothing else changes (R55, R56, log 15). -/
def rejectCommand (s : State) : State := { s with result := some .rejected, rdata := none }

/-- The length checks of the multi-byte operations pass (R55). -/
def sideOperandsOk (s : State) : Bool :=
  decide (s.side.len.toNat ≠ 0) && decide (s.side.len.toNat ≤ s.params.lenMax) &&
    decide (s.side.len.toNat ≤ s.side.buf.size)

/-- The command record latched from the word's fields and the side operands (R21, R55). -/
def commandOf (op : Op) (addr : Addr7) (reg data : Byte) (s : State) : Command where
  op   := op
  addr := addr
  reg  := reg
  data := data
  len  := s.side.len.toNat
  buf  := s.side.buf

/-- The last assignments of R55: outputs cleared, the command latched, the sequencer at its first label. -/
def latch (c : Command) (first : Label) (s : State) : State :=
  { s with
    result := none
    rdata := none
    scanOut := if c.op = .scan then [] else s.scanOut
    e := { s.e with cmd := some c, pc := first } }

/-- Acceptance of a word that has passed the checks on its bits (R55). -/
def accept (op : Op) (addr : Addr7) (reg data : Byte) (first : Label) (s : State) :
    Host.Outcome State Fault Refusal :=
  gated s fun s =>
    if op.takesBuffer && !sideOperandsOk s then .next (rejectCommand s)
    else .next (latch (commandOf op addr reg data s) first s)

/-- The initialization call (R145): enabled once, sets `P.initialized` and nothing else. -/
def initCall (s : State) : Host.Outcome State Fault Refusal :=
  if s.p.initialized then .refused .alreadyInitialized
  else .next (s.setP { s.p with initialized := true })

end Sys2Proof.Machine
end

