-- ==== Sys2Proof/Machine/Table.lean ====
section
/-! DEFINITION. The form of a step table (spec/00_scope.md R14, spec/42_phase_sequencer.md R84, R87), the successor of a
step, and the action of each kind of step except the poll. The tables stand beside their commands in Scan.lean,
SingleWrite.lean, SingleRead.lean, MultiRead.lean and MultiWrite.lean. -/

namespace Sys2Proof.Machine

open Sys2Proof

/-- The action of one step: one primitive with the internal updates the step names, internal updates only, a poll,
or the scan's settle (R84). -/
inductive Act where
  /-- `Prim(ISSUE_START)`. -/
  | issueStart
  /-- `Prim(ISSUE_STOP)`. -/
  | issueStop
  /-- `Prim(WRITE_DR, addr_byte(E.cmd.addr, d))`. -/
  | sendAddr (d : Dir)
  /-- `Prim(WRITE_DR, addr_byte(E.sa, 0))`. -/
  | sendProbe
  /-- `Prim(WRITE_DR, E.cmd.reg)`. -/
  | sendReg
  /-- `Prim(WRITE_DR, E.cmd.reg)`; `E.idx <- 0`. -/
  | sendRegClearIdx
  /-- `Prim(WRITE_DR, E.cmd.data)`. -/
  | sendData
  /-- `Prim(WRITE_DR, BufRead(E.idx))`; `E.idx <- E.idx + 1`. -/
  | sendBuf
  /-- `Prim(READ_STATUS2)`. -/
  | clearAddr
  /-- `Prim(READ_STATUS2)`; `E.rem <- len`; `E.idx <- 0`. -/
  | clearAddrInitCount
  /-- `Prim(SET_ACK, 0)`. -/
  | ackOff
  /-- `Prim(SET_ACK, (len > 1) ? 1 : 0)`. -/
  | ackIfMany
  /-- `RDATA <- Prim(READ_DR)`. -/
  | captureRdata
  /-- `BufWrite(E.idx, Prim(READ_DR))`; `E.idx <- E.idx + 1`; `E.rem <- E.rem - 1`. -/
  | captureBuf
  /-- `E.sa <- 0`. -/
  | scanInit
  /-- `E.snap <- Prim(READ_STATUS)`; if its `ADDR` is 1, `SCAN_OUT <- SCAN_OUT ++ [E.sa]`. -/
  | inspect
  /-- `E.sa <- E.sa + 1`. -/
  | nextProbe
  /-- No action: a test only. -/
  | test
  /-- One poll of a wait (R91). -/
  | wait (c : WaitCond)
  /-- The scan's settle (R99). -/
  | settle
  deriving DecidableEq, Repr

/-- The successor of a step: fixed, or one of the three choice points (R87), tested after the action. -/
inductive Succ where
  | goto (l : Label)
  /-- The first label if `E.rem > 1`, else the second. -/
  | ifRem (more last : Label)
  /-- The first label if `E.idx < len`, else the second. -/
  | ifIdx (more last : Label)
  /-- The first label if `E.sa < 128`, else the second. -/
  | ifSa (more last : Label)
  deriving DecidableEq, Repr

/-- One row of a step table. -/
structure Row where
  act  : Act
  succ : Succ
  deriving DecidableEq, Repr

/-- A step table: the row of each label the operation has. -/
abbrev StepTable := Label → Option Row

/-- The label a step moves to. -/
def succLabel (k : Succ) (c : Command) (s : State) : Except Fault Label :=
  match k with
  | .goto l => .ok l
  | .ifRem more last => (readWritten s.e.rem).map fun r => if r > 1 then more else last
  | .ifIdx more last => (readWritten s.e.idx).map fun i => if i < c.len then more else last
  | .ifSa more last => (readWritten s.e.sa).map fun a => if a < 128 then more else last

/-- Moves the sequencer to a step's successor. -/
def advance (k : Succ) (c : Command) (s : State) : Host.Outcome State Fault Refusal :=
  match succLabel k c s with
  | .ok l => .next (s.setPc l)
  | .error f => .fault f

/-- `DATA_BYTE` of the multi-byte write (R121). -/
def actSendBuf (c : Command) (s : State) : Except Fault State := do
  let i ← readWritten s.e.idx
  let b ← bufRead c.buf i s
  let s ← primWriteDr b s
  .ok { s with e := { s.e with idx := some (i + 1) } }

/-- `CAPTURE` of the single-byte reads (R110, R111). -/
def actCaptureRdata (s : State) : Except Fault State := do
  let (v, s) ← primReadDr s
  .ok { s with rdata := some v }

/-- `CAPTURE_N` and `CAPTURE` of the multi-byte read (R114, R115). -/
def actCaptureBuf (c : Command) (s : State) : Except Fault State := do
  let i ← readWritten s.e.idx
  let r ← readWritten s.e.rem
  let (v, s) ← primReadDr s
  let s ← bufWrite c.buf i v s
  .ok { s with e := { s.e with idx := some (i + 1), rem := some (r - 1) } }

/-- `INSPECT` of the scan: `E.snap` takes the flag record of the status just read, and its one bit `ADDR` is tested (R98,
R100). The record's `BUSY`, which the read does not return, is a free value (log 20). -/
def actInspect (s : State) : Except Fault State := do
  let a ← readWritten s.e.sa
  let (f, s) := primReadStatus s
  .ok { s with
        e := { s.e with snap := some (f.withBusy (Config.freeSnapBusy s.snaps)) }
        snaps := s.snaps + 1
        scanOut := if f.addr then s.scanOut ++ [probeAddr a] else s.scanOut }

/-- The action of a step that is neither a poll nor the settle. Those two change nothing here: the sequencer runs
them. -/
def doAct (a : Act) (c : Command) (s : State) : Except Fault State :=
  match a with
  | .issueStart => .ok (primIssueStart s)
  | .issueStop => .ok (primIssueStop s)
  | .sendAddr d => primWriteDr (addrByte c.addr d) s
  | .sendProbe => do
      let n ← readWritten s.e.sa
      primWriteDr (addrByte (probeAddr n) .write) s
  | .sendReg => primWriteDr c.reg s
  | .sendRegClearIdx => do
      let s ← primWriteDr c.reg s
      .ok { s with e := { s.e with idx := some 0 } }
  | .sendData => primWriteDr c.data s
  | .sendBuf => actSendBuf c s
  | .clearAddr => .ok (primReadStatus2 s).2
  | .clearAddrInitCount =>
      let s := (primReadStatus2 s).2
      .ok { s with e := { s.e with rem := some c.len, idx := some 0 } }
  | .ackOff => .ok (primSetAck false s)
  | .ackIfMany => .ok (primSetAck (decide (c.len > 1)) s)
  | .captureRdata => actCaptureRdata s
  | .captureBuf => actCaptureBuf c s
  | .scanInit => .ok { s with e := { s.e with sa := some 0 } }
  | .inspect => actInspect s
  | .nextProbe => do
      let n ← readWritten s.e.sa
      .ok { s with e := { s.e with sa := some (n + 1) } }
  | .test => .ok s
  | .wait _ => .ok s
  | .settle => .ok s

end Sys2Proof.Machine
end

