-- ==== Sys2Proof/Machine/MultiRead.lean ====
section
/-! DEFINITION. `read_memory_multi`: acceptance and step table (spec/46_multi_read.md R114 to R118). -/

namespace Sys2Proof.Machine

open Sys2Proof

/-- `read_memory_multi` (R114); `LEN` and `BUF` are the side operands. -/
def execReadMemoryMulti (addr : Addr7) (reg : Byte) (s : State) : Host.Outcome State Fault Refusal :=
  accept .readMemoryMulti addr reg 0 .start s

/-- The step table of R114. -/
def readMemoryMultiTable : StepTable
  | .start        => some ⟨.issueStart, .goto .startWait⟩
  | .startWait    => some ⟨.wait .sb, .goto .addrWrite⟩
  | .addrWrite    => some ⟨.sendAddr .write, .goto .addrAcked⟩
  | .addrAcked    => some ⟨.wait .addr, .goto .clearAddr⟩
  | .clearAddr    => some ⟨.clearAddr, .goto .txeWait⟩
  | .txeWait      => some ⟨.wait .txe, .goto .registerByte⟩
  | .registerByte => some ⟨.sendReg, .goto .regTxeWait⟩
  | .regTxeWait   => some ⟨.wait .txe, .goto .restart⟩
  | .restart      => some ⟨.issueStart, .goto .restartWait⟩
  | .restartWait  => some ⟨.wait .sb, .goto .addrRead⟩
  | .addrRead     => some ⟨.sendAddr .read, .goto .addrAckedR⟩
  | .addrAckedR   => some ⟨.wait .addr, .goto .initAck⟩
  | .initAck      => some ⟨.ackIfMany, .goto .clearAddrR⟩
  | .clearAddrR   => some ⟨.clearAddrInitCount, .goto .loop⟩
  | .loop         => some ⟨.test, .ifRem .rxneWaitN .disableAck⟩
  | .rxneWaitN    => some ⟨.wait .rxne, .goto .captureN⟩
  | .captureN     => some ⟨.captureBuf, .goto .loop⟩
  | .disableAck   => some ⟨.ackOff, .goto .stop⟩
  | .stop         => some ⟨.issueStop, .goto .rxneWait⟩
  | .rxneWait     => some ⟨.wait .rxne, .goto .capture⟩
  | .capture      => some ⟨.captureBuf, .goto .done⟩
  | _             => none

end Sys2Proof.Machine
end

