-- ==== Sys2Proof/Machine/MultiWrite.lean ====
section
/-! DEFINITION. `write_memory_multi`: acceptance and step table (spec/47_multi_write.md R121, R122). -/

namespace Sys2Proof.Machine

open Sys2Proof

/-- `write_memory_multi` (R121); `LEN` and `BUF` are the side operands. -/
def execWriteMemoryMulti (addr : Addr7) (reg : Byte) (s : State) : Host.Outcome State Fault Refusal :=
  accept .writeMemoryMulti addr reg 0 .start s

/-- The step table of R121. -/
def writeMemoryMultiTable : StepTable
  | .start            => some ⟨.issueStart, .goto .startWait⟩
  | .startWait        => some ⟨.wait .sb, .goto .addrWrite⟩
  | .addrWrite        => some ⟨.sendAddr .write, .goto .addrAcked⟩
  | .addrAcked        => some ⟨.wait .addr, .goto .clearAddr⟩
  | .clearAddr        => some ⟨.clearAddr, .goto .txeWait⟩
  | .txeWait          => some ⟨.wait .txe, .goto .registerByte⟩
  | .registerByte     => some ⟨.sendRegClearIdx, .goto .regTxeWait⟩
  | .regTxeWait       => some ⟨.wait .txe, .goto .dataByte⟩
  | .dataByte         => some ⟨.sendBuf, .goto .transferComplete⟩
  | .transferComplete => some ⟨.wait .btf, .ifIdx .dataByte .stop⟩
  | .stop             => some ⟨.issueStop, .goto .done⟩
  | _                 => none

end Sys2Proof.Machine
end

