-- ==== Sys2Proof/Machine/Scan.lean ====
section
/-! DEFINITION. `scan`: its acceptance and its step table (spec/43_scan.md R98 to R104). -/

namespace Sys2Proof.Machine

open Sys2Proof

/-- `scan` (R98): accepted with `SCAN_OUT` emptied. -/
def execScan (s : State) : Host.Outcome State Fault Refusal := accept .scan 0 0 0 .scanInit s

/-- The step table of R98. -/
def scanTable : StepTable
  | .scanInit       => some ⟨.scanInit, .goto .probeStart⟩
  | .probeStart     => some ⟨.issueStart, .goto .probeStartWait⟩
  | .probeStartWait => some ⟨.wait .sb, .goto .probeAddr⟩
  | .probeAddr      => some ⟨.sendProbe, .goto .settle⟩
  | .settle         => some ⟨.settle, .goto .probeStop⟩
  | .probeStop      => some ⟨.issueStop, .goto .inspect⟩
  | .inspect        => some ⟨.inspect, .goto .probeClear⟩
  | .probeClear     => some ⟨.clearAddr, .goto .next⟩
  | .next           => some ⟨.nextProbe, .ifSa .probeStart .done⟩
  | _               => none

end Sys2Proof.Machine
end

