-- ==== Sys2Proof/Machine/SingleRead.lean ====
section
/-! DEFINITION. `read_byte` and `read_memory_byte`: acceptance and step tables (spec/45_single_read.md R110 to R112). -/

namespace Sys2Proof.Machine

open Sys2Proof

/-- `read_byte` (R110). -/
def execReadByte (addr : Addr7) (s : State) : Host.Outcome State Fault Refusal :=
  accept .readByte addr 0 0 .start s

/-- `read_memory_byte` (R111). -/
def execReadMemoryByte (addr : Addr7) (reg : Byte) (s : State) : Host.Outcome State Fault Refusal :=
  accept .readMemoryByte addr reg 0 .start s

/-- The step table of R110. -/
def readByteTable : StepTable
  | .start      => some ⟨.issueStart, .goto .startWait⟩
  | .startWait  => some ⟨.wait .sb, .goto .addrRead⟩
  | .addrRead   => some ⟨.sendAddr .read, .goto .addrAcked⟩
  | .addrAcked  => some ⟨.wait .addr, .goto .disableAck⟩
  | .disableAck => some ⟨.ackOff, .goto .clearAddr⟩
  | .clearAddr  => some ⟨.clearAddr, .goto .stop⟩
  | .stop       => some ⟨.issueStop, .goto .rxneWait⟩
  | .rxneWait   => some ⟨.wait .rxne, .goto .capture⟩
  | .capture    => some ⟨.captureRdata, .goto .done⟩
  | _           => none

/-- The step table of R111. -/
def readMemoryByteTable : StepTable
  | .start        => some ⟨.issueStart, .goto .startWait⟩
  | .startWait    => some ⟨.wait .sb, .goto .addrWrite⟩
  | .addrWrite    => some ⟨.sendAddr .write, .goto .addrAcked⟩
  | .addrAcked    => some ⟨.wait .addr, .goto .clearAddr⟩
  | .clearAddr    => some ⟨.clearAddr, .goto .txeWait⟩
  | .txeWait      => some ⟨.wait .txe, .goto .registerByte⟩
  | .registerByte => some ⟨.sendReg, .goto .regTxeWait⟩
  | .regTxeWait   => some ⟨.wait .txe, .goto .restart⟩
  | .restart      => some ⟨.issueStart, .goto .restartWait⟩
  | .restartWait  => some ⟨.wait .sb, .goto .addrRead⟩
  | .addrRead     => some ⟨.sendAddr .read, .goto .addrAckedR⟩
  | .addrAckedR   => some ⟨.wait .addr, .goto .disableAck⟩
  | .disableAck   => some ⟨.ackOff, .goto .clearAddrR⟩
  | .clearAddrR   => some ⟨.clearAddr, .goto .stop⟩
  | .stop         => some ⟨.issueStop, .goto .rxneWait⟩
  | .rxneWait     => some ⟨.wait .rxne, .goto .capture⟩
  | .capture      => some ⟨.captureRdata, .goto .done⟩
  | _             => none

end Sys2Proof.Machine
end

