-- ==== Sys2Proof/Machine/SingleWrite.lean ====
section
/-! DEFINITION. `write_byte` and `write_memory_byte`: acceptance and step tables (spec/44_single_write.md R106 to
R109). -/

namespace Sys2Proof.Machine

open Sys2Proof

/-- `write_byte` (R106). -/
def execWriteByte (addr : Addr7) (data : Byte) (s : State) : Host.Outcome State Fault Refusal :=
  accept .writeByte addr 0 data .busFreeWait s

/-- `write_memory_byte` (R107). -/
def execWriteMemoryByte (addr : Addr7) (reg data : Byte) (s : State) : Host.Outcome State Fault Refusal :=
  accept .writeMemoryByte addr reg data .busFreeWait s

/-- The step table of R106. -/
def writeByteTable : StepTable
  | .busFreeWait      => some ⟨.wait .notBusy, .goto .start⟩
  | .start            => some ⟨.issueStart, .goto .startWait⟩
  | .startWait        => some ⟨.wait .sb, .goto .addrWrite⟩
  | .addrWrite        => some ⟨.sendAddr .write, .goto .addrAcked⟩
  | .addrAcked        => some ⟨.wait .addr, .goto .clearAddr⟩
  | .clearAddr        => some ⟨.clearAddr, .goto .txeWait⟩
  | .txeWait          => some ⟨.wait .txe, .goto .dataByte⟩
  | .dataByte         => some ⟨.sendData, .goto .transferComplete⟩
  | .transferComplete => some ⟨.wait .btf, .goto .stop⟩
  | .stop             => some ⟨.issueStop, .goto .done⟩
  | _                 => none

/-- The step table of R107. -/
def writeMemoryByteTable : StepTable
  | .busFreeWait      => some ⟨.wait .notBusy, .goto .start⟩
  | .start            => some ⟨.issueStart, .goto .startWait⟩
  | .startWait        => some ⟨.wait .sb, .goto .addrWrite⟩
  | .addrWrite        => some ⟨.sendAddr .write, .goto .addrAcked⟩
  | .addrAcked        => some ⟨.wait .addr, .goto .clearAddr⟩
  | .clearAddr        => some ⟨.clearAddr, .goto .txeWait⟩
  | .txeWait          => some ⟨.wait .txe, .goto .registerByte⟩
  | .registerByte     => some ⟨.sendReg, .goto .regTxeWait⟩
  | .regTxeWait       => some ⟨.wait .txe, .goto .dataByte⟩
  | .dataByte         => some ⟨.sendData, .goto .transferComplete⟩
  | .transferComplete => some ⟨.wait .btf, .goto .stop⟩
  | .stop             => some ⟨.issueStop, .goto .done⟩
  | _                 => none

end Sys2Proof.Machine
end

