-- ==== Sys2Proof/Machine/Sequencer.lean ====
section
/-! DEFINITION. The sequencer and the poller: one engine step (spec/42_phase_sequencer.md R84, R91; spec/43_scan.md
R99). -/

namespace Sys2Proof.Machine

open Sys2Proof

/-- The step table of an operation. -/
def stepTable : Op → StepTable
  | .scan => scanTable
  | .writeByte => writeByteTable
  | .writeMemoryByte => writeMemoryByteTable
  | .readByte => readByteTable
  | .readMemoryByte => readMemoryByteTable
  | .readMemoryMulti => readMemoryMultiTable
  | .writeMemoryMulti => writeMemoryMultiTable

/-- The read of one poll and whether the condition holds in the value it returns: `STATUS2` for the bus-free wait,
`STATUS` for the others (R90, R91). -/
def pollOnce (c : WaitCond) (s : State) : Bool × State :=
  match c with
  | .notBusy => (!(primReadStatus2 s).1, (primReadStatus2 s).2)
  | .sb => ((primReadStatus s).1.sb, (primReadStatus s).2)
  | .addr => ((primReadStatus s).1.addr, (primReadStatus s).2)
  | .txe => ((primReadStatus s).1.txe, (primReadStatus s).2)
  | .btf => ((primReadStatus s).1.btf, (primReadStatus s).2)
  | .rxne => ((primReadStatus s).1.rxne, (primReadStatus s).2)

/-- An unsatisfied poll: under SPIN the engine stays, under BOUNDED it counts the poll and aborts at the bound (R91,
R92, R128). -/
def pollMissed (c : WaitCond) (s : State) : State :=
  match s.params.policy with
  | .spin => s
  | .bounded =>
      if s.e.polls + 1 = s.params.timeoutPolls then takeAbort c.expiry s
      else s.setPolls (s.e.polls + 1)

/-- One poll of a wait (R91). The condition is tested first, so it wins at the last poll (R130). -/
def poll (c : WaitCond) (k : Succ) (cmd : Command) (s : State) : Host.Outcome State Fault Refusal :=
  if (pollOnce c s).1 then advance k cmd ((pollOnce c s).2.setPolls 0)
  else .next (pollMissed c (pollOnce c s).2)

/-- The scan's settle: taken once the address phase has resolved; until then the engine holds, with no primitive and
no expiry (R99, log 16). -/
def settleStep (k : Succ) (cmd : Command) (s : State) : Host.Outcome State Fault Refusal :=
  if s.p.addrResolved then advance k cmd s else .next s

/-- One row of a step table. -/
def runRow (row : Row) (cmd : Command) (s : State) : Host.Outcome State Fault Refusal :=
  match row.act with
  | .wait c => poll c row.succ cmd s
  | .settle => settleStep row.succ cmd s
  | a =>
    match doAct a cmd s with
    | .ok s => advance row.succ cmd s
    | .error f => .fault f

/-- The step of a label of the command's own table; without a command there is no table (log 9). -/
def tableStep (l : Label) (s : State) : Host.Outcome State Fault Refusal :=
  match s.e.cmd with
  | none => .fault .labelOutsideTable
  | some cmd =>
    match stepTable cmd.op l with
    | none => .fault .labelOutsideTable
    | some row => runRow row cmd s

/-- One engine step (R84). In IDLE the engine takes no step. -/
def engineStep (s : State) : Host.Outcome State Fault Refusal :=
  match s.e.pc with
  | .idle => .next s
  | .abort => .next (abortStep s)
  | .done => .next (doneStep s)
  | l => tableStep l s

end Sys2Proof.Machine
end

