-- ==== Sys2Proof/Machine/Dispatch.lean ====
section
/-! DEFINITION. The dispatch: one arm per constructor of Instr, each a direct call of its meaning. -/

namespace Sys2Proof.Machine

open Sys2Proof

/-- The meaning of an instruction: a command is accepted, a primitive acts on the Bus Interface. -/
def exec (i : Instr) (s : State) : Host.Outcome State Fault Refusal :=
  match i with
  | .scan => Sys2Proof.Machine.execScan s
  | .writeByte addr data => Sys2Proof.Machine.execWriteByte addr data s
  | .writeMemoryByte addr reg data => Sys2Proof.Machine.execWriteMemoryByte addr reg data s
  | .readByte addr => Sys2Proof.Machine.execReadByte addr s
  | .readMemoryByte addr reg => Sys2Proof.Machine.execReadMemoryByte addr reg s
  | .readMemoryMulti addr reg => Sys2Proof.Machine.execReadMemoryMulti addr reg s
  | .writeMemoryMulti addr reg => Sys2Proof.Machine.execWriteMemoryMulti addr reg s
  | .issueStart => Sys2Proof.Machine.execIssueStart s
  | .issueStop => Sys2Proof.Machine.execIssueStop s
  | .writeDr b => Sys2Proof.Machine.execWriteDr b s
  | .readDr => Sys2Proof.Machine.execReadDr s
  | .readStatus => Sys2Proof.Machine.execReadStatus s
  | .readStatus2 => Sys2Proof.Machine.execReadStatus2 s
  | .setAck e => Sys2Proof.Machine.execSetAck e s

end Sys2Proof.Machine
end

