-- ==== Sys2Proof/Machine/Slaves.lean ====
section
/-! DEFINITION. The slaves: the reference mock, and the oracle whose answers are given and then free
(spec/41_bus_reference_model.md R81, R82). -/

namespace Sys2Proof.Machine

open Sys2Proof

/-- The present slave at an address. -/
def findSlave (a : Addr7) : List MockSlave → Option MockSlave
  | [] => none
  | m :: rest => if m.addr = a then some m else findSlave a rest

/-- Replaces the slave at the new slave's address. -/
def putSlave (n : MockSlave) : List MockSlave → List MockSlave
  | [] => []
  | m :: rest => if m.addr = n.addr then n :: rest else m :: putSlave n rest

/-- `SLAVES` in canonical form: mock slaves in strictly rising order of address, each register file canonical and
within 256 registers. -/
def mockWf (lo : Nat) : List MockSlave → Bool
  | [] => true
  | m :: rest =>
      decide (lo ≤ m.addr.toNat) && m.mem.wf && m.mem.all (fun c => decide (c.1 < 256)) &&
        mockWf (m.addr.toNat + 1) rest

/-- The canonical form of the slaves. -/
def Slaves.wf : Slaves → Bool
  | .mock present => mockWf 0 present
  | .oracle _ _ => true

/-- The oracle's next acknowledge: the next given answer, then free values (log 5). -/
def drawAck (s : State) : Bool × State :=
  match s.slaves with
  | .oracle (k :: rest) bytes => (k, { s with slaves := .oracle rest bytes })
  | .oracle [] _ => (Config.freeAck s.draws, { s with draws := s.draws + 1 })
  | .mock _ => (Config.freeAck s.draws, { s with draws := s.draws + 1 })

/-- The oracle's next byte. -/
def drawByte (s : State) : Byte × State :=
  match s.slaves with
  | .oracle acks (v :: rest) => (v, { s with slaves := .oracle acks rest })
  | .oracle _ [] => (Config.freeByte s.draws, { s with draws := s.draws + 1 })
  | .mock _ => (Config.freeByte s.draws, { s with draws := s.draws + 1 })

/-- A present mock slave addressed for writing expects its register pointer next (R82). -/
def MockSlave.addressed (m : MockSlave) (d : Dir) : MockSlave :=
  match d with
  | .write => { m with expectPtr := true }
  | .read => m

/-- A data byte delivered to a mock slave: the pointer first, then register contents from the pointer on, modulo 256
(R82). -/
def MockSlave.take (m : MockSlave) (b : Byte) : MockSlave :=
  if m.expectPtr then { m with ptr := b, expectPtr := false }
  else { m with mem := m.mem.write m.ptr.toNat b, ptr := m.ptr + 1 }

/-- The byte a mock slave sends next (R82). -/
def MockSlave.current (m : MockSlave) : Byte := m.mem.read m.ptr.toNat

/-- A mock slave after sending a byte (R82). -/
def MockSlave.sent (m : MockSlave) : MockSlave := { m with ptr := m.ptr + 1 }

/-- `SLAVES.addr_ack(a, d)`. -/
def slaveAddrAck (a : Addr7) (d : Dir) (s : State) : Bool × State :=
  match s.slaves with
  | .mock present =>
    match findSlave a present with
    | some m => (true, { s with slaves := .mock (putSlave (m.addressed d) present) })
    | none => (false, s)
  | .oracle _ _ => drawAck s

/-- `SLAVES.write(a, b)`. The mock gives no answer for an absent slave, which is never asked: a free value (log 5). -/
def slaveWrite (a : Addr7) (b : Byte) (s : State) : Bool × State :=
  match s.slaves with
  | .mock present =>
    match findSlave a present with
    | some m => (true, { s with slaves := .mock (putSlave (m.take b) present) })
    | none => drawAck s
  | .oracle _ _ => drawAck s

/-- `SLAVES.read(a)`; see `slaveWrite` for an absent slave. -/
def slaveRead (a : Addr7) (s : State) : Byte × State :=
  match s.slaves with
  | .mock present =>
    match findSlave a present with
    | some m => (m.current, { s with slaves := .mock (putSlave m.sent present) })
    | none => drawByte s
  | .oracle _ _ => drawByte s

/-- The answer to a data byte sent to the latched target (R78). With no target no slave is asked: any answer (log 9). -/
def targetWrite (b : Byte) (s : State) : Bool × State :=
  match s.p.target with
  | some (a, _) => slaveWrite a b s
  | none => drawAck s

/-- The byte received from the latched target (R79). With no target no slave is asked: any byte (log 9). -/
def targetRead (s : State) : Byte × State :=
  match s.p.target with
  | some (a, _) => slaveRead a s
  | none => drawByte s

end Sys2Proof.Machine
end

