-- ==== Sys2Proof/Machine/Environment.lean ====
section
/-! DEFINITION. The environment's steps: when each is enabled and what it does
(spec/41_bus_reference_model.md R73 to R80). -/

namespace Sys2Proof.Machine

open Sys2Proof

/-- No byte is in flight (R73). -/
def Periph.quiet (p : Periph) : Bool :=
  match p.mode with
  | .pIdle | .pStart | .pTxWaitClr | .pRxWaitClr | .pRxDone | .pNacked => true
  | .pTx => p.shift.isNone && p.drTx.isNone
  | .pAddr _ | .pRx => false

/-- Whether an address byte is in flight. -/
def PMode.isAddr : PMode → Bool
  | .pAddr _ => true
  | .pIdle | .pStart | .pTxWaitClr | .pTx | .pRxWaitClr | .pRx | .pRxDone | .pNacked => false

/-- When an environment step is enabled (R74 to R80). -/
def envEnabled (k : EnvStep) (p : Periph) : Bool :=
  match k with
  | .stop => p.reqStop && p.quiet
  | .start => p.reqStart && !p.reqStop && p.quiet && (p.owner || !p.extBusy)
  | .address => p.mode.isAddr
  | .txShift => decide (p.mode = .pTx) && p.drTx.isSome && p.shift.isNone
  | .txDone => decide (p.mode = .pTx) && p.shift.isSome
  | .receive => decide (p.mode = .pRx) && !p.rxne
  | .extBusy _ => !p.owner

/-- Stop generation (R74). -/
def envStop (s : State) : State :=
  if s.p.owner then
    (s.setP { s.p with
      owner := false, busy := s.p.extBusy, reqStop := false, mode := .pIdle, sb := false, txe := false,
      btf := false, drTx := none, shift := none, target := none }).emit .P
  else s.setP { s.p with reqStop := false }

/-- Start generation (R75). -/
def envStart (s : State) : State :=
  (s.setP { s.p with
    owner := true, busy := true, sb := true, reqStart := false, mode := .pStart, txe := false, btf := false,
    addr := false, rxne := false, drTx := none, shift := none, target := none }).emit
      (if s.p.owner then .Sr else .S)

/-- What the acknowledge slot of an address byte does to the Bus Interface (R76). -/
def Periph.addressed (p : Periph) (a : Addr7) (d : Dir) (k : Bool) : Periph :=
  if k then
    { p with
      addrResolved := true, addr := true, target := some (a, d),
      mode := match d with | .write => .pTxWaitClr | .read => .pRxWaitClr }
  else { p with addrResolved := true, mode := .pNacked }

/-- Address phase of the byte in flight (R76). -/
def envAddress (b : Byte) (s : State) : State :=
  let a := addrOfByte b
  let d := dirOfByte b
  let (k, s) := slaveAddrAck a d s
  (s.setP (s.p.addressed a d k)).emit (.A b k)

/-- Transmit shift (R77). -/
def envTxShift (b : Byte) (s : State) : State :=
  s.setP { s.p with shift := some b, drTx := none, txe := true }

/-- What the acknowledge of a data byte does to the Bus Interface (R78). -/
def Periph.sent (p : Periph) (k : Bool) : Periph :=
  if k then { p with shift := none, btf := p.btf || p.drTx.isNone }
  else { p with shift := none, mode := .pNacked, txe := false, btf := false, drTx := none }

/-- Transmit done, of byte `b` to the latched target (R78). -/
def envTxDone (b : Byte) (s : State) : State :=
  let (k, s) := targetWrite b s
  (s.setP (s.p.sent k)).emit (.W b k)

/-- What a received byte does to the Bus Interface (R79). -/
def Periph.received (p : Periph) (v : Byte) : Periph :=
  { p with
    drRx := some v, rxne := true,
    mode := if p.ackEn = false ∨ p.reqStop = true then .pRxDone else p.mode }

/-- Receive, from the latched target; the acknowledge is the bit in force now (R79, R94). -/
def envReceive (s : State) : State :=
  let (v, s) := targetRead s
  (s.setP (s.p.received v)).emit (.R v s.p.ackEn)

/-- External bus use (R80). -/
def envExtBusy (b : Bool) (s : State) : State := s.setP { s.p with extBusy := b, busy := b }

/-- One environment step. It is taken only when enabled. -/
def envStep (k : EnvStep) (s : State) : Host.Outcome State Fault Refusal :=
  match k with
  | .stop => .next (envStop s)
  | .start => .next (envStart s)
  | .address =>
    match s.p.mode with
    | .pAddr b => .next (envAddress b s)
    | _ => .next s
  | .txShift =>
    match s.p.drTx with
    | some b => .next (envTxShift b s)
    | none => .next s
  | .txDone =>
    match s.p.shift with
    | some b => .next (envTxDone b s)
    | none => .next s
  | .receive => .next (envReceive s)
  | .extBusy b => .next (envExtBusy b s)

/-- The enabled environment step of highest priority under the reference scheduler (R71). -/
def firstEnabled (p : Periph) : Option EnvStep :=
  if envEnabled .stop p then some .stop
  else if envEnabled .start p then some .start
  else if envEnabled .address p then some .address
  else if envEnabled .txShift p then some .txShift
  else if envEnabled .txDone p then some .txDone
  else if envEnabled .receive p then some .receive
  else none

end Sys2Proof.Machine
end

