-- ==== Sys2Proof/Machine/Scheduler.lean ====
section
/-! DEFINITION. Who moves next, and the Caller's moves: the scheduling rule (spec/41_bus_reference_model.md R70, R71),
the issue of a word (spec/30_encoding.md R55, R56, R59; spec/60_exceptions.md R133), the initialization call and
hardware reset (spec/70_reset_and_hazards.md R144, R145). -/

namespace Sys2Proof.Machine

open Sys2Proof

/-- The labels of the wait steps. -/
def Label.isWait : Label → Bool
  | .busFreeWait | .startWait | .addrAcked | .txeWait | .regTxeWait | .transferComplete | .restartWait
  | .addrAckedR | .rxneWait | .rxneWaitN | .probeStartWait => true
  | .idle | .done | .abort | .start | .addrWrite | .clearAddr | .registerByte | .dataByte | .stop | .restart
  | .addrRead | .disableAck | .clearAddrR | .capture | .initAck | .loop | .captureN | .scanInit | .probeStart
  | .probeAddr | .settle | .probeStop | .inspect | .probeClear | .next => false

/-- An environment step may be taken: the engine is IDLE, or its next step is a wait or `SETTLE` (R70). -/
def Label.yields (l : Label) : Bool := decide (l = .idle) || l.isWait || decide (l = .settle)

/-- A command word that no row of the table matches: refused like any command, else rejected (R55, R56). -/
def rejectWord (s : State) : Host.Outcome State Fault Refusal :=
  gated s fun s => .next (rejectCommand s)

/-- A word that has been fetched: its instruction runs; a word that is none is rejected (a command, R56) or is a
model fault of the Bus Interface (a primitive, R59). -/
def runWord (w : InstrWord) (s : State) : Host.Outcome State Fault Refusal :=
  match decode w with
  | .instr i => exec i s
  | .reject .reservedOpc | .reject .nonzeroReserved => rejectWord s
  | .reject .reservedPk | .reject .nonzeroPrimBits => .fault .reservedPrimitive

/-- The Caller's turn, the engine being IDLE: the oldest move still to make; with none, nothing happens (R84, log 10). -/
def callerStep (s : State) : Host.Outcome State Fault Refusal :=
  match s.calls with
  | [] => .next s
  | .init :: rest => initCall { s with calls := rest }
  | .command cw len buf :: rest => runWord (.cmd cw) { s with calls := rest, side := ⟨len, buf⟩ }

/-- The engine's turn; in IDLE it is the Caller's (R84). -/
def turn (s : State) : Host.Outcome State Fault Refusal :=
  if s.e.pc = .idle then callerStep s else engineStep s

/-- The reference scheduler: the environment runs until nothing is enabled, then the engine moves (R71). -/
def referenceStep (s : State) : Host.Outcome State Fault Refusal :=
  if s.e.pc.yields then
    match firstEnabled s.p with
    | some k => envStep k s
    | none => turn s
  else turn s

/-- A choice of the general schedule. A choice that R70 does not allow is replaced by the reference scheduler's
(log 3). -/
def chosenStep (c : Choice) (s : State) : Host.Outcome State Fault Refusal :=
  match c with
  | .go => turn s
  | .env k => if s.e.pc.yields && envEnabled k s.p then envStep k s else referenceStep s

/-- The environment step that waits to be taken in a free schedule, as long as it stays enabled, and how many more
scheduling points may pass it over. A step that was disabled in between waits anew (R70: "a step that stays
enabled"). -/
def State.due (s : State) : Option (EnvStep × Nat) :=
  (firstEnabled s.p).map fun k =>
    match s.waiting with
    | some (j, n) => if j = k then (k, n) else (k, Config.freeDelay s.picks)
    | none => (k, Config.freeDelay s.picks)

/-- What still waits where no step may be taken: the waiting step, unless it is enabled no more. -/
def State.stillWaiting (s : State) : Option (EnvStep × Nat) :=
  match s.waiting with
  | some (k, n) => if firstEnabled s.p = some k then some (k, n) else none
  | none => none

/-- A scheduling point of a free schedule at which no environment step is forced. While a command runs the engine gets
the turn after finitely many of them (R70); an IDLE engine's Caller may wait for ever. -/
def unforcedStep (s : State) : Host.Outcome State Fault Refusal :=
  if s.e.pc = .idle then chosenStep (Config.freeChoice s.picks) { s with picks := s.picks + 1 }
  else
    match s.patience with
    | 0 => turn { s with picks := s.picks + 1, patience := Config.freePatience s.picks }
    | n + 1 => chosenStep (Config.freeChoice s.picks) { s with picks := s.picks + 1, patience := n }

/-- A step of a schedule about which nothing is known but that R70 allows it (log 4): at a scheduling point a free
choice, but that an environment step that stayed enabled for as long as its delay is taken. So no environment step stays
enabled for ever: the schedule is weakly fair. -/
def freeStep (s : State) : Host.Outcome State Fault Refusal :=
  if s.e.pc.yields then
    match s.due with
    | some (k, 0) => envStep k { s with picks := s.picks + 1, waiting := none }
    | some (k, n + 1) => unforcedStep { s with waiting := some (k, n) }
    | none => unforcedStep { s with waiting := none }
  else turn { s with waiting := s.stillWaiting }

/-- A hardware reset in any state: every engine and Bus Interface field, the outputs and both traces as after a
launch; slaves and reserved bits as given; parameters, caller memory, the Caller's moves and the schedule stay (R144, log 13). -/
def hardwareReset (l : Launch) (s : State) : State :=
  { State.launch s.params l s.mem s.calls s.script with
    slaves := l.slaves, freeTail := s.freeTail, picks := s.picks, waiting := s.waiting, patience := s.patience,
    draws := s.draws, snaps := s.snaps }

/-- One step of the machine: the schedule's next entry, or after its end the reference scheduler or a free
one (logs 3, 4). -/
def machineStep (s : State) : Host.Outcome State Fault Refusal :=
  match s.script with
  | .choose c :: rest => chosenStep c { s with script := rest }
  | .reset l :: rest => .next (hardwareReset l { s with script := rest })
  | .prim w :: rest => runWord (.prim w) { s with script := rest }
  | [] =>
    if s.freeTail then freeStep s else referenceStep s

/-- A command word placed where the very next step fetches it: the engine IDLE and initialized, the Caller's next move
the word with the side operands at hand, the schedule giving the Caller the turn. -/
def State.placeCommand (s : State) (cw : CmdWord) : State :=
  { s with
    e := { s.e with pc := .idle, cmd := none }
    p := { s.p with initialized := true }
    calls := .command cw s.side.len s.side.buf :: s.calls
    script := .choose .go :: s.script }

/-- A primitive word placed where the very next step fetches it. -/
def State.placePrim (s : State) (w : PrimWord) : State := { s with script := .prim w :: s.script }

/-- A word of the given number of bits placed where the very next step fetches it: a primitive word for 16 bits, a
command word otherwise. -/
def State.placeWord (s : State) (nbits w : Nat) : State :=
  if nbits = 16 then s.placePrim (BitVec.ofNat 16 w) else s.placeCommand (BitVec.ofNat 32 w)

end Sys2Proof.Machine
end

