-- ==== Sys2Proof/Machine/Step.lean ====
section
/-! DEFINITION. The step of the machine and where a test places its next instruction. -/

namespace Sys2Proof.Machine

open Sys2Proof

/-- One step (spec/10_state.md R16, spec/41_bus_reference_model.md R70). -/
def step (s : State) : Host.Outcome State Fault Refusal := machineStep s

/-- `s` with the instruction stored where `step` fetches its next one (log 11). -/
def State.withFetchWord (s : State) (nbits w : Nat) : State := s.placeWord nbits w

end Sys2Proof.Machine
end

