-- ==== Sys2Proof/Machine/Assembler.lean ====
section
/-! DEFINITION. The assembler of command text (spec/30_encoding.md R62): tokens, lines, and a program as the Caller's
moves with its buffers laid out in the caller's memory. It refuses a bad operand, naming the line. What
R62's syntax leaves open is settled here as log 21 says. -/

namespace Sys2Proof.Machine

open Sys2Proof

/-- Why a line is refused. -/
inductive AsmReason where
  /-- A character or number no form of R62 has; the refusal is the model's choice (DESIGN CHOICE, log 21). -/
  | badToken
  /-- No line of R62 has this shape; the refusal is the model's choice (DESIGN CHOICE, log 21). -/
  | badSyntax
  /-- An operand outside its range. -/
  | operandRange
  /-- A command names a buffer no earlier line declares; the refusal is the model's choice (DESIGN CHOICE, log 21). -/
  | unknownBuffer
  /-- A buffer is declared twice; the refusal is the model's choice (DESIGN CHOICE, log 21). -/
  | duplicateBuffer
  deriving DecidableEq, Repr

/-- A refusal of the assembler, naming the line (R62). That lines count from 1 is the model's choice
(DESIGN CHOICE, log 21). -/
structure AsmError where
  line   : Nat
  reason : AsmReason
  deriving DecidableEq, Repr

/-- The tokens of a line. -/
inductive Token where
  | word (w : List Char)
  | num (n : Nat)
  | comma
  | equals
  | leftBracket
  | rightBracket
  deriving DecidableEq, Repr

/-- The value of a digit up to hexadecimal. That the letters may be of either case is the model's choice
(DESIGN CHOICE, log 21). -/
def digitValue (c : Char) : Option Nat :=
  if '0' ≤ c ∧ c ≤ '9' then some (c.toNat - '0'.toNat)
  else if 'a' ≤ c ∧ c ≤ 'f' then some (c.toNat - 'a'.toNat + 10)
  else if 'A' ≤ c ∧ c ≤ 'F' then some (c.toNat - 'A'.toNat + 10)
  else none

/-- Digits in a base, most significant first, after those already read. -/
def digitsFrom (base : Nat) : Nat → List Char → Option Nat
  | acc, [] => some acc
  | acc, c :: cs =>
    match digitValue c with
    | some d => if d < base then digitsFrom base (acc * base + d) cs else none
    | none => none

/-- A number: decimal, or hexadecimal with `0x` (R12, R62). -/
def numberOf : List Char → Option Nat
  | '0' :: 'x' :: c :: cs => digitsFrom 16 0 (c :: cs)
  | cs => digitsFrom 10 0 cs

/-- A letter, a digit or an underscore: the characters of a word. R62 does not say which characters a `BUFNAME` may
have; that they are these is the model's choice (DESIGN CHOICE, log 21). -/
def isWordChar (c : Char) : Bool := c.isAlphanum || c = '_'

/-- The token of a run of word characters: a number if it starts with a digit, else a word. R62 does not say how a
`BUFNAME` starts; that it starts with no digit is the model's choice (DESIGN CHOICE, log 21). -/
def tokenOfRun : List Char → Option (List Token)
  | [] => some []
  | c :: cs => if c.isDigit then (numberOf (c :: cs)).map fun n => [.num n] else some [.word (c :: cs)]

/-- The token of any other character. That a space, a tab and a carriage return are white space and separate tokens is
the model's choice (DESIGN CHOICE, log 21). -/
def tokenOfMark (c : Char) : Option (List Token) :=
  if c = ' ' ∨ c = '\t' ∨ c = '\r' then some []
  else if c = ',' then some [.comma]
  else if c = '=' then some [.equals]
  else if c = '[' then some [.leftBracket]
  else if c = ']' then some [.rightBracket]
  else none

/-- The tokens of a line, given the run of word characters read so far, last first. A semicolon starts a
comment, as R62's syntax block writes it (DEDUCED, log 21). -/
def tokensFrom : List Char → List Char → Option (List Token)
  | run, [] => tokenOfRun run.reverse
  | run, c :: cs =>
    if isWordChar c then tokensFrom (c :: run) cs
    else if c = ';' then tokenOfRun run.reverse
    else
      match tokenOfRun run.reverse, tokenOfMark c, tokensFrom [] cs with
      | some a, some m, some rest => some (a ++ m ++ rest)
      | _, _, _ => none

/-- One or more numbers separated by commas up to the closing bracket that ends the line. -/
def numbersToBracket : List Token → Option (List Nat)
  | [.num n, .rightBracket] => some [n]
  | .num n :: .comma :: rest => (numbersToBracket rest).map (n :: ·)
  | _ => none

/-- The bytes of a buffer declaration after its opening bracket. R62 shows `[b0, b1, ...]` only; that `[]` with no byte
is a legal declaration, of a buffer of 0 bytes, is the model's choice (DESIGN CHOICE, log 21). -/
def bracketed : List Token → Option (List Nat)
  | [.rightBracket] => some []
  | ts => numbersToBracket ts

/-- A line from its operation word and the rest (R62). -/
def lineOf (w : List Char) (rest : List Token) : Option AsmLine :=
  if w = "scan".toList then
    match rest with
    | [] => some .scan
    | _ => none
  else if w = "write_byte".toList then
    match rest with
    | [.num a, .comma, .num d] => some (.writeByte a d)
    | _ => none
  else if w = "write_memory_byte".toList then
    match rest with
    | [.num a, .comma, .num r, .comma, .num d] => some (.writeMemoryByte a r d)
    | _ => none
  else if w = "read_byte".toList then
    match rest with
    | [.num a] => some (.readByte a)
    | _ => none
  else if w = "read_memory_byte".toList then
    match rest with
    | [.num a, .comma, .num r] => some (.readMemoryByte a r)
    | _ => none
  else if w = "read_memory_multi".toList then
    match rest with
    | [.num a, .comma, .num r, .comma, .num n, .comma, .word b] => some (.readMemoryMulti a r n b)
    | _ => none
  else if w = "write_memory_multi".toList then
    match rest with
    | [.num a, .comma, .num r, .comma, .num n, .comma, .word b] => some (.writeMemoryMulti a r n b)
    | _ => none
  else if w = "buf".toList then
    match rest with
    | .word b :: .equals :: .leftBracket :: bs => (bracketed bs).map (.bufBytes b)
    | [.word b, .leftBracket, .num n, .rightBracket] => some (.bufSize b n)
    | _ => none
  else none

/-- A program being assembled: the Caller's moves, the caller's memory, the declared buffers and the next free
address. That buffers lie one after another from address 0 is the model's choice (DESIGN CHOICE, log 21). -/
structure Program where
  calls : List Call
  mem   : Memory
  bufs  : List (BufName × BufRef)
  free  : Nat
  deriving DecidableEq, Repr

/-- No line assembled yet. -/
def Program.empty : Program := ⟨[], [], [], 0⟩

/-- The declared buffer of a name. -/
def findBuf (name : BufName) : List (BufName × BufRef) → Option BufRef
  | [] => none
  | (k, r) :: rest => if k = name then some r else findBuf name rest

/-- The command word of an instruction; a primitive has none. -/
def commandWord (i : Instr) : Option CmdWord :=
  match encode i with
  | .cmd w => some w
  | .prim _ => none

/-- A program with one more command. -/
def Program.addCommand (p : Program) (i : Instr) (len : Nat) (buf : BufRef) : Program :=
  match commandWord i with
  | some w => { p with calls := p.calls ++ [.command w (BitVec.ofNat 32 len) buf] }
  | none => p

/-- A program with one more buffer, its first bytes given. -/
def Program.addBuf (p : Program) (name : BufName) (size : Nat) (bytes : List Nat) : Program :=
  { p with
    mem := p.mem.writeBytes p.free (bytes.map (BitVec.ofNat 8))
    bufs := p.bufs ++ [(name, ⟨p.free, size⟩)]
    free := p.free + size }

/-- The empty reference, which a command without side operands brings with the length 0. No rule reads either for it
(R21); that they are these is the model's choice (DESIGN CHOICE, log 21). -/
def BufRef.empty : BufRef := ⟨0, 0⟩

/-- One well-formed line added to a program. That a buffer is declared before its use, once, and may have any size, 0
included, and any word as its name is the model's choice (DESIGN CHOICE, log 21). -/
def Program.addLine (p : Program) : AsmLine → Except AsmReason Program
  | .scan => .ok (p.addCommand .scan 0 .empty)
  | .writeByte a d => .ok (p.addCommand (.writeByte (.ofNat 7 a) (.ofNat 8 d)) 0 .empty)
  | .writeMemoryByte a r d =>
      .ok (p.addCommand (.writeMemoryByte (.ofNat 7 a) (.ofNat 8 r) (.ofNat 8 d)) 0 .empty)
  | .readByte a => .ok (p.addCommand (.readByte (.ofNat 7 a)) 0 .empty)
  | .readMemoryByte a r => .ok (p.addCommand (.readMemoryByte (.ofNat 7 a) (.ofNat 8 r)) 0 .empty)
  | .readMemoryMulti a r n b =>
    match findBuf b p.bufs with
    | some ref => .ok (p.addCommand (.readMemoryMulti (.ofNat 7 a) (.ofNat 8 r)) n ref)
    | none => .error .unknownBuffer
  | .writeMemoryMulti a r n b =>
    match findBuf b p.bufs with
    | some ref => .ok (p.addCommand (.writeMemoryMulti (.ofNat 7 a) (.ofNat 8 r)) n ref)
    | none => .error .unknownBuffer
  | .bufBytes b bs =>
    match findBuf b p.bufs with
    | some _ => .error .duplicateBuffer
    | none => .ok (p.addBuf b bs.length bs)
  | .bufSize b n =>
    match findBuf b p.bufs with
    | some _ => .error .duplicateBuffer
    | none => .ok (p.addBuf b n [])

/-- One line of text added to a program. That an empty line adds nothing is the model's choice (DESIGN CHOICE,
log 21). -/
def Program.addText (p : Program) (text : List Char) : Except AsmReason Program :=
  match tokensFrom [] text with
  | none => .error .badToken
  | some [] => .ok p
  | some (.word w :: rest) =>
    match lineOf w rest with
    | some l => if l.wellFormed then p.addLine l else .error .operandRange
    | none => .error .badSyntax
  | some (_ :: _) => .error .badSyntax

/-- What the assembler answers. -/
inductive AsmResult where
  | program (p : Program)
  | refused (e : AsmError)
  deriving DecidableEq, Repr

/-- Lines assembled in order, the first numbered `n`. -/
def assembleLines (p : Program) (n : Nat) : List (List Char) → AsmResult
  | [] => .program p
  | l :: rest =>
    match p.addText l with
    | .ok p => assembleLines p (n + 1) rest
    | .error r => .refused ⟨n, r⟩

/-- The lines of a text, given the line read so far, last character first. -/
def linesFrom : List Char → List Char → List (List Char)
  | cur, [] => [cur.reverse]
  | cur, c :: cs => if c = '\n' then cur.reverse :: linesFrom [] cs else linesFrom (c :: cur) cs

/-- The assembler (R62). -/
def assemble (text : List Char) : AsmResult := assembleLines .empty 1 (linesFrom [] text)

/-- A primitive as R62 writes it: its `PRIM` name, with an operand where it takes one. -/
def primOf (w : List Char) (rest : List Token) : Option Instr :=
  match rest with
  | [] =>
    if w = "ISSUE_START".toList then some .issueStart
    else if w = "ISSUE_STOP".toList then some .issueStop
    else if w = "READ_DR".toList then some .readDr
    else if w = "READ_STATUS".toList then some .readStatus
    else if w = "READ_STATUS2".toList then some .readStatus2
    else none
  | [.num n] =>
    if w = "WRITE_DR".toList then if byteInRange n then some (.writeDr (.ofNat 8 n)) else none
    else if w = "SET_ACK".toList then if n < 2 then some (.setAck (decide (n = 1))) else none
    else none
  | _ => none

/-- A primitive from its text. -/
def assemblePrim (text : List Char) : Option Instr :=
  match tokensFrom [] text with
  | some (.word w :: rest) => primOf w rest
  | _ => none

/-- A launch of an assembled program (R146): the initialization call, then its commands. -/
def Program.launch (p : Program) (q : Params) (l : Launch) : State :=
  State.launch q l p.mem (.init :: p.calls) []

end Sys2Proof.Machine
end

