-- ==== Sys2Proof/Safety.lean ====
section
/-! DEFINITION. What counts as a safe run: the invariant that keeps the engine from every model fault
(spec/60_exceptions.md R132, spec/95_test_vectors.md part 4 claim 1), and the terms in which statements speak of a
state. All of it is stated of a state; nothing here runs the machine. -/

namespace Sys2Proof.Machine

open Sys2Proof

/-- `b` implies `c`. -/
def implies (b c : Bool) : Bool := !b || c

/-! ## The Bus Interface -/

/-- Both transmit registers are empty. -/
def Periph.txEmpty (p : Periph) : Bool := p.drTx.isNone && p.shift.isNone

/-- The slave latched for the mode: a transfer phase has a target of its direction, before an address byte there is
none (R72, R76). -/
def Periph.targetOk (p : Periph) : Bool :=
  match p.mode with
  | .pTxWaitClr | .pTx =>
    match p.target with
    | some (_, .write) => true
    | _ => false
  | .pRxWaitClr | .pRx | .pRxDone =>
    match p.target with
    | some (_, .read) => true
    | _ => false
  | .pIdle | .pStart | .pAddr _ => p.target.isNone
  | .pNacked => true

/-- The relations between the Bus Interface's fields: `SB` is `PSTART`; `TXE` and `BTF` rise only while transmitting
with room; `RXNE` only with a byte; outside `PTX` nothing waits to be sent; a wait for the clearing read has `ADDR`;
the master owns the bus exactly while a transaction runs; `BUSY` follows (R24, R72 to R80). -/
def Periph.inv (p : Periph) : Bool :=
  (p.sb == decide (p.mode = .pStart)) &&
  implies p.txe (decide (p.mode = .pTx) && p.drTx.isNone) &&
  implies p.btf (decide (p.mode = .pTx) && p.txEmpty) &&
  implies p.rxne p.drRx.isSome &&
  implies (decide (p.mode ≠ .pTx)) p.txEmpty &&
  implies (decide (p.mode = .pTxWaitClr) || decide (p.mode = .pRxWaitClr)) p.addr &&
  p.targetOk &&
  (p.owner == decide (p.mode ≠ .pIdle)) &&
  (p.busy == (p.owner || p.extBusy))

/-- The bus is free of this master, or a stop is requested (R152). -/
def Periph.released (p : Periph) : Bool := !p.owner || p.reqStop

/-! ## The engine -/

/-- Labels at which a requested start may still be pending. -/
def Label.startPending : Label → Bool
  | .startWait | .restartWait | .probeStartWait | .abort => true
  | _ => false

/-- Labels at which a generated start may still await its address byte: `SB` of an earlier command is never left. -/
def Label.startSent : Label → Bool
  | .startWait | .restartWait | .probeStartWait | .addrWrite | .addrRead | .probeAddr => true
  | _ => false

/-- Labels at which the bus is released: before a transaction's start and after its stop is requested. -/
def Label.afterStop : Label → Bool
  | .idle | .done | .busFreeWait | .start | .scanInit | .probeStart | .inspect | .probeClear | .next
  | .rxneWait | .capture => true
  | _ => false

/-- What the peripheral must be at a label whose step would otherwise fault (R65, R66) or hold for ever (R99). -/
def labelPeriphInv (l : Label) (p : Periph) : Bool :=
  match l with
  | .addrWrite | .addrRead | .probeAddr => decide (p.mode = .pStart)
  | .registerByte | .dataByte => decide (p.mode = .pTx) && p.drTx.isNone
  | .capture | .captureN => p.drRx.isSome
  | .settle => p.addrResolved || p.mode.isAddr
  | _ => true

/-- The scan's candidate (R88, R103): written after `SCAN_INIT`, and below 128 whenever it is probed. -/
def scanInv (l : Label) (e : Engine) : Bool :=
  match l with
  | .scanInit => true
  | _ =>
    match e.sa with
    | some n => decide (n < 128)
    | none => false

/-- `E.idx + E.rem = len`, with `rem` as the label has it (R88, R115). -/
def countInv (l : Label) (len : Nat) (e : Engine) : Bool :=
  match e.rem, e.idx with
  | some r, some i =>
    decide (i + r = len) &&
      (match l with
        | .loop => decide (1 ≤ r)
        | .rxneWaitN | .captureN => decide (1 < r)
        | _ => decide (r = 1))
  | _, _ => false

/-- The counters of the multi-byte read from `LOOP` on (R114, R115). -/
def multiReadInv (l : Label) (len : Nat) (e : Engine) : Bool :=
  match l with
  | .loop | .rxneWaitN | .captureN | .disableAck | .stop | .rxneWait | .capture => countInv l len e
  | _ => true

/-- The index of the multi-byte write from its register byte on (R121). -/
def multiWriteInv (l : Label) (len : Nat) (e : Engine) : Bool :=
  match l, e.idx with
  | .regTxeWait, some i => decide (i = 0)
  | .dataByte, some i => decide (i < len)
  | .transferComplete, some i => decide (1 ≤ i) && decide (i ≤ len)
  | .regTxeWait, none | .dataByte, none | .transferComplete, none => false
  | _, _ => true

/-- The engine registers an operation has written by a label. -/
def counterInv (c : Command) (l : Label) (e : Engine) : Bool :=
  match c.op with
  | .scan => scanInv l e
  | .readMemoryMulti => multiReadInv l c.len e
  | .writeMemoryMulti => multiWriteInv l c.len e
  | .writeByte | .writeMemoryByte | .readByte | .readMemoryByte => true

/-- The side operands of an accepted command (R55). -/
def Command.accepted (q : Params) (c : Command) : Bool :=
  implies c.op.takesBuffer (decide (1 ≤ c.len) && decide (c.len ≤ q.lenMax) && decide (c.len ≤ c.buf.size))

/-- The engine between labels: it runs an accepted command exactly when it is not IDLE; outside `ABORT` and `DONE` its
label is one of the command's table, no result is set yet and the registers the table reads are written; `ABORT` has
its result. -/
def commandInv (s : State) : Bool :=
  match s.e.cmd with
  | none => decide (s.e.pc = .idle)
  | some c =>
    decide (s.e.pc ≠ .idle) && c.accepted s.params && s.p.initialized &&
      (match s.e.pc with
        | .idle => false
        | .done => true
        | .abort => s.result.isSome
        | l => (stepTable c.op l).isSome && s.result.isNone && counterInv c l s.e)

/-- The poll counter: 0 away from a wait, and below the bound (R88, R138). -/
def pollsInv (s : State) : Bool :=
  implies (!s.e.pc.isWait) (decide (s.e.polls = 0)) &&
    (match s.params.policy with
      | .spin => decide (s.e.polls = 0)
      | .bounded => decide (s.e.polls < s.params.timeoutPolls))

/-- The link between the sequencer and the Bus Interface. -/
def linkInv (s : State) : Bool :=
  labelPeriphInv s.e.pc s.p &&
  implies s.p.reqStart s.e.pc.startPending &&
  implies s.p.sb (s.e.pc.startSent && !s.p.reqStart) &&
  implies s.e.pc.afterStop s.p.released

/-- No primitive word is presented from outside the engine: the engine is the only agent that issues primitives
(R46). -/
def ownPrimitives (s : State) : Bool :=
  s.script.all fun k =>
    match k with
    | .prim _ => false
    | .choose _ | .reset _ => true

/-- The invariant of the machine. -/
def State.inv (s : State) : Bool :=
  s.params.wellFormed && s.p.inv && commandInv s && pollsInv s && linkInv s && ownPrimitives s

/-- Every slave state that a scripted reset brings is in canonical form. -/
def launchesCanonical (s : State) : Bool :=
  s.script.all fun k =>
    match k with
    | .reset l => l.slaves.wf
    | .choose _ | .prim _ => true

/-- Every byte memory is in canonical form: the caller's memory, each mock slave's register file, and those that a
scripted reset brings. -/
def State.canonical (s : State) : Bool := s.mem.wf && s.slaves.wf && launchesCanonical s

/-! ## Terms of the statements -/

/-- A step ends in a fault. -/
def Faults (o : Host.Outcome State Fault Refusal) : Prop := ∃ f, o = .fault f

/-- The machine answers a next state with a property. -/
def Answers (o : Host.Outcome State Fault Refusal) (q : State → Prop) : Prop := ∃ t, o = .next t ∧ q t

/-- The reference scheduler runs: no scripted choice is left and the tail is not free (R71). -/
def State.reference (s : State) : Prop := s.script = [] ∧ s.freeTail = false

/-- The engine is IDLE and initialized, nothing is pending or in flight and the bus is free: a state from which the
vectors of spec/95_test_vectors.md issue their commands. -/
def State.ready (s : State) : Prop :=
  s.e.pc = .idle ∧ s.e.cmd = none ∧ s.e.polls = 0 ∧ s.p.initialized = true ∧ s.p.mode = .pIdle ∧
    s.p.owner = false ∧ s.p.extBusy = false ∧ s.p.busy = false ∧ s.p.reqStart = false ∧ s.p.reqStop = false ∧
    s.p.sb = false ∧ s.p.txe = false ∧ s.p.btf = false ∧ s.p.drTx = none ∧ s.p.shift = none ∧ s.p.target = none

/-- The mock slave at an address, if the slaves are the mock and it is present. -/
def State.slaveAt (s : State) (a : Addr7) : Option MockSlave :=
  match s.slaves with
  | .mock present => findSlave a present
  | .oracle _ _ => none

/-- `k` machine steps, stopping at the first fault or refusal. -/
def runSteps : Nat → State → Host.Outcome State Fault Refusal
  | 0, s => .next s
  | k + 1, s =>
    match step s with
    | .next t => runSteps k t
    | .fault f => .fault f
    | .refused r => .refused r

/-- The schedule holds choices of R70 only: no hardware reset and no primitive word from outside. -/
def State.onlyChoices (s : State) : Prop := ∀ k ∈ s.script, ∃ c, k = .choose c

/-- The next step is no hardware reset. -/
def State.noReset (s : State) : Prop := ∀ l rest, s.script ≠ .reset l :: rest

/-- The Caller's one remaining move is the command of an instruction, with side operands. -/
def State.issues (s : State) (i : Instr) (len : BitVec 32) (buf : BufRef) (rest : List Call) : Prop :=
  ∃ cw, encode i = .cmd cw ∧ s.calls = .command cw len buf :: rest

/-- The side operands pass the length checks of R55 and R114. -/
def lengthsOk (q : Params) (len : BitVec 32) (buf : BufRef) : Prop :=
  1 ≤ len.toNat ∧ len.toNat ≤ q.lenMax ∧ len.toNat ≤ buf.size

/-- The bytes a mock slave holds from a register on, modulo 256 (R82). -/
def MockSlave.bytesFrom (m : MockSlave) (r : Byte) : Nat → List Byte
  | 0 => []
  | n + 1 => m.mem.read r.toNat :: MockSlave.bytesFrom m (r + 1) n

/-- The receive events of a read: every byte acknowledged but the last (R97). -/
def receiveEvents : List Byte → List BusEvent
  | [] => []
  | [v] => [.R v false]
  | v :: w :: rest => .R v true :: receiveEvents (w :: rest)

/-- The bus events of one probe (R98). -/
def probeEvents (n : Nat) (k : Bool) : List BusEvent := [.S, .A (addrByte (probeAddr n) .write) k, .P]

/-- The bus events of the probes from a candidate on, one for each acknowledge (R105). -/
def scanEvents : Nat → List Bool → List BusEvent
  | _, [] => []
  | n, k :: ks => probeEvents n k ++ scanEvents (n + 1) ks

/-- The candidates that were acknowledged, in ascending order (R102, R105). -/
def acknowledged : Nat → List Bool → List Addr7
  | _, [] => []
  | n, k :: ks => if k then probeAddr n :: acknowledged (n + 1) ks else acknowledged (n + 1) ks

/-- The address and the first direction of a command that addresses one slave (R106 to R121). -/
def addressedBy : Instr → Option (Addr7 × Dir)
  | .writeByte a _ | .writeMemoryByte a _ _ | .readMemoryByte a _ | .readMemoryMulti a _
  | .writeMemoryMulti a _ => some (a, .write)
  | .readByte a => some (a, .read)
  | .scan | .issueStart | .issueStop | .writeDr _ | .readDr | .readStatus | .readStatus2 | .setAck _ => none

/-- Whether a command takes side operands (R52). -/
def takesSideOperands : Instr → Bool
  | .readMemoryMulti _ _ | .writeMemoryMulti _ _ => true
  | .scan | .writeByte _ _ | .writeMemoryByte _ _ _ | .readByte _ | .readMemoryByte _ _ | .issueStart | .issueStop
  | .writeDr _ | .readDr | .readStatus | .readStatus2 | .setAck _ => false

/-- Whether an instruction is a command (R50). -/
def isCommand (i : Instr) : Bool := (commandWordOf i).isSome
where
  /-- The command word of an instruction. -/
  commandWordOf (i : Instr) : Option CmdWord :=
    match encode i with
    | .cmd w => some w
    | .prim _ => none

/-- The primitive an action issues, where the action is that primitive and no more (R85, R98). -/
def primitiveOf (a : Act) (c : Command) (e : Engine) : Option Instr :=
  match a with
  | .issueStart => some .issueStart
  | .issueStop => some .issueStop
  | .sendAddr d => some (.writeDr (addrByte c.addr d))
  | .sendProbe => e.sa.map fun n => .writeDr (addrByte (probeAddr n) .write)
  | .sendReg => some (.writeDr c.reg)
  | .sendData => some (.writeDr c.data)
  | .clearAddr => some .readStatus2
  | .ackOff => some (.setAck false)
  | .ackIfMany => some (.setAck (decide (c.len > 1)))
  | .sendRegClearIdx | .sendBuf | .clearAddrInitCount | .captureRdata | .captureBuf | .scanInit | .inspect
  | .nextProbe | .test | .wait _ | .settle => none

/-- The read by which a wait polls (R90). -/
def pollInstr : WaitCond → Instr
  | .notBusy => .readStatus2
  | .sb | .addr | .txe | .btf | .rxne => .readStatus

/-- What a poll that changes nothing else records when it is the `n`-th entry of `T` (R58, R60, R90). -/
def State.pollRecord (s : State) (w : WaitCond) (n : Nat) : PrimRecord :=
  match w with
  | .notBusy => ⟨0x6000, some (withReserved (status2Word s.p.busy) 0x0002 (s.reserved.bitsAt n))⟩
  | .sb | .addr | .txe | .btf | .rxne =>
      ⟨0x5000, some (withReserved s.p.status.word 0x00C7 (s.reserved.bitsAt n))⟩

/-- The same machine under SPIN, its poll counter idle: what the two wait policies share (90_conflicts.md C6). -/
def State.asSpin (s : State) : State :=
  { s with params := { s.params with policy := .spin }, e := { s.e with polls := 0 } }

/-- The first step label of an operation (R98, R106, R107, R110, R111, R114, R121). -/
def Op.firstLabel : Op → Label
  | .scan => .scanInit
  | .writeByte | .writeMemoryByte => .busFreeWait
  | .readByte | .readMemoryByte | .readMemoryMulti | .writeMemoryMulti => .start

/-- The acknowledges of the 128 probes when exactly the given mock slaves are present (R82, R105). -/
def presentAcks (present : List MockSlave) : List Bool :=
  (List.range 128).map fun n => (findSlave (probeAddr n) present).isSome

/-- `t` is where a command issued in `s` has come to its end under the reference scheduler: ready for the next move,
with a result, and nothing pending. -/
def State.finished (s t : State) (rest : List Call) (r : Result) : Prop :=
  t.ready ∧ t.reference ∧ t.calls = rest ∧ t.result = some r ∧ t.params = s.params

/-- The Caller's last command has returned with `OK`. -/
def State.returnedOk (t : State) : Prop := t.e.pc = .idle ∧ t.calls = [] ∧ t.result = some .ok

/-- The Caller's last command has returned with `OK` and the moves `rest` are still to come. -/
def State.okBefore (t : State) (rest : List Call) : Prop := t.e.pc = .idle ∧ t.calls = rest ∧ t.result = some .ok

/-- The stop of the last transaction, when it has not reached the bus yet (R86). -/
def State.pendingStop (t : State) : List BusEvent := if t.p.owner then [.P] else []

/-- `old` is what an earlier transaction, still closing in `s`, can add to the bus: no start, and nothing if the bus is
not held (R128, R150). -/
def State.closes (s : State) (old : List BusEvent) : Prop := .S ∉ old ∧ .Sr ∉ old ∧ (s.p.owner = false → old = [])

/-- Whether an address lies outside the first bytes of a buffer. -/
def outside (buf : BufRef) (n x : Nat) : Prop := x < buf.base ∨ buf.base + n ≤ x

end Sys2Proof.Machine
end

