-- ==== Sys2Proof/Certificates/Slice0/Obligations.lean ====
section
/-! DEFINITION. The statements for the provers, in the order of OBLIGATIONS.json. Each docstring names the rule of
spec/ it formalises. -/

section

open Sys2Proof Sys2Proof.Machine

/-! ## Encoding -/

/-- R51, R52, R58: no bit of an encoding is dropped; every operand at every value comes back. -/
def Obligations.DecodeOfEncode : Prop := ∀ i : Instr, decode (encode i) = .instr i

/-- R53, R58: a word that decodes to an instruction is that instruction's one encoding and selects its row; a word that
selects a row decodes to an instruction of that row; and a word selects at most one row. -/
def Obligations.RowsAndDecoderAgree : Prop :=
  (∀ w i, decode w = .instr i → encode i = w ∧ selectsRow w i = true) ∧
  (∀ w i, selectsRow w i = true → ∃ j, decode w = .instr j ∧ rowMatch j = rowMatch i ∧ rowMask j = rowMask i) ∧
  (∀ w i j, selectsRow w i = true → selectsRow w j = true → rowMatch i = rowMatch j ∧ rowMask i = rowMask j)

/-- The command words of spec/95_test_vectors.md and primitive words of R58 decode to what they stand for. -/
def Obligations.SampleWordsDecode : Prop :=
  decodeTableWord 32 0x00000000 = some .scan ∧
  decodeTableWord 32 0xAE003C01 = some (.writeByte 0x3C 0xAE) ∧
  decodeTableWord 32 0x10076802 = some (.writeMemoryByte 0x68 0x07 0x10) ∧
  decodeTableWord 32 0x00006803 = some (.readByte 0x68) ∧
  decodeTableWord 32 0x00016804 = some (.readMemoryByte 0x68 0x01) ∧
  decodeTableWord 32 0x00105005 = some (.readMemoryMulti 0x50 0x10) ∧
  decodeTableWord 32 0x00105006 = some (.writeMemoryMulti 0x50 0x10) ∧
  decodeTableWord 16 0x1000 = some .issueStart ∧
  decodeTableWord 16 0x2000 = some .issueStop ∧
  decodeTableWord 16 0x30D0 = some (.writeDr 0xD0) ∧
  decodeTableWord 16 0x4000 = some .readDr ∧
  decodeTableWord 16 0x5000 = some .readStatus ∧
  decodeTableWord 16 0x6000 = some .readStatus2 ∧
  decodeTableWord 16 0x7000 = some (.setAck false) ∧
  decodeTableWord 16 0x7001 = some (.setAck true)

/-- R38: bits [7:1] of the address byte are the address and bit [0] the direction (write 0, read 1, R9); the byte is
exactly twice the address plus the direction, and the peripheral reads both back. -/
def Obligations.AddressByteLayout : Prop :=
  ∀ (a : Addr7) (d : Dir),
    (addrByte a d).extractLsb' 1 7 = a ∧
    ((addrByte a d).extractLsb' 0 1 = match d with | .write => 0#1 | .read => 1#1) ∧
    (addrByte a d).toNat = 2 * a.toNat + (match d with | .write => 0 | .read => 1) ∧
    addrOfByte (addrByte a d) = a ∧ dirOfByte (addrByte a d) = d

/-- R60: the bit positions of the registers: what a read of `STATUS` and `STATUS2` records, and the four registers under
the reference binding, `CONTROL` with `START`, `STOP` and `ACK` at bits 8, 9 and 10. That the other bits of `STATUS` and
`STATUS2` read as 0 in a launch with the reference value and as any value in another is the model's reading of R60 with
93 I6 (log 14). The value of `CONTROL`'s other bits is the model's choice (log 1) and not stated. -/
def Obligations.RegisterLayout : Prop :=
  (∀ (f : StatusFlags) (n : Nat), f.word.getLsbD n =
    if n = 0 then f.sb else if n = 1 then f.addr else if n = 2 then f.btf else if n = 6 then f.rxne
    else if n = 7 then f.txe else false) ∧
  (∀ (b : Bool) (n : Nat), (status2Word b).getLsbD n = if n = 1 then b else false) ∧
  (∀ (s : State) (n : Nat), s.statusValue.getLsbD n =
    if n = 0 then s.p.sb else if n = 1 then s.p.addr else if n = 2 then s.p.btf else if n = 6 then s.p.rxne
    else if n = 7 then s.p.txe else s.reservedNow.getLsbD n) ∧
  (∀ (s : State) (n : Nat), s.status2Value.getLsbD n = if n = 1 then s.p.busy else s.reservedNow.getLsbD n) ∧
  (∀ s : State, (s.reserved = .zero → s.reservedNow = 0) ∧
    ∀ (given : List PrimWord) (seed : Nat) (v : PrimWord), s.reserved = .drawn given seed →
      given[s.primTrace.length]? = some v → s.reservedNow = v) ∧
  (∀ s : State, ∃ ctl : PrimWord,
    registerView .reference s.reservedNow s.p .status = some s.statusValue ∧
    registerView .reference s.reservedNow s.p .status2 = some s.status2Value ∧
    registerView .reference s.reservedNow s.p .control = some ctl ∧
    ctl.getLsbD 8 = s.p.reqStart ∧ ctl.getLsbD 9 = s.p.reqStop ∧ ctl.getLsbD 10 = s.p.ackEn ∧
    registerView .reference s.reservedNow s.p .data = s.p.drRx.map fun b => b.setWidth 16)

/-- R62, R51: the operand ranges of each line of assembly; the assembler turns each command line whose operands are in
range into that command's word, with its length and declared buffer where it has them, and refuses every other operand
value, naming the line. Four points are the model's choice and not R62's (DESIGN CHOICE, log 21): that a buffer
declaration may list no byte, that its size may be any number, 0 included, which texts give the tokens of a line, and
that a command without LEN and BUFNAME goes with length 0 and the empty reference. -/
def Obligations.AssemblerChecksOperands : Prop :=
  (AsmLine.wellFormed .scan = true ∧
    (∀ a d, AsmLine.wellFormed (.writeByte a d) = true ↔ a < 128 ∧ d < 256) ∧
    (∀ a r d, AsmLine.wellFormed (.writeMemoryByte a r d) = true ↔ a < 128 ∧ r < 256 ∧ d < 256) ∧
    (∀ a, AsmLine.wellFormed (.readByte a) = true ↔ a < 128) ∧
    (∀ a r, AsmLine.wellFormed (.readMemoryByte a r) = true ↔ a < 128 ∧ r < 256) ∧
    (∀ a r n b, AsmLine.wellFormed (.readMemoryMulti a r n b) = true ↔ a < 128 ∧ r < 256 ∧ 1 ≤ n ∧ n < 2 ^ 32) ∧
    (∀ a r n b, AsmLine.wellFormed (.writeMemoryMulti a r n b) = true ↔ a < 128 ∧ r < 256 ∧ 1 ≤ n ∧ n < 2 ^ 32) ∧
    (∀ b bs, AsmLine.wellFormed (.bufBytes b bs) = true ↔ ∀ v, v ∈ bs → v < 256) ∧
    (∀ b n, AsmLine.wellFormed (.bufSize b n) = true)) ∧
  (∀ (p : Program) (text : List Char) (w : List Char) (rest : List Token) (l : AsmLine) (n : Nat)
      (more : List (List Char)),
    tokensFrom [] text = some (.word w :: rest) → lineOf w rest = some l →
      (l.wellFormed = false → assembleLines p n (text :: more) = .refused ⟨n, .operandRange⟩) ∧
      (l.wellFormed = true → p.addText text = p.addLine l)) ∧
  (∀ p : Program, p.addLine .scan = .ok { p with calls := p.calls ++ [.command 0 0 .empty] }) ∧
  (∀ (p : Program) (a d : Nat), a < 128 → d < 256 →
    p.addLine (.writeByte a d) =
      .ok { p with calls := p.calls ++ [.command (BitVec.ofNat 32 (d * 2 ^ 24 + a * 2 ^ 8 + 1)) 0 .empty] }) ∧
  (∀ (p : Program) (a r d : Nat), a < 128 → r < 256 → d < 256 →
    p.addLine (.writeMemoryByte a r d) =
      .ok { p with
        calls := p.calls ++ [.command (BitVec.ofNat 32 (d * 2 ^ 24 + r * 2 ^ 16 + a * 2 ^ 8 + 2)) 0 .empty] }) ∧
  (∀ (p : Program) (a : Nat), a < 128 →
    p.addLine (.readByte a) =
      .ok { p with calls := p.calls ++ [.command (BitVec.ofNat 32 (a * 2 ^ 8 + 3)) 0 .empty] }) ∧
  (∀ (p : Program) (a r : Nat), a < 128 → r < 256 →
    p.addLine (.readMemoryByte a r) =
      .ok { p with calls := p.calls ++ [.command (BitVec.ofNat 32 (r * 2 ^ 16 + a * 2 ^ 8 + 4)) 0 .empty] }) ∧
  (∀ (p : Program) (a r n : Nat) (b : BufName) (ref : BufRef), a < 128 → r < 256 → n < 2 ^ 32 →
    findBuf b p.bufs = some ref →
    p.addLine (.readMemoryMulti a r n b) =
      .ok { p with calls := p.calls ++
        [.command (BitVec.ofNat 32 (r * 2 ^ 16 + a * 2 ^ 8 + 5)) (BitVec.ofNat 32 n) ref] } ∧
    p.addLine (.writeMemoryMulti a r n b) =
      .ok { p with calls := p.calls ++
        [.command (BitVec.ofNat 32 (r * 2 ^ 16 + a * 2 ^ 8 + 6)) (BitVec.ofNat 32 n) ref] })

/-! ## Reset and initialization -/

/-- R143: every field at launch, and `expect_ptr` of every mock slave false with its register file and pointer as given.
The fields that are the model's own are as it chooses them: the reserved bits as the launch gives them (log 14), no
side operands (log 18), the Caller's moves as given (log 11), the schedule as given with the reference scheduler after
it (logs 3, 4), no free value drawn (logs 5, 20). `State.reset` is such a launch. -/
def Obligations.LaunchState : Prop :=
  (∀ (q : Params) (l : Launch) (mem : Memory) (calls : List Call) (script : List Pick),
    let s := State.launch q l mem calls script
    s.e.pc = .idle ∧ s.e.cmd = none ∧ s.e.polls = 0 ∧ s.e.rem = none ∧ s.e.idx = none ∧ s.e.sa = none ∧
    s.e.snap = none ∧ readWritten s.e.rem = .error .unwrittenRead ∧ readWritten s.e.idx = .error .unwrittenRead ∧
    readWritten s.e.sa = .error .unwrittenRead ∧ readWritten s.e.snap = .error .unwrittenRead ∧
    s.result = none ∧ s.rdata = none ∧ s.readRdata = .error .unwrittenRead ∧ s.scanOut = [] ∧ s.busyE = false ∧
    s.p.sb = false ∧ s.p.addr = false ∧ s.p.txe = false ∧ s.p.btf = false ∧ s.p.rxne = false ∧
    s.p.busy = l.extBusy ∧ s.p.ackEn = false ∧ s.p.reqStart = false ∧ s.p.reqStop = false ∧ s.p.drTx = none ∧
    s.p.shift = none ∧ s.p.drRx = none ∧ s.p.mode = .pIdle ∧ s.p.addrResolved = false ∧ s.p.target = none ∧
    s.p.owner = false ∧ s.p.initialized = false ∧ s.p.extBusy = l.extBusy ∧ s.busTrace = [] ∧ s.primTrace = [] ∧
    (∀ a, s.slaveAt a =
      match l.slaves with
      | .mock present => (findSlave a present).map fun m => { m with expectPtr := false }
      | .oracle _ _ => none) ∧
    (∀ acks bytes, l.slaves = .oracle acks bytes → s.slaves = .oracle acks bytes) ∧
    s.mem = mem ∧ s.params = q ∧ s.reserved = l.reserved ∧ s.side.len = 0 ∧ s.side.buf = ⟨0, 0⟩ ∧ s.calls = calls ∧
    s.script = script ∧ s.freeTail = false ∧ s.picks = 0 ∧ s.waiting = none ∧ s.patience = 0 ∧ s.draws = 0 ∧ s.snaps = 0) ∧
  ∃ q l mem calls script, State.reset = State.launch q l mem calls script

/-- R144: a hardware reset acts in any state, the middle of a command among them: every engine and Bus Interface field,
the outputs and both traces are as after a launch, and the slaves are whatever the reset brings. That parameters,
caller memory, the Caller's moves and the schedule stay is the model's choice (log 13). -/
def Obligations.HardwareResetRelaunches : Prop :=
  ∀ (s : State) (l : Launch) (rest : List Pick), s.script = .reset l :: rest →
    ∃ t, step s = .next t ∧
      t.e = Engine.reset ∧ t.p = Periph.reset l.extBusy ∧ t.result = none ∧ t.rdata = none ∧ t.scanOut = [] ∧
      t.busTrace = [] ∧ t.primTrace = [] ∧ t.slaves = l.slaves ∧ t.reserved = l.reserved ∧ t.params = s.params ∧
      t.mem = s.mem ∧ t.calls = s.calls ∧ t.script = rest

/-- R145: the initialization call is enabled only before initialization and then sets `P.initialized` and changes
nothing else; a second one is refused; a command before it is refused. -/
def Obligations.InitializationCall : Prop :=
  (∀ (s : State) (rest : List Call), s.e.pc = .idle → s.calls = .init :: rest →
    (s.p.initialized = false →
      turn s = .next { s with calls := rest, p := { s.p with initialized := true } }) ∧
    (s.p.initialized = true → turn s = .refused .alreadyInitialized)) ∧
  (∀ (s : State) (cw : CmdWord) (len : BitVec 32) (buf : BufRef) (rest : List Call),
    s.e.pc = .idle → s.calls = .command cw len buf :: rest → s.p.initialized = false →
      turn s = .refused .notInitialized)

/-! ## Commands -/

/-- R55: acceptance of a command word, check by check, and what it latches. A word that is not accepted for want of
IDLE or initialization has no successor. That a rejection leaves `RDATA` none is the model's reading of R55's first line
against claim 10 of spec/95_test_vectors.md (log 15). -/
def Obligations.AcceptanceOfWord : Prop :=
  ∀ (s : State) (cw : CmdWord),
    ((s.e.pc ≠ .idle ∨ s.p.initialized = false) → ∀ t, runWord (.cmd cw) s ≠ .next t) ∧
    (s.e.pc = .idle → s.p.initialized = true →
      (7 ≤ (cw.extractLsb' 0 4).toNat →
        runWord (.cmd cw) s = .next { s with result := some .rejected, rdata := none }) ∧
      (∀ (op : Op) (i : Instr), op.code = cw.extractLsb' 0 4 → rowMatch i = op.code.toNat →
        (cw &&& BitVec.ofNat 32 (rowMask i) ≠ BitVec.ofNat 32 (rowMatch i) →
          runWord (.cmd cw) s = .next { s with result := some .rejected, rdata := none }) ∧
        (cw &&& BitVec.ofNat 32 (rowMask i) = BitVec.ofNat 32 (rowMatch i) →
          (op.takesBuffer = true → ¬ lengthsOk s.params s.side.len s.side.buf →
            runWord (.cmd cw) s = .next { s with result := some .rejected, rdata := none }) ∧
          ((op.takesBuffer = true → lengthsOk s.params s.side.len s.side.buf) →
            runWord (.cmd cw) s = .next { s with
              result := none, rdata := none, scanOut := if op = .scan then [] else s.scanOut,
              e := { s.e with
                cmd := some ⟨op, cw.extractLsb' 8 7, cw.extractLsb' 16 8, cw.extractLsb' 24 8, s.side.len.toNat,
                  s.side.buf⟩
                pc := op.firstLabel } }))))

/-- R52, R53, R56: a reserved operation code and a nonzero should-be-zero field are decoded as such, and acceptance
rejects both with `REJECTED` (R55), changing nothing but `RESULT` and `RDATA`. Every other word of 32 bits is an
instruction. That `RDATA` is none after a rejection is the model's reading of R55 (log 15). -/
def Obligations.ReservedCommandWords : Prop :=
  (∀ cw : CmdWord, decode (.cmd cw) = .reject .reservedOpc ↔ 7 ≤ (cw.extractLsb' 0 4).toNat) ∧
  (∀ cw : CmdWord, decode (.cmd cw) = .reject .nonzeroReserved ↔
    ∃ i, rowMatch i = (cw.extractLsb' 0 4).toNat ∧
      cw &&& BitVec.ofNat 32 (rowMask i) ≠ BitVec.ofNat 32 (rowMatch i)) ∧
  (∀ cw : CmdWord, (∃ i, decode (.cmd cw) = .instr i) ∨ decode (.cmd cw) = .reject .reservedOpc ∨
    decode (.cmd cw) = .reject .nonzeroReserved) ∧
  (∀ (s : State) (cw : CmdWord), s.e.pc = .idle → s.p.initialized = true → (∀ i, decode (.cmd cw) ≠ .instr i) →
    runWord (.cmd cw) s = .next { s with result := some .rejected, rdata := none })

/-- R55 with R98, R106, R107, R110, R111, R114, R121: in IDLE and initialized, with the side operands in range where the
command takes them, every command is accepted: its own record is latched and the engine stands at the first label of
its step table. -/
def Obligations.CommandsComplete : Prop :=
  ∀ (s : State) (a : Addr7) (r d : Byte), s.e.pc = .idle → s.p.initialized = true →
    exec .scan s = .next { s with
      result := none, rdata := none, scanOut := [],
      e := { s.e with cmd := some ⟨.scan, 0, 0, 0, s.side.len.toNat, s.side.buf⟩, pc := .scanInit } } ∧
    exec (.writeByte a d) s = .next { s with
      result := none, rdata := none,
      e := { s.e with cmd := some ⟨.writeByte, a, 0, d, s.side.len.toNat, s.side.buf⟩, pc := .busFreeWait } } ∧
    exec (.writeMemoryByte a r d) s = .next { s with
      result := none, rdata := none,
      e := { s.e with cmd := some ⟨.writeMemoryByte, a, r, d, s.side.len.toNat, s.side.buf⟩, pc := .busFreeWait } } ∧
    exec (.readByte a) s = .next { s with
      result := none, rdata := none,
      e := { s.e with cmd := some ⟨.readByte, a, 0, 0, s.side.len.toNat, s.side.buf⟩, pc := .start } } ∧
    exec (.readMemoryByte a r) s = .next { s with
      result := none, rdata := none,
      e := { s.e with cmd := some ⟨.readMemoryByte, a, r, 0, s.side.len.toNat, s.side.buf⟩, pc := .start } } ∧
    (1 ≤ s.side.len.toNat → s.side.len.toNat ≤ s.params.lenMax → s.side.len.toNat ≤ s.side.buf.size →
      exec (.readMemoryMulti a r) s = .next { s with
        result := none, rdata := none,
        e := { s.e with cmd := some ⟨.readMemoryMulti, a, r, 0, s.side.len.toNat, s.side.buf⟩, pc := .start } } ∧
      exec (.writeMemoryMulti a r) s = .next { s with
        result := none, rdata := none,
        e := { s.e with cmd := some ⟨.writeMemoryMulti, a, r, 0, s.side.len.toNat, s.side.buf⟩, pc := .start } })

/-- R118, R55: `read_memory_multi` with length 0 is rejected at acceptance: no primitive, nothing on the bus, the buffer
not touched. So are, by R55, the other length errors of both multi-byte commands: a length of 0, above `LEN_MAX`, or
above the buffer's. That `RDATA` is none after a rejection is the model's reading of R55 (log 15). -/
def Obligations.BadLengthsRejected : Prop :=
  ∀ (s : State) (a : Addr7) (r : Byte), s.e.pc = .idle → s.p.initialized = true →
    (s.side.len = 0 ∨ s.params.lenMax < s.side.len.toNat ∨ s.side.buf.size < s.side.len.toNat) →
    exec (.readMemoryMulti a r) s = .next { s with result := some .rejected, rdata := none } ∧
    exec (.writeMemoryMulti a r) s = .next { s with result := some .rejected, rdata := none }

/-- R133, R134: a command word of any kind, reserved ones among them, is refused while a command runs, and before
initialization; a refusal has no successor state. -/
def Obligations.CommandsRefused : Prop :=
  ∀ (s : State) (cw : CmdWord),
    (s.e.pc ≠ .idle → runWord (.cmd cw) s = .refused .engineBusy) ∧
    (s.e.pc = .idle → s.p.initialized = false → runWord (.cmd cw) s = .refused .notInitialized)

/-- R55: what accepting or rejecting a command leaves unchanged: the Bus Interface, every byte of memory, both traces,
the slaves, the counters, and `SCAN_OUT` but for an accepted `scan`; only `RESULT`, `RDATA`, `E.cmd` and `E.pc` may
change beside it. -/
def Obligations.CommandsFrame : Prop :=
  ∀ (i : Instr) (s t : State), isCommand i = true → exec i s = .next t →
    t.p = s.p ∧ (∀ x, t.mem.read x = s.mem.read x) ∧ t.busTrace = s.busTrace ∧ t.primTrace = s.primTrace ∧
    t.slaves = s.slaves ∧ t.reserved = s.reserved ∧ t.e = { s.e with cmd := t.e.cmd, pc := t.e.pc } ∧
    (i ≠ .scan → t.scanOut = s.scanOut) ∧ t.params = s.params ∧ t.side = s.side ∧ t.calls = s.calls ∧
    t.script = s.script ∧ t.freeTail = s.freeTail ∧ t.picks = s.picks ∧ t.waiting = s.waiting ∧
    t.patience = s.patience ∧ t.draws = s.draws ∧ t.snaps = s.snaps

/-! ## Primitives -/

/-- R63, R64, R69 with R58: `ISSUE_START`, `ISSUE_STOP` and `SET_ACK` in every state: the request or bit they write,
and their word in `T`. A stop request cancels a start request not yet on the bus. -/
def Obligations.ControlPrimitives : Prop :=
  ∀ s : State,
    exec .issueStart s = .next { s with
      p := { s.p with reqStart := true }, primTrace := s.primTrace ++ [⟨0x1000, none⟩] } ∧
    exec .issueStop s = .next { s with
      p := { s.p with reqStop := true, reqStart := false }, primTrace := s.primTrace ++ [⟨0x2000, none⟩] } ∧
    exec (.setAck false) s = .next { s with
      p := { s.p with ackEn := false }, primTrace := s.primTrace ++ [⟨0x7000, none⟩] } ∧
    exec (.setAck true) s = .next { s with
      p := { s.p with ackEn := true }, primTrace := s.primTrace ++ [⟨0x7001, none⟩] }

/-- R65: `WRITE_DR` in every phase: the address byte, a data byte, an overrun, and a write out of phase. -/
def Obligations.WriteDrByPhase : Prop :=
  ∀ (b : Byte) (s : State),
    (s.p.mode = .pStart → exec (.writeDr b) s = .next { s with
      p := { s.p with sb := false, addrResolved := false, target := none, mode := .pAddr b }
      primTrace := s.primTrace ++ [⟨0x3000 ||| b.setWidth 16, none⟩] }) ∧
    (s.p.mode = .pTx → s.p.drTx = none → exec (.writeDr b) s = .next { s with
      p := { s.p with drTx := some b, txe := false, btf := false }
      primTrace := s.primTrace ++ [⟨0x3000 ||| b.setWidth 16, none⟩] }) ∧
    (s.p.mode = .pTx → s.p.drTx ≠ none → exec (.writeDr b) s = .fault .dataOverrun) ∧
    (s.p.mode ≠ .pStart → s.p.mode ≠ .pTx → exec (.writeDr b) s = .fault .writeOutOfPhase)

/-- R66: `READ_DR` returns the received byte in its `T` entry and clears `RXNE` and `BTF`; read again it returns the
same byte; before any byte was received it faults. -/
def Obligations.ReadDrReturnsByte : Prop :=
  ∀ s : State,
    (∀ v, s.p.drRx = some v →
      ∃ t, exec .readDr s = .next t ∧
        t = { s with
          p := { s.p with rxne := false, btf := false }
          primTrace := s.primTrace ++ [⟨0x4000, some (v.setWidth 16)⟩] } ∧
        exec .readDr t = .next { t with primTrace := t.primTrace ++ [⟨0x4000, some (v.setWidth 16)⟩] }) ∧
    (s.p.drRx = none → exec .readDr s = .fault .unwrittenRead)

/-- R67, R68, R60: the two status reads in every state; `RegisterLayout` gives the bits of the values they record. `READ_STATUS` changes nothing but `T`. `READ_STATUS2` returns `BUSY`
and clears `ADDR`; where `ADDR` was set it starts the data phase of the mode, with `TXE` when transmitting; where
`ADDR` was clear it has no side effect. -/
def Obligations.StatusReads : Prop :=
  ∀ s : State,
    exec .readStatus s = .next { s with primTrace := s.primTrace ++ [⟨0x5000, some s.statusValue⟩] } ∧
    (s.p.addr = false →
      exec .readStatus2 s = .next { s with primTrace := s.primTrace ++ [⟨0x6000, some s.status2Value⟩] }) ∧
    (s.p.addr = true → s.p.mode = .pTxWaitClr → exec .readStatus2 s = .next { s with
      p := { s.p with addr := false, mode := .pTx, txe := true }
      primTrace := s.primTrace ++ [⟨0x6000, some s.status2Value⟩] }) ∧
    (s.p.addr = true → s.p.mode = .pRxWaitClr → exec .readStatus2 s = .next { s with
      p := { s.p with addr := false, mode := .pRx }
      primTrace := s.primTrace ++ [⟨0x6000, some s.status2Value⟩] }) ∧
    (s.p.addr = true → s.p.mode ≠ .pTxWaitClr → s.p.mode ≠ .pRxWaitClr → exec .readStatus2 s = .next { s with
      p := { s.p with addr := false }
      primTrace := s.primTrace ++ [⟨0x6000, some s.status2Value⟩] })

/-- R63 to R69, R29: what each primitive leaves unchanged. The engine, the outputs, every byte of memory, the bus
trace, the slaves and the inputs stay; of the Bus Interface only the fields its rule names may change; `T` gets its
word and no other entry. -/
def Obligations.PrimitivesFrame : Prop :=
  ∀ (i : Instr) (s t : State), isCommand i = false → exec i s = .next t →
    (∃ w ret, encode i = .prim w ∧ t.primTrace = s.primTrace ++ [⟨w, ret⟩]) ∧
    t.e = s.e ∧ t.result = s.result ∧ t.rdata = s.rdata ∧ t.scanOut = s.scanOut ∧
    (∀ x, t.mem.read x = s.mem.read x) ∧ t.busTrace = s.busTrace ∧ t.slaves = s.slaves ∧
    t.reserved = s.reserved ∧ t.params = s.params ∧ t.side = s.side ∧ t.calls = s.calls ∧ t.script = s.script ∧
    t.freeTail = s.freeTail ∧ t.picks = s.picks ∧ t.waiting = s.waiting ∧ t.patience = s.patience ∧
    t.draws = s.draws ∧ t.snaps = s.snaps ∧
    (i = .issueStart → t.p = { s.p with reqStart := t.p.reqStart }) ∧
    (i = .issueStop → t.p = { s.p with reqStop := t.p.reqStop, reqStart := t.p.reqStart }) ∧
    (∀ b, i = .writeDr b → t.p = { s.p with
      sb := t.p.sb, addrResolved := t.p.addrResolved, target := t.p.target, mode := t.p.mode, drTx := t.p.drTx,
      txe := t.p.txe, btf := t.p.btf }) ∧
    (i = .readDr → t.p = { s.p with rxne := t.p.rxne, btf := t.p.btf }) ∧
    (i = .readStatus → t.p = s.p) ∧
    (i = .readStatus2 → t.p = { s.p with addr := t.p.addr, mode := t.p.mode, txe := t.p.txe }) ∧
    (∀ e, i = .setAck e → t.p = { s.p with ackEn := t.p.ackEn })

/-- R59: a primitive word that no row of R58 matches (a reserved kind, a nonzero reserved bit) is a fault of the Bus
Interface, and the engine never issues one: whatever an engine step adds to `T` is a word of an instruction. -/
def Obligations.ReservedPrimitiveWords : Prop :=
  (∀ (s : State) (w : PrimWord), (∀ i, selectsRow (.prim w) i = false) →
    runWord (.prim w) s = .fault .reservedPrimitive) ∧
  (∀ s t : State, engineStep s = .next t →
    t.primTrace = s.primTrace ∨
      ∃ r i, t.primTrace = s.primTrace ++ [r] ∧ decode (.prim r.word) = .instr i)

/-! ## A step runs the decoded instruction -/

/-- R55, R84, R59: when the next move is a command word that decodes to `i`, the step is `exec i` with the move taken
from the Caller's queue and its side operands at hand, under either way the schedule gives the Caller the turn; a
primitive word presented to the Bus Interface (log 12) runs at once. The step after `withFetchWord` runs exactly the
word placed (log 11): a primitive in the state itself, a command in the same state with the engine IDLE and
initialized. -/
def Obligations.StepRunsDecoded : Prop :=
  (∀ (s : State) (cw : CmdWord) (len : BitVec 32) (buf : BufRef) (rest : List Call) (i : Instr),
    s.e.pc = .idle → s.calls = .command cw len buf :: rest → decode (.cmd cw) = .instr i →
    (∀ more, s.script = .choose .go :: more →
      step s = exec i { s with script := more, calls := rest, side := ⟨len, buf⟩ }) ∧
    (s.script = [] → s.freeTail = false → firstEnabled s.p = none →
      step s = exec i { s with calls := rest, side := ⟨len, buf⟩ })) ∧
  (∀ (s : State) (w : PrimWord) (more : List Pick) (i : Instr),
    s.script = .prim w :: more → decode (.prim w) = .instr i → step s = exec i { s with script := more }) ∧
  (∀ (s : State) (nbits w : Nat) (i : Instr), decodeTableWord nbits w = some i →
    (isCommand i = false → step (s.withFetchWord nbits w) = exec i s) ∧
    (isCommand i = true → step (s.withFetchWord nbits w) = exec i { s with
      e := { s.e with pc := .idle, cmd := none }, p := { s.p with initialized := true } }))

/-! ## The sequencer, the poller, the arbiter -/

/-- R84, R85, R46: where a step of the command's table is one primitive and no more, the engine step is that
instruction's meaning followed by the move to the step's successor, and it faults exactly where the instruction
does. The two steps that also set counters: `REGISTER_BYTE` of the multi-byte write sends the register and sets `E.idx`
to 0 (R121); `CLEAR_ADDR_R` of the multi-byte read reads `STATUS2` and sets `E.rem` to `len` and `E.idx` to 0 (R114). -/
def Obligations.SequencerIssuesPrimitives : Prop :=
  (∀ (s : State) (c : Command) (row : Row) (i : Instr),
    s.e.cmd = some c → stepTable c.op s.e.pc = some row → primitiveOf row.act c s.e = some i →
    (∀ u, exec i s = .next u → engineStep s = advance row.succ c u) ∧
    (∀ f, exec i s = .fault f → engineStep s = .fault f) ∧
    (∀ r, exec i s ≠ .refused r)) ∧
  (∀ (s : State) (c : Command), s.e.cmd = some c → c.op = .writeMemoryMulti → s.e.pc = .registerByte →
    (∀ u, exec (.writeDr c.reg) s = .next u →
      engineStep s = .next { u with e := { s.e with idx := some 0, pc := .regTxeWait } }) ∧
    (∀ f, exec (.writeDr c.reg) s = .fault f → engineStep s = .fault f)) ∧
  (∀ (s : State) (c : Command), s.e.cmd = some c → c.op = .readMemoryMulti → s.e.pc = .clearAddrR →
    ∃ u, exec .readStatus2 s = .next u ∧
      engineStep s = .next { u with e := { s.e with rem := some c.len, idx := some 0, pc := .loop } })

/-- R90, R91: one poll of a wait. The register of the condition is read, with that read's side effects; the condition
is tested in the flags as they stand, before the counter; a satisfied poll clears the counter and moves on; under SPIN
an unsatisfied one stays; under BOUNDED it counts, and at the bound takes the abort with the class of the wait. -/
def Obligations.PollLaw : Prop :=
  (WaitCond.expiry .notBusy = .timeout ∧ WaitCond.expiry .sb = .timeout ∧ WaitCond.expiry .addr = .nak ∧
    WaitCond.expiry .txe = .timeout ∧ WaitCond.expiry .btf = .nak ∧ WaitCond.expiry .rxne = .timeout) ∧
  (∀ p : Periph, (WaitCond.holds .notBusy p = !p.busy) ∧ WaitCond.holds .sb p = p.sb ∧
    WaitCond.holds .addr p = p.addr ∧ WaitCond.holds .txe p = p.txe ∧ WaitCond.holds .btf p = p.btf ∧
    WaitCond.holds .rxne p = p.rxne) ∧
  (pollInstr .notBusy = .readStatus2 ∧ ∀ c, c ≠ .notBusy → pollInstr c = .readStatus) ∧
  ∀ (s : State) (c : Command) (w : WaitCond) (k : Succ),
    s.e.cmd = some c → stepTable c.op s.e.pc = some ⟨.wait w, k⟩ →
    ∃ u, exec (pollInstr w) s = .next u ∧
      (w.holds s.p = true → engineStep s = advance k c { u with e := { u.e with polls := 0 } }) ∧
      (w.holds s.p = false → s.params.policy = .spin → engineStep s = .next u) ∧
      (w.holds s.p = false → s.params.policy = .bounded → s.e.polls + 1 ≠ s.params.timeoutPolls →
        engineStep s = .next { u with e := { u.e with polls := s.e.polls + 1 } }) ∧
      (w.holds s.p = false → s.params.policy = .bounded → s.e.polls + 1 = s.params.timeoutPolls →
        engineStep s = .next { u with
          result := some w.expiry, e := { u.e with polls := 0, pc := .abort } })

/-- R86, R128, R129: `ABORT` issues a stop and goes on to `DONE`; `DONE` keeps a result already set, else sets `OK`,
clears the command and the counter and returns to IDLE. -/
def Obligations.AbortAndDone : Prop :=
  ∀ s : State,
    (s.e.pc = .abort → engineStep s = .next { s with
      p := { s.p with reqStop := true, reqStart := false }
      primTrace := s.primTrace ++ [⟨0x2000, none⟩]
      e := { s.e with pc := .done } }) ∧
    (s.e.pc = .done → s.result = none → engineStep s = .next { s with
      result := some .ok, e := { s.e with cmd := none, polls := 0, pc := .idle } }) ∧
    (s.e.pc = .done → s.result ≠ none → engineStep s = .next { s with
      e := { s.e with cmd := none, polls := 0, pc := .idle } })

/-- R99: `SETTLE` is taken only when the address phase has resolved; until then the engine holds, environment steps may
be taken, and nothing is issued, recorded or counted, under either wait policy. That the hold is a next state with
nothing changed is the model's form of it (log 16). -/
def Obligations.SettleStep : Prop :=
  Label.yields .settle = true ∧
  ∀ (s : State) (c : Command), s.e.cmd = some c → c.op = .scan → s.e.pc = .settle →
    (s.p.addrResolved = true → engineStep s = .next { s with e := { s.e with pc := .probeStop } }) ∧
    (s.p.addrResolved = false → engineStep s = .next s)

/-- R98, R100, R103: the scan's own steps. `INSPECT` reads the status and tests its one bit `ADDR`, whatever the other
flags are; `SCAN_OUT` gets the candidate exactly when the bit is set. The candidate starts at 0; the scan goes on
below 128 and ends after 127. `E.snap` is the flag record of R19 and R24; five of its fields are those the read returns
(R67), and the sixth, `BUSY`, to which no rule gives a value here, is any value (the model's choice, log 20). -/
def Obligations.ScanSteps : Prop :=
  ∀ (s : State) (c : Command), s.e.cmd = some c → c.op = .scan →
    (s.e.pc = .scanInit → engineStep s = .next { s with e := { s.e with sa := some 0, pc := .probeStart } }) ∧
    (∀ n, s.e.pc = .inspect → s.e.sa = some n → ∃ busy : Bool, engineStep s = .next { s with
      e := { s.e with
        snap := some ⟨s.p.sb, s.p.addr, s.p.txe, s.p.btf, s.p.rxne, busy⟩
        pc := .probeClear }
      snaps := s.snaps + 1
      scanOut := if s.p.addr = true then s.scanOut ++ [BitVec.ofNat 7 n] else s.scanOut
      primTrace := s.primTrace ++ [⟨0x5000, some s.statusValue⟩] }) ∧
    (∀ n, s.e.pc = .next → s.e.sa = some n → n + 1 < 128 →
      engineStep s = .next { s with e := { s.e with sa := some (n + 1), pc := .probeStart } }) ∧
    (∀ n, s.e.pc = .next → s.e.sa = some n → 128 ≤ n + 1 →
      engineStep s = .next { s with e := { s.e with sa := some (n + 1), pc := .done } })

/-- R115, R35, R110, R111: a capture of the multi-byte read stores the byte just read at index `E.idx` and moves both
counters; every other byte of memory reads as before; the loop goes to the last-byte steps exactly when one byte is
left. A capture of a single-byte read puts the byte into `RDATA`, and no byte of memory changes. -/
def Obligations.CapturesStoreByte : Prop :=
  (∀ (s : State) (c : Command) (i r : Nat) (v : Byte),
    s.mem.wf = true → s.e.cmd = some c → c.op = .readMemoryMulti → s.e.pc = .captureN ∨ s.e.pc = .capture →
    s.e.idx = some i → s.e.rem = some r → s.p.drRx = some v → i < c.buf.size →
    ∃ t, engineStep s = .next t ∧ t.mem.read (c.buf.base + i) = v ∧
      (∀ x, x ≠ c.buf.base + i → t.mem.read x = s.mem.read x) ∧
      t.e = { s.e with
        idx := some (i + 1), rem := some (r - 1), pc := if s.e.pc = .captureN then .loop else .done } ∧
      t.p = { s.p with rxne := false, btf := false } ∧ t.rdata = s.rdata ∧ t.result = s.result ∧
      t.busTrace = s.busTrace ∧ t.primTrace = s.primTrace ++ [⟨0x4000, some (v.setWidth 16)⟩]) ∧
  (∀ (s : State) (c : Command) (r : Nat), s.e.cmd = some c → c.op = .readMemoryMulti → s.e.pc = .loop →
    s.e.rem = some r →
    engineStep s = .next { s with e := { s.e with pc := if r > 1 then .rxneWaitN else .disableAck } }) ∧
  (∀ (s : State) (c : Command) (v : Byte),
    s.e.cmd = some c → c.op = .readByte ∨ c.op = .readMemoryByte → s.e.pc = .capture → s.p.drRx = some v →
    engineStep s = .next { s with
      rdata := some v
      p := { s.p with rxne := false, btf := false }
      primTrace := s.primTrace ++ [⟨0x4000, some (v.setWidth 16)⟩]
      e := { s.e with pc := .done } })

/-- R121, R35: a data byte of the multi-byte write is the buffer's byte at index `E.idx`, written to the data register;
no byte of memory changes; once it has left, the next byte follows exactly while `E.idx < len`. -/
def Obligations.SendTakesBufferByte : Prop :=
  (∀ (s : State) (c : Command) (i : Nat),
    s.e.cmd = some c → c.op = .writeMemoryMulti → s.e.pc = .dataByte → s.e.idx = some i → i < c.buf.size →
    s.p.mode = .pTx → s.p.drTx = none →
    engineStep s = .next { s with
      p := { s.p with drTx := some (s.mem.read (c.buf.base + i)), txe := false, btf := false }
      primTrace := s.primTrace ++ [⟨0x3000 ||| (s.mem.read (c.buf.base + i)).setWidth 16, none⟩]
      e := { s.e with idx := some (i + 1), pc := .transferComplete } }) ∧
  (∀ (s : State) (c : Command) (i : Nat),
    s.e.cmd = some c → c.op = .writeMemoryMulti → s.e.pc = .transferComplete → s.e.idx = some i →
    s.p.btf = true →
    engineStep s = .next { s with
      primTrace := s.primTrace ++ [⟨0x5000, some s.statusValue⟩]
      e := { s.e with polls := 0, pc := if i < c.len then .dataByte else .stop } })

/-- R95, R149: every `SET_ACK` the engine issues: 0 in the single-byte reads and `len > 1` in the multi-byte read, each
the step right before the clearing read, and 0 once more in the multi-byte read, right before its stop and, in a state
that meets the invariant, when exactly one byte remains. No other engine step writes the bit. -/
def Obligations.AcknowledgePolicy : Prop :=
  (∀ (s t : State) (r : PrimRecord) (e : Bool), engineStep s = .next t → t.primTrace = s.primTrace ++ [r] →
    decode (.prim r.word) = .instr (.setAck e) →
    ∃ c, s.e.cmd = some c ∧
      ((c.op = .readByte ∧ s.e.pc = .disableAck ∧ e = false ∧ t.e.pc = .clearAddr) ∨
       (c.op = .readMemoryByte ∧ s.e.pc = .disableAck ∧ e = false ∧ t.e.pc = .clearAddrR) ∨
       (c.op = .readMemoryMulti ∧ s.e.pc = .initAck ∧ e = decide (c.len > 1) ∧ t.e.pc = .clearAddrR) ∨
       (c.op = .readMemoryMulti ∧ s.e.pc = .disableAck ∧ e = false ∧ t.e.pc = .stop ∧
         (s.inv = true → s.e.rem = some 1)))) ∧
  (∀ s t : State, engineStep s = .next t → t.p.ackEn ≠ s.p.ackEn →
    ∃ r, t.primTrace = s.primTrace ++ [r] ∧ decode (.prim r.word) = .instr (.setAck t.p.ackEn))

/-! ## The environment -/

/-- R73, R74: a stop reaches the bus only when one is requested and no byte is in flight; it ends the transaction and
releases the bus, or, where this master does not hold the bus, only drops the request. `ADDR` and `RXNE` stay. -/
def Obligations.StopGeneration : Prop :=
  (∀ p : Periph, envEnabled .stop p = true ↔ p.reqStop = true ∧ p.quiet = true) ∧
  (∀ p : Periph, p.quiet = true ↔
    (p.mode = .pIdle ∨ p.mode = .pStart ∨ p.mode = .pTxWaitClr ∨ p.mode = .pRxWaitClr ∨ p.mode = .pRxDone ∨
      p.mode = .pNacked ∨ (p.mode = .pTx ∧ p.shift = none ∧ p.drTx = none))) ∧
  (∀ s : State, s.p.owner = true → envStep .stop s = .next { s with
    busTrace := s.busTrace ++ [.P]
    p := { s.p with
      owner := false, busy := s.p.extBusy, reqStop := false, mode := .pIdle, sb := false, txe := false,
      btf := false, drTx := none, shift := none, target := none } }) ∧
  (∀ s : State, s.p.owner = false → envStep .stop s = .next { s with p := { s.p with reqStop := false } })

/-- R73, R75: a start reaches the bus only when one is requested, no stop goes before it, no byte is in flight and the
bus is this master's or free; it is a repeated start exactly when this master holds the bus. -/
def Obligations.StartGeneration : Prop :=
  (∀ p : Periph, envEnabled .start p = true ↔
    p.reqStart = true ∧ p.reqStop = false ∧ p.quiet = true ∧ (p.owner = true ∨ p.extBusy = false)) ∧
  (∀ s : State, envStep .start s = .next { s with
    busTrace := s.busTrace ++ [if s.p.owner = true then .Sr else .S]
    p := { s.p with
      owner := true, busy := true, sb := true, reqStart := false, mode := .pStart, txe := false, btf := false,
      addr := false, rxne := false, drTx := none, shift := none, target := none } })

/-- R76: the address phase, for every oracle: the slave's acknowledge is the bus event's, and only an acknowledge
raises `ADDR` and latches the target with the direction of bit 0. -/
def Obligations.AddressPhase : Prop :=
  ∀ s : State, (envEnabled .address s.p = true ↔ ∃ b, s.p.mode = .pAddr b) ∧
    ∀ (b : Byte) (k : Bool) (u : State), s.p.mode = .pAddr b →
      slaveAddrAck (b.extractLsb' 1 7) (if b.extractLsb' 0 1 = 0#1 then .write else .read) s = (k, u) →
      envStep .address s = .next { u with
        busTrace := s.busTrace ++ [.A b k]
        p :=
          if k = false then { s.p with addrResolved := true, mode := .pNacked }
          else if b.extractLsb' 0 1 = 0#1 then
            { s.p with
              addrResolved := true, addr := true, target := some (b.extractLsb' 1 7, .write), mode := .pTxWaitClr }
          else
            { s.p with
              addrResolved := true, addr := true, target := some (b.extractLsb' 1 7, .read), mode := .pRxWaitClr } }

/-- R77, R78: a byte moves from the data register to the shift register, which raises `TXE`; when it has left, its
slave's acknowledge is the bus event's, `BTF` rises only if nothing waits behind it, and a NAK ends the phase. A
slave is always latched then in a state of the invariant; the model's answer where none is (log 9) is not stated. -/
def Obligations.TransmitPhase : Prop :=
  (∀ p : Periph, envEnabled .txShift p = true ↔ p.mode = .pTx ∧ p.drTx ≠ none ∧ p.shift = none) ∧
  (∀ (s : State) (b : Byte), s.p.drTx = some b →
    envStep .txShift s = .next { s with p := { s.p with shift := some b, drTx := none, txe := true } }) ∧
  (∀ p : Periph, envEnabled .txDone p = true ↔ p.mode = .pTx ∧ p.shift ≠ none) ∧
  (∀ (s u : State) (b : Byte) (a : Addr7) (d : Dir) (k : Bool), s.p.shift = some b → s.p.target = some (a, d) →
    slaveWrite a b s = (k, u) →
    envStep .txDone s = .next { u with
      busTrace := s.busTrace ++ [.W b k]
      p :=
        if k = false then { s.p with shift := none, mode := .pNacked, txe := false, btf := false, drTx := none }
        else if s.p.drTx = none then { s.p with shift := none, btf := true }
        else { s.p with shift := none } })

/-- R79, R94: a byte is received only while none waits; it is acknowledged exactly when the bit is set now; a NAK or a
pending stop ends the phase. A slave is always latched then in a state of the invariant; the model's answer where none
is (log 9) is not stated. -/
def Obligations.ReceivePhase : Prop :=
  (∀ p : Periph, envEnabled .receive p = true ↔ p.mode = .pRx ∧ p.rxne = false) ∧
  (∀ (s u : State) (a : Addr7) (d : Dir) (v : Byte), s.p.target = some (a, d) → slaveRead a s = (v, u) →
    envStep .receive s = .next { u with
      busTrace := s.busTrace ++ [.R v s.p.ackEn]
      p := { s.p with
        drRx := some v, rxne := true,
        mode := if s.p.ackEn = false ∨ s.p.reqStop = true then .pRxDone else s.p.mode } })

/-- R80: the external bus use may change to either value while this master does not hold the bus, and `BUSY` follows
it; the reference scheduler never takes this step. -/
def Obligations.ExternalBusUse : Prop :=
  (∀ (p : Periph) (b : Bool), envEnabled (.extBusy b) p = true ↔ p.owner = false) ∧
  (∀ (s : State) (b : Bool),
    envStep (.extBusy b) s = .next { s with p := { s.p with extBusy := b, busy := b } }) ∧
  (∀ (p : Periph) (b : Bool), firstEnabled p ≠ some (.extBusy b))

/-- R82: the reference mock. An address is acknowledged exactly when a slave is present there, and a write-direction
address makes it expect its pointer; the first byte written is the pointer, later ones go to the register at the
pointer, which moves on modulo 256; a read returns that register and moves on. No other slave changes. -/
def Obligations.MockSlaveBehaviour : Prop :=
  ∀ (s : State) (present : List MockSlave) (a : Addr7), s.slaves = .mock present →
    (∀ d, s.slaveAt a = none → slaveAddrAck a d s = (false, s)) ∧
    (∀ m, s.slaveAt a = some m → m.mem.wf = true →
      (∀ d, ∃ u, slaveAddrAck a d s = (true, u) ∧
        u.slaveAt a = some (match d with | .write => { m with expectPtr := true } | .read => m) ∧
        ∀ x, x ≠ a → u.slaveAt x = s.slaveAt x) ∧
      (∀ b, ∃ u n, slaveWrite a b s = (true, u) ∧ u.slaveAt a = some n ∧ n.addr = m.addr ∧
        n.expectPtr = false ∧
        (m.expectPtr = true → n.ptr = b ∧ n.mem = m.mem) ∧
        (m.expectPtr = false → n.ptr.toNat = (m.ptr.toNat + 1) % 256 ∧ n.mem.read m.ptr.toNat = b ∧
          ∀ x, x ≠ m.ptr.toNat → n.mem.read x = m.mem.read x) ∧
        ∀ x, x ≠ a → u.slaveAt x = s.slaveAt x) ∧
      (∃ u n, slaveRead a s = (m.mem.read m.ptr.toNat, u) ∧ u.slaveAt a = some n ∧
        n = { m with ptr := n.ptr } ∧ n.ptr.toNat = (m.ptr.toNat + 1) % 256 ∧
        ∀ x, x ≠ a → u.slaveAt x = s.slaveAt x))

/-! ## What a step can do -/

/-- R28, R29, R46, R70: a step other than a hardware reset leaves both traces, or appends one event to the bus trace, or
one entry to `T`; it takes nothing away. An event comes only at a scheduling point (the engine IDLE, at a wait or at
`SETTLE`) and leaves the engine, its outputs and the caller's memory alone. A schedule that is not scripted is weakly
fair, in the model's form of it (log 4). The reference scheduler takes an enabled environment step at once. In a free
schedule an enabled step waits with a delay, from which each scheduling point that passes it over takes one, and is
taken when nothing is left of it; a step that does not stay enabled waits no more. While a command runs the engine gets
the turn in the same way after as many scheduling points as its patience counts. -/
def Obligations.TracesGrowByOne : Prop :=
  (∀ s t : State, s.noReset → step s = .next t →
    (t.busTrace = s.busTrace ∧ t.primTrace = s.primTrace) ∨
    (∃ r, t.busTrace = s.busTrace ∧ t.primTrace = s.primTrace ++ [r]) ∨
    (∃ ev, t.busTrace = s.busTrace ++ [ev] ∧ t.primTrace = s.primTrace ∧
      (s.e.pc = .idle ∨ s.e.pc = .settle ∨ s.e.pc.isWait = true) ∧ t.e = s.e ∧ t.result = s.result ∧
      t.rdata = s.rdata ∧ t.scanOut = s.scanOut ∧ t.mem = s.mem)) ∧
  (∀ (s : State) (k : EnvStep), s.reference → s.e.pc.yields = true → envEnabled k s.p = true →
    (∀ b, k ≠ .extBusy b) → step s = envStep k s) ∧
  (∀ (s : State) (k : EnvStep), s.script = [] → s.freeTail = true → s.e.pc.yields = true →
    envEnabled k s.p = true → (∀ b, k ≠ .extBusy b) →
    (s.waiting = some (k, 0) →
      ∃ u, u = { s with picks := u.picks, waiting := u.waiting } ∧ step s = envStep k u) ∧
    (∀ n t, s.waiting = some (k, n + 1) → step s = .next t → t.waiting = some (k, n)) ∧
    (∀ t, step s = .next t → (∃ n, t.waiting = some (k, n)) ∨
      ∃ u, u = { s with picks := u.picks, waiting := u.waiting } ∧ step s = envStep k u)) ∧
  (∀ (s t : State) (k : EnvStep) (n : Nat), s.script = [] → s.freeTail = true → s.e.pc.yields = false →
    envEnabled k s.p = true → (∀ b, k ≠ .extBusy b) → s.waiting = some (k, n) → step s = .next t →
    t.waiting = some (k, n)) ∧
  (∀ s t : State, s.script = [] → s.freeTail = true → (∀ k, envEnabled k s.p = true → ∃ b, k = .extBusy b) →
    step s = .next t → t.waiting = none) ∧
  (∀ s : State, s.script = [] → s.freeTail = true → s.e.pc.yields = true → s.e.pc ≠ .idle →
    (∀ k, envEnabled k s.p = true → (∀ b, k ≠ .extBusy b) → ∃ n, s.waiting = some (k, n + 1)) →
    (s.patience = 0 →
      ∃ u, u = { s with picks := u.picks, waiting := u.waiting, patience := u.patience } ∧ step s = turn u) ∧
    (∀ n t, s.patience = n + 1 → step s = .next t → t.patience = n))

/-- R72, R75, R74, R112: the master takes the bus exactly with an `S` and gives it up exactly with a `P`; every other
event happens while it holds the bus and keeps it. -/
def Obligations.OwnershipFollowsTrace : Prop :=
  ∀ s t : State, s.inv = true → s.noReset → step s = .next t →
    (s.p.owner = false → t.p.owner = true → t.busTrace = s.busTrace ++ [.S]) ∧
    (s.p.owner = true → t.p.owner = false → t.busTrace = s.busTrace ++ [.P]) ∧
    (∀ ev, t.busTrace = s.busTrace ++ [ev] →
      (ev = .S → s.p.owner = false ∧ t.p.owner = true) ∧
      (ev = .P → s.p.owner = true ∧ t.p.owner = false) ∧
      (ev ≠ .S → ev ≠ .P → s.p.owner = true ∧ t.p.owner = true))

/-- R25: only `SET_ACK` writes Acknowledge Control: a step that changes the bit has `SET_ACK` of the new value as its
one new entry of `T`. -/
def Obligations.OnlySetAckWritesAckEn : Prop :=
  ∀ s t : State, s.noReset → step s = .next t → t.p.ackEn ≠ s.p.ackEn →
    t.primTrace = s.primTrace ++ [⟨if t.p.ackEn = true then 0x7001 else 0x7000, none⟩] ∧ t.busTrace = s.busTrace

/-- R34, R36, R45: a byte of the caller's memory changes only when a multi-byte read captures into its own buffer, at
index `E.idx` below `len`; the new byte is the one just read from the data register. Among the steps is a scripted
hardware reset; that caller memory survives one is the model's choice (log 13). -/
def Obligations.BufferIsolation : Prop :=
  ∀ (s t : State) (x : Nat), s.inv = true → s.canonical = true → step s = .next t → t.mem.read x ≠ s.mem.read x →
    ∃ c i, s.e.cmd = some c ∧ c.op = .readMemoryMulti ∧ (s.e.pc = .captureN ∨ s.e.pc = .capture) ∧
      s.e.idx = some i ∧ i < c.len ∧ c.len ≤ c.buf.size ∧ x = c.buf.base + i ∧ s.p.drRx = some (t.mem.read x)

/-- R92, R127: under SPIN no step gives a command the result `NAK` or `TIMEOUT` or enters `ABORT`. -/
def Obligations.SpinNeverExpires : Prop :=
  ∀ s t : State, s.params.policy = .spin → step s = .next t →
    ((t.result = some .nak ∨ t.result = some .timeout) → t.result = s.result) ∧
    (t.e.pc = .abort → s.e.pc = .abort)

/-- 90_conflicts.md C6: the two wait policies differ only on failure. A step under BOUNDED that enters no abort is, but
for the poll counter, the step under SPIN. -/
def Obligations.PoliciesAgreeUntilExpiry : Prop :=
  ∀ s t : State, step s = .next t → t.e.pc ≠ .abort → step s.asSpin = .next t.asSpin

/-! ## Invariants -/

/-- R143, R10: a launch with well-formed parameters, in which no primitive is presented from outside the engine, meets
the invariant, whatever the environment, the Caller's moves and the schedule; so does the reset state. -/
def Obligations.InvAtLaunch : Prop :=
  (∀ (q : Params) (l : Launch) (mem : Memory) (calls : List Call) (script : List Pick), q.wellFormed = true →
    (∀ w, .prim w ∉ script) → (State.launch q l mem calls script).inv = true) ∧
  State.reset.inv = true

/-- The invariant of the machine is kept by every step: every schedule, every oracle, both wait policies, hardware
resets included. -/
def Obligations.StepKeepsInv : Prop := ∀ s t : State, s.inv = true → step s = .next t → t.inv = true

/-- R132 and claim 1 of spec/95_test_vectors.md: from a state that meets the invariant no step faults, with any of the
faults. -/
def Obligations.InvNeverFaults : Prop := ∀ (s : State) (f : Fault), s.inv = true → step s ≠ .fault f

/-- Every byte memory keeps its canonical form under every step (logs 7, 19), and the reset state has it. -/
def Obligations.CanonicalKept : Prop :=
  (∀ s t : State, s.canonical = true → step s = .next t → t.canonical = true) ∧ State.reset.canonical = true

/-- R132, R152 and claims 1 and 8 of spec/95_test_vectors.md: no run from a launch faults, and whenever the engine is
IDLE in it the bus is released or its release is pending. -/
def Obligations.RunsNeverFaultOrHoldBus : Prop :=
  ∀ (q : Params) (l : Launch) (mem : Memory) (calls : List Call) (script : List Pick) (k : Nat),
    q.wellFormed = true → (∀ w, .prim w ∉ script) →
    (∀ f, runSteps k (State.launch q l mem calls script) ≠ .fault f) ∧
    (∀ t, runSteps k (State.launch q l mem calls script) = .next t → t.e.pc = .idle →
      t.p.owner = false ∨ t.p.reqStop = true)

/-! ## Transactions under the reference scheduler, with the mock slave -/

/-- R106, R107 with R71, R82: the single-byte writes, for every address, register and byte. -/
def Obligations.SingleWritesReachSlave : Prop :=
  ∀ (s : State) (a : Addr7) (r d : Byte) (len : BitVec 32) (buf : BufRef) (rest : List Call) (m : MockSlave),
    s.ready → s.canonical = true → s.reference → s.slaveAt a = some m →
    (s.issues (.writeByte a d) len buf rest →
      ∃ k t, runSteps k s = .next t ∧ s.finished t rest .ok ∧ t.rdata = none ∧ t.scanOut = s.scanOut ∧
        t.mem = s.mem ∧ t.busTrace = s.busTrace ++ [.S, .A (addrByte a .write) true, .W d true, .P] ∧
        t.slaveAt a = some { m with ptr := d, expectPtr := false } ∧ ∀ x, x ≠ a → t.slaveAt x = s.slaveAt x) ∧
    (s.issues (.writeMemoryByte a r d) len buf rest →
      ∃ k t n, runSteps k s = .next t ∧ s.finished t rest .ok ∧ t.rdata = none ∧ t.scanOut = s.scanOut ∧
        t.mem = s.mem ∧
        t.busTrace = s.busTrace ++ [.S, .A (addrByte a .write) true, .W r true, .W d true, .P] ∧
        t.slaveAt a = some n ∧ n.ptr = r + 1 ∧ n.expectPtr = false ∧ n.mem.read r.toNat = d ∧
        (∀ x, x ≠ r.toNat → n.mem.read x = m.mem.read x) ∧ ∀ x, x ≠ a → t.slaveAt x = s.slaveAt x)

/-- R110, R111 with R71, R82: the single-byte reads, for every address and register; the byte read is not acknowledged
and the stop follows it. -/
def Obligations.SingleReadsReturnRegister : Prop :=
  ∀ (s : State) (a : Addr7) (r : Byte) (len : BitVec 32) (buf : BufRef) (rest : List Call) (m : MockSlave),
    s.ready → s.reference → s.slaveAt a = some m →
    (s.issues (.readByte a) len buf rest →
      ∃ k t, runSteps k s = .next t ∧ s.finished t rest .ok ∧ t.rdata = some (m.mem.read m.ptr.toNat) ∧
        t.scanOut = s.scanOut ∧ t.mem = s.mem ∧
        t.busTrace = s.busTrace ++
          [.S, .A (addrByte a .read) true, .R (m.mem.read m.ptr.toNat) false, .P] ∧
        t.slaveAt a = some { m with ptr := m.ptr + 1 } ∧ ∀ x, x ≠ a → t.slaveAt x = s.slaveAt x) ∧
    (s.issues (.readMemoryByte a r) len buf rest →
      ∃ k t, runSteps k s = .next t ∧ s.finished t rest .ok ∧ t.rdata = some (m.mem.read r.toNat) ∧
        t.scanOut = s.scanOut ∧ t.mem = s.mem ∧
        t.busTrace = s.busTrace ++
          [.S, .A (addrByte a .write) true, .W r true, .Sr, .A (addrByte a .read) true,
            .R (m.mem.read r.toNat) false, .P] ∧
        t.slaveAt a = some { m with ptr := r + 1, expectPtr := false } ∧
        ∀ x, x ≠ a → t.slaveAt x = s.slaveAt x)

/-- R114, R115, R97 with R71, R82: the multi-byte read, for every length that acceptance allows: the registers from
`reg` on, modulo 256, land in the buffer in transfer order, all acknowledged but the last; no other byte of memory
changes. -/
def Obligations.MultiReadFillsBuffer : Prop :=
  ∀ (s : State) (a : Addr7) (r : Byte) (len : BitVec 32) (buf : BufRef) (rest : List Call) (m : MockSlave),
    s.ready → s.canonical = true → s.reference → s.slaveAt a = some m → s.issues (.readMemoryMulti a r) len buf rest →
    lengthsOk s.params len buf →
    ∃ k t, runSteps k s = .next t ∧ s.finished t rest .ok ∧ t.rdata = none ∧ t.scanOut = s.scanOut ∧
      t.busTrace = s.busTrace ++
        [.S, .A (addrByte a .write) true, .W r true, .Sr, .A (addrByte a .read) true] ++
        receiveEvents (m.bytesFrom r len.toNat) ++ [.P] ∧
      t.mem.readBytes buf.base len.toNat = m.bytesFrom r len.toNat ∧
      (∀ x, outside buf len.toNat x → t.mem.read x = s.mem.read x) ∧
      t.slaveAt a = some { m with ptr := r + BitVec.ofNat 8 len.toNat, expectPtr := false } ∧
      ∀ x, x ≠ a → t.slaveAt x = s.slaveAt x

/-- R121, R122, R123 with R71, R82: the multi-byte write, for every length that acceptance allows: the buffer's bytes
go out in index order, each acknowledged, and the slave holds them from `reg` on, a later byte over an earlier one
where the pointer wraps; the buffer is not written. -/
def Obligations.MultiWriteStoresBuffer : Prop :=
  ∀ (s : State) (a : Addr7) (r : Byte) (len : BitVec 32) (buf : BufRef) (rest : List Call) (m : MockSlave),
    s.ready → s.canonical = true → s.reference → s.slaveAt a = some m → s.issues (.writeMemoryMulti a r) len buf rest →
    lengthsOk s.params len buf →
    ∃ k t n, runSteps k s = .next t ∧ s.finished t rest .ok ∧ t.rdata = none ∧ t.scanOut = s.scanOut ∧
      t.mem = s.mem ∧
      t.busTrace = s.busTrace ++ [.S, .A (addrByte a .write) true, .W r true] ++
        (s.mem.readBytes buf.base len.toNat).map (fun v => .W v true) ++ [.P] ∧
      t.slaveAt a = some n ∧ n.ptr = r + BitVec.ofNat 8 len.toNat ∧ n.expectPtr = false ∧
      (∀ i, i < len.toNat → len.toNat ≤ i + 256 →
        n.mem.read (r + BitVec.ofNat 8 i).toNat = s.mem.read (buf.base + i)) ∧
      (∀ x, (∀ i, i < len.toNat → x ≠ (r + BitVec.ofNat 8 i).toNat) → n.mem.read x = m.mem.read x) ∧
      ∀ x, x ≠ a → t.slaveAt x = s.slaveAt x

/-- R120, X3 and claim 7 of spec/95_test_vectors.md: the round trips, single-byte and multi-byte: what was written is
what is read back, in order, for payloads up to the 256 registers of a slave. Under the reference scheduler both
commands complete with `OK` and it is read back; under every schedule of R70 in which both do, it is read back. -/
def Obligations.RoundTrips : Prop :=
  (∀ (s : State) (a : Addr7) (r d : Byte) (m : MockSlave),
    s.ready → s.canonical = true → s.reference → s.slaveAt a = some m →
    (∀ (l₁ l₂ : BitVec 32) (b₁ b₂ : BufRef) (w₁ w₂ : CmdWord) (rest : List Call),
      encode (.writeMemoryByte a r d) = .cmd w₁ → encode (.readMemoryByte a r) = .cmd w₂ →
      s.calls = .command w₁ l₁ b₁ :: .command w₂ l₂ b₂ :: rest →
      ∃ k t, runSteps k s = .next t ∧ s.finished t rest .ok ∧ t.rdata = some d) ∧
    (∀ (len : BitVec 32) (b₁ b₂ : BufRef) (w₁ w₂ : CmdWord) (rest : List Call),
      encode (.writeMemoryMulti a r) = .cmd w₁ → encode (.readMemoryMulti a r) = .cmd w₂ →
      s.calls = .command w₁ len b₁ :: .command w₂ len b₂ :: rest → lengthsOk s.params len b₁ →
      lengthsOk s.params len b₂ → len.toNat ≤ 256 →
      ∃ k t, runSteps k s = .next t ∧ s.finished t rest .ok ∧
        t.mem.readBytes b₂.base len.toNat = s.mem.readBytes b₁.base len.toNat)) ∧
  (∀ (s u t : State) (a : Addr7) (r d : Byte) (m : MockSlave) (j k : Nat) (rest : List Call),
    s.inv = true → s.canonical = true → s.e.pc = .idle → s.onlyChoices → s.slaveAt a = some m →
    runSteps j s = .next u → u.okBefore rest → runSteps k u = .next t → t.returnedOk →
    (∀ (l₁ l₂ : BitVec 32) (b₁ b₂ : BufRef) (w₁ w₂ : CmdWord),
      encode (.writeMemoryByte a r d) = .cmd w₁ → encode (.readMemoryByte a r) = .cmd w₂ →
      rest = [.command w₂ l₂ b₂] → s.calls = .command w₁ l₁ b₁ :: rest → t.rdata = some d) ∧
    (∀ (len : BitVec 32) (b₁ b₂ : BufRef) (w₁ w₂ : CmdWord),
      encode (.writeMemoryMulti a r) = .cmd w₁ → encode (.readMemoryMulti a r) = .cmd w₂ →
      rest = [.command w₂ len b₂] → s.calls = .command w₁ len b₁ :: rest → len.toNat ≤ 256 →
      t.mem.readBytes b₂.base len.toNat = s.mem.readBytes b₁.base len.toNat))

/-- R105, R102, R103 with R71, R82: a scan reports exactly the present slaves, in ascending order, each once; its bus
trace is the 128 probes; it changes nothing of a slave but that it expects its pointer. -/
def Obligations.ScanReportsPresent : Prop :=
  ∀ (s : State) (present : List MockSlave) (len : BitVec 32) (buf : BufRef) (rest : List Call),
    s.ready → s.reference → s.slaves = .mock present → s.issues .scan len buf rest →
    ∃ k t, runSteps k s = .next t ∧ s.finished t rest .ok ∧ t.rdata = none ∧ t.mem = s.mem ∧
      t.scanOut = acknowledged 0 (presentAcks present) ∧
      (∀ a, a ∈ t.scanOut ↔ (s.slaveAt a).isSome = true) ∧
      t.busTrace = s.busTrace ++ scanEvents 0 (presentAcks present) ∧
      (∀ a, t.slaveAt a = (s.slaveAt a).map fun m => { m with expectPtr := true })

/-- R96, R125, R128 with R71, R82: under BOUNDED a command to an absent slave returns `NAK` after the one address byte
and the stop, with nothing written. -/
def Obligations.AbsentSlaveReturnsNak : Prop :=
  ∀ (s : State) (present : List MockSlave) (i : Instr) (a : Addr7) (d : Dir) (len : BitVec 32) (buf : BufRef)
      (rest : List Call),
    s.ready → s.reference → s.slaves = .mock present → s.slaveAt a = none → s.issues i len buf rest →
    addressedBy i = some (a, d) → (takesSideOperands i = true → lengthsOk s.params len buf) →
    s.params.policy = .bounded → 1 ≤ s.params.timeoutPolls →
    ∃ k t, runSteps k s = .next t ∧ s.finished t rest .nak ∧ t.rdata = none ∧ t.scanOut = s.scanOut ∧
      t.mem = s.mem ∧ t.slaves = s.slaves ∧ t.busTrace = s.busTrace ++ [.S, .A (addrByte a d) false, .P]

/-- R92, R131 with R71: under SPIN and the reference scheduler, a wait whose condition does not hold when the
environment has nothing left to do polls forever: every number of steps gives a next state at the same label, with one
more entry in `T` each time, the poll's word and the value it read, and nothing else changed. So a command to an absent mock slave (R82) never returns: from
some step on, every further step is a next state with the engine polling for the address acknowledge, busy and without
a result. -/
def Obligations.SpinHangsForever : Prop :=
  (∀ (s : State) (c : Command) (w : WaitCond) (k : Succ),
    s.reference → s.params.policy = .spin → s.e.cmd = some c → stepTable c.op s.e.pc = some ⟨.wait w, k⟩ →
    w.holds s.p = false → firstEnabled s.p = none → (w = .notBusy → s.p.addr = false) →
    ∀ n, runSteps n s = .next { s with
      primTrace := s.primTrace ++ (List.range n).map fun j => s.pollRecord w (s.primTrace.length + j) }) ∧
  (∀ (s : State) (present : List MockSlave) (i : Instr) (a : Addr7) (d : Dir) (len : BitVec 32) (buf : BufRef)
      (rest : List Call),
    s.ready → s.reference → s.slaves = .mock present → s.slaveAt a = none → s.issues i len buf rest →
    addressedBy i = some (a, d) → (takesSideOperands i = true → lengthsOk s.params len buf) →
    s.params.policy = .spin →
    ∃ k, ∀ j, ∃ t, runSteps (k + j) s = .next t ∧ t.e.pc = .addrAcked ∧ t.busyE = true ∧ t.result = none ∧
      t.busTrace = s.busTrace ++ [.S, .A (addrByte a d) false])

/-- R93, R70 and claim 2 of spec/95_test_vectors.md: under BOUNDED every command comes back to IDLE, for every oracle,
from every state that meets the invariant, under every schedule: any script, and after it the reference scheduler or a
free schedule, which is weakly fair and so resolves the address phase that a scan's settle waits for (R99). -/
def Obligations.BoundedCommandsReturn : Prop :=
  ∀ s : State, s.inv = true → s.params.policy = .bounded →
    ∃ k t, runSteps k s = .next t ∧ t.e.pc = .idle

/-! ## Transactions under every schedule, for every oracle

`s` is any state of the invariant with the engine IDLE, about to issue its one command. Where an earlier transaction is
still closing in it, `old` is what that one adds to the bus first: no start of either kind, and nothing at all if the
bus is not held. -/

/-- R97, R113, R115: under any schedule of R70 and for any oracle, a read that returns `OK` and receives n bytes puts
exactly n events `R` on the bus, all acknowledged but the last, and its stop follows; what it received is what it
returns. A register-addressed read is one transaction: one start, the write address, the register byte, one repeated
start with no stop before it, the read address, its bytes, one stop. -/
def Obligations.ReadsAnySchedule : Prop :=
  ∀ (s t : State) (a : Addr7) (r : Byte) (len : BitVec 32) (buf : BufRef) (k : Nat),
    s.inv = true → s.canonical = true → s.e.pc = .idle → s.onlyChoices → runSteps k s = .next t → t.returnedOk →
    ∃ old, s.closes old ∧
    (s.issues (.readByte a) len buf [] →
      ∃ v, t.rdata = some v ∧ t.mem = s.mem ∧
        t.busTrace ++ t.pendingStop = s.busTrace ++ old ++ [.S, .A (addrByte a .read) true, .R v false, .P]) ∧
    (s.issues (.readMemoryByte a r) len buf [] →
      ∃ kr v, t.rdata = some v ∧ t.mem = s.mem ∧
        t.busTrace ++ t.pendingStop = s.busTrace ++ old ++
          [.S, .A (addrByte a .write) true, .W r kr, .Sr, .A (addrByte a .read) true, .R v false, .P]) ∧
    (s.issues (.readMemoryMulti a r) len buf [] →
      ∃ kr vs, vs.length = len.toNat ∧ t.mem.readBytes buf.base len.toNat = vs ∧
        (∀ x, outside buf len.toNat x → t.mem.read x = s.mem.read x) ∧
        t.busTrace ++ t.pendingStop = s.busTrace ++ old ++
          [.S, .A (addrByte a .write) true, .W r kr, .Sr, .A (addrByte a .read) true] ++ receiveEvents vs ++ [.P])

/-- R106, R107, R123: under any schedule of R70 and for any oracle, a write that returns `OK` put its bytes on the bus
in order, every one acknowledged, between one start and one stop. -/
def Obligations.WritesAnySchedule : Prop :=
  ∀ (s t : State) (a : Addr7) (r d : Byte) (len : BitVec 32) (buf : BufRef) (k : Nat),
    s.inv = true → s.e.pc = .idle → s.onlyChoices → runSteps k s = .next t → t.returnedOk →
    ∃ old, s.closes old ∧
    (s.issues (.writeByte a d) len buf [] →
      t.mem = s.mem ∧
      t.busTrace ++ t.pendingStop = s.busTrace ++ old ++ [.S, .A (addrByte a .write) true, .W d true, .P]) ∧
    (s.issues (.writeMemoryByte a r d) len buf [] →
      t.mem = s.mem ∧
      t.busTrace ++ t.pendingStop =
        s.busTrace ++ old ++ [.S, .A (addrByte a .write) true, .W r true, .W d true, .P]) ∧
    (s.issues (.writeMemoryMulti a r) len buf [] →
      t.mem = s.mem ∧
      t.busTrace ++ t.pendingStop = s.busTrace ++ old ++ [.S, .A (addrByte a .write) true, .W r true] ++
        (s.mem.readBytes buf.base len.toNat).map (fun v => .W v true) ++ [.P])

/-- R105, R102, R103: under any schedule of R70 and for any oracle, a scan that returns `OK` made 128 probes in
ascending order and reports exactly those acknowledged; with the mock, exactly the present slaves. -/
def Obligations.ScanAnySchedule : Prop :=
  ∀ (s t : State) (len : BitVec 32) (buf : BufRef) (k : Nat),
    s.inv = true → s.e.pc = .idle → s.onlyChoices → s.issues .scan len buf [] → runSteps k s = .next t →
    t.returnedOk →
    ∃ (old : List BusEvent) (ks : List Bool), s.closes old ∧ ks.length = 128 ∧ t.scanOut = acknowledged 0 ks ∧
      t.busTrace ++ t.pendingStop = s.busTrace ++ old ++ scanEvents 0 ks ∧ t.mem = s.mem ∧
      ∀ present, s.slaves = .mock present → ks = presentAcks present

end
end

