-- ==== Sys2Proof/Laws/State.lean ====
section
/-! SUPPORT. What each update of the state does to each field, one lemma per field per update, for simp. -/

namespace Sys2Proof.Machine

open Sys2Proof

@[simp] theorem State.setPc_e (s : State) (l : Label) : (s.setPc l).e = { s.e with pc := l } := rfl
@[simp] theorem State.setPc_p (s : State) (l : Label) : (s.setPc l).p = s.p := rfl
@[simp] theorem State.setPc_result (s : State) (l : Label) : (s.setPc l).result = s.result := rfl
@[simp] theorem State.setPc_rdata (s : State) (l : Label) : (s.setPc l).rdata = s.rdata := rfl
@[simp] theorem State.setPc_scanOut (s : State) (l : Label) : (s.setPc l).scanOut = s.scanOut := rfl
@[simp] theorem State.setPc_mem (s : State) (l : Label) : (s.setPc l).mem = s.mem := rfl
@[simp] theorem State.setPc_busTrace (s : State) (l : Label) : (s.setPc l).busTrace = s.busTrace := rfl
@[simp] theorem State.setPc_primTrace (s : State) (l : Label) : (s.setPc l).primTrace = s.primTrace := rfl
@[simp] theorem State.setPc_slaves (s : State) (l : Label) : (s.setPc l).slaves = s.slaves := rfl
@[simp] theorem State.setPc_reserved (s : State) (l : Label) : (s.setPc l).reserved = s.reserved := rfl
@[simp] theorem State.setPc_params (s : State) (l : Label) : (s.setPc l).params = s.params := rfl
@[simp] theorem State.setPc_side (s : State) (l : Label) : (s.setPc l).side = s.side := rfl
@[simp] theorem State.setPc_calls (s : State) (l : Label) : (s.setPc l).calls = s.calls := rfl
@[simp] theorem State.setPc_script (s : State) (l : Label) : (s.setPc l).script = s.script := rfl
@[simp] theorem State.setPc_freeTail (s : State) (l : Label) : (s.setPc l).freeTail = s.freeTail := rfl
@[simp] theorem State.setPc_picks (s : State) (l : Label) : (s.setPc l).picks = s.picks := rfl
@[simp] theorem State.setPc_waiting (s : State) (l : Label) : (s.setPc l).waiting = s.waiting := rfl
@[simp] theorem State.setPc_patience (s : State) (l : Label) : (s.setPc l).patience = s.patience := rfl
@[simp] theorem State.setPc_draws (s : State) (l : Label) : (s.setPc l).draws = s.draws := rfl
@[simp] theorem State.setPc_snaps (s : State) (l : Label) : (s.setPc l).snaps = s.snaps := rfl

@[simp] theorem State.setPolls_e (s : State) (n : Nat) : (s.setPolls n).e = { s.e with polls := n } := rfl
@[simp] theorem State.setPolls_p (s : State) (n : Nat) : (s.setPolls n).p = s.p := rfl
@[simp] theorem State.setPolls_result (s : State) (n : Nat) : (s.setPolls n).result = s.result := rfl
@[simp] theorem State.setPolls_rdata (s : State) (n : Nat) : (s.setPolls n).rdata = s.rdata := rfl
@[simp] theorem State.setPolls_scanOut (s : State) (n : Nat) : (s.setPolls n).scanOut = s.scanOut := rfl
@[simp] theorem State.setPolls_mem (s : State) (n : Nat) : (s.setPolls n).mem = s.mem := rfl
@[simp] theorem State.setPolls_busTrace (s : State) (n : Nat) : (s.setPolls n).busTrace = s.busTrace := rfl
@[simp] theorem State.setPolls_primTrace (s : State) (n : Nat) : (s.setPolls n).primTrace = s.primTrace := rfl
@[simp] theorem State.setPolls_slaves (s : State) (n : Nat) : (s.setPolls n).slaves = s.slaves := rfl
@[simp] theorem State.setPolls_reserved (s : State) (n : Nat) : (s.setPolls n).reserved = s.reserved := rfl
@[simp] theorem State.setPolls_params (s : State) (n : Nat) : (s.setPolls n).params = s.params := rfl
@[simp] theorem State.setPolls_side (s : State) (n : Nat) : (s.setPolls n).side = s.side := rfl
@[simp] theorem State.setPolls_calls (s : State) (n : Nat) : (s.setPolls n).calls = s.calls := rfl
@[simp] theorem State.setPolls_script (s : State) (n : Nat) : (s.setPolls n).script = s.script := rfl
@[simp] theorem State.setPolls_freeTail (s : State) (n : Nat) : (s.setPolls n).freeTail = s.freeTail := rfl
@[simp] theorem State.setPolls_picks (s : State) (n : Nat) : (s.setPolls n).picks = s.picks := rfl
@[simp] theorem State.setPolls_waiting (s : State) (n : Nat) : (s.setPolls n).waiting = s.waiting := rfl
@[simp] theorem State.setPolls_patience (s : State) (n : Nat) : (s.setPolls n).patience = s.patience := rfl
@[simp] theorem State.setPolls_draws (s : State) (n : Nat) : (s.setPolls n).draws = s.draws := rfl
@[simp] theorem State.setPolls_snaps (s : State) (n : Nat) : (s.setPolls n).snaps = s.snaps := rfl

@[simp] theorem State.setP_e (s : State) (q : Periph) : (s.setP q).e = s.e := rfl
@[simp] theorem State.setP_p (s : State) (q : Periph) : (s.setP q).p = q := rfl
@[simp] theorem State.setP_result (s : State) (q : Periph) : (s.setP q).result = s.result := rfl
@[simp] theorem State.setP_rdata (s : State) (q : Periph) : (s.setP q).rdata = s.rdata := rfl
@[simp] theorem State.setP_scanOut (s : State) (q : Periph) : (s.setP q).scanOut = s.scanOut := rfl
@[simp] theorem State.setP_mem (s : State) (q : Periph) : (s.setP q).mem = s.mem := rfl
@[simp] theorem State.setP_busTrace (s : State) (q : Periph) : (s.setP q).busTrace = s.busTrace := rfl
@[simp] theorem State.setP_primTrace (s : State) (q : Periph) : (s.setP q).primTrace = s.primTrace := rfl
@[simp] theorem State.setP_slaves (s : State) (q : Periph) : (s.setP q).slaves = s.slaves := rfl
@[simp] theorem State.setP_reserved (s : State) (q : Periph) : (s.setP q).reserved = s.reserved := rfl
@[simp] theorem State.setP_params (s : State) (q : Periph) : (s.setP q).params = s.params := rfl
@[simp] theorem State.setP_side (s : State) (q : Periph) : (s.setP q).side = s.side := rfl
@[simp] theorem State.setP_calls (s : State) (q : Periph) : (s.setP q).calls = s.calls := rfl
@[simp] theorem State.setP_script (s : State) (q : Periph) : (s.setP q).script = s.script := rfl
@[simp] theorem State.setP_freeTail (s : State) (q : Periph) : (s.setP q).freeTail = s.freeTail := rfl
@[simp] theorem State.setP_picks (s : State) (q : Periph) : (s.setP q).picks = s.picks := rfl
@[simp] theorem State.setP_waiting (s : State) (q : Periph) : (s.setP q).waiting = s.waiting := rfl
@[simp] theorem State.setP_patience (s : State) (q : Periph) : (s.setP q).patience = s.patience := rfl
@[simp] theorem State.setP_draws (s : State) (q : Periph) : (s.setP q).draws = s.draws := rfl
@[simp] theorem State.setP_snaps (s : State) (q : Periph) : (s.setP q).snaps = s.snaps := rfl

@[simp] theorem State.emit_e (s : State) (ev : BusEvent) : (s.emit ev).e = s.e := rfl
@[simp] theorem State.emit_p (s : State) (ev : BusEvent) : (s.emit ev).p = s.p := rfl
@[simp] theorem State.emit_result (s : State) (ev : BusEvent) : (s.emit ev).result = s.result := rfl
@[simp] theorem State.emit_rdata (s : State) (ev : BusEvent) : (s.emit ev).rdata = s.rdata := rfl
@[simp] theorem State.emit_scanOut (s : State) (ev : BusEvent) : (s.emit ev).scanOut = s.scanOut := rfl
@[simp] theorem State.emit_mem (s : State) (ev : BusEvent) : (s.emit ev).mem = s.mem := rfl
@[simp] theorem State.emit_busTrace (s : State) (ev : BusEvent) : (s.emit ev).busTrace = s.busTrace ++ [ev] := rfl
@[simp] theorem State.emit_primTrace (s : State) (ev : BusEvent) : (s.emit ev).primTrace = s.primTrace := rfl
@[simp] theorem State.emit_slaves (s : State) (ev : BusEvent) : (s.emit ev).slaves = s.slaves := rfl
@[simp] theorem State.emit_reserved (s : State) (ev : BusEvent) : (s.emit ev).reserved = s.reserved := rfl
@[simp] theorem State.emit_params (s : State) (ev : BusEvent) : (s.emit ev).params = s.params := rfl
@[simp] theorem State.emit_side (s : State) (ev : BusEvent) : (s.emit ev).side = s.side := rfl
@[simp] theorem State.emit_calls (s : State) (ev : BusEvent) : (s.emit ev).calls = s.calls := rfl
@[simp] theorem State.emit_script (s : State) (ev : BusEvent) : (s.emit ev).script = s.script := rfl
@[simp] theorem State.emit_freeTail (s : State) (ev : BusEvent) : (s.emit ev).freeTail = s.freeTail := rfl
@[simp] theorem State.emit_picks (s : State) (ev : BusEvent) : (s.emit ev).picks = s.picks := rfl
@[simp] theorem State.emit_waiting (s : State) (ev : BusEvent) : (s.emit ev).waiting = s.waiting := rfl
@[simp] theorem State.emit_patience (s : State) (ev : BusEvent) : (s.emit ev).patience = s.patience := rfl
@[simp] theorem State.emit_draws (s : State) (ev : BusEvent) : (s.emit ev).draws = s.draws := rfl
@[simp] theorem State.emit_snaps (s : State) (ev : BusEvent) : (s.emit ev).snaps = s.snaps := rfl

@[simp] theorem State.record_e (s : State) (w : PrimWord) (ret : Option PrimWord) : (s.record w ret).e = s.e := rfl
@[simp] theorem State.record_p (s : State) (w : PrimWord) (ret : Option PrimWord) : (s.record w ret).p = s.p := rfl
@[simp] theorem State.record_result (s : State) (w : PrimWord) (ret : Option PrimWord) : (s.record w ret).result = s.result := rfl
@[simp] theorem State.record_rdata (s : State) (w : PrimWord) (ret : Option PrimWord) : (s.record w ret).rdata = s.rdata := rfl
@[simp] theorem State.record_scanOut (s : State) (w : PrimWord) (ret : Option PrimWord) : (s.record w ret).scanOut = s.scanOut := rfl
@[simp] theorem State.record_mem (s : State) (w : PrimWord) (ret : Option PrimWord) : (s.record w ret).mem = s.mem := rfl
@[simp] theorem State.record_busTrace (s : State) (w : PrimWord) (ret : Option PrimWord) : (s.record w ret).busTrace = s.busTrace := rfl
@[simp] theorem State.record_primTrace (s : State) (w : PrimWord) (ret : Option PrimWord) : (s.record w ret).primTrace = s.primTrace ++ [⟨w, ret⟩] := rfl
@[simp] theorem State.record_slaves (s : State) (w : PrimWord) (ret : Option PrimWord) : (s.record w ret).slaves = s.slaves := rfl
@[simp] theorem State.record_reserved (s : State) (w : PrimWord) (ret : Option PrimWord) : (s.record w ret).reserved = s.reserved := rfl
@[simp] theorem State.record_params (s : State) (w : PrimWord) (ret : Option PrimWord) : (s.record w ret).params = s.params := rfl
@[simp] theorem State.record_side (s : State) (w : PrimWord) (ret : Option PrimWord) : (s.record w ret).side = s.side := rfl
@[simp] theorem State.record_calls (s : State) (w : PrimWord) (ret : Option PrimWord) : (s.record w ret).calls = s.calls := rfl
@[simp] theorem State.record_script (s : State) (w : PrimWord) (ret : Option PrimWord) : (s.record w ret).script = s.script := rfl
@[simp] theorem State.record_freeTail (s : State) (w : PrimWord) (ret : Option PrimWord) : (s.record w ret).freeTail = s.freeTail := rfl
@[simp] theorem State.record_picks (s : State) (w : PrimWord) (ret : Option PrimWord) : (s.record w ret).picks = s.picks := rfl
@[simp] theorem State.record_waiting (s : State) (w : PrimWord) (ret : Option PrimWord) : (s.record w ret).waiting = s.waiting := rfl
@[simp] theorem State.record_patience (s : State) (w : PrimWord) (ret : Option PrimWord) : (s.record w ret).patience = s.patience := rfl
@[simp] theorem State.record_draws (s : State) (w : PrimWord) (ret : Option PrimWord) : (s.record w ret).draws = s.draws := rfl
@[simp] theorem State.record_snaps (s : State) (w : PrimWord) (ret : Option PrimWord) : (s.record w ret).snaps = s.snaps := rfl

/-! The reserved bits: no update of the Bus Interface or of the sequencer touches the value recorded next. -/

@[simp] theorem ReservedBits.bitsAt_zero (n : Nat) : ReservedBits.zero.bitsAt n = 0#16 := rfl
@[simp] theorem withReserved_zero (flags mask : PrimWord) : withReserved flags mask 0#16 = flags := by
  simp [withReserved]
@[simp] theorem State.setPc_reservedNow (s : State) (l : Label) : (s.setPc l).reservedNow = s.reservedNow := rfl
@[simp] theorem State.setPolls_reservedNow (s : State) (n : Nat) : (s.setPolls n).reservedNow = s.reservedNow := rfl
@[simp] theorem State.setP_reservedNow (s : State) (q : Periph) : (s.setP q).reservedNow = s.reservedNow := rfl
@[simp] theorem State.emit_reservedNow (s : State) (ev : BusEvent) : (s.emit ev).reservedNow = s.reservedNow := rfl

/-- A bit of a named position is the flag's, whatever the reserved bits (R60). -/
theorem withReserved_named {flags mask rsv : PrimWord} {n : Nat} (h : mask.getLsbD n = true) :
    (withReserved flags mask rsv).getLsbD n = flags.getLsbD n := by
  simp [withReserved, h]

/-- A reserved bit, where no flag has it, is the reserved value's (93 I6). -/
theorem withReserved_reserved {flags mask rsv : PrimWord} {n : Nat} (hn : n < 16) (h : mask.getLsbD n = false)
    (hf : flags.getLsbD n = false) : (withReserved flags mask rsv).getLsbD n = rsv.getLsbD n := by
  rw [withReserved, BitVec.getLsbD_or, BitVec.getLsbD_and, BitVec.getLsbD_not, h, hf]
  simp [hn]

/-! The flag record of a status read. -/

@[simp] theorem StatusFlags.withBusy_addr (f : StatusFlags) (b : Bool) : (f.withBusy b).addr = f.addr := rfl

/-! Outcomes: the three forms are distinct and injective. -/

@[simp] theorem outcomeOf_ok (s : State) : outcomeOf (.ok s) = .next s := rfl
@[simp] theorem outcomeOf_error (f : Fault) : outcomeOf (.error f) = .fault f := rfl

@[simp] theorem readWritten_some {α : Type} (v : α) : readWritten (some v) = .ok v := rfl
@[simp] theorem readWritten_none {α : Type} : readWritten (none : Option α) = .error .unwrittenRead := rfl

/-- A register read succeeds exactly when the register is written. -/
theorem readWritten_ok_iff {α : Type} (o : Option α) (v : α) : readWritten o = .ok v ↔ o = some v := by
  cases o <;> simp [readWritten]

end Sys2Proof.Machine
end

