-- ==== Sys2Proof/Laws/Memory.lean ====
section
/-! SUPPORT. Byte memory: the canonical form is kept by every operation, a read after a write to the same address gives
the value written, and a write leaves every other address alone. -/

namespace Sys2Proof.Machine

open Sys2Proof

theorem Memory.wfFrom_cons (lo k : Nat) (v : Byte) (m : Memory) :
    Memory.wfFrom lo ((k, v) :: m) = true ↔
      lo ≤ k ∧ v ≠ Config.unlistedByte ∧ Memory.wfFrom (k + 1) m = true := by
  simp [Memory.wfFrom, and_assoc]

/-- A canonical memory is canonical from any lower address on. -/
theorem Memory.wfFrom_mono {lo lo' : Nat} (h : lo' ≤ lo) {m : Memory} (hm : Memory.wfFrom lo m = true) :
    Memory.wfFrom lo' m = true := by
  cases m with
  | nil => rfl
  | cons c m =>
    obtain ⟨k, v⟩ := c
    rw [Memory.wfFrom_cons] at hm ⊢
    exact ⟨Nat.le_trans h hm.1, hm.2⟩

/-- Below its first address a canonical memory lists nothing. -/
theorem Memory.read_below {lo a : Nat} {m : Memory} (hm : Memory.wfFrom lo m = true) (h : a < lo) :
    Memory.read m a = Config.unlistedByte := by
  induction m generalizing lo with
  | nil => rfl
  | cons c m ih =>
    obtain ⟨k, v⟩ := c
    rw [Memory.wfFrom_cons] at hm
    have hne : a ≠ k := by omega
    simp only [Memory.read, hne, if_false]
    exact ih hm.2.2 (by omega)

theorem Memory.put_wfFrom {lo a : Nat} {v : Byte} {m : Memory} (hlo : lo ≤ a)
    (hm : Memory.wfFrom (a + 1) m = true) : Memory.wfFrom lo (Memory.put a v m) = true := by
  unfold Memory.put
  split
  · exact Memory.wfFrom_mono (by omega) hm
  · rename_i hv
    exact (Memory.wfFrom_cons ..).2 ⟨hlo, hv, hm⟩

theorem Memory.write_wfFrom {lo a : Nat} {v : Byte} {m : Memory} (hlo : lo ≤ a)
    (hm : Memory.wfFrom lo m = true) : Memory.wfFrom lo (Memory.write m a v) = true := by
  induction m generalizing lo with
  | nil => exact Memory.put_wfFrom hlo rfl
  | cons c m ih =>
    obtain ⟨k, w⟩ := c
    have hc := (Memory.wfFrom_cons ..).1 hm
    simp only [Memory.write]
    split
    · rename_i hak
      exact Memory.put_wfFrom hlo ((Memory.wfFrom_cons ..).2 ⟨by omega, hc.2⟩)
    · split
      · rename_i _ hak
        subst hak
        exact Memory.put_wfFrom hlo hc.2.2
      · exact (Memory.wfFrom_cons ..).2 ⟨hc.1, hc.2.1, ih (by omega) hc.2.2⟩

/-- Every write keeps the canonical form. -/
theorem Memory.write_wf {m : Memory} (a : Nat) (v : Byte) (hm : m.wf = true) : (Memory.write m a v).wf = true :=
  Memory.write_wfFrom (Nat.zero_le a) hm

/-- Writing several bytes keeps the canonical form. -/
theorem Memory.writeBytes_wf {m : Memory} (a : Nat) (bs : List Byte) (hm : m.wf = true) :
    (Memory.writeBytes m a bs).wf = true := by
  induction bs generalizing m a with
  | nil => exact hm
  | cons b bs ih => exact ih (a + 1) (Memory.write_wf a b hm)

theorem Memory.put_read_same {a : Nat} {v : Byte} {m : Memory} (hm : Memory.wfFrom (a + 1) m = true) :
    Memory.read (Memory.put a v m) a = v := by
  unfold Memory.put
  split
  · rename_i hv
    rw [Memory.read_below hm (by omega), hv]
  · simp [Memory.read]

theorem Memory.put_read_other {a b : Nat} (v : Byte) (m : Memory) (h : b ≠ a) :
    Memory.read (Memory.put a v m) b = Memory.read m b := by
  unfold Memory.put
  split
  · rfl
  · simp [Memory.read, h]

theorem Memory.read_write_same_from {lo a : Nat} {v : Byte} {m : Memory} (hm : Memory.wfFrom lo m = true) :
    Memory.read (Memory.write m a v) a = v := by
  induction m generalizing lo with
  | nil => exact Memory.put_read_same rfl
  | cons c m ih =>
    obtain ⟨k, w⟩ := c
    have hc := (Memory.wfFrom_cons ..).1 hm
    simp only [Memory.write]
    split
    · exact Memory.put_read_same ((Memory.wfFrom_cons ..).2 ⟨by omega, hc.2⟩)
    · split
      · rename_i _ hak
        subst hak
        exact Memory.put_read_same hc.2.2
      · rename_i _ hak
        simp only [Memory.read, hak, if_false]
        exact ih hc.2.2

/-- A read after a write to the same address gives the value written. -/
theorem Memory.read_write_same {m : Memory} (a : Nat) (v : Byte) (hm : m.wf = true) :
    Memory.read (Memory.write m a v) a = v :=
  Memory.read_write_same_from hm

/-- A write leaves every other address alone. -/
theorem Memory.read_write_other {a b : Nat} (v : Byte) (m : Memory) (h : b ≠ a) :
    Memory.read (Memory.write m a v) b = Memory.read m b := by
  induction m with
  | nil => exact Memory.put_read_other v [] h
  | cons c m ih =>
    obtain ⟨k, w⟩ := c
    simp only [Memory.write]
    split
    · exact Memory.put_read_other v _ h
    · split
      · rename_i _ hak
        subst hak
        rw [Memory.put_read_other v m h]
        simp [Memory.read, h]
      · simp only [Memory.read, ih]

/-- Writing several bytes leaves every address outside them alone. -/
theorem Memory.read_writeBytes_other {m : Memory} {base a : Nat} {bs : List Byte}
    (h : a < base ∨ base + bs.length ≤ a) : Memory.read (Memory.writeBytes m base bs) a = Memory.read m a := by
  induction bs generalizing m base with
  | nil => rfl
  | cons b bs ih =>
    simp only [List.length_cons] at h
    rw [Memory.writeBytes, ih (by omega), Memory.read_write_other b m (by omega)]

/-- The memory of the state after reset is in canonical form. -/
theorem reset_mem_wf : State.reset.mem.wf = true := rfl

/-! ## The Transfer Buffer -/

theorem bufWrite_ok {r : BufRef} {i : Nat} {v : Byte} {s t : State} (h : bufWrite r i v s = .ok t) :
    i < r.size ∧ t = { s with mem := s.mem.write (r.base + i) v } := by
  unfold bufWrite at h
  split at h
  · rename_i hi
    exact ⟨hi, (Except.ok.inj h).symm⟩
  · cases h

theorem bufRead_ok {r : BufRef} {i : Nat} {b : Byte} {s : State} (h : bufRead r i s = .ok b) :
    i < r.size ∧ b = s.mem.read (r.base + i) := by
  unfold bufRead at h
  split at h
  · rename_i hi
    exact ⟨hi, (Except.ok.inj h).symm⟩
  · cases h

/-- `BufWrite` keeps the canonical form. -/
theorem bufWrite_wf {r : BufRef} {i : Nat} {v : Byte} {s t : State} (h : bufWrite r i v s = .ok t)
    (hs : s.mem.wf = true) : t.mem.wf = true := by
  obtain ⟨_, rfl⟩ := bufWrite_ok h
  exact Memory.write_wf _ _ hs

end Sys2Proof.Machine
end

