-- ==== Sys2Proof/Laws/Ops.lean ====
section
/-! SUPPORT. What each shared operation can do, said once: the primitives, one poll, failing and returning, acceptance
and the actions of the step tables. -/

namespace Sys2Proof.Machine

open Sys2Proof

/-! ## What an engine-side operation leaves alone -/

/-- The two states agree on all that no engine step touches: the bus trace, the slaves, the reserved bits, the
parameters and the inputs. -/
def SameOutside (s t : State) : Prop :=
  t.busTrace = s.busTrace ∧ t.slaves = s.slaves ∧ t.reserved = s.reserved ∧ t.params = s.params ∧ t.side = s.side ∧
    t.calls = s.calls ∧ t.script = s.script ∧ t.freeTail = s.freeTail ∧ t.picks = s.picks ∧
    t.waiting = s.waiting ∧ t.patience = s.patience ∧ t.draws = s.draws

theorem SameOutside.refl (s : State) : SameOutside s s := ⟨rfl, rfl, rfl, rfl, rfl, rfl, rfl, rfl, rfl, rfl, rfl, rfl⟩

theorem SameOutside.trans {s t u : State} (h : SameOutside s t) (h' : SameOutside t u) : SameOutside s u := by
  unfold SameOutside at *
  simp_all

/-! ## Primitives (R63 to R69) -/

/-- `WRITE_DR` succeeds in one of two ways (R65). -/
theorem primWriteDr_cases {b : Byte} {s t : State} (h : primWriteDr b s = .ok t) :
    (s.p.mode = .pStart ∧
      t = (s.setP { s.p with sb := false, addrResolved := false, target := none, mode := .pAddr b }).record
        (primWord 0x3 b) none) ∨
    (s.p.mode = .pTx ∧ s.p.drTx = none ∧
      t = (s.setP { s.p with drTx := some b, txe := false, btf := false }).record (primWord 0x3 b) none) := by
  unfold primWriteDr at h
  split at h
  · rename_i hm
    exact .inl ⟨hm, (Except.ok.inj h).symm⟩
  · rename_i hm
    split at h
    · rename_i hd
      exact .inr ⟨hm, hd, (Except.ok.inj h).symm⟩
    · cases h
  all_goals cases h

/-- `READ_DR` succeeds with the received byte (R66). -/
theorem primReadDr_cases {v : Byte} {s t : State} (h : primReadDr s = .ok (v, t)) :
    s.p.drRx = some v ∧
      t = (s.setP { s.p with rxne := false, btf := false }).record (primWord 0x4 0) (some (v.setWidth 16)) := by
  unfold primReadDr at h
  cases hd : s.p.drRx with
  | none => rw [hd] at h; cases h
  | some w =>
    rw [hd] at h
    cases h
    exact ⟨rfl, rfl⟩

theorem primWriteDr_sameOutside {b : Byte} {s t : State} (h : primWriteDr b s = .ok t) :
    SameOutside s t ∧ t.e = s.e ∧ t.mem = s.mem := by
  obtain ⟨-, rfl⟩ | ⟨-, -, rfl⟩ := primWriteDr_cases h <;> exact ⟨SameOutside.refl s, rfl, rfl⟩

theorem primReadDr_sameOutside {v : Byte} {s t : State} (h : primReadDr s = .ok (v, t)) :
    SameOutside s t ∧ t.e = s.e ∧ t.mem = s.mem := by
  obtain ⟨-, rfl⟩ := primReadDr_cases h
  exact ⟨SameOutside.refl s, rfl, rfl⟩

/-! ## One poll (R90, R91) -/

/-- The poller tests the flag as it stands, by the read of its register. -/
theorem pollOnce_eq (c : WaitCond) (s : State) :
    pollOnce c s = (c.holds s.p, if c = .notBusy then (primReadStatus2 s).2 else (primReadStatus s).2) := by
  cases c <;> rfl

theorem pollOnce_sameOutside (c : WaitCond) (s : State) :
    SameOutside s (pollOnce c s).2 ∧ (pollOnce c s).2.e = s.e ∧ (pollOnce c s).2.mem = s.mem := by
  cases c <;> exact ⟨SameOutside.refl s, rfl, rfl⟩

/-- An unsatisfied poll does one of three things (R91). -/
theorem pollMissed_cases (c : WaitCond) (s : State) :
    (s.params.policy = .spin ∧ pollMissed c s = s) ∨
    (s.params.policy = .bounded ∧ s.e.polls + 1 = s.params.timeoutPolls ∧
      pollMissed c s = takeAbort c.expiry s) ∨
    (s.params.policy = .bounded ∧ s.e.polls + 1 ≠ s.params.timeoutPolls ∧
      pollMissed c s = s.setPolls (s.e.polls + 1)) := by
  unfold pollMissed
  split
  · rename_i h
    exact .inl ⟨h, rfl⟩
  · rename_i h
    split
    · rename_i hp
      exact .inr (.inl ⟨h, hp, rfl⟩)
    · rename_i hp
      exact .inr (.inr ⟨h, hp, rfl⟩)

/-! ## Successors -/

/-- Moving to a successor changes the label only. -/
theorem advance_next {k : Succ} {c : Command} {s t : State} (h : advance k c s = .next t) :
    ∃ l, succLabel k c s = .ok l ∧ t = s.setPc l := by
  unfold advance at h
  split at h
  · rename_i l hl
    cases h
    exact ⟨l, hl, rfl⟩
  · cases h

theorem advance_not_refused (k : Succ) (c : Command) (s : State) (r : Refusal) : advance k c s ≠ .refused r := by
  unfold advance
  split <;> simp

/-! ## Acceptance (R55, R133) -/

/-- Acceptance ends in a refusal, a rejection or a latched command. -/
theorem accept_cases (op : Op) (addr : Addr7) (reg data : Byte) (first : Label) (s : State) :
    (s.e.pc ≠ .idle ∧ accept op addr reg data first s = .refused .engineBusy) ∨
    (s.e.pc = .idle ∧ s.p.initialized = false ∧ accept op addr reg data first s = .refused .notInitialized) ∨
    (s.e.pc = .idle ∧ s.p.initialized = true ∧ op.takesBuffer = true ∧ sideOperandsOk s = false ∧
      accept op addr reg data first s = .next (rejectCommand s)) ∨
    (s.e.pc = .idle ∧ s.p.initialized = true ∧ (op.takesBuffer = true → sideOperandsOk s = true) ∧
      accept op addr reg data first s = .next (latch (commandOf op addr reg data s) first s)) := by
  unfold accept gated
  by_cases hpc : s.e.pc = .idle
  · cases hi : s.p.initialized
    · exact .inr (.inl ⟨hpc, rfl, by simp [hpc]⟩)
    · cases hb : op.takesBuffer
      · exact .inr (.inr (.inr ⟨hpc, rfl, by simp, by simp [hpc]⟩))
      · cases hs : sideOperandsOk s
        · exact .inr (.inr (.inl ⟨hpc, rfl, rfl, rfl, by simp [hpc, hs]⟩))
        · exact .inr (.inr (.inr ⟨hpc, rfl, by simp, by simp [hpc, hs]⟩))
  · exact .inl ⟨hpc, by simp [hpc]⟩

/-! ## The actions of the step tables -/

theorem actSendBuf_ok {c : Command} {s t : State} (h : actSendBuf c s = .ok t) :
    ∃ i b u, s.e.idx = some i ∧ bufRead c.buf i s = .ok b ∧ primWriteDr b s = .ok u ∧
      t = { u with e := { u.e with idx := some (i + 1) } } := by
  unfold actSendBuf at h
  cases hi : s.e.idx with
  | none => rw [hi] at h; cases h
  | some i =>
    rw [hi] at h
    cases hb : bufRead c.buf i s with
    | error f => simp [hb, bind, Except.bind] at h
    | ok b =>
      cases hu : primWriteDr b s with
      | error f => simp [hb, hu, bind, Except.bind] at h
      | ok u =>
        simp only [readWritten_some, bind, Except.bind, hb, hu, Except.ok.injEq] at h
        exact ⟨i, b, u, rfl, hb, hu, h.symm⟩

theorem actCaptureRdata_ok {s t : State} (h : actCaptureRdata s = .ok t) :
    ∃ v u, primReadDr s = .ok (v, u) ∧ t = { u with rdata := some v } := by
  unfold actCaptureRdata at h
  cases hr : primReadDr s with
  | error f => simp [hr, bind, Except.bind] at h
  | ok vu =>
    obtain ⟨v, u⟩ := vu
    simp only [hr, bind, Except.bind, Except.ok.injEq] at h
    exact ⟨v, u, rfl, h.symm⟩

theorem actCaptureBuf_ok {c : Command} {s t : State} (h : actCaptureBuf c s = .ok t) :
    ∃ i r v u w, s.e.idx = some i ∧ s.e.rem = some r ∧ primReadDr s = .ok (v, u) ∧
      bufWrite c.buf i v u = .ok w ∧ t = { w with e := { w.e with idx := some (i + 1), rem := some (r - 1) } } := by
  unfold actCaptureBuf at h
  cases hi : s.e.idx with
  | none => rw [hi] at h; cases h
  | some i =>
    cases hr : s.e.rem with
    | none => rw [hi, hr] at h; cases h
    | some r =>
      rw [hi, hr] at h
      cases hv : primReadDr s with
      | error f => simp [hv, bind, Except.bind] at h
      | ok vu =>
        obtain ⟨v, u⟩ := vu
        cases hw : bufWrite c.buf i v u with
        | error f => simp [hv, hw, bind, Except.bind] at h
        | ok w =>
          simp only [readWritten_some, hv, hw, bind, Except.bind, Except.ok.injEq] at h
          exact ⟨i, r, v, u, w, rfl, rfl, rfl, hw, h.symm⟩

theorem actInspect_ok {s t : State} (h : actInspect s = .ok t) :
    ∃ a, s.e.sa = some a ∧
      t = { (primReadStatus s).2 with
            e := { s.e with snap := some (s.p.status.withBusy (Config.freeSnapBusy s.snaps)) }
            snaps := s.snaps + 1
            scanOut := if s.p.addr then s.scanOut ++ [probeAddr a] else s.scanOut } := by
  unfold actInspect at h
  cases ha : s.e.sa with
  | none => rw [ha] at h; cases h
  | some a =>
    rw [ha] at h
    cases h
    exact ⟨a, rfl, rfl⟩

/-- Every action leaves the outside alone: environment, parameters and inputs change only by other moves. -/
theorem doAct_sameOutside {a : Act} {c : Command} {s t : State} (h : doAct a c s = .ok t) : SameOutside s t := by
  cases a <;> simp only [doAct] at h
  case sendAddr => exact (primWriteDr_sameOutside h).1
  case sendReg => exact (primWriteDr_sameOutside h).1
  case sendData => exact (primWriteDr_sameOutside h).1
  case sendProbe =>
    cases hs : s.e.sa with
    | none => rw [hs] at h; cases h
    | some n =>
      rw [hs] at h
      exact (primWriteDr_sameOutside h).1
  case sendRegClearIdx =>
    cases hu : primWriteDr c.reg s with
    | error f => rw [hu] at h; cases h
    | ok u =>
      rw [hu] at h
      cases h
      exact (primWriteDr_sameOutside hu).1
  case sendBuf =>
    obtain ⟨i, b, u, -, -, hu, rfl⟩ := actSendBuf_ok h
    exact (primWriteDr_sameOutside hu).1
  case captureRdata =>
    obtain ⟨v, u, hu, rfl⟩ := actCaptureRdata_ok h
    exact (primReadDr_sameOutside hu).1
  case captureBuf =>
    obtain ⟨i, r, v, u, w, -, -, hu, hw, rfl⟩ := actCaptureBuf_ok h
    obtain ⟨-, rfl⟩ := bufWrite_ok hw
    exact (primReadDr_sameOutside hu).1
  case inspect =>
    obtain ⟨a, -, rfl⟩ := actInspect_ok h
    exact SameOutside.refl s
  case nextProbe =>
    cases hs : s.e.sa with
    | none => rw [hs] at h; cases h
    | some n =>
      rw [hs] at h
      cases h
      exact SameOutside.refl s
  all_goals
    cases h
    exact SameOutside.refl s

end Sys2Proof.Machine
end

