-- ==== Sys2Proof/Laws/Words.lean ====
section
/-! SUPPORT. The fields of a word built from fields, and a word rebuilt from its fields: the small facts under the
round trips of decoder and encoder. -/

namespace Sys2Proof

theorem opc_cmdWord (o : BitVec 4) (a : Addr7) (r d : Byte) : CmdWord.opc (cmdWord o a r d) = o := by
  unfold CmdWord.opc cmdWord
  refine BitVec.eq_of_getLsbD_eq fun j hj => ?_
  interval_cases j <;> simp

theorem reservedLow_cmdWord (o : BitVec 4) (a : Addr7) (r d : Byte) :
    CmdWord.reservedLow (cmdWord o a r d) = 0 := by
  unfold CmdWord.reservedLow cmdWord
  refine BitVec.eq_of_getLsbD_eq fun j hj => ?_
  interval_cases j <;> simp

theorem addr_cmdWord (o : BitVec 4) (a : Addr7) (r d : Byte) : CmdWord.addr (cmdWord o a r d) = a := by
  unfold CmdWord.addr cmdWord
  refine BitVec.eq_of_getLsbD_eq fun j hj => ?_
  interval_cases j <;> simp

theorem reservedHigh_cmdWord (o : BitVec 4) (a : Addr7) (r d : Byte) :
    CmdWord.reservedHigh (cmdWord o a r d) = 0 := by
  unfold CmdWord.reservedHigh cmdWord
  refine BitVec.eq_of_getLsbD_eq fun j hj => ?_
  interval_cases j
  simp

theorem reg_cmdWord (o : BitVec 4) (a : Addr7) (r d : Byte) : CmdWord.reg (cmdWord o a r d) = r := by
  unfold CmdWord.reg cmdWord
  refine BitVec.eq_of_getLsbD_eq fun j hj => ?_
  interval_cases j <;> simp

theorem data_cmdWord (o : BitVec 4) (a : Addr7) (r d : Byte) : CmdWord.data (cmdWord o a r d) = d := by
  unfold CmdWord.data cmdWord
  refine BitVec.eq_of_getLsbD_eq fun j hj => ?_
  interval_cases j <;> simp

theorem pk_primWord (k : BitVec 4) (b : Byte) : PrimWord.pk (primWord k b) = k := by
  unfold PrimWord.pk primWord
  refine BitVec.eq_of_getLsbD_eq fun j hj => ?_
  interval_cases j <;> simp

theorem reserved_primWord (k : BitVec 4) (b : Byte) : PrimWord.reserved (primWord k b) = 0 := by
  unfold PrimWord.reserved primWord
  refine BitVec.eq_of_getLsbD_eq fun j hj => ?_
  interval_cases j <;> simp

theorem opnd_primWord (k : BitVec 4) (b : Byte) : PrimWord.opnd (primWord k b) = b := by
  unfold PrimWord.opnd primWord
  refine BitVec.eq_of_getLsbD_eq fun j hj => ?_
  interval_cases j <;> simp

/-- A command word's fields rebuild it, but for its reserved bits. -/
theorem cmdWord_of_fields (w : CmdWord) :
    cmdWord (CmdWord.opc w) (CmdWord.addr w) (CmdWord.reg w) (CmdWord.data w) = w &&& 0xFFFF7F0F := by
  unfold cmdWord CmdWord.opc CmdWord.addr CmdWord.reg CmdWord.data
  refine BitVec.eq_of_getLsbD_eq fun j hj => ?_
  interval_cases j <;> simp

/-- A primitive word's fields rebuild it, but for its reserved bits. -/
theorem primWord_of_fields (w : PrimWord) :
    primWord (PrimWord.pk w) (PrimWord.opnd w) = w &&& 0xF0FF := by
  unfold primWord PrimWord.pk PrimWord.opnd
  refine BitVec.eq_of_getLsbD_eq fun j hj => ?_
  interval_cases j <;> simp

end Sys2Proof
end

