-- ==== Sys2Proof/Laws/PerInstr.lean ====
section
/-! SUPPORT. Statements made of every instruction, one lemma per constructor. The family `SelectsOwnRow` says that an
instruction's word matches its row of the opcode table under the row's mask (spec/30_encoding.md R53, R58). -/

namespace Sys2Proof.Laws.SelectsOwnRow

open Sys2Proof

/-- The encoded word of `i` has the match of `i`'s row under its mask. -/
def Statement (i : Instr) : Prop := selectsRow (encode i) i = true

theorem cmd_row (i : Instr) (o : BitVec 4) (a : Addr7) (r d : Byte) (he : encode i = .cmd (cmdWord o a r d))
    (h : cmdWord o a r d &&& BitVec.ofNat 32 (rowMask i) = BitVec.ofNat 32 (rowMatch i)) : Statement i := by
  unfold Statement selectsRow
  rw [he]
  simpa using h

theorem prim_row (i : Instr) (k : BitVec 4) (b : Byte) (he : encode i = .prim (primWord k b))
    (h : primWord k b &&& BitVec.ofNat 16 (rowMask i) = BitVec.ofNat 16 (rowMatch i)) : Statement i := by
  unfold Statement selectsRow
  rw [he]
  simpa using h

theorem scan : Statement .scan := by unfold Statement; decide

theorem writeByte (addr : Addr7) (data : Byte) : Statement (.writeByte addr data) := by
  refine cmd_row _ _ _ _ _ rfl (BitVec.eq_of_getLsbD_eq fun j hj => ?_)
  interval_cases j <;> simp [cmdWord, rowMask, rowMatch]

theorem writeMemoryByte (addr : Addr7) (reg data : Byte) : Statement (.writeMemoryByte addr reg data) := by
  refine cmd_row _ _ _ _ _ rfl (BitVec.eq_of_getLsbD_eq fun j hj => ?_)
  interval_cases j <;> simp [cmdWord, rowMask, rowMatch]

theorem readByte (addr : Addr7) : Statement (.readByte addr) := by
  refine cmd_row _ _ _ _ _ rfl (BitVec.eq_of_getLsbD_eq fun j hj => ?_)
  interval_cases j <;> simp [cmdWord, rowMask, rowMatch]

theorem readMemoryByte (addr : Addr7) (reg : Byte) : Statement (.readMemoryByte addr reg) := by
  refine cmd_row _ _ _ _ _ rfl (BitVec.eq_of_getLsbD_eq fun j hj => ?_)
  interval_cases j <;> simp [cmdWord, rowMask, rowMatch]

theorem readMemoryMulti (addr : Addr7) (reg : Byte) : Statement (.readMemoryMulti addr reg) := by
  refine cmd_row _ _ _ _ _ rfl (BitVec.eq_of_getLsbD_eq fun j hj => ?_)
  interval_cases j <;> simp [cmdWord, rowMask, rowMatch]

theorem writeMemoryMulti (addr : Addr7) (reg : Byte) : Statement (.writeMemoryMulti addr reg) := by
  refine cmd_row _ _ _ _ _ rfl (BitVec.eq_of_getLsbD_eq fun j hj => ?_)
  interval_cases j <;> simp [cmdWord, rowMask, rowMatch]

theorem issueStart : Statement .issueStart := by unfold Statement; decide

theorem issueStop : Statement .issueStop := by unfold Statement; decide

theorem writeDr (b : Byte) : Statement (.writeDr b) := by
  refine prim_row _ _ _ rfl (BitVec.eq_of_getLsbD_eq fun j hj => ?_)
  interval_cases j <;> simp [primWord, rowMask, rowMatch]

theorem readDr : Statement .readDr := by unfold Statement; decide

theorem readStatus : Statement .readStatus := by unfold Statement; decide

theorem readStatus2 : Statement .readStatus2 := by unfold Statement; decide

theorem setAck (e : Bool) : Statement (.setAck e) := by cases e <;> unfold Statement <;> decide

end Sys2Proof.Laws.SelectsOwnRow
end

