-- ==== Sys2Proof/Laws/Step.lean ====
section
/-! SUPPORT. What one machine step can do, said once, and what an environment step leaves alone. -/

namespace Sys2Proof.Machine

open Sys2Proof

/-! ## The slaves and the environment -/

/-- The two states agree on all but the slaves and the counter of their free answers. -/
def SameButSlaves (s t : State) : Prop :=
  ∃ sl d, t = { s with slaves := sl, draws := d }

theorem drawAck_sameButSlaves (s : State) : SameButSlaves s (drawAck s).2 := by
  unfold drawAck
  split <;> exact ⟨_, _, rfl⟩

theorem drawByte_sameButSlaves (s : State) : SameButSlaves s (drawByte s).2 := by
  unfold drawByte
  split <;> exact ⟨_, _, rfl⟩

theorem slaveAddrAck_sameButSlaves (a : Addr7) (d : Dir) (s : State) :
    SameButSlaves s (slaveAddrAck a d s).2 := by
  unfold slaveAddrAck
  split
  · split <;> exact ⟨_, _, rfl⟩
  · exact drawAck_sameButSlaves s

theorem slaveWrite_sameButSlaves (a : Addr7) (b : Byte) (s : State) : SameButSlaves s (slaveWrite a b s).2 := by
  unfold slaveWrite
  split
  · split
    · exact ⟨_, _, rfl⟩
    · exact drawAck_sameButSlaves s
  · exact drawAck_sameButSlaves s

theorem slaveRead_sameButSlaves (a : Addr7) (s : State) : SameButSlaves s (slaveRead a s).2 := by
  unfold slaveRead
  split
  · split
    · exact ⟨_, _, rfl⟩
    · exact drawByte_sameButSlaves s
  · exact drawByte_sameButSlaves s

theorem targetWrite_sameButSlaves (b : Byte) (s : State) : SameButSlaves s (targetWrite b s).2 := by
  unfold targetWrite
  split
  · exact slaveWrite_sameButSlaves _ b s
  · exact drawAck_sameButSlaves s

theorem targetRead_sameButSlaves (s : State) : SameButSlaves s (targetRead s).2 := by
  unfold targetRead
  split
  · exact slaveRead_sameButSlaves _ s
  · exact drawByte_sameButSlaves s

theorem targetWrite_some {s : State} {a : Addr7} {d : Dir} (h : s.p.target = some (a, d)) (b : Byte) :
    targetWrite b s = slaveWrite a b s := by simp [targetWrite, h]

theorem targetRead_some {s : State} {a : Addr7} {d : Dir} (h : s.p.target = some (a, d)) :
    targetRead s = slaveRead a s := by simp [targetRead, h]

/-- The two states agree on all that no environment step touches: the engine, the outputs, the caller's memory, the
primitive trace, the reserved bits, the parameters and the inputs. -/
def SameEngine (s t : State) : Prop :=
  t.e = s.e ∧ t.result = s.result ∧ t.rdata = s.rdata ∧ t.scanOut = s.scanOut ∧ t.mem = s.mem ∧
    t.primTrace = s.primTrace ∧ t.reserved = s.reserved ∧ t.params = s.params ∧ t.side = s.side ∧
    t.calls = s.calls ∧ t.script = s.script ∧ t.freeTail = s.freeTail ∧ t.picks = s.picks ∧
    t.waiting = s.waiting ∧ t.patience = s.patience ∧ t.snaps = s.snaps

theorem SameEngine.refl (s : State) : SameEngine s s :=
  ⟨rfl, rfl, rfl, rfl, rfl, rfl, rfl, rfl, rfl, rfl, rfl, rfl, rfl, rfl, rfl, rfl⟩

/-- No environment step stops. -/
theorem envStep_answers (k : EnvStep) (s : State) : ∃ t, envStep k s = .next t := by
  cases k <;> simp only [envStep] <;> first
    | exact ⟨_, rfl⟩
    | (split <;> exact ⟨_, rfl⟩)

/-- An environment step appends to the bus trace, and leaves the engine's side alone. -/
theorem envStep_next {k : EnvStep} {s t : State} (h : envStep k s = .next t) :
    SameEngine s t ∧ ∃ evs, t.busTrace = s.busTrace ++ evs := by
  cases k <;> simp only [envStep] at h
  case stop =>
    cases h
    unfold envStop
    split
    · exact ⟨SameEngine.refl s, [.P], rfl⟩
    · exact ⟨SameEngine.refl s, [], by simp⟩
  case start =>
    cases h
    exact ⟨SameEngine.refl s, _, rfl⟩
  case address =>
    split at h
    · rename_i b _
      cases h
      obtain ⟨sl, d, hs⟩ := slaveAddrAck_sameButSlaves (addrOfByte b) (dirOfByte b) s
      simp only [envAddress, hs]
      exact ⟨SameEngine.refl s, _, rfl⟩
    · cases h
      exact ⟨SameEngine.refl s, [], by simp⟩
  case txShift =>
    split at h
    · cases h
      exact ⟨SameEngine.refl s, [], by simp [envTxShift]⟩
    · cases h
      exact ⟨SameEngine.refl s, [], by simp⟩
  case txDone =>
    split at h
    · rename_i b _
      cases h
      obtain ⟨sl, d, hs⟩ := targetWrite_sameButSlaves b s
      simp only [envTxDone, hs]
      exact ⟨SameEngine.refl s, _, rfl⟩
    · cases h
      exact ⟨SameEngine.refl s, [], by simp⟩
  case receive =>
    cases h
    obtain ⟨sl, d, hs⟩ := targetRead_sameButSlaves s
    simp only [envReceive, hs]
    exact ⟨SameEngine.refl s, _, rfl⟩
  case extBusy =>
    cases h
    exact ⟨SameEngine.refl s, [], by simp [envExtBusy]⟩

/-! ## The scheduler -/

theorem firstEnabled_enabled {p : Periph} {k : EnvStep} (h : firstEnabled p = some k) : envEnabled k p = true := by
  unfold firstEnabled at h
  repeat' split at h
  all_goals first
    | cases h
      assumption
    | cases h

/-- At most one environment step is enabled beside the external bus use (R73 to R79). -/
theorem envEnabled_firstEnabled {p : Periph} {k : EnvStep} (h : envEnabled k p = true) (hk : ∀ b, k ≠ .extBusy b) :
    firstEnabled p = some k := by
  cases k with
  | stop => simp [firstEnabled, h]
  | start =>
    have hs : envEnabled .stop p = false := by simp_all [envEnabled]
    simp [firstEnabled, h, hs]
  | extBusy b => exact absurd rfl (hk b)
  | address | txShift | txDone | receive =>
    cases hm : p.mode <;> simp_all [firstEnabled, envEnabled, PMode.isAddr, Periph.quiet] <;>
      cases hs : p.shift <;> cases hd : p.drTx <;> simp_all

/-- What the reference scheduler does: an enabled environment step at a scheduling point, or the engine's turn. -/
theorem referenceStep_cases (s : State) :
    (∃ k, s.e.pc.yields = true ∧ envEnabled k s.p = true ∧ referenceStep s = envStep k s) ∨
    referenceStep s = turn s := by
  unfold referenceStep
  split
  · rename_i hy
    cases hk : firstEnabled s.p with
    | none => exact .inr rfl
    | some k => exact .inl ⟨k, hy, firstEnabled_enabled hk, rfl⟩
  · exact .inr rfl

theorem chosenStep_cases (c : Choice) (s : State) :
    (∃ k, s.e.pc.yields = true ∧ envEnabled k s.p = true ∧ chosenStep c s = envStep k s) ∨
    chosenStep c s = turn s := by
  cases c with
  | go => exact .inr rfl
  | env k =>
    simp only [chosenStep]
    split
    · rename_i h
      rw [Bool.and_eq_true] at h
      exact .inl ⟨k, h.1, h.2, rfl⟩
    · exact referenceStep_cases s

/-- The state with its schedule entry consumed: only the schedule's own fields differ. -/
def Consumed (s u : State) : Prop :=
  u = s ∨ (∃ c rest, s.script = .choose c :: rest ∧ u = { s with script := rest }) ∨
    (s.script = [] ∧ s.freeTail = true ∧
      u = { s with picks := u.picks, waiting := u.waiting, patience := u.patience })

theorem step_choose {s : State} {c : Choice} {rest : List Pick} (hs : s.script = .choose c :: rest) :
    step s = chosenStep c { s with script := rest } := by
  simp only [step, machineStep, hs]

theorem step_reset {s : State} {l : Launch} {rest : List Pick} (hs : s.script = .reset l :: rest) :
    step s = .next (hardwareReset l { s with script := rest }) := by
  simp only [step, machineStep, hs]

theorem step_prim {s : State} {w : PrimWord} {rest : List Pick} (hs : s.script = .prim w :: rest) :
    step s = runWord (.prim w) { s with script := rest } := by
  simp only [step, machineStep, hs]

theorem step_free {s : State} (hs : s.script = []) (hf : s.freeTail = true) : step s = freeStep s := by
  simp only [step, machineStep, hs, hf, if_true]

/-- Away from a scheduling point a free schedule gives the engine the turn. -/
theorem freeStep_turn {s : State} (h : s.e.pc.yields = false) :
    freeStep s = turn { s with waiting := s.stillWaiting } := by
  simp [freeStep, h]

/-- A step that stayed enabled for its delay is taken. -/
theorem freeStep_forced {s : State} {k : EnvStep} (hy : s.e.pc.yields = true) (hd : s.due = some (k, 0)) :
    freeStep s = envStep k { s with picks := s.picks + 1, waiting := none } := by
  simp [freeStep, hy, hd]

/-- A step that is passed over waits for one scheduling point less. -/
theorem freeStep_passed {s : State} {k : EnvStep} {n : Nat} (hy : s.e.pc.yields = true)
    (hd : s.due = some (k, n + 1)) : freeStep s = unforcedStep { s with waiting := some (k, n) } := by
  simp [freeStep, hy, hd]

theorem freeStep_none {s : State} (hy : s.e.pc.yields = true) (hd : s.due = none) :
    freeStep s = unforcedStep { s with waiting := none } := by
  simp [freeStep, hy, hd]

/-- What waits is the enabled step, with the delay it has left if it waited before. -/
theorem due_waiting {s : State} {k : EnvStep} {n : Nat} (hk : firstEnabled s.p = some k)
    (hw : s.waiting = some (k, n)) : s.due = some (k, n) := by
  simp [State.due, hk, hw]

theorem due_enabled {s : State} {k : EnvStep} (hk : firstEnabled s.p = some k) : ∃ n, s.due = some (k, n) := by
  unfold State.due
  rw [hk, Option.map_some]
  split
  · split <;> exact ⟨_, rfl⟩
  · exact ⟨_, rfl⟩

theorem due_some {s : State} {k : EnvStep} {n : Nat} (h : s.due = some (k, n)) : firstEnabled s.p = some k := by
  cases hk : firstEnabled s.p with
  | none => simp [State.due, hk] at h
  | some j =>
    obtain ⟨m, hm⟩ := due_enabled hk
    rw [hm] at h
    cases h
    rfl

/-- What an unforced scheduling point does. -/
theorem unforcedStep_cases (s : State) :
    ∃ u, u = { s with picks := s.picks + 1, patience := u.patience } ∧
      ((∃ k, u.e.pc.yields = true ∧ envEnabled k u.p = true ∧ unforcedStep s = envStep k u) ∨
        unforcedStep s = turn u) := by
  unfold unforcedStep
  split
  · exact ⟨_, rfl, chosenStep_cases _ _⟩
  · split
    · exact ⟨{ s with picks := s.picks + 1, patience := Config.freePatience s.picks }, rfl, .inr rfl⟩
    · rename_i n _
      exact ⟨{ s with picks := s.picks + 1, patience := n }, rfl, chosenStep_cases _ _⟩

/-- What a step of a free schedule does. -/
theorem freeStep_cases (s : State) :
    ∃ u, u = { s with picks := u.picks, waiting := u.waiting, patience := u.patience } ∧
      ((∃ k, u.e.pc.yields = true ∧ envEnabled k u.p = true ∧ freeStep s = envStep k u) ∨ freeStep s = turn u) := by
  have unforced : ∀ w, freeStep s = unforcedStep { s with waiting := w } →
      ∃ u, u = { s with picks := u.picks, waiting := u.waiting, patience := u.patience } ∧
        ((∃ k, u.e.pc.yields = true ∧ envEnabled k u.p = true ∧ freeStep s = envStep k u) ∨
          freeStep s = turn u) := by
    intro w hw
    obtain ⟨u, hu, h⟩ := unforcedStep_cases { s with waiting := w }
    rw [hw]
    exact ⟨u, by rw [hu], h⟩
  cases hy : s.e.pc.yields with
  | false => exact ⟨_, rfl, .inr (freeStep_turn hy)⟩
  | true =>
    cases hd : s.due with
    | none => exact unforced _ (freeStep_none hy hd)
    | some w =>
      obtain ⟨k, n⟩ := w
      cases n with
      | zero =>
        have hk := firstEnabled_enabled (due_some hd)
        exact ⟨{ s with picks := s.picks + 1, waiting := none }, rfl, .inl ⟨k, hy, hk, freeStep_forced hy hd⟩⟩
      | succ n => exact unforced _ (freeStep_passed hy hd)

theorem step_reference {s : State} (h : s.reference) : step s = referenceStep s := by
  have hf : ¬ s.freeTail = true := by simp [h.2]
  simp only [step, machineStep, h.1, if_neg hf]

/-- One machine step is a hardware reset, a primitive word from outside, an environment step at a scheduling point, or
the engine's or Caller's turn. -/
theorem step_cases (s : State) :
    (∃ l rest, s.script = .reset l :: rest ∧ step s = .next (hardwareReset l { s with script := rest })) ∨
    (∃ w rest, s.script = .prim w :: rest ∧ step s = runWord (.prim w) { s with script := rest }) ∨
    (∃ u, Consumed s u ∧
      ((∃ k, u.e.pc.yields = true ∧ envEnabled k u.p = true ∧ step s = envStep k u) ∨ step s = turn u)) := by
  cases hs : s.script with
  | nil =>
    refine .inr (.inr ?_)
    cases hf : s.freeTail with
    | false =>
      rw [step_reference ⟨hs, hf⟩]
      exact ⟨s, .inl rfl, referenceStep_cases s⟩
    | true =>
      rw [step_free hs hf]
      obtain ⟨u, hu, h⟩ := freeStep_cases s
      exact ⟨u, .inr (.inr ⟨hs, hf, hu⟩), h⟩
  | cons k rest =>
    cases k with
    | choose c =>
      rw [step_choose hs]
      exact .inr (.inr ⟨_, .inr (.inl ⟨c, rest, hs, rfl⟩), chosenStep_cases c _⟩)
    | reset l => exact .inl ⟨l, rest, rfl, step_reset hs⟩
    | prim w => exact .inr (.inl ⟨w, rest, rfl, step_prim hs⟩)

/-- The engine's turn: the Caller's in IDLE, else a step of the sequencer. -/
theorem turn_cases (s : State) :
    (s.e.pc = .idle ∧ s.calls = [] ∧ turn s = .next s) ∨
    (∃ rest, s.e.pc = .idle ∧ s.calls = .init :: rest ∧ turn s = initCall { s with calls := rest }) ∨
    (∃ cw len buf rest, s.e.pc = .idle ∧ s.calls = .command cw len buf :: rest ∧
      turn s = runWord (.cmd cw) { s with calls := rest, side := ⟨len, buf⟩ }) ∨
    (s.e.pc = .abort ∧ turn s = .next (abortStep s)) ∨
    (s.e.pc = .done ∧ turn s = .next (doneStep s)) ∨
    (s.e.pc ≠ .idle ∧ s.e.pc ≠ .abort ∧ s.e.pc ≠ .done ∧ turn s = tableStep s.e.pc s) := by
  unfold turn callerStep engineStep
  by_cases hi : s.e.pc = .idle
  · rw [if_pos hi]
    cases hc : s.calls with
    | nil => exact .inl ⟨hi, rfl, rfl⟩
    | cons c rest =>
      cases c with
      | init => exact .inr (.inl ⟨rest, hi, rfl, rfl⟩)
      | command cw len buf => exact .inr (.inr (.inl ⟨cw, len, buf, rest, hi, rfl, rfl⟩))
  · rw [if_neg hi]
    by_cases ha : s.e.pc = .abort
    · exact .inr (.inr (.inr (.inl ⟨ha, by simp [ha]⟩)))
    · by_cases hd : s.e.pc = .done
      · exact .inr (.inr (.inr (.inr (.inl ⟨hd, by simp [hd]⟩))))
      · refine .inr (.inr (.inr (.inr (.inr ⟨hi, ha, hd, ?_⟩))))
        split <;> first
          | contradiction
          | rfl

/-! ## What a turn leaves alone -/

theorem gated_next {s t : State} {run : State → Host.Outcome State Fault Refusal} (h : gated s run = .next t) :
    run s = .next t := by
  unfold gated at h
  split at h
  · split at h
    · exact h
    · cases h
  · cases h

theorem accept_sameOutside {op : Op} {a : Addr7} {r d : Byte} {l : Label} {s t : State}
    (h : accept op a r d l s = .next t) : SameOutside s t := by
  have h := gated_next h
  split at h <;> cases h <;> exact SameOutside.refl s

theorem outcomeOf_next {x : Except Fault State} {t : State} (h : outcomeOf x = .next t) : x = .ok t := by
  cases x <;> cases h
  rfl

/-- An instruction leaves the outside alone. -/
theorem exec_sameOutside {i : Instr} {s t : State} (h : exec i s = .next t) : SameOutside s t := by
  cases i <;> simp only [exec] at h
  case writeDr b => exact (primWriteDr_sameOutside (outcomeOf_next h)).1
  case readDr =>
    have h := outcomeOf_next h
    cases hr : primReadDr s with
    | error f => rw [hr] at h; cases h
    | ok vu =>
      rw [hr] at h
      cases h
      exact (primReadDr_sameOutside hr).1
  case issueStart | issueStop | readStatus | readStatus2 | setAck => cases h; exact SameOutside.refl s
  all_goals exact accept_sameOutside h

/-- A fetched word leaves the outside alone. -/
theorem runWord_sameOutside {w : InstrWord} {s t : State} (h : runWord w s = .next t) : SameOutside s t := by
  unfold runWord at h
  split at h
  · exact exec_sameOutside h
  · cases gated_next h
    exact SameOutside.refl s
  · cases gated_next h
    exact SameOutside.refl s
  · cases h
  · cases h

theorem advance_sameOutside {k : Succ} {c : Command} {s t : State} (h : advance k c s = .next t) :
    SameOutside s t := by
  obtain ⟨l, -, rfl⟩ := advance_next h
  exact SameOutside.refl s

theorem pollMissed_sameOutside (c : WaitCond) (s : State) : SameOutside s (pollMissed c s) := by
  obtain ⟨-, h⟩ | ⟨-, -, h⟩ | ⟨-, -, h⟩ := pollMissed_cases c s <;> rw [h] <;> exact SameOutside.refl s

/-- A row of a step table leaves the outside alone. -/
theorem runRow_sameOutside {row : Row} {c : Command} {s t : State} (h : runRow row c s = .next t) :
    SameOutside s t := by
  unfold runRow at h
  split at h
  · rename_i w _
    have hp := (pollOnce_sameOutside w s).1
    unfold poll at h
    split at h
    · exact SameOutside.trans (t := (pollOnce w s).2.setPolls 0) hp (advance_sameOutside h)
    · cases h
      exact hp.trans (pollMissed_sameOutside w _)
  · unfold settleStep at h
    split at h
    · exact advance_sameOutside h
    · cases h
      exact SameOutside.refl s
  · split at h
    · rename_i u hu
      exact (doAct_sameOutside hu).trans (advance_sameOutside h)
    · cases h

/-- An engine step leaves the outside alone. -/
theorem engineStep_sameOutside {s t : State} (h : engineStep s = .next t) : SameOutside s t := by
  unfold engineStep at h
  split at h
  · cases h
    exact SameOutside.refl s
  · cases h
    exact SameOutside.refl s
  · cases h
    exact SameOutside.refl s
  · unfold tableStep at h
    split at h
    · cases h
    · split at h
      · cases h
      · exact runRow_sameOutside h

/-- A turn leaves the environment's and the schedule's fields alone: of the inputs it takes a move of the Caller. -/
theorem turn_next {s t : State} (h : turn s = .next t) : SameOutside { s with calls := t.calls, side := t.side } t := by
  unfold turn at h
  split at h
  · unfold callerStep at h
    split at h
    · cases h
      exact SameOutside.refl s
    · unfold initCall at h
      split at h
      · cases h
      · cases h
        exact SameOutside.refl _
    · obtain ⟨h1, h2, h3, h4, h5, h6⟩ := runWord_sameOutside h
      exact ⟨h1, h2, h3, h4, rfl, rfl, h6.2⟩
  · obtain ⟨h1, h2, h3, h4, -, -, h6⟩ := engineStep_sameOutside h
    exact ⟨h1, h2, h3, h4, rfl, rfl, h6⟩

/-- What an environment step or a turn leaves alone of a schedule. -/
theorem envStep_schedule {k : EnvStep} {s t : State} (h : envStep k s = .next t) :
    t.waiting = s.waiting ∧ t.patience = s.patience := by
  obtain ⟨⟨-, -, -, -, -, -, -, -, -, -, -, -, -, hw, hp, -⟩, -⟩ := envStep_next h
  exact ⟨hw, hp⟩

theorem turn_schedule {s t : State} (h : turn s = .next t) : t.waiting = s.waiting ∧ t.patience = s.patience := by
  obtain ⟨-, -, -, -, -, -, -, -, -, hw, hp, -⟩ := turn_next h
  exact ⟨hw, hp⟩

/-- A label whose row is a poll or the settle is a scheduling point, and no other label of a table is (R70). -/
theorem stepTable_yields {op : Op} {l : Label} {row : Row} (h : stepTable op l = some row) :
    l.yields = true ↔ (∃ c, row.act = .wait c) ∨ row.act = .settle := by
  cases op <;> cases l <;>
    simp [stepTable, scanTable, writeByteTable, writeMemoryByteTable, readByteTable, readMemoryByteTable,
      readMemoryMultiTable, writeMemoryMultiTable] at h <;>
    subst h <;> simp [Label.yields, Label.isWait]

end Sys2Proof.Machine
end

