-- ==== Sys2Proof/Laws/Run.lean ====
section
/-! SUPPORT. Runs of several steps, one engine step as one row of a table, the mock slaves, and consecutive bytes. -/

namespace Sys2Proof.Machine

open Sys2Proof

/-! ## Runs -/

@[simp] theorem runSteps_zero (s : State) : runSteps 0 s = .next s := rfl

theorem runSteps_succ {s t : State} (k : Nat) (h : step s = .next t) : runSteps (k + 1) s = runSteps k t := by
  simp [runSteps, h]

/-- A run that answers a next state, cut at its first step. -/
theorem runSteps_succ_next {s t : State} {k : Nat} (h : runSteps (k + 1) s = .next t) :
    ∃ u, step s = .next u ∧ runSteps k u = .next t := by
  cases hs : step s with
  | next u => exact ⟨u, rfl, by simpa [runSteps, hs] using h⟩
  | fault f => simp [runSteps, hs] at h
  | refused r => simp [runSteps, hs] at h

/-- Runs one after the other. -/
theorem runSteps_add {s t : State} {j : Nat} (k : Nat) (h : runSteps j s = .next t) :
    runSteps (j + k) s = runSteps k t := by
  induction j generalizing s with
  | zero => cases h; simp
  | succ j ih =>
    obtain ⟨u, hu, ht⟩ := runSteps_succ_next h
    rw [Nat.add_right_comm, runSteps_succ _ hu, ih ht]

/-- Reachability under the step composes: from a run that reaches a state with `P`, from which some run reaches `Q`. -/
theorem exists_run_trans {s : State} {P Q : State → Prop} (h : ∃ k t, runSteps k s = .next t ∧ P t)
    (h' : ∀ t, P t → ∃ k u, runSteps k t = .next u ∧ Q u) : ∃ k u, runSteps k s = .next u ∧ Q u := by
  obtain ⟨j, t, ht, hp⟩ := h
  obtain ⟨k, u, hu, hq⟩ := h' t hp
  exact ⟨j + k, u, by rw [runSteps_add k ht, hu], hq⟩

theorem exists_run_step {s t : State} {Q : State → Prop} (h : step s = .next t)
    (h' : ∃ k u, runSteps k t = .next u ∧ Q u) : ∃ k u, runSteps k s = .next u ∧ Q u := by
  obtain ⟨k, u, hu, hq⟩ := h'
  exact ⟨k + 1, u, by rw [runSteps_succ k h, hu], hq⟩

/-- A property of single steps carries to runs. -/
theorem runSteps_induct {I : State → Prop} (hstep : ∀ s t, I s → step s = .next t → I t) {s t : State} {k : Nat}
    (hs : I s) (h : runSteps k s = .next t) : I t := by
  induction k generalizing s with
  | zero => cases h; exact hs
  | succ k ih =>
    obtain ⟨u, hu, ht⟩ := runSteps_succ_next h
    exact ih (hstep s u hs hu) ht

/-! ## One engine step is one row -/

/-- Away from IDLE, `ABORT` and `DONE`, an engine step is the row of its label. -/
theorem engineStep_row {s : State} {c : Command} {row : Row} (hc : s.e.cmd = some c)
    (hr : stepTable c.op s.e.pc = some row) : engineStep s = runRow row c s := by
  have h : tableStep s.e.pc s = runRow row c s := by simp [tableStep, hc, hr]
  unfold engineStep
  split
  · rename_i hp; cases ho : c.op <;> rw [ho, hp] at hr <;> cases hr
  · rename_i hp; cases ho : c.op <;> rw [ho, hp] at hr <;> cases hr
  · rename_i hp; cases ho : c.op <;> rw [ho, hp] at hr <;> cases hr
  · exact h

@[simp] theorem advance_goto (l : Label) (c : Command) (s : State) :
    advance (.goto l) c s = .next (s.setPc l) := rfl

theorem advance_ifRem {more last : Label} {c : Command} {s : State} {r : Nat} (h : s.e.rem = some r) :
    advance (.ifRem more last) c s = .next (s.setPc (if r > 1 then more else last)) := by
  simp [advance, succLabel, h, readWritten, Except.map]

theorem advance_ifIdx {more last : Label} {c : Command} {s : State} {i : Nat} (h : s.e.idx = some i) :
    advance (.ifIdx more last) c s = .next (s.setPc (if i < c.len then more else last)) := by
  simp [advance, succLabel, h, readWritten, Except.map]

theorem advance_ifSa {more last : Label} {c : Command} {s : State} {n : Nat} (h : s.e.sa = some n) :
    advance (.ifSa more last) c s = .next (s.setPc (if n < 128 then more else last)) := by
  simp [advance, succLabel, h, readWritten, Except.map]

/-! ## The mock slaves -/

theorem findSlave_addr {a : Addr7} {present : List MockSlave} {m : MockSlave} (h : findSlave a present = some m) :
    m.addr = a := by
  induction present with
  | nil => cases h
  | cons n rest ih =>
    unfold findSlave at h
    split at h
    · cases h; assumption
    · exact ih h

/-- Replacing a present slave by one of its address: that address now has the new slave. -/
theorem findSlave_putSlave_same {a : Addr7} {present : List MockSlave} {m n : MockSlave}
    (h : findSlave a present = some m) (hn : n.addr = a) : findSlave a (putSlave n present) = some n := by
  induction present with
  | nil => cases h
  | cons q rest ih =>
    unfold findSlave at h
    unfold putSlave
    by_cases hq : q.addr = a
    · simp [hq, hn, findSlave]
    · rw [if_neg hq] at h
      have : ¬ q.addr = n.addr := by rw [hn]; exact hq
      simp [this, findSlave, hq, ih h]

theorem findSlave_putSlave_other {a x : Addr7} {n : MockSlave} (hn : n.addr = a) (hx : x ≠ a)
    (present : List MockSlave) : findSlave x (putSlave n present) = findSlave x present := by
  induction present with
  | nil => rfl
  | cons q rest ih =>
    unfold putSlave
    by_cases hq : q.addr = n.addr
    · have h1 : ¬ n.addr = x := by rw [hn]; exact fun h => hx h.symm
      have h2 : ¬ q.addr = x := by rw [hq]; exact h1
      simp [hq, findSlave, h1]
    · simp only [if_neg hq, findSlave, ih]

theorem findSlave_map {f : MockSlave → MockSlave} (hf : ∀ m, (f m).addr = m.addr) (a : Addr7)
    (present : List MockSlave) : findSlave a (present.map f) = (findSlave a present).map f := by
  induction present with
  | nil => rfl
  | cons q rest ih =>
    simp only [List.map_cons, findSlave, hf, ih]
    split <;> rfl

/-! ## Consecutive bytes -/

@[simp] theorem Memory.readBytes_length (m : Memory) (base n : Nat) : (m.readBytes base n).length = n := by
  induction n generalizing base with
  | zero => rfl
  | succ n ih => simp [Memory.readBytes, ih]

@[simp] theorem MockSlave.bytesFrom_length (m : MockSlave) (r : Byte) (n : Nat) : (m.bytesFrom r n).length = n := by
  induction n generalizing r with
  | zero => rfl
  | succ n ih => simp [MockSlave.bytesFrom, ih]

/-- Memories that agree on a range give the same bytes there. -/
theorem Memory.readBytes_congr {m m' : Memory} {base n : Nat}
    (h : ∀ x, base ≤ x → x < base + n → m.read x = m'.read x) : m.readBytes base n = m'.readBytes base n := by
  induction n generalizing base with
  | zero => rfl
  | succ n ih =>
    simp only [Memory.readBytes]
    rw [h base (Nat.le_refl _) (by omega), ih fun x h1 h2 => h x (by omega) (by omega)]

end Sys2Proof.Machine
end

