-- ==== Sys2Proof/Tests/Slice0.lean ====
section
/-! SUPPORT. Tests: the well-formedness smoke, decoding of words written out from the spec's patterns, one step of each
instruction on a small state, the assembler, and a witness for the hypotheses of each obligation. Expected values are
the spec's; each test names the rule or vector they come from. -/

namespace Sys2Proof.Tests

open Sys2Proof Sys2Proof.Machine

/-! ## Helpers -/

/-- The answer is a next state with a property. -/
def nextIs (o : Host.Outcome State Fault Refusal) (p : State → Bool) : Bool :=
  match o with
  | .next t => p t
  | .fault _ => false
  | .refused _ => false

/-- The answer is this fault. -/
def faultIs (o : Host.Outcome State Fault Refusal) (f : Fault) : Bool :=
  match o with
  | .next _ => false
  | .fault g => g == f
  | .refused _ => false

/-- The answer is this refusal. -/
def refusalIs (o : Host.Outcome State Fault Refusal) (r : Refusal) : Bool :=
  match o with
  | .next _ => false
  | .fault _ => false
  | .refused q => q == r

/-- What a next state answered by an outcome is; the reset state for the others. -/
def stateOf (o : Host.Outcome State Fault Refusal) : State :=
  match o with
  | .next t => t
  | .fault _ => .reset
  | .refused _ => .reset

/-- The clock chip of X8: registers 0 to 2 hold 05, 30, 12. -/
def clock : MockSlave := ⟨0x68, [(0, 0x05), (1, 0x30), (2, 0x12)], 0, false⟩

/-- The state in which the vectors of 95_test_vectors.md issue their commands, with the clock chip present. -/
def base : State :=
  { State.launch .atReset ⟨.mock [clock], false, .zero⟩ [] [] [] with
    p := { Periph.reset false with initialized := true } }

/-- A command record. -/
def cmd (op : Op) (len : Nat) (buf : BufRef) : Command := ⟨op, 0x68, 0x07, 0x10, len, buf⟩

/-- `base` with the engine at a label of a command. -/
def running (c : Command) (l : Label) : State := { base with e := { base.e with cmd := some c, pc := l } }

/-- A state with another Bus Interface. -/
def withP (s : State) (f : Periph → Periph) : State := { s with p := f s.p }

/-- A state with other engine registers. -/
def withE (s : State) (f : Engine → Engine) : State := { s with e := f s.e }

/-- `base` with side operands at hand. -/
def sided (len : BitVec 32) (buf : BufRef) : State := { base with side := ⟨len, buf⟩ }

/-- `base` about to issue a command word. -/
def issuing (cw : CmdWord) (len : BitVec 32) (buf : BufRef) : State := { base with calls := [.command cw len buf] }

/-! ## WellFormed: one ill-formed term for each check (R62, R10) -/

theorem test_wf_addr_too_large : AsmLine.wellFormed (.writeByte 128 0) = false := by decide
theorem test_wf_data_too_large : AsmLine.wellFormed (.writeByte 0 256) = false := by decide
theorem test_wf_reg_too_large : AsmLine.wellFormed (.writeMemoryByte 0 256 0) = false := by decide
theorem test_wf_wmb_addr : AsmLine.wellFormed (.writeMemoryByte 128 0 0) = false := by decide
theorem test_wf_wmb_data : AsmLine.wellFormed (.writeMemoryByte 0 0 256) = false := by decide
theorem test_wf_rb_addr : AsmLine.wellFormed (.readByte 128) = false := by decide
theorem test_wf_rmb_addr : AsmLine.wellFormed (.readMemoryByte 128 0) = false := by decide
theorem test_wf_rmb_reg : AsmLine.wellFormed (.readMemoryByte 0 256) = false := by decide
theorem test_wf_rmm_operands :
    AsmLine.wellFormed (.readMemoryMulti 128 0 1 []) = false ∧ AsmLine.wellFormed (.readMemoryMulti 0 256 1 []) = false ∧
    AsmLine.wellFormed (.readMemoryMulti 0 0 0 []) = false ∧
    AsmLine.wellFormed (.readMemoryMulti 0 0 4294967296 []) = false := by decide
theorem test_wf_wmm_operands :
    AsmLine.wellFormed (.writeMemoryMulti 128 0 1 []) = false ∧
    AsmLine.wellFormed (.writeMemoryMulti 0 256 1 []) = false ∧
    AsmLine.wellFormed (.writeMemoryMulti 0 0 0 []) = false ∧
    AsmLine.wellFormed (.writeMemoryMulti 0 0 4294967296 []) = false := by decide
theorem test_wf_buffer_byte : AsmLine.wellFormed (.bufBytes [] [255, 256]) = false := by decide
theorem test_wf_accepts_boundaries :
    AsmLine.wellFormed .scan = true ∧ AsmLine.wellFormed (.writeMemoryByte 127 255 255) = true ∧
    AsmLine.wellFormed (.readMemoryMulti 127 255 4294967295 []) = true ∧
    AsmLine.wellFormed (.bufBytes [] [0, 255]) = true ∧ AsmLine.wellFormed (.bufSize [] 0) = true := by decide
theorem test_wf_timeout_zero : Params.wellFormed ⟨.bounded, 0, 1, .reference⟩ = false := by decide
theorem test_wf_lenmax_zero : Params.wellFormed ⟨.bounded, 1, 0, .reference⟩ = false := by decide
theorem test_wf_params_least : Params.wellFormed ⟨.bounded, 1, 1, .reference⟩ = true := by decide

/-! ## Decoding, from the bit patterns of R53 and R58 -/

theorem test_decode_scan : decode (.cmd 0b00000000000000000000000000000000) = .instr .scan := by decide
theorem test_decode_write_byte :
    decode (.cmd 0b10101110000000000011110000000001) = .instr (.writeByte 0x3C 0xAE) := by decide
theorem test_decode_write_memory_byte :
    decode (.cmd 0b00010000000001110110100000000010) = .instr (.writeMemoryByte 0x68 0x07 0x10) := by decide
theorem test_decode_read_byte : decode (.cmd 0b00000000000000000110100000000011) = .instr (.readByte 0x68) := by decide
theorem test_decode_read_memory_byte :
    decode (.cmd 0b00000000111111110111111100000100) = .instr (.readMemoryByte 0x7F 0xFF) := by decide
theorem test_decode_read_memory_multi :
    decode (.cmd 0b00000000000100000101000000000101) = .instr (.readMemoryMulti 0x50 0x10) := by decide
theorem test_decode_write_memory_multi :
    decode (.cmd 0b00000000000100000101000000000110) = .instr (.writeMemoryMulti 0x50 0x10) := by decide
theorem test_decode_issue_start : decode (.prim 0b0001000000000000) = .instr .issueStart := by decide
theorem test_decode_issue_stop : decode (.prim 0b0010000000000000) = .instr .issueStop := by decide
theorem test_decode_write_dr : decode (.prim 0b0011000011010000) = .instr (.writeDr 0xD0) := by decide
theorem test_decode_read_dr : decode (.prim 0b0100000000000000) = .instr .readDr := by decide
theorem test_decode_read_status : decode (.prim 0b0101000000000000) = .instr .readStatus := by decide
theorem test_decode_read_status2 : decode (.prim 0b0110000000000000) = .instr .readStatus2 := by decide
theorem test_decode_set_ack :
    decode (.prim 0b0111000000000000) = .instr (.setAck false) ∧
    decode (.prim 0b0111000000000001) = .instr (.setAck true) := by decide

/-- R56: each should-be-zero field of each row. -/
theorem test_decode_command_rejections :
    decode (.cmd 0x00000007) = .reject .reservedOpc ∧ decode (.cmd 0x0000000F) = .reject .reservedOpc ∧
    decode (.cmd 0x00000100) = .reject .nonzeroReserved ∧ decode (.cmd 0x00000010) = .reject .nonzeroReserved ∧
    decode (.cmd 0x00010001) = .reject .nonzeroReserved ∧ decode (.cmd 0x00008002) = .reject .nonzeroReserved ∧
    decode (.cmd 0x01000003) = .reject .nonzeroReserved ∧ decode (.cmd 0x01000004) = .reject .nonzeroReserved ∧
    decode (.cmd 0x01000005) = .reject .nonzeroReserved ∧ decode (.cmd 0x01000006) = .reject .nonzeroReserved := by
  decide

/-- R58, R59: reserved kinds, and operand bits a kind does not use. -/
theorem test_decode_primitive_rejections :
    decode (.prim 0x0000) = .reject .reservedPk ∧ decode (.prim 0x8000) = .reject .reservedPk ∧
    decode (.prim 0x1001) = .reject .nonzeroPrimBits ∧ decode (.prim 0x2100) = .reject .nonzeroPrimBits ∧
    decode (.prim 0x3100) = .reject .nonzeroPrimBits ∧ decode (.prim 0x7002) = .reject .nonzeroPrimBits := by decide

theorem test_decodeTableWord_widths :
    decodeTableWord 16 0x10000 = none ∧ decodeTableWord 32 0x100000000 = none ∧ decodeTableWord 8 0 = none := by decide

/-! ## One step of each instruction -/

/-- R98, R55: `SCAN_OUT` is emptied at acceptance. -/
theorem test_scan : nextIs (exec .scan { base with scanOut := [0x10] })
    (fun t => t.scanOut == [] && t.e.pc == .scanInit) = true := by decide
/-- R106: the first step is the bus-free wait; the operands are latched. -/
theorem test_write_byte : nextIs (exec (.writeByte 0x3C 0xAE) base)
    (fun t => t.e.pc == .busFreeWait && t.e.cmd == some ⟨.writeByte, 0x3C, 0, 0xAE, 0, ⟨0, 0⟩⟩) = true := by decide
/-- R107. -/
theorem test_write_memory_byte : nextIs (exec (.writeMemoryByte 0x68 0x07 0x10) base)
    (fun t => t.e.pc == .busFreeWait && t.e.cmd == some ⟨.writeMemoryByte, 0x68, 0x07, 0x10, 0, ⟨0, 0⟩⟩) = true := by
  decide
/-- R110, R109: no bus-free wait; an old `RDATA` is cleared. -/
theorem test_read_byte : nextIs (exec (.readByte 0x68) { base with rdata := some 9, result := some .nak })
    (fun t => t.e.pc == .start && t.rdata == none && t.result == none) = true := by decide
/-- R111. -/
theorem test_read_memory_byte : nextIs (exec (.readMemoryByte 0x68 0x02) base)
    (fun t => t.e.pc == .start && t.e.cmd == some ⟨.readMemoryByte, 0x68, 0x02, 0, 0, ⟨0, 0⟩⟩) = true := by decide
/-- R114: `LEN` at `LEN_MAX` = 16 is accepted, 17 is not (R55). -/
theorem test_read_memory_multi :
    nextIs (exec (.readMemoryMulti 0x68 0) (sided 16 ⟨4, 16⟩)) (fun t => t.e.pc == .start) = true ∧
    nextIs (exec (.readMemoryMulti 0x68 0) (sided 17 ⟨4, 17⟩)) (fun t => t.result == some .rejected) = true := by decide
/-- R121: a buffer shorter than `LEN` is rejected (R55). -/
theorem test_write_memory_multi :
    nextIs (exec (.writeMemoryMulti 0x68 0) (sided 3 ⟨4, 3⟩)) (fun t => t.e.pc == .start) = true ∧
    nextIs (exec (.writeMemoryMulti 0x68 0) (sided 3 ⟨4, 2⟩)) (fun t => t.result == some .rejected) = true := by decide
/-- R63: the request is latched, no flag rises yet. -/
theorem test_issue_start : nextIs (exec .issueStart base)
    (fun t => t.p.reqStart && !t.p.sb && t.primTrace == [⟨0x1000, none⟩]) = true := by decide
/-- R64: a pending start is cancelled. -/
theorem test_issue_stop : nextIs (exec .issueStop (withP base fun p => { p with reqStart := true }))
    (fun t => t.p.reqStop && !t.p.reqStart) = true := by decide
/-- R65's example: in `PSTART`, `WRITE_DR 0xD0` gives `PADDR(0xD0)` and `SB = 0`. -/
theorem test_write_dr_address :
    nextIs (exec (.writeDr 0xD0) (withP base fun p => { p with mode := .pStart, sb := true }))
      (fun t => t.p.mode == .pAddr 0xD0 && !t.p.sb && t.primTrace == [⟨0x30D0, none⟩]) = true := by decide
/-- R65: the faults. -/
theorem test_write_dr_faults :
    faultIs (exec (.writeDr 0) base) .writeOutOfPhase = true ∧
    faultIs (exec (.writeDr 0) (withP base fun p => { p with mode := .pTx, drTx := some 1 })) .dataOverrun = true := by
  decide
/-- R66's example: with `dr_rx = 0x05` and `RXNE = 1` it returns 0x05 and leaves `RXNE = 0`. -/
theorem test_read_dr :
    nextIs (exec .readDr (withP base fun p => { p with drRx := some 0x05, rxne := true }))
      (fun t => !t.p.rxne && t.primTrace == [⟨0x4000, some 0x0005⟩]) = true ∧
    faultIs (exec .readDr base) .unwrittenRead = true := by decide
/-- R67's example, in the encoding of R60: after a start `SB` alone reads 0x01; `TXE` and `BTF` read 0x84. -/
theorem test_read_status :
    nextIs (exec .readStatus (withP base fun p => { p with sb := true }))
      (fun t => t.primTrace == [⟨0x5000, some 0x0001⟩]) = true ∧
    nextIs (exec .readStatus (withP base fun p => { p with txe := true, btf := true }))
      (fun t => t.primTrace == [⟨0x5000, some 0x0084⟩]) = true := by decide
/-- 93 I6: reserved bits may read as anything, and the named bits are the flags all the same. -/
theorem test_reserved_bits :
    nextIs (exec .readStatus (withP { base with reserved := .drawn [0xFFFF] 0 } fun p => { p with sb := true }))
      (fun t => t.primTrace == [⟨0x5000, some 0xFF39⟩]) = true ∧
    nextIs (exec .readStatus2 { base with reserved := .drawn [0xFFFF] 0 })
      (fun t => t.primTrace == [⟨0x6000, some 0xFFFD⟩]) = true := by decide
/-- R68's example; `BUSY` reads 0x02. -/
theorem test_read_status2 :
    nextIs (exec .readStatus2 (withP base fun p => { p with mode := .pTxWaitClr, addr := true, busy := true }))
      (fun t => !t.p.addr && t.p.txe && t.p.mode == .pTx && t.primTrace == [⟨0x6000, some 0x0002⟩]) = true := by decide
/-- R69. -/
theorem test_set_ack :
    nextIs (exec (.setAck true) base) (fun t => t.p.ackEn && t.primTrace == [⟨0x7001, none⟩]) = true ∧
    nextIs (exec (.setAck false) (withP base fun p => { p with ackEn := true }))
      (fun t => !t.p.ackEn && t.primTrace == [⟨0x7000, none⟩]) = true := by decide

/-- The word of the very next step, from reset. -/
theorem test_fetch_from_reset :
    nextIs (step (State.reset.withFetchWord 32 0x00006803)) (fun t => t.e.pc == .start) = true ∧
    nextIs (step (State.reset.withFetchWord 16 0x7001)) (fun t => t.p.ackEn) = true := by decide

/-! ## The assembler (R62) -/

/-- P1's second and third lines, with the words of its table; the buffer is the one declared. -/
theorem test_assemble_program :
    assemble "buf GETT[3]\nread_memory_multi  0x68, 0x00, 3, GETT\nread_memory_byte 104, 1 ; note".toList =
      .program ⟨[.command 0x00006805 3 ⟨0, 3⟩, .command 0x00016804 0 ⟨0, 0⟩], [], [("GETT".toList, ⟨0, 3⟩)], 3⟩ := by
  decide
theorem test_assemble_refuses_line :
    assemble "scan\nwrite_byte 0x80, 0".toList = .refused ⟨2, .operandRange⟩ ∧
    assemble "read_memory_multi 1, 2, 1, NONE".toList = .refused ⟨1, .unknownBuffer⟩ ∧
    assemble "read_byte".toList = .refused ⟨1, .badSyntax⟩ ∧
    assemble "scan !".toList = .refused ⟨1, .badToken⟩ := by decide
theorem test_assemble_primitives :
    assemblePrim "WRITE_DR 0xD0".toList = some (.writeDr 0xD0) ∧ assemblePrim "SET_ACK 0".toList = some (.setAck false) ∧
    assemblePrim "SET_ACK 2".toList = none ∧ assemblePrim "READ_STATUS2".toList = some .readStatus2 := by decide

/-! ## Witnesses: a state and operands that meet the hypotheses of each obligation -/

theorem test_witness_RowsAndDecoderAgree :
    decode (.cmd 0x0F003C01) = .instr (.writeByte 0x3C 0x0F) ∧
    selectsRow (.cmd 0x0F003C01) (.writeByte 0 0) = true ∧ selectsRow (.cmd 0x0F003C01) (.writeByte 1 2) = true := by
  decide

theorem test_witness_RegisterLayout :
    base.reserved = .zero ∧ { base with reserved := .drawn [0x8008] 1 }.reserved = .drawn [0x8008] 1 ∧
    [(0x8008 : PrimWord)][{ base with reserved := .drawn [0x8008] 1 }.primTrace.length]? = some 0x8008 := by decide

/-- The line's check both ways; the operand ranges at their ends. -/
theorem test_witness_AssemblerChecksOperands :
    (tokensFrom [] "write_byte 128, 0".toList = some [.word "write_byte".toList, .num 128, .comma, .num 0] ∧
      lineOf "write_byte".toList [.num 128, .comma, .num 0] = some (.writeByte 128 0) ∧
      AsmLine.wellFormed (.writeByte 128 0) = false) ∧
    (tokensFrom [] "write_byte 127, 255".toList = some [.word "write_byte".toList, .num 127, .comma, .num 255] ∧
      lineOf "write_byte".toList [.num 127, .comma, .num 255] = some (.writeByte 127 255) ∧
      AsmLine.wellFormed (.writeByte 127 255) = true) ∧
    (127 < 128 ∧ 255 < 256 ∧ 4294967295 < 2 ^ 32 ∧ findBuf ['B'] [(['B'], ⟨0, 3⟩)] = some ⟨0, 3⟩) := by decide

theorem test_witness_LaunchState :
    (Launch.mk (.oracle [true] [0x05]) false .zero).slaves = .oracle [true] [0x05] := by decide

theorem test_witness_HardwareResetRelaunches :
    { base with script := [.reset ⟨.mock [], true, .zero⟩] }.script = .reset ⟨.mock [], true, .zero⟩ :: [] := by decide

theorem test_witness_InitializationCall :
    (State.reset.e.pc = .idle ∧ { State.reset with calls := [.init] }.calls = .init :: [] ∧
      State.reset.p.initialized = false) ∧
    (base.e.pc = .idle ∧ { base with calls := [.init] }.calls = .init :: [] ∧ base.p.initialized = true) ∧
    { State.reset with calls := [.command 0 0 ⟨0, 0⟩] }.calls = .command 0 0 ⟨0, 0⟩ :: [] := by decide

/-- Each clause: not IDLE, not initialized; a reserved code; a should-be-zero field; a bad and a good length. -/
theorem test_witness_AcceptanceOfWord :
    (running (cmd .scan 0 ⟨0, 0⟩) .settle).e.pc ≠ .idle ∧ State.reset.p.initialized = false ∧
    (base.e.pc = .idle ∧ base.p.initialized = true ∧ 7 ≤ ((0x7 : CmdWord).extractLsb' 0 4).toNat) ∧
    (Op.code .readMemoryMulti = (0x01000005 : CmdWord).extractLsb' 0 4 ∧
      rowMatch (.readMemoryMulti 0 0) = (Op.code .readMemoryMulti).toNat ∧
      (0x01000005 : CmdWord) &&& BitVec.ofNat 32 (rowMask (.readMemoryMulti 0 0)) ≠
        BitVec.ofNat 32 (rowMatch (.readMemoryMulti 0 0))) ∧
    ((0x00FF7F05 : CmdWord) &&& BitVec.ofNat 32 (rowMask (.readMemoryMulti 0 0)) =
        BitVec.ofNat 32 (rowMatch (.readMemoryMulti 0 0)) ∧ Op.takesBuffer .readMemoryMulti = true) ∧
    ¬ (1 ≤ (0 : BitVec 32).toNat ∧ (0 : BitVec 32).toNat ≤ 16 ∧ (0 : BitVec 32).toNat ≤ 3) ∧
    (1 ≤ (16 : BitVec 32).toNat ∧ (16 : BitVec 32).toNat ≤ base.params.lenMax ∧ (16 : BitVec 32).toNat ≤ 16) ∧
    (Op.takesBuffer .scan = false ∧ (0 : CmdWord) &&& BitVec.ofNat 32 (rowMask .scan) = BitVec.ofNat 32 (rowMatch .scan)) := by
  decide

theorem test_witness_ReservedCommandWords :
    base.e.pc = .idle ∧ base.p.initialized = true ∧ ∀ i, decode (.cmd 0x0000000F) ≠ .instr i := by
  refine ⟨rfl, rfl, fun i h => ?_⟩
  rw [show decode (.cmd 0x0000000F) = .reject .reservedOpc by decide] at h
  cases h

/-- Both ends of the length range. -/
theorem test_witness_CommandsComplete :
    base.e.pc = .idle ∧ base.p.initialized = true ∧
    (1 ≤ (sided 1 ⟨0, 1⟩).side.len.toNat ∧ (sided 1 ⟨0, 1⟩).side.len.toNat ≤ (sided 1 ⟨0, 1⟩).params.lenMax ∧
      (sided 1 ⟨0, 1⟩).side.len.toNat ≤ (sided 1 ⟨0, 1⟩).side.buf.size) ∧
    (1 ≤ (sided 16 ⟨0, 16⟩).side.len.toNat ∧ (sided 16 ⟨0, 16⟩).side.len.toNat ≤ (sided 16 ⟨0, 16⟩).params.lenMax ∧
      (sided 16 ⟨0, 16⟩).side.len.toNat ≤ (sided 16 ⟨0, 16⟩).side.buf.size) := by decide

/-- Each of the three length errors, at its boundary. -/
theorem test_witness_BadLengthsRejected :
    base.e.pc = .idle ∧ base.p.initialized = true ∧ (sided 0 ⟨0, 3⟩).side.len = 0 ∧
    (sided 17 ⟨0, 17⟩).params.lenMax < (sided 17 ⟨0, 17⟩).side.len.toNat ∧
    (sided 3 ⟨0, 2⟩).side.buf.size < (sided 3 ⟨0, 2⟩).side.len.toNat := by decide

theorem test_witness_CommandsRefused :
    (running (cmd .scan 0 ⟨0, 0⟩) .settle).e.pc ≠ .idle ∧ State.reset.e.pc = .idle ∧
    State.reset.p.initialized = false := by decide

theorem test_witness_CommandsFrame :
    isCommand (.writeByte 0x3C 0xAE) = true ∧ nextIs (exec (.writeByte 0x3C 0xAE) base) (fun _ => true) = true ∧
    isCommand .scan = true ∧ nextIs (exec .scan base) (fun _ => true) = true := by decide

/-- Each phase of `WRITE_DR`. -/
theorem test_witness_WriteDrByPhase :
    (withP base fun p => { p with mode := .pStart }).p.mode = .pStart ∧
    ((withP base fun p => { p with mode := .pTx }).p.mode = .pTx ∧
      (withP base fun p => { p with mode := .pTx }).p.drTx = none) ∧
    ((withP base fun p => { p with mode := .pTx, drTx := some 1 }).p.mode = .pTx ∧
      (withP base fun p => { p with mode := .pTx, drTx := some 1 }).p.drTx ≠ none) ∧
    (base.p.mode ≠ .pStart ∧ base.p.mode ≠ .pTx) := by decide

theorem test_witness_ReadDrReturnsByte :
    (withP base fun p => { p with drRx := some 0xFF }).p.drRx = some 0xFF ∧ base.p.drRx = none := by decide

/-- Each case of `READ_STATUS2`. -/
theorem test_witness_StatusReads :
    base.p.addr = false ∧
    ((withP base fun p => { p with addr := true, mode := .pTxWaitClr }).p.addr = true ∧
      (withP base fun p => { p with addr := true, mode := .pTxWaitClr }).p.mode = .pTxWaitClr) ∧
    ((withP base fun p => { p with addr := true, mode := .pRxWaitClr }).p.addr = true ∧
      (withP base fun p => { p with addr := true, mode := .pRxWaitClr }).p.mode = .pRxWaitClr) ∧
    ((withP base fun p => { p with addr := true }).p.addr = true ∧
      (withP base fun p => { p with addr := true }).p.mode ≠ .pTxWaitClr ∧
      (withP base fun p => { p with addr := true }).p.mode ≠ .pRxWaitClr) := by decide

/-- Each primitive runs somewhere. -/
theorem test_witness_PrimitivesFrame :
    (isCommand .issueStart = false ∧ nextIs (exec .issueStart base) (fun _ => true) = true) ∧
    (isCommand .issueStop = false ∧ nextIs (exec .issueStop base) (fun _ => true) = true) ∧
    (isCommand (.writeDr 1) = false ∧
      nextIs (exec (.writeDr 1) (withP base fun p => { p with mode := .pTx })) (fun _ => true) = true) ∧
    (isCommand .readDr = false ∧
      nextIs (exec .readDr (withP base fun p => { p with drRx := some 1 })) (fun _ => true) = true) ∧
    (isCommand .readStatus = false ∧ nextIs (exec .readStatus base) (fun _ => true) = true) ∧
    (isCommand .readStatus2 = false ∧ nextIs (exec .readStatus2 base) (fun _ => true) = true) ∧
    (isCommand (.setAck true) = false ∧ nextIs (exec (.setAck true) base) (fun _ => true) = true) := by decide

/-- A reserved kind (the lowest and the next above the table) and a reserved bit match no row. -/
theorem test_witness_ReservedPrimitiveWords :
    (∀ i, selectsRow (.prim 0x0000) i = false) ∧ (∀ i, selectsRow (.prim 0x8000) i = false) ∧
    (∀ i, selectsRow (.prim 0x7002) i = false) ∧
    nextIs (engineStep (running (cmd .readByte 0 ⟨0, 0⟩) .start)) (fun _ => true) = true := by
  refine ⟨?_, ?_, ?_, by decide⟩ <;> intro i <;> cases i <;> first | rfl | (rename_i b; revert b; decide)

/-- A command word and a primitive word that decode, under either schedule, and a table word of each width. -/
theorem test_witness_StepRunsDecoded :
    ((issuing 0x00006803 0 ⟨0, 0⟩).e.pc = .idle ∧
      (issuing 0x00006803 0 ⟨0, 0⟩).calls = .command 0x00006803 0 ⟨0, 0⟩ :: [] ∧
      decode (.cmd 0x00006803) = .instr (.readByte 0x68) ∧
      (issuing 0x00006803 0 ⟨0, 0⟩).script = [] ∧ (issuing 0x00006803 0 ⟨0, 0⟩).freeTail = false ∧
      firstEnabled (issuing 0x00006803 0 ⟨0, 0⟩).p = none) ∧
    { issuing 0x00006803 0 ⟨0, 0⟩ with script := [.choose .go] }.script = .choose .go :: [] ∧
    ({ base with script := [.prim 0x7001] }.script = .prim 0x7001 :: [] ∧
      decode (.prim 0x7001) = .instr (.setAck true)) ∧
    (decodeTableWord 16 0x7001 = some (.setAck true) ∧ isCommand (.setAck true) = false) ∧
    (decodeTableWord 32 0x00006803 = some (.readByte 0x68) ∧ isCommand (.readByte 0x68) = true) := by decide

/-- A step that runs and one that faults; the register byte of a multi-byte write, in phase and out of it; the clearing
read of a multi-byte read. -/
theorem test_witness_SequencerIssuesPrimitives :
    ((running (cmd .readByte 0 ⟨0, 0⟩) .start).e.cmd = some (cmd .readByte 0 ⟨0, 0⟩) ∧
      stepTable .readByte .start = some ⟨.issueStart, .goto .startWait⟩ ∧
      primitiveOf .issueStart (cmd .readByte 0 ⟨0, 0⟩) base.e = some .issueStart ∧
      nextIs (exec .issueStart (running (cmd .readByte 0 ⟨0, 0⟩) .start)) (fun _ => true) = true) ∧
    (stepTable .readByte .addrRead = some ⟨.sendAddr .read, .goto .addrAcked⟩ ∧
      primitiveOf (.sendAddr .read) (cmd .readByte 0 ⟨0, 0⟩) base.e = some (.writeDr 0xD1) ∧
      faultIs (exec (.writeDr 0xD1) (running (cmd .readByte 0 ⟨0, 0⟩) .addrRead)) .writeOutOfPhase = true) ∧
    ((running (cmd .writeMemoryMulti 3 ⟨0, 3⟩) .registerByte).e.cmd = some (cmd .writeMemoryMulti 3 ⟨0, 3⟩) ∧
      (cmd .writeMemoryMulti 3 ⟨0, 3⟩).op = .writeMemoryMulti ∧
      (running (cmd .writeMemoryMulti 3 ⟨0, 3⟩) .registerByte).e.pc = .registerByte ∧
      nextIs (exec (.writeDr 0x07)
        (withP (running (cmd .writeMemoryMulti 3 ⟨0, 3⟩) .registerByte) fun p => { p with mode := .pTx }))
        (fun _ => true) = true ∧
      faultIs (exec (.writeDr 0x07) (running (cmd .writeMemoryMulti 3 ⟨0, 3⟩) .registerByte)) .writeOutOfPhase = true) ∧
    ((running (cmd .readMemoryMulti 3 ⟨0, 3⟩) .clearAddrR).e.cmd = some (cmd .readMemoryMulti 3 ⟨0, 3⟩) ∧
      (cmd .readMemoryMulti 3 ⟨0, 3⟩).op = .readMemoryMulti ∧
      (running (cmd .readMemoryMulti 3 ⟨0, 3⟩) .clearAddrR).e.pc = .clearAddrR) := by decide

/-- R114, R121: the counters at the start of the data phase. -/
theorem test_counters_start :
    nextIs (engineStep (running (cmd .readMemoryMulti 3 ⟨0, 3⟩) .clearAddrR))
      (fun t => t.e.rem == some 3 && t.e.idx == some 0 && t.e.pc == .loop) = true ∧
    nextIs (engineStep
        (withP (running (cmd .writeMemoryMulti 3 ⟨0, 3⟩) .registerByte) fun p => { p with mode := .pTx }))
      (fun t => t.e.idx == some 0 && t.p.drTx == some 0x07) = true := by decide

/-- The four cases of a poll: satisfied; unsatisfied under SPIN; under BOUNDED below the bound and at it. -/
theorem test_witness_PollLaw :
    ((running (cmd .readByte 0 ⟨0, 0⟩) .startWait).e.cmd = some (cmd .readByte 0 ⟨0, 0⟩) ∧
      stepTable .readByte .startWait = some ⟨.wait .sb, .goto .addrRead⟩) ∧
    WaitCond.holds .sb (withP base fun p => { p with sb := true }).p = true ∧
    (WaitCond.holds .sb base.p = false ∧
      { base with params := { base.params with policy := .spin } }.params.policy = .spin) ∧
    (base.params.policy = .bounded ∧ base.e.polls + 1 ≠ base.params.timeoutPolls) ∧
    (withE base fun e => { e with polls := 2 }).e.polls + 1 = base.params.timeoutPolls := by decide

theorem test_witness_AbortAndDone :
    (running (cmd .readByte 0 ⟨0, 0⟩) .abort).e.pc = .abort ∧
    ((running (cmd .readByte 0 ⟨0, 0⟩) .done).e.pc = .done ∧ (running (cmd .readByte 0 ⟨0, 0⟩) .done).result = none) ∧
    { running (cmd .readByte 0 ⟨0, 0⟩) .done with result := some .nak }.result ≠ none := by decide

theorem test_witness_SettleStep :
    ((running (cmd .scan 0 ⟨0, 0⟩) .settle).e.cmd = some (cmd .scan 0 ⟨0, 0⟩) ∧ (cmd .scan 0 ⟨0, 0⟩).op = .scan ∧
      (running (cmd .scan 0 ⟨0, 0⟩) .settle).e.pc = .settle) ∧
    (withP base fun p => { p with addrResolved := true }).p.addrResolved = true ∧ base.p.addrResolved = false := by decide

/-- The last candidate that goes on and the one that ends the scan. -/
theorem test_witness_ScanSteps :
    ((running (cmd .scan 0 ⟨0, 0⟩) .next).e.cmd = some (cmd .scan 0 ⟨0, 0⟩) ∧ (cmd .scan 0 ⟨0, 0⟩).op = .scan) ∧
    (running (cmd .scan 0 ⟨0, 0⟩) .scanInit).e.pc = .scanInit ∧
    ((withE (running (cmd .scan 0 ⟨0, 0⟩) .inspect) fun e => { e with sa := some 127 }).e.pc = .inspect ∧
      (withE (running (cmd .scan 0 ⟨0, 0⟩) .inspect) fun e => { e with sa := some 127 }).e.sa = some 127) ∧
    ((withE (running (cmd .scan 0 ⟨0, 0⟩) .next) fun e => { e with sa := some 126 }).e.sa = some 126 ∧
      126 + 1 < 128 ∧ 128 ≤ 127 + 1) := by decide

/-- R98, R19: the flag record of the read is kept, and its `ADDR` reports the candidate. -/
theorem test_inspect :
    nextIs (engineStep (withP (withE (running (cmd .scan 0 ⟨0, 0⟩) .inspect) fun e => { e with sa := some 0x68 })
        fun p => { p with addr := true }))
      (fun t => t.scanOut == [0x68] && t.e.snap.map (fun f => (f.sb, f.addr)) == some (false, true)) = true := by decide

/-- A multi-byte read at a capture of index `i`, `r` bytes left, one byte waiting. -/
def capturing (l : Label) (i r : Nat) : State :=
  withP (withE (running (cmd .readMemoryMulti 3 ⟨10, 3⟩) l) fun e => { e with idx := some i, rem := some r })
    fun p => { p with drRx := some 0x12, rxne := true }

/-- A first and the last index of the buffer, both capture labels; the loop's two ways; a single-byte capture. -/
theorem test_witness_CapturesStoreByte :
    ((capturing .captureN 0 3).mem.wf = true ∧
      (capturing .captureN 0 3).e.cmd = some (cmd .readMemoryMulti 3 ⟨10, 3⟩) ∧
      (cmd .readMemoryMulti 3 ⟨10, 3⟩).op = .readMemoryMulti ∧ (capturing .captureN 0 3).e.pc = .captureN ∧
      (capturing .captureN 0 3).e.idx = some 0 ∧ (capturing .captureN 0 3).e.rem = some 3 ∧
      (capturing .captureN 0 3).p.drRx = some 0x12 ∧ 0 < (cmd .readMemoryMulti 3 ⟨10, 3⟩).buf.size) ∧
    ((capturing .capture 2 1).e.pc = .capture ∧ (capturing .capture 2 1).e.idx = some 2 ∧
      2 < (cmd .readMemoryMulti 3 ⟨10, 3⟩).buf.size) ∧
    ((capturing .loop 2 1).e.pc = .loop ∧ (capturing .loop 2 1).e.rem = some 1 ∧
      (capturing .loop 1 2).e.rem = some 2) ∧
    ((running (cmd .readByte 0 ⟨0, 0⟩) .capture).e.pc = .capture ∧ (cmd .readByte 0 ⟨0, 0⟩).op = .readByte) := by decide

/-- The effect itself on these states (R115): the last byte lands at the last index. -/
theorem test_capture_last :
    nextIs (engineStep (capturing .capture 2 1))
      (fun t => t.mem == [(12, 0x12)] && t.e.rem == some 0 && t.e.idx == some 3 && t.e.pc == .done) = true := by decide

/-- A multi-byte write about to send index `i`. -/
def sending (l : Label) (i : Nat) : State :=
  withP (withE (running (cmd .writeMemoryMulti 3 ⟨10, 3⟩) l) fun e => { e with idx := some i })
    fun p => { p with mode := .pTx, btf := true, txe := true }

theorem test_witness_SendTakesBufferByte :
    ((sending .dataByte 2).e.cmd = some (cmd .writeMemoryMulti 3 ⟨10, 3⟩) ∧
      (cmd .writeMemoryMulti 3 ⟨10, 3⟩).op = .writeMemoryMulti ∧ (sending .dataByte 2).e.pc = .dataByte ∧
      (sending .dataByte 2).e.idx = some 2 ∧ 2 < (cmd .writeMemoryMulti 3 ⟨10, 3⟩).buf.size ∧
      (sending .dataByte 2).p.mode = .pTx ∧ (sending .dataByte 2).p.drTx = none) ∧
    ((sending .transferComplete 2).e.pc = .transferComplete ∧ (sending .transferComplete 2).e.idx = some 2 ∧
      (sending .transferComplete 3).e.idx = some 3 ∧ (sending .transferComplete 3).p.btf = true) := by decide

/-- The four places of R95: the step is a `SET_ACK` step there. -/
theorem test_witness_AcknowledgePolicy :
    nextIs (engineStep (running (cmd .readByte 0 ⟨0, 0⟩) .disableAck))
      (fun t => t.primTrace == [] ++ [⟨0x7000, none⟩]) = true ∧
    nextIs (engineStep (running (cmd .readMemoryByte 0 ⟨0, 0⟩) .disableAck))
      (fun t => t.primTrace == [] ++ [⟨0x7000, none⟩]) = true ∧
    nextIs (engineStep (running (cmd .readMemoryMulti 2 ⟨0, 2⟩) .initAck))
      (fun t => t.primTrace == [] ++ [⟨0x7001, none⟩] && t.p.ackEn != base.p.ackEn) = true ∧
    nextIs (engineStep (running (cmd .readMemoryMulti 1 ⟨0, 1⟩) .initAck))
      (fun t => t.primTrace == [] ++ [⟨0x7000, none⟩]) = true ∧
    nextIs (engineStep (capturing .disableAck 2 1)) (fun t => t.primTrace == [] ++ [⟨0x7000, none⟩]) = true ∧
    (capturing .disableAck 2 1).inv = true ∧
    decode (.prim 0x7000) = .instr (.setAck false) ∧ decode (.prim 0x7001) = .instr (.setAck true) := by decide

theorem test_witness_StopGeneration :
    (withP base fun p => { p with owner := true, mode := .pNacked }).p.owner = true ∧ base.p.owner = false := by decide

/-- `base` in a given phase of a transaction with the clock chip. -/
def phase (m : PMode) (target : Option (Addr7 × Dir)) : State :=
  withP base fun p => { p with owner := true, busy := true, mode := m, target := target }

theorem test_witness_AddressPhase :
    ((phase (.pAddr 0xD0) none).p.mode = .pAddr 0xD0 ∧
      (slaveAddrAck ((0xD0 : Byte).extractLsb' 1 7) .write (phase (.pAddr 0xD0) none)).1 = true) ∧
    ((phase (.pAddr 0xA1) none).p.mode = .pAddr 0xA1 ∧
      (slaveAddrAck ((0xA1 : Byte).extractLsb' 1 7) .read (phase (.pAddr 0xA1) none)).1 = false) := by decide

/-- R76 on both: the clock chip acknowledges 0xD0, nobody acknowledges 0xA1. -/
theorem test_address_phase :
    nextIs (envStep .address (phase (.pAddr 0xD0) none))
      (fun t => t.busTrace == [.A 0xD0 true] && t.p.addr && t.p.mode == .pTxWaitClr &&
        t.p.target == some (0x68, .write)) = true ∧
    nextIs (envStep .address (phase (.pAddr 0xA1) none))
      (fun t => t.busTrace == [.A 0xA1 false] && !t.p.addr && t.p.mode == .pNacked && t.p.addrResolved) = true := by
  decide

theorem test_witness_TransmitPhase :
    (withP (phase .pTx (some (0x68, .write))) fun p => { p with drTx := some 7 }).p.drTx = some 7 ∧
    ((withP (phase .pTx (some (0x68, .write))) fun p => { p with shift := some 7 }).p.shift = some 7 ∧
      (phase .pTx (some (0x68, .write))).p.target = some (0x68, .write) ∧
      (slaveWrite 0x68 7 (phase .pTx (some (0x68, .write)))).1 = true) := by decide

theorem test_witness_ReceivePhase :
    (phase .pRx (some (0x68, .read))).p.target = some (0x68, .read) ∧
    (slaveRead 0x68 (phase .pRx (some (0x68, .read)))).1 = 0x05 := by decide

/-- R79: not acknowledged when the bit is clear, acknowledged and going on when it is set. -/
theorem test_receive :
    nextIs (envStep .receive (phase .pRx (some (0x68, .read))))
      (fun t => t.busTrace == [.R 0x05 false] && t.p.mode == .pRxDone && t.p.rxne) = true ∧
    nextIs (envStep .receive (withP (phase .pRx (some (0x68, .read))) fun p => { p with ackEn := true }))
      (fun t => t.busTrace == [.R 0x05 true] && t.p.mode == .pRx) = true := by decide

/-- With no slave latched a transfer goes on, its answer any (log 9): here the oracle's next. -/
theorem test_no_target :
    nextIs (envStep .txDone { withP (phase .pTx none) fun p => { p with shift := some 7 } with slaves := .oracle [true] [] })
      (fun t => t.busTrace == [.W 7 true] && t.p.shift == none) = true ∧
    nextIs (envStep .receive { phase .pRx none with slaves := .oracle [] [0x05] })
      (fun t => t.busTrace == [.R 0x05 false] && t.p.drRx == some 0x05) = true := by decide

/-- The clock chip expecting its pointer. -/
def clockAddressed : State := { base with slaves := .mock [{ clock with expectPtr := true }] }

theorem test_witness_MockSlaveBehaviour :
    base.slaves = .mock [clock] ∧ base.slaveAt 0x50 = none ∧ base.slaveAt 0x68 = some clock ∧ clock.mem.wf = true ∧
    clock.expectPtr = false ∧ clockAddressed.slaves = .mock [{ clock with expectPtr := true }] ∧
    clockAddressed.slaveAt 0x68 = some { clock with expectPtr := true } := by decide

/-- A free schedule, with what waits in it and the engine's patience. -/
def free (s : State) (w : Option (EnvStep × Nat)) (n : Nat) : State :=
  { s with freeTail := true, waiting := w, patience := n }

/-- A step of a free schedule answers where the turn does, whatever its counters. -/
theorem free_answers {s : State} (hs : s.script = []) (hf : s.freeTail = true)
    (ht : ∀ i w n, ∃ t, turn { s with picks := i, waiting := w, patience := n } = .next t) :
    ∃ t, step s = .next t := by
  rw [step_free hs hf]
  obtain ⟨u, hu, ⟨k, -, -, h⟩ | h⟩ := freeStep_cases s
  · obtain ⟨t, ht⟩ := envStep_answers k u
    exact ⟨t, h.trans ht⟩
  · obtain ⟨t, ht⟩ := ht u.picks u.waiting u.patience
    rw [← hu] at ht
    exact ⟨t, h.trans ht⟩

/-- An address byte in flight in a free schedule, the engine IDLE. -/
def addressing (w : Option (EnvStep × Nat)) : State := free (phase (.pAddr 0xD0) none) w 0

/-- A command at a label that is no scheduling point, a stop enabled. -/
def between (w : Option (EnvStep × Nat)) : State :=
  free (withP (running (cmd .readByte 0 ⟨0, 0⟩) .start) fun p => { p with reqStop := true }) w 0

/-- A wait of a command with nothing to do for the environment. -/
def polling (n : Nat) : State := free (running (cmd .readByte 0 ⟨0, 0⟩) .startWait) none n

/-- One step of each kind: an event, an entry of `T`; an enabled environment step under the reference scheduler and in
a free schedule, its delay spent, not spent and not drawn yet; the same away from a scheduling point; nothing enabled;
the engine's patience spent and not. -/
theorem test_witness_TracesGrowByOne :
    ((phase (.pAddr 0xD0) none).script = [] ∧ (phase (.pAddr 0xD0) none).freeTail = false ∧
      (phase (.pAddr 0xD0) none).e.pc.yields = true ∧ envEnabled .address (phase (.pAddr 0xD0) none).p = true ∧
      ∀ b, EnvStep.address ≠ .extBusy b) ∧
    ((addressing none).script = [] ∧ (addressing none).freeTail = true ∧ (addressing none).e.pc.yields = true ∧
      envEnabled .address (addressing none).p = true ∧
      (addressing (some (.address, 0))).waiting = some (.address, 0) ∧
      (addressing (some (.address, 0 + 1))).waiting = some (.address, 0 + 1)) ∧
    (∃ t, step (addressing (some (.address, 0 + 1))) = .next t) ∧ (∃ t, step (addressing none) = .next t) ∧
    ((between (some (.stop, 3))).script = [] ∧ (between (some (.stop, 3))).freeTail = true ∧
      (between (some (.stop, 3))).e.pc.yields = false ∧ envEnabled .stop (between (some (.stop, 3))).p = true ∧
      (∀ b, EnvStep.stop ≠ .extBusy b) ∧ (between (some (.stop, 3))).waiting = some (.stop, 3)) ∧
    (∃ t, step (between (some (.stop, 3))) = .next t) ∧
    ((polling 0).script = [] ∧ (polling 0).freeTail = true ∧ (polling 0).e.pc.yields = true ∧
      (polling 0).e.pc ≠ .idle ∧ (polling 0).patience = 0 ∧ (polling 1).patience = 0 + 1) ∧
    (∀ k, envEnabled k (polling 0).p = true → ∃ b, k = .extBusy b) ∧ (∃ t, step (polling 1) = .next t) ∧
    (phase (.pAddr 0xD0) none).noReset ∧
    nextIs (step (phase (.pAddr 0xD0) none)) (fun t => t.busTrace == [.A 0xD0 true]) = true ∧
    (running (cmd .readByte 0 ⟨0, 0⟩) .start).noReset ∧
    nextIs (step (running (cmd .readByte 0 ⟨0, 0⟩) .start)) (fun t => t.primTrace == [⟨0x1000, none⟩]) = true := by
  refine ⟨by decide, by decide, free_answers rfl rfl fun _ _ _ => ⟨_, rfl⟩,
    free_answers rfl rfl fun _ _ _ => ⟨_, rfl⟩, by decide, free_answers rfl rfl fun _ _ _ => ⟨_, rfl⟩, by decide,
    fun k => ?_, free_answers rfl rfl fun _ _ _ => ⟨_, rfl⟩, ?_, by decide, ?_, by decide⟩
  · cases k with
    | extBusy b => exact fun _ => ⟨b, rfl⟩
    | _ => exact fun h => absurd h (by decide)
  all_goals
    intro l rest h
    cases h

/-- R70: a step that did not stay enabled waits no more; one that stayed enabled away from a scheduling point still
waits; one whose delay is spent is taken. -/
theorem test_fair_waits :
    nextIs (step { between (some (.stop, 3)) with p := (running (cmd .readByte 0 ⟨0, 0⟩) .start).p })
      (fun t => t.waiting == none) = true ∧
    nextIs (step (between (some (.stop, 3)))) (fun t => t.waiting == some (.stop, 3)) = true ∧
    nextIs (step (addressing (some (.address, 0)))) (fun t => t.busTrace == [.A 0xD0 true]) = true := by decide

/-- A read waiting for its start, and one returned with its stop pending: the bus is taken, then given up. -/
def starting : State := withP (running (cmd .readByte 0 ⟨0, 0⟩) .startWait) fun p => { p with reqStart := true }
def stopping : State := withP base fun p => { p with owner := true, busy := true, mode := .pNacked, reqStop := true }

theorem test_witness_OwnershipFollowsTrace :
    (starting.inv = true ∧ starting.noReset ∧ starting.p.owner = false ∧
      nextIs (step starting) (fun t => t.p.owner && t.busTrace == starting.busTrace ++ [.S]) = true) ∧
    (stopping.inv = true ∧ stopping.noReset ∧ stopping.p.owner = true ∧
      nextIs (step stopping) (fun t => !t.p.owner && t.busTrace == stopping.busTrace ++ [.P]) = true) := by
  refine ⟨⟨by decide, ?_, by decide, by decide⟩, by decide, ?_, by decide, by decide⟩ <;> intro l rest h <;> cases h

theorem test_witness_OnlySetAckWritesAckEn :
    (running (cmd .readMemoryMulti 2 ⟨0, 2⟩) .initAck).noReset ∧
    nextIs (step (running (cmd .readMemoryMulti 2 ⟨0, 2⟩) .initAck))
      (fun t => t.p.ackEn != (running (cmd .readMemoryMulti 2 ⟨0, 2⟩) .initAck).p.ackEn) = true := by
  refine ⟨?_, by decide⟩
  intro l rest h
  cases h

theorem test_witness_BufferIsolation :
    (capturing .captureN 0 3).inv = true ∧ (capturing .captureN 0 3).canonical = true ∧
    nextIs (step (capturing .captureN 0 3))
      (fun t => t.mem.read 10 != (capturing .captureN 0 3).mem.read 10) = true := by decide

/-- `base` under SPIN. -/
def spinning (s : State) : State := { s with params := { s.params with policy := .spin } }

/-- A result set before, kept on the return. -/
theorem test_witness_SpinNeverExpires :
    (spinning { running (cmd .readByte 0 ⟨0, 0⟩) .done with result := some .nak }).params.policy = .spin ∧
    nextIs (step (spinning { running (cmd .readByte 0 ⟨0, 0⟩) .done with result := some .nak }))
      (fun t => t.result == some .nak) = true ∧
    nextIs (step { spinning (running (cmd .readByte 0 ⟨0, 0⟩) .abort) with script := [.prim 0x5000] })
      (fun t => t.e.pc == .abort) = true := by decide

theorem test_witness_PoliciesAgreeUntilExpiry :
    nextIs (step (running (cmd .readByte 0 ⟨0, 0⟩) .startWait)) (fun t => t.e.pc != .abort && t.e.polls == 1) = true := by
  decide

theorem test_witness_InvAtLaunch :
    Params.atReset.wellFormed = true ∧ ∀ w, Pick.prim w ∉ [Pick.choose .go, Pick.reset ⟨.mock [clock], true, .zero⟩] := by
  refine ⟨by decide, fun w h => ?_⟩
  simp at h

theorem test_witness_StepKeepsInv :
    starting.inv = true ∧ nextIs (step starting) (fun _ => true) = true := by decide

theorem test_witness_InvNeverFaults : (capturing .capture 2 1).inv = true ∧ (sending .dataByte 2).canonical = true := by
  decide

theorem test_witness_CanonicalKept :
    (capturing .capture 2 1).canonical = true ∧ nextIs (step (capturing .capture 2 1)) (fun _ => true) = true := by
  decide

/-- A launch, initialized in its first step, IDLE with the bus free. -/
theorem test_witness_RunsNeverFaultOrHoldBus :
    Params.atReset.wellFormed = true ∧ (∀ w, Pick.prim w ∉ ([] : List Pick)) ∧
    nextIs (runSteps 1 (State.launch .atReset ⟨.mock [clock], false, .zero⟩ [] [.init] []))
      (fun t => t.e.pc == .idle && t.p.initialized) = true := by
  refine ⟨by decide, fun w h => ?_, by decide⟩
  simp at h

/-! ### Transactions -/

theorem base_ready : base.ready := by unfold State.ready; decide
theorem base_reference : base.reference := by unfold State.reference; decide

/-- A command placed as the Caller's next move. -/
theorem issuing_issues {i : Instr} {cw : CmdWord} (h : encode i = .cmd cw) (len : BitVec 32) (buf : BufRef) :
    (issuing cw len buf).issues i len buf [] := ⟨cw, h, rfl⟩

theorem issuing_ready (cw : CmdWord) (len : BitVec 32) (buf : BufRef) : (issuing cw len buf).ready := base_ready
theorem issuing_reference (cw : CmdWord) (len : BitVec 32) (buf : BufRef) : (issuing cw len buf).reference :=
  base_reference
theorem issuing_onlyChoices (cw : CmdWord) (len : BitVec 32) (buf : BufRef) : (issuing cw len buf).onlyChoices := by
  intro k h
  cases h

/-- V7 and V8's commands. -/
theorem test_witness_SingleWritesReachSlave :
    ((issuing 0x10006801 0 ⟨0, 0⟩).ready ∧ (issuing 0x10006801 0 ⟨0, 0⟩).canonical = true ∧
      (issuing 0x10006801 0 ⟨0, 0⟩).reference ∧ (issuing 0x10006801 0 ⟨0, 0⟩).slaveAt 0x68 = some clock ∧
      (issuing 0x10006801 0 ⟨0, 0⟩).issues (.writeByte 0x68 0x10) 0 ⟨0, 0⟩ []) ∧
    (issuing 0x10076802 0 ⟨0, 0⟩).issues (.writeMemoryByte 0x68 0x07 0x10) 0 ⟨0, 0⟩ [] :=
  ⟨⟨issuing_ready .., by decide, issuing_reference .., by decide, issuing_issues (by decide) ..⟩,
    issuing_issues (by decide) ..⟩

theorem test_witness_SingleReadsReturnRegister :
    ((issuing 0x00006803 0 ⟨0, 0⟩).ready ∧ (issuing 0x00006803 0 ⟨0, 0⟩).reference ∧
      (issuing 0x00006803 0 ⟨0, 0⟩).slaveAt 0x68 = some clock ∧
      (issuing 0x00006803 0 ⟨0, 0⟩).issues (.readByte 0x68) 0 ⟨0, 0⟩ []) ∧
    (issuing 0x00FF6804 0 ⟨0, 0⟩).issues (.readMemoryByte 0x68 0xFF) 0 ⟨0, 0⟩ [] :=
  ⟨⟨issuing_ready .., issuing_reference .., by decide, issuing_issues (by decide) ..⟩, issuing_issues (by decide) ..⟩

/-- Both ends of the length range. -/
theorem test_witness_MultiReadFillsBuffer :
    ((issuing 0x00FF6805 16 ⟨4, 16⟩).ready ∧ (issuing 0x00FF6805 16 ⟨4, 16⟩).canonical = true ∧
      (issuing 0x00FF6805 16 ⟨4, 16⟩).reference ∧ (issuing 0x00FF6805 16 ⟨4, 16⟩).slaveAt 0x68 = some clock ∧
      (issuing 0x00FF6805 16 ⟨4, 16⟩).issues (.readMemoryMulti 0x68 0xFF) 16 ⟨4, 16⟩ [] ∧
      lengthsOk (issuing 0x00FF6805 16 ⟨4, 16⟩).params 16 ⟨4, 16⟩) ∧
    lengthsOk base.params 1 ⟨4, 1⟩ :=
  ⟨⟨issuing_ready .., by decide, issuing_reference .., by decide, issuing_issues (by decide) ..,
    by unfold lengthsOk; decide⟩, by unfold lengthsOk; decide⟩

theorem test_witness_MultiWriteStoresBuffer :
    (issuing 0x00FF6806 16 ⟨4, 16⟩).ready ∧ (issuing 0x00FF6806 16 ⟨4, 16⟩).canonical = true ∧
    (issuing 0x00FF6806 16 ⟨4, 16⟩).reference ∧ (issuing 0x00FF6806 16 ⟨4, 16⟩).slaveAt 0x68 = some clock ∧
    (issuing 0x00FF6806 16 ⟨4, 16⟩).issues (.writeMemoryMulti 0x68 0xFF) 16 ⟨4, 16⟩ [] ∧
    lengthsOk (issuing 0x00FF6806 16 ⟨4, 16⟩).params 16 ⟨4, 16⟩ :=
  ⟨issuing_ready .., by decide, issuing_reference .., by decide, issuing_issues (by decide) ..,
    by unfold lengthsOk; decide⟩

/-- The two round trips of P1 and P3. -/
theorem test_witness_RoundTrips :
    base.ready ∧ base.canonical = true ∧ base.reference ∧ base.slaveAt 0x68 = some clock ∧
    (encode (.writeMemoryByte 0x68 0x10 0x42) = .cmd 0x42106802 ∧ encode (.readMemoryByte 0x68 0x10) = .cmd 0x00106804 ∧
      { base with calls := [.command 0x42106802 0 ⟨0, 0⟩, .command 0x00106804 0 ⟨0, 0⟩] }.calls =
        .command 0x42106802 0 ⟨0, 0⟩ :: .command 0x00106804 0 ⟨0, 0⟩ :: []) ∧
    (encode (.writeMemoryMulti 0x68 0x00) = .cmd 0x00006806 ∧ encode (.readMemoryMulti 0x68 0x00) = .cmd 0x00006805 ∧
      { base with calls := [.command 0x00006806 3 ⟨0, 3⟩, .command 0x00006805 3 ⟨3, 3⟩] }.calls =
        .command 0x00006806 3 ⟨0, 3⟩ :: .command 0x00006805 3 ⟨3, 3⟩ :: [] ∧
      lengthsOk base.params 3 ⟨0, 3⟩ ∧ lengthsOk base.params 3 ⟨3, 3⟩ ∧ (3 : BitVec 32).toNat ≤ 256) :=
  ⟨base_ready, by decide, base_reference, by decide, by decide, by decide, by decide, by decide,
    by unfold lengthsOk; decide, by unfold lengthsOk; decide, by decide⟩

/-- `base` about to issue the two commands of a round trip. -/
def issuing2 (c₁ c₂ : Call) : State := { base with calls := [c₁, c₂] }

theorem issuing2_onlyChoices (c₁ c₂ : Call) : (issuing2 c₁ c₂).onlyChoices := by
  intro k h
  cases h

/-- Two commands that return with `OK` one after the other, in `j` and then `k` steps. -/
def returned2 (j k : Nat) (s : State) (rest : List Call) : Bool :=
  nextIs (runSteps j s) fun u =>
    u.e.pc == .idle && u.calls == rest && u.result == some .ok &&
      nextIs (runSteps k u) fun t => t.e.pc == .idle && t.calls == [] && t.result == some .ok

theorem returned2_witness {j k : Nat} {s : State} {rest : List Call} (h : returned2 j k s rest = true) :
    ∃ u t, runSteps j s = .next u ∧ u.okBefore rest ∧ runSteps k u = .next t ∧ t.returnedOk := by
  unfold returned2 nextIs at h
  split at h
  · rename_i u hu
    simp only [Bool.and_eq_true, beq_iff_eq] at h
    obtain ⟨⟨⟨h1, h2⟩, h3⟩, h4⟩ := h
    split at h4
    · rename_i t ht
      refine ⟨u, t, hu, ⟨h1, h2, h3⟩, ht, ?_⟩
      simpa [State.returnedOk, and_assoc] using h4
    · cases h4
    · cases h4
  · cases h
  · cases h

def byteTrip : State := issuing2 (.command 0x42106802 0 ⟨0, 0⟩) (.command 0x00106804 0 ⟨0, 0⟩)
def multiTrip : State := issuing2 (.command 0x00006806 3 ⟨0, 3⟩) (.command 0x00006805 3 ⟨3, 3⟩)

/-- The two round trips under a general schedule: runs in which both commands return with `OK`. -/
theorem test_witness_RoundTripsAnySchedule :
    (byteTrip.inv = true ∧ byteTrip.canonical = true ∧ byteTrip.e.pc = .idle ∧ byteTrip.onlyChoices ∧
      byteTrip.slaveAt 0x68 = some clock ∧
      ∃ u t, runSteps 20 byteTrip = .next u ∧ u.okBefore [.command 0x00106804 0 ⟨0, 0⟩] ∧
        runSteps 28 u = .next t ∧ t.returnedOk) ∧
    (multiTrip.inv = true ∧ multiTrip.canonical = true ∧ multiTrip.e.pc = .idle ∧ multiTrip.onlyChoices ∧
      multiTrip.slaveAt 0x68 = some clock ∧
      ∃ u t, runSteps 27 multiTrip = .next u ∧ u.okBefore [.command 0x00006805 3 ⟨3, 3⟩] ∧
        runSteps 38 u = .next t ∧ t.returnedOk) :=
  ⟨⟨by decide, by decide, rfl, issuing2_onlyChoices _ _, by decide, returned2_witness (by decide)⟩,
    by decide, by decide, rfl, issuing2_onlyChoices _ _, by decide, returned2_witness (by decide)⟩

theorem test_witness_ScanReportsPresent :
    (issuing 0 0 ⟨0, 0⟩).ready ∧ (issuing 0 0 ⟨0, 0⟩).reference ∧ (issuing 0 0 ⟨0, 0⟩).slaves = .mock [clock] ∧
    (issuing 0 0 ⟨0, 0⟩).issues .scan 0 ⟨0, 0⟩ [] :=
  ⟨issuing_ready .., issuing_reference .., rfl, issuing_issues (by decide) ..⟩

/-- X9: nobody at 0x50. -/
theorem test_witness_AbsentSlaveReturnsNak :
    (issuing 0x00005003 0 ⟨0, 0⟩).ready ∧ (issuing 0x00005003 0 ⟨0, 0⟩).reference ∧
    (issuing 0x00005003 0 ⟨0, 0⟩).slaves = .mock [clock] ∧ (issuing 0x00005003 0 ⟨0, 0⟩).slaveAt 0x50 = none ∧
    (issuing 0x00005003 0 ⟨0, 0⟩).issues (.readByte 0x50) 0 ⟨0, 0⟩ [] ∧
    addressedBy (.readByte 0x50) = some (0x50, .read) ∧ takesSideOperands (.readByte 0x50) = false ∧
    (takesSideOperands (.readMemoryMulti 0x50 0) = true ∧ lengthsOk base.params 1 ⟨0, 1⟩) ∧
    (issuing 0x00005003 0 ⟨0, 0⟩).params.policy = .bounded ∧
    1 ≤ (issuing 0x00005003 0 ⟨0, 0⟩).params.timeoutPolls :=
  ⟨issuing_ready .., issuing_reference .., rfl, by decide, issuing_issues (by decide) .., by decide, by decide,
    ⟨by decide, by unfold lengthsOk; decide⟩, by decide, by decide⟩

/-- A poll of an absent slave's address with the environment at rest; and V18's command. -/
theorem test_witness_SpinHangsForever :
    ((spinning (running (cmd .writeByte 0 ⟨0, 0⟩) .addrAcked)).reference ∧
      (spinning (running (cmd .writeByte 0 ⟨0, 0⟩) .addrAcked)).params.policy = .spin ∧
      (spinning (running (cmd .writeByte 0 ⟨0, 0⟩) .addrAcked)).e.cmd = some (cmd .writeByte 0 ⟨0, 0⟩) ∧
      stepTable .writeByte .addrAcked = some ⟨.wait .addr, .goto .clearAddr⟩ ∧
      WaitCond.holds .addr (spinning (running (cmd .writeByte 0 ⟨0, 0⟩) .addrAcked)).p = false ∧
      firstEnabled (spinning (running (cmd .writeByte 0 ⟨0, 0⟩) .addrAcked)).p = none) ∧
    ((spinning (issuing 0x00005001 0 ⟨0, 0⟩)).ready ∧ (spinning (issuing 0x00005001 0 ⟨0, 0⟩)).reference ∧
      (spinning (issuing 0x00005001 0 ⟨0, 0⟩)).slaves = .mock [clock] ∧
      (spinning (issuing 0x00005001 0 ⟨0, 0⟩)).slaveAt 0x50 = none ∧
      (spinning (issuing 0x00005001 0 ⟨0, 0⟩)).issues (.writeByte 0x50 0) 0 ⟨0, 0⟩ [] ∧
      addressedBy (.writeByte 0x50 0) = some (0x50, .write) ∧ takesSideOperands (.writeByte 0x50 0) = false ∧
      (spinning (issuing 0x00005001 0 ⟨0, 0⟩)).params.policy = .spin) :=
  ⟨⟨base_reference, rfl, rfl, rfl, by decide, by decide⟩,
    issuing_ready 0x00005001 0 ⟨0, 0⟩, issuing_reference 0x00005001 0 ⟨0, 0⟩, rfl, by decide,
    issuing_issues (by decide) 0 ⟨0, 0⟩, by decide, by decide, rfl⟩

/-- With a script of its own, and under a free schedule. -/
theorem test_witness_BoundedCommandsReturn :
    ({ starting with script := [.choose .go, .reset ⟨.mock [], false, .zero⟩] }.inv = true ∧
      { starting with script := [.choose .go, .reset ⟨.mock [], false, .zero⟩] }.params.policy = .bounded) ∧
    ((free starting none 2).inv = true ∧ (free starting none 2).params.policy = .bounded) := by decide

/-- A run of a command, under the reference scheduler, that has returned with `OK`. -/
def returned (k : Nat) (s : State) : Bool :=
  nextIs (runSteps k s) fun t => t.e.pc == .idle && t.calls == [] && t.result == some .ok

theorem returned_witness {k : Nat} {s : State} (h : returned k s = true) :
    ∃ t, runSteps k s = .next t ∧ t.returnedOk := by
  unfold returned nextIs at h
  split at h
  · rename_i t ht
    refine ⟨t, ht, ?_⟩
    simpa [State.returnedOk, and_assoc] using h
  · cases h
  · cases h

/-- Runs that return with `OK`, for each command of the statement; the multi-byte read with more than one byte. -/
theorem test_witness_ReadsAnySchedule :
    ((issuing 0x00006803 0 ⟨0, 0⟩).inv = true ∧ (issuing 0x00006803 0 ⟨0, 0⟩).canonical = true ∧
      (issuing 0x00006803 0 ⟨0, 0⟩).e.pc = .idle ∧ (issuing 0x00006803 0 ⟨0, 0⟩).onlyChoices ∧
      (∃ t, runSteps 15 (issuing 0x00006803 0 ⟨0, 0⟩) = .next t ∧ t.returnedOk) ∧
      (issuing 0x00006803 0 ⟨0, 0⟩).issues (.readByte 0x68) 0 ⟨0, 0⟩ []) ∧
    ((∃ t, runSteps 27 (issuing 0x00016804 0 ⟨0, 0⟩) = .next t ∧ t.returnedOk) ∧
      (issuing 0x00016804 0 ⟨0, 0⟩).issues (.readMemoryByte 0x68 0x01) 0 ⟨0, 0⟩ []) ∧
    ((∃ t, runSteps 37 (issuing 0x00006805 3 ⟨0, 3⟩) = .next t ∧ t.returnedOk) ∧
      (issuing 0x00006805 3 ⟨0, 3⟩).issues (.readMemoryMulti 0x68 0x00) 3 ⟨0, 3⟩ []) :=
  ⟨⟨by decide, by decide, rfl, issuing_onlyChoices _ _ _, returned_witness (by decide), issuing_issues (by decide) ..⟩,
    ⟨returned_witness (by decide), issuing_issues (by decide) ..⟩,
    ⟨returned_witness (by decide), issuing_issues (by decide) ..⟩⟩

theorem test_witness_WritesAnySchedule :
    ((issuing 0x10006801 0 ⟨0, 0⟩).inv = true ∧ (issuing 0x10006801 0 ⟨0, 0⟩).e.pc = .idle ∧
      (issuing 0x10006801 0 ⟨0, 0⟩).onlyChoices ∧
      (∃ t, runSteps 16 (issuing 0x10006801 0 ⟨0, 0⟩) = .next t ∧ t.returnedOk) ∧
      (issuing 0x10006801 0 ⟨0, 0⟩).issues (.writeByte 0x68 0x10) 0 ⟨0, 0⟩ []) ∧
    ((∃ t, runSteps 20 (issuing 0x10076802 0 ⟨0, 0⟩) = .next t ∧ t.returnedOk) ∧
      (issuing 0x10076802 0 ⟨0, 0⟩).issues (.writeMemoryByte 0x68 0x07 0x10) 0 ⟨0, 0⟩ []) ∧
    ((∃ t, runSteps 27 (issuing 0x00006806 3 ⟨0, 3⟩) = .next t ∧ t.returnedOk) ∧
      (issuing 0x00006806 3 ⟨0, 3⟩).issues (.writeMemoryMulti 0x68 0x00) 3 ⟨0, 3⟩ []) :=
  ⟨⟨by decide, rfl, issuing_onlyChoices _ _ _, returned_witness (by decide), issuing_issues (by decide) ..⟩,
    ⟨returned_witness (by decide), issuing_issues (by decide) ..⟩,
    ⟨returned_witness (by decide), issuing_issues (by decide) ..⟩⟩

set_option maxRecDepth 100000 in
/-- A scan has 128 probes whatever the environment, so the shortest run that returns has this many steps. -/
theorem scan_returned : returned 1410 (issuing 0 0 ⟨0, 0⟩) = true := by decide

theorem test_witness_ScanAnySchedule :
    (issuing 0 0 ⟨0, 0⟩).inv = true ∧ (issuing 0 0 ⟨0, 0⟩).e.pc = .idle ∧ (issuing 0 0 ⟨0, 0⟩).onlyChoices ∧
    (issuing 0 0 ⟨0, 0⟩).issues .scan 0 ⟨0, 0⟩ [] ∧
    (∃ t, runSteps 1410 (issuing 0 0 ⟨0, 0⟩) = .next t ∧ t.returnedOk) ∧
    (issuing 0 0 ⟨0, 0⟩).slaves = .mock [clock] :=
  ⟨by decide, rfl, issuing_onlyChoices _ _ _, issuing_issues (by decide) .., returned_witness scan_returned, rfl⟩

end Sys2Proof.Tests
end

section
/-! The statements of 10_state.md on the traces and on Acknowledge Control: what one step appends to `T` (R29) together
with what it does to `P.ack_en` (R25), what it appends to `B` (R28), and how a free schedule shares out the turns (R70). -/

namespace Sys2Proof.Machine

open Sys2Proof

/-! ## One primitive at most, and `SET_ACK` alone for Acknowledge Control -/

/-- The entry of `T` that `SET_ACK e` leaves (R58, R69). -/
def ackRecord (e : Bool) : PrimRecord := ⟨primWord 0x7 (ackOperand e), none⟩

theorem ackRecord_eq (e : Bool) : ackRecord e = ⟨if e = true then 0x7001 else 0x7000, none⟩ := by
  cases e <;> decide

/-- From `s` to `t` the primitive trace grows by at most one entry, and Acknowledge Control changes only with the entry
of the `SET_ACK` that wrote it. -/
def AtMostOnePrim (s t : State) : Prop :=
  (t.primTrace = s.primTrace ∧ t.p.ackEn = s.p.ackEn) ∨
    ∃ r, t.primTrace = s.primTrace ++ [r] ∧ (t.p.ackEn ≠ s.p.ackEn → r = ackRecord t.p.ackEn)

theorem AtMostOnePrim.refl (s : State) : AtMostOnePrim s s := .inl ⟨rfl, rfl⟩

/-- One entry of `T`, Acknowledge Control kept. -/
theorem AtMostOnePrim.of_record {s t : State} {r : PrimRecord} (hT : t.primTrace = s.primTrace ++ [r])
    (hack : t.p.ackEn = s.p.ackEn) : AtMostOnePrim s t := .inr ⟨r, hT, fun h => absurd hack h⟩

theorem AtMostOnePrim.congr_right {s t u : State} (h : AtMostOnePrim s t) (hT : u.primTrace = t.primTrace)
    (hp : u.p = t.p) : AtMostOnePrim s u := by
  unfold AtMostOnePrim at *
  rwa [hT, hp]

theorem primSetAck_atMostOnePrim (e : Bool) (s : State) : AtMostOnePrim s (primSetAck e s) :=
  .inr ⟨ackRecord e, rfl, fun _ => rfl⟩

@[simp] theorem Periph.clearAddr_ackEn (p : Periph) : p.clearAddr.ackEn = p.ackEn := by
  unfold Periph.clearAddr
  split
  · split <;> rfl
  · rfl

theorem primReadStatus2_atMostOnePrim (s : State) : AtMostOnePrim s (primReadStatus2 s).2 :=
  .of_record rfl (Periph.clearAddr_ackEn s.p)

theorem primReadStatus_atMostOnePrim (s : State) : AtMostOnePrim s (primReadStatus s).2 := .of_record rfl rfl

theorem primIssueStart_atMostOnePrim (s : State) : AtMostOnePrim s (primIssueStart s) := .of_record rfl rfl

theorem primIssueStop_atMostOnePrim (s : State) : AtMostOnePrim s (primIssueStop s) := .of_record rfl rfl

theorem primWriteDr_atMostOnePrim {b : Byte} {s t : State} (h : primWriteDr b s = .ok t) : AtMostOnePrim s t := by
  obtain ⟨-, rfl⟩ | ⟨-, -, rfl⟩ := primWriteDr_cases h <;> exact .of_record rfl rfl

theorem primReadDr_atMostOnePrim {v : Byte} {s t : State} (h : primReadDr s = .ok (v, t)) : AtMostOnePrim s t := by
  obtain ⟨-, rfl⟩ := primReadDr_cases h
  exact .of_record rfl rfl

/-- The actions of the step tables issue at most one primitive each (R84, R85). -/
theorem doAct_atMostOnePrim {a : Act} {c : Command} {s t : State} (h : doAct a c s = .ok t) : AtMostOnePrim s t := by
  cases a <;> simp only [doAct] at h
  case issueStart => cases h; exact primIssueStart_atMostOnePrim s
  case issueStop => cases h; exact primIssueStop_atMostOnePrim s
  case sendAddr | sendReg | sendData => exact primWriteDr_atMostOnePrim h
  case sendProbe =>
    cases hn : s.e.sa with
    | none => rw [hn] at h; cases h
    | some n =>
      rw [hn] at h
      exact primWriteDr_atMostOnePrim h
  case sendRegClearIdx =>
    cases hu : primWriteDr c.reg s with
    | error f => rw [hu] at h; cases h
    | ok u =>
      rw [hu] at h
      cases h
      exact (primWriteDr_atMostOnePrim hu).congr_right rfl rfl
  case sendBuf =>
    obtain ⟨i, b, u, -, -, hu, rfl⟩ := actSendBuf_ok h
    exact (primWriteDr_atMostOnePrim hu).congr_right rfl rfl
  case clearAddr | clearAddrInitCount => cases h; exact (primReadStatus2_atMostOnePrim s).congr_right rfl rfl
  case ackOff | ackIfMany => cases h; exact primSetAck_atMostOnePrim _ s
  case captureRdata =>
    obtain ⟨v, u, hu, rfl⟩ := actCaptureRdata_ok h
    exact (primReadDr_atMostOnePrim hu).congr_right rfl rfl
  case captureBuf =>
    obtain ⟨i, r, v, u, w, -, -, hu, hw, rfl⟩ := actCaptureBuf_ok h
    obtain ⟨-, rfl⟩ := bufWrite_ok hw
    exact (primReadDr_atMostOnePrim hu).congr_right rfl rfl
  case inspect =>
    obtain ⟨n, -, rfl⟩ := actInspect_ok h
    exact (primReadStatus_atMostOnePrim s).congr_right rfl rfl
  case nextProbe =>
    cases hn : s.e.sa with
    | none => rw [hn] at h; cases h
    | some n =>
      rw [hn] at h
      cases h
      exact AtMostOnePrim.refl s
  case scanInit | test | wait | settle => cases h; exact AtMostOnePrim.refl s

theorem accept_atMostOnePrim {op : Op} {a : Addr7} {r d : Byte} {l : Label} {s t : State}
    (h : accept op a r d l s = .next t) : AtMostOnePrim s t := by
  have h := gated_next h
  split at h <;> cases h <;> exact AtMostOnePrim.refl s

theorem exec_atMostOnePrim {i : Instr} {s t : State} (h : exec i s = .next t) : AtMostOnePrim s t := by
  cases i <;> simp only [exec] at h
  case issueStart => cases h; exact primIssueStart_atMostOnePrim s
  case issueStop => cases h; exact primIssueStop_atMostOnePrim s
  case writeDr b => exact primWriteDr_atMostOnePrim (outcomeOf_next h)
  case readDr =>
    have h := outcomeOf_next h
    cases hr : primReadDr s with
    | error f => rw [hr] at h; cases h
    | ok vu =>
      rw [hr] at h
      cases h
      exact primReadDr_atMostOnePrim hr
  case readStatus => cases h; exact primReadStatus_atMostOnePrim s
  case readStatus2 => cases h; exact primReadStatus2_atMostOnePrim s
  case setAck e => cases h; exact primSetAck_atMostOnePrim e s
  all_goals exact accept_atMostOnePrim h

theorem rejectWord_atMostOnePrim {s t : State} (h : rejectWord s = .next t) : AtMostOnePrim s t := by
  cases gated_next h
  exact AtMostOnePrim.refl s

theorem runWord_atMostOnePrim {w : InstrWord} {s t : State} (h : runWord w s = .next t) : AtMostOnePrim s t := by
  unfold runWord at h
  split at h
  · exact exec_atMostOnePrim h
  · exact rejectWord_atMostOnePrim h
  · exact rejectWord_atMostOnePrim h
  · cases h
  · cases h

/-! ## The sequencer -/

theorem pollOnce_atMostOnePrim (c : WaitCond) (s : State) : AtMostOnePrim s (pollOnce c s).2 := by
  rw [pollOnce_eq]
  dsimp only
  split
  · exact primReadStatus2_atMostOnePrim s
  · exact primReadStatus_atMostOnePrim s

/-- Moving to a successor issues no primitive. -/
theorem AtMostOnePrim.advance {k : Succ} {c : Command} {s t u : State} (h : AtMostOnePrim s t)
    (hu : advance k c t = .next u) : AtMostOnePrim s u := by
  obtain ⟨l, -, rfl⟩ := advance_next hu
  exact h.congr_right rfl rfl

/-- Counting a missed poll, or giving up, issues no primitive. -/
theorem AtMostOnePrim.pollMissed {s t : State} (h : AtMostOnePrim s t) (c : WaitCond) :
    AtMostOnePrim s (pollMissed c t) := by
  obtain ⟨-, hm⟩ | ⟨-, -, hm⟩ | ⟨-, -, hm⟩ := pollMissed_cases c t <;> rw [hm] <;> exact h.congr_right rfl rfl

theorem poll_atMostOnePrim {c : WaitCond} {k : Succ} {cmd : Command} {s t : State} (h : poll c k cmd s = .next t) :
    AtMostOnePrim s t := by
  have hread := pollOnce_atMostOnePrim c s
  unfold poll at h
  split at h
  · exact (hread.congr_right (u := (pollOnce c s).2.setPolls 0) rfl rfl).advance h
  · cases h
    exact hread.pollMissed c

theorem settleStep_atMostOnePrim {k : Succ} {cmd : Command} {s t : State} (h : settleStep k cmd s = .next t) :
    AtMostOnePrim s t := by
  unfold settleStep at h
  split at h
  · exact (AtMostOnePrim.refl s).advance h
  · cases h
    exact AtMostOnePrim.refl s

theorem runRow_atMostOnePrim {row : Row} {c : Command} {s t : State} (h : runRow row c s = .next t) :
    AtMostOnePrim s t := by
  unfold runRow at h
  split at h
  · exact poll_atMostOnePrim h
  · exact settleStep_atMostOnePrim h
  · split at h
    · rename_i u hu
      exact (doAct_atMostOnePrim hu).advance h
    · cases h

theorem tableStep_atMostOnePrim {l : Label} {s t : State} (h : tableStep l s = .next t) : AtMostOnePrim s t := by
  unfold tableStep at h
  split at h
  · cases h
  · split at h
    · cases h
    · exact runRow_atMostOnePrim h

theorem initCall_atMostOnePrim {s t : State} (h : initCall s = .next t) : AtMostOnePrim s t := by
  unfold initCall at h
  split at h <;> cases h
  exact .inl ⟨rfl, rfl⟩

/-- A turn of the Caller or the engine issues at most one primitive (R84). -/
theorem turn_atMostOnePrim {s t : State} (h : turn s = .next t) : AtMostOnePrim s t := by
  obtain ⟨-, -, ht⟩ | ⟨rest, -, -, ht⟩ | ⟨cw, len, buf, rest, -, -, ht⟩ | ⟨-, ht⟩ | ⟨-, ht⟩ | ⟨-, -, -, ht⟩ :=
    turn_cases s <;> rw [ht] at h
  · cases h
    exact AtMostOnePrim.refl s
  · exact (initCall_atMostOnePrim h :)
  · exact (runWord_atMostOnePrim h :)
  · cases h
    exact (primIssueStop_atMostOnePrim s).congr_right rfl rfl
  · cases h
    exact AtMostOnePrim.refl s
  · exact tableStep_atMostOnePrim h

/-! ## One bus event at most -/

@[simp] theorem Periph.addressed_ackEn (p : Periph) (a : Addr7) (d : Dir) (k : Bool) :
    (p.addressed a d k).ackEn = p.ackEn := by cases k <;> rfl

@[simp] theorem Periph.sent_ackEn (p : Periph) (k : Bool) : (p.sent k).ackEn = p.ackEn := by cases k <;> rfl

@[simp] theorem Periph.received_ackEn (p : Periph) (v : Byte) : (p.received v).ackEn = p.ackEn := rfl

/-- From `s` to `t` the bus trace grows by at most one event, and Acknowledge Control is kept. -/
def AtMostOneEvent (s t : State) : Prop :=
  (t.busTrace = s.busTrace ∨ ∃ ev, t.busTrace = s.busTrace ++ [ev]) ∧ t.p.ackEn = s.p.ackEn

theorem AtMostOneEvent.refl (s : State) : AtMostOneEvent s s := ⟨.inl rfl, rfl⟩

theorem envStop_atMostOneEvent (s : State) : AtMostOneEvent s (envStop s) := by
  unfold envStop
  split
  · exact ⟨.inr ⟨_, rfl⟩, rfl⟩
  · exact ⟨.inl rfl, rfl⟩

theorem envAddress_atMostOneEvent (b : Byte) (s : State) : AtMostOneEvent s (envAddress b s) := by
  obtain ⟨sl, d, hs⟩ := slaveAddrAck_sameButSlaves (addrOfByte b) (dirOfByte b) s
  simp only [envAddress, hs]
  exact ⟨.inr ⟨_, rfl⟩, Periph.addressed_ackEn ..⟩

theorem envTxDone_atMostOneEvent (b : Byte) (s : State) : AtMostOneEvent s (envTxDone b s) := by
  obtain ⟨sl, d, hs⟩ := targetWrite_sameButSlaves b s
  simp only [envTxDone, hs]
  exact ⟨.inr ⟨_, rfl⟩, Periph.sent_ackEn ..⟩

theorem envReceive_atMostOneEvent (s : State) : AtMostOneEvent s (envReceive s) := by
  obtain ⟨sl, d, hs⟩ := targetRead_sameButSlaves s
  simp only [envReceive, hs]
  exact ⟨.inr ⟨_, rfl⟩, Periph.received_ackEn ..⟩

/-- The environment emits at most one event a step and never writes Acknowledge Control (R74 to R80). -/
theorem envStep_atMostOneEvent {k : EnvStep} {s t : State} (h : envStep k s = .next t) : AtMostOneEvent s t := by
  cases k <;> simp only [envStep] at h
  case stop => cases h; exact envStop_atMostOneEvent s
  case start => cases h; exact ⟨.inr ⟨_, rfl⟩, rfl⟩
  case address =>
    split at h <;> cases h
    · exact envAddress_atMostOneEvent _ s
    · exact AtMostOneEvent.refl s
  case txShift =>
    split at h <;> cases h
    · exact ⟨.inl rfl, rfl⟩
    · exact AtMostOneEvent.refl s
  case txDone =>
    split at h <;> cases h
    · exact envTxDone_atMostOneEvent _ s
    · exact AtMostOneEvent.refl s
  case receive => cases h; exact envReceive_atMostOneEvent s
  case extBusy => cases h; exact ⟨.inl rfl, rfl⟩

/-! ## One machine step -/

/-- Consuming a schedule entry touches the schedule's own fields only. -/
theorem Consumed.eq_rescheduled {s u : State} (h : Consumed s u) :
    ∃ sc n w d, u = { s with script := sc, picks := n, waiting := w, patience := d } := by
  obtain rfl | ⟨-, rest, -, rfl⟩ | ⟨-, -, hu⟩ := h
  · exact ⟨_, _, _, _, rfl⟩
  · exact ⟨rest, _, _, _, rfl⟩
  · exact ⟨s.script, u.picks, u.waiting, u.patience, hu⟩

/-- A step that is no hardware reset is an environment step at a scheduling point, which keeps the engine's side, or a
move that adds no bus event and issues at most one primitive. -/
theorem step_appends {s t : State} (hs : s.noReset) (h : step s = .next t) :
    (s.e.pc.yields = true ∧ AtMostOneEvent s t ∧ t.primTrace = s.primTrace ∧ t.e = s.e ∧ t.result = s.result ∧
      t.rdata = s.rdata ∧ t.scanOut = s.scanOut ∧ t.mem = s.mem) ∨
    (t.busTrace = s.busTrace ∧ AtMostOnePrim s t) := by
  obtain ⟨l, rest, hl, -⟩ | ⟨w, rest, -, hw⟩ | ⟨u, hu, hmove⟩ := step_cases s
  · exact absurd hl (hs l rest)
  · rw [hw] at h
    obtain ⟨hB, -⟩ := runWord_sameOutside h
    exact .inr ⟨hB, (runWord_atMostOnePrim h :)⟩
  · obtain ⟨sc, n, w, d, rfl⟩ := hu.eq_rescheduled
    obtain ⟨k, hy, -, hk⟩ | ht := hmove
    · rw [hk] at h
      obtain ⟨⟨he, hres, hrd, hso, hmem, hT, -⟩, -⟩ := envStep_next h
      exact .inl ⟨hy, (envStep_atMostOneEvent h :), hT, he, hres, hrd, hso, hmem⟩
    · rw [ht] at h
      obtain ⟨hB, -⟩ := turn_next h
      exact .inr ⟨hB, (turn_atMostOnePrim h :)⟩

/-- Settles O40: an environment step keeps the bit, and every other step that changes it logs `SET_ACK`. -/
theorem onlySetAckWritesAckEn : Obligations.OnlySetAckWritesAckEn := by
  intro s t hs h hack
  obtain ⟨-, ⟨-, hkept⟩, -⟩ | ⟨hB, ⟨-, hkept⟩ | ⟨r, hT, hr⟩⟩ := step_appends hs h
  · exact absurd hkept hack
  · exact absurd hkept hack
  · rw [hT, hr hack, ackRecord_eq]
    exact ⟨rfl, hB⟩

theorem Label.yields_cases {l : Label} (h : l.yields = true) : l = .idle ∨ l = .settle ∨ l.isWait = true := by
  simp only [Label.yields, Bool.or_eq_true, decide_eq_true_eq] at h
  tauto

/-- The traces grow as R28 and R29 say. -/
theorem step_grows_traces {s t : State} (hs : s.noReset) (h : step s = .next t) :
    (t.busTrace = s.busTrace ∧ t.primTrace = s.primTrace) ∨
    (∃ r, t.busTrace = s.busTrace ∧ t.primTrace = s.primTrace ++ [r]) ∨
    (∃ ev, t.busTrace = s.busTrace ++ [ev] ∧ t.primTrace = s.primTrace ∧
      (s.e.pc = .idle ∨ s.e.pc = .settle ∨ s.e.pc.isWait = true) ∧ t.e = s.e ∧ t.result = s.result ∧
      t.rdata = s.rdata ∧ t.scanOut = s.scanOut ∧ t.mem = s.mem) := by
  obtain ⟨hy, ⟨hB | ⟨ev, hB⟩, -⟩, hT, hrest⟩ | ⟨hB, ⟨hT, -⟩ | ⟨r, hT, -⟩⟩ := step_appends hs h
  · exact .inl ⟨hB, hT⟩
  · exact .inr (.inr ⟨ev, hB, hT, Label.yields_cases hy, hrest⟩)
  · exact .inl ⟨hB, hT⟩
  · exact .inr (.inl ⟨r, hB, hT⟩)

/-! ## Weak fairness (R70, log 4) -/

theorem firstEnabled_ne_extBusy {p : Periph} {k : EnvStep} (h : firstEnabled p = some k) (b : Bool) :
    k ≠ .extBusy b := by
  rintro rfl
  unfold firstEnabled at h
  repeat' split at h
  all_goals cases h

theorem firstEnabled_eq_none {p : Periph} (h : ∀ k, envEnabled k p = true → ∃ b, k = .extBusy b) :
    firstEnabled p = none := by
  cases hk : firstEnabled p with
  | none => rfl
  | some k =>
    obtain ⟨b, hb⟩ := h k (firstEnabled_enabled hk)
    exact absurd hb (firstEnabled_ne_extBusy hk b)

theorem due_eq_none {s : State} (h : firstEnabled s.p = none) : s.due = none := by simp [State.due, h]

theorem stillWaiting_eq_none {s : State} (h : firstEnabled s.p = none) : s.stillWaiting = none := by
  unfold State.stillWaiting
  split
  · simp [h]
  · rfl

theorem stillWaiting_eq {s : State} {k : EnvStep} {n : Nat} (hk : firstEnabled s.p = some k)
    (hw : s.waiting = some (k, n)) : s.stillWaiting = some (k, n) := by simp [State.stillWaiting, hw, hk]

/-- Taking a choice touches neither the waiting step nor the patience. -/
theorem chosenStep_schedule {c : Choice} {s t : State} (h : chosenStep c s = .next t) :
    t.waiting = s.waiting ∧ t.patience = s.patience := by
  obtain ⟨k, -, -, hk⟩ | ht := chosenStep_cases c s
  · exact envStep_schedule (hk ▸ h)
  · exact turn_schedule (ht ▸ h)

/-- With its patience spent the schedule gives the engine the turn. -/
theorem unforcedStep_turn {s : State} (hi : s.e.pc ≠ .idle) (hp : s.patience = 0) :
    unforcedStep s = turn { s with picks := s.picks + 1, patience := Config.freePatience s.picks } := by
  simp [unforcedStep, hi, hp]

/-- With patience left the schedule chooses freely, and has one scheduling point less. -/
theorem unforcedStep_chosen {s : State} {n : Nat} (hi : s.e.pc ≠ .idle) (hp : s.patience = n + 1) :
    unforcedStep s = chosenStep (Config.freeChoice s.picks) { s with picks := s.picks + 1, patience := n } := by
  simp [unforcedStep, hi, hp]

theorem unforcedStep_idle {s : State} (hi : s.e.pc = .idle) :
    unforcedStep s = chosenStep (Config.freeChoice s.picks) { s with picks := s.picks + 1 } := by
  simp [unforcedStep, hi]

/-- An unforced scheduling point keeps the waiting step. -/
theorem unforcedStep_waiting {s t : State} (h : unforcedStep s = .next t) : t.waiting = s.waiting := by
  by_cases hi : s.e.pc = .idle
  · rw [unforcedStep_idle hi] at h
    exact (chosenStep_schedule h).1
  · cases hp : s.patience with
    | zero =>
      rw [unforcedStep_turn hi hp] at h
      exact (turn_schedule h).1
    | succ n =>
      rw [unforcedStep_chosen hi hp] at h
      exact (chosenStep_schedule h).1

/-- An enabled step with its delay spent is taken; one with delay left waits for one scheduling point less. -/
theorem freeStep_enabled {s : State} {k : EnvStep} (hy : s.e.pc.yields = true) (hk : firstEnabled s.p = some k) :
    (s.due = some (k, 0) ∧ freeStep s = envStep k { s with picks := s.picks + 1, waiting := none }) ∨
    ∃ n, s.due = some (k, n + 1) ∧ ∀ t, freeStep s = .next t → t.waiting = some (k, n) := by
  obtain ⟨n, hd⟩ := due_enabled hk
  cases n with
  | zero => exact .inl ⟨hd, freeStep_forced hy hd⟩
  | succ n => exact .inr ⟨n, hd, fun t h => unforcedStep_waiting (freeStep_passed hy hd ▸ h)⟩

/-- A scheduling point at which no delay is spent is an unforced one. -/
theorem freeStep_unforced {s : State} (hy : s.e.pc.yields = true)
    (hd : ∀ k, firstEnabled s.p = some k → ∃ n, s.waiting = some (k, n + 1)) :
    ∃ w, freeStep s = unforcedStep { s with waiting := w } := by
  cases hk : firstEnabled s.p with
  | none => exact ⟨none, freeStep_none hy (due_eq_none hk)⟩
  | some k =>
    obtain ⟨n, hw⟩ := hd k hk
    exact ⟨some (k, n), freeStep_passed hy (due_waiting hk hw)⟩

/-- Away from a scheduling point a step that stays enabled keeps waiting. -/
theorem freeStep_keeps_waiting {s t : State} {k : EnvStep} {n : Nat} (hy : s.e.pc.yields = false)
    (hk : firstEnabled s.p = some k) (hw : s.waiting = some (k, n)) (h : freeStep s = .next t) :
    t.waiting = some (k, n) := by
  rw [freeStep_turn hy] at h
  exact (turn_schedule h).1.trans (stillWaiting_eq hk hw)

/-- Where nothing is enabled nothing waits. -/
theorem freeStep_drops_waiting {s t : State} (hk : firstEnabled s.p = none) (h : freeStep s = .next t) :
    t.waiting = none := by
  cases hy : s.e.pc.yields with
  | false =>
    rw [freeStep_turn hy] at h
    exact (turn_schedule h).1.trans (stillWaiting_eq_none hk)
  | true =>
    rw [freeStep_none hy (due_eq_none hk)] at h
    exact unforcedStep_waiting h

/-- Settles O38: the growth of the traces from `step_appends`, the fairness clauses from what a free schedule does with
the waiting step and with its patience. -/
theorem tracesGrowByOne : Obligations.TracesGrowByOne := by
  refine ⟨fun s t => step_grows_traces, ?reference, ?delay, ?between, ?disabled, ?patience⟩
  case reference =>
    intro s k hs hy he hk
    simp [step_reference hs, referenceStep, hy, envEnabled_firstEnabled he hk]
  case delay =>
    intro s k hs hf hy he hk
    have hfirst := envEnabled_firstEnabled he hk
    rw [step_free hs hf]
    obtain ⟨hd, htaken⟩ | ⟨n, hd, hwait⟩ := freeStep_enabled hy hfirst
    · refine ⟨fun _ => ⟨_, rfl, htaken⟩, fun m t hw _ => ?_, fun t _ => .inr ⟨_, rfl, htaken⟩⟩
      rw [due_waiting hfirst hw] at hd
      cases hd
    · refine ⟨fun hw => ?_, fun m t hw h => ?_, fun t h => .inl ⟨n, hwait t h⟩⟩ <;>
        rw [due_waiting hfirst hw] at hd <;> cases hd
      exact hwait t h
  case between =>
    intro s t k n hs hf hy he hk hw h
    exact freeStep_keeps_waiting hy (envEnabled_firstEnabled he hk) hw (step_free hs hf ▸ h)
  case disabled =>
    intro s t hs hf hext h
    exact freeStep_drops_waiting (firstEnabled_eq_none hext) (step_free hs hf ▸ h)
  case patience =>
    intro s hs hf hy hi hw
    obtain ⟨w, hfree⟩ := freeStep_unforced hy fun k hk =>
      hw k (firstEnabled_enabled hk) (firstEnabled_ne_extBusy hk)
    rw [step_free hs hf, hfree]
    refine ⟨fun hp => ⟨_, rfl, unforcedStep_turn (s := { s with waiting := w }) hi hp⟩, fun n t hp h => ?_⟩
    rw [unforcedStep_chosen (s := { s with waiting := w }) hi hp] at h
    exact (chosenStep_schedule h).2

end Sys2Proof.Machine
end

section
/-! The statements of 20_memory.md: what one step does to the bytes of the caller's memory (R34, R36), the canonical form
of every byte memory (logs 7, 19), and the layout of the address byte (R38). -/

namespace Sys2Proof.Machine

open Sys2Proof

/-! ## The one writer of the caller's memory -/

/-- From `s` to `t` the received byte is captured into the command's buffer at `E.idx` (R34, R66, R115). -/
def CapturesByte (c : Command) (s t : State) : Prop :=
  ∃ i v, s.e.idx = some i ∧ i < c.buf.size ∧ s.p.drRx = some v ∧ t.mem = s.mem.write (c.buf.base + i) v

theorem actCaptureBuf_captures {c : Command} {s t : State} (h : actCaptureBuf c s = .ok t) : CapturesByte c s t := by
  obtain ⟨i, r, v, u, w, hi, -, hread, hwrite, rfl⟩ := actCaptureBuf_ok h
  obtain ⟨hsize, rfl⟩ := bufWrite_ok hwrite
  obtain ⟨hv, rfl⟩ := primReadDr_cases hread
  exact ⟨i, v, hi, hsize, hv, rfl⟩

/-- Of the actions of the step tables only the capture into the buffer writes the caller's memory. -/
theorem doAct_mem {a : Act} {c : Command} {s t : State} (h : doAct a c s = .ok t) :
    t.mem = s.mem ∨ (a = .captureBuf ∧ CapturesByte c s t) := by
  cases a <;> simp only [doAct] at h
  case captureBuf => exact .inr ⟨rfl, actCaptureBuf_captures h⟩
  case sendAddr | sendReg | sendData => exact .inl (primWriteDr_sameOutside h).2.2
  case sendProbe =>
    cases hn : s.e.sa with
    | none => rw [hn] at h; cases h
    | some n =>
      rw [hn] at h
      exact .inl (primWriteDr_sameOutside h).2.2
  case sendRegClearIdx =>
    cases hu : primWriteDr c.reg s with
    | error f => rw [hu] at h; cases h
    | ok u =>
      rw [hu] at h
      cases h
      exact .inl (primWriteDr_sameOutside hu).2.2
  case sendBuf =>
    obtain ⟨i, b, u, -, -, hu, rfl⟩ := actSendBuf_ok h
    exact .inl (primWriteDr_sameOutside hu).2.2
  case captureRdata =>
    obtain ⟨v, u, hu, rfl⟩ := actCaptureRdata_ok h
    exact .inl (primReadDr_sameOutside hu).2.2
  case inspect =>
    obtain ⟨n, -, rfl⟩ := actInspect_ok h
    exact .inl rfl
  case nextProbe =>
    cases hn : s.e.sa with
    | none => rw [hn] at h; cases h
    | some n =>
      rw [hn] at h
      cases h
      exact .inl rfl
  case issueStart | issueStop | clearAddr | clearAddrInitCount | ackOff | ackIfMany | scanInit | test | wait | settle =>
    cases h
    exact .inl rfl

theorem advance_mem {k : Succ} {c : Command} {s t : State} (h : advance k c s = .next t) : t.mem = s.mem := by
  obtain ⟨l, -, rfl⟩ := advance_next h
  rfl

theorem poll_mem {c : WaitCond} {k : Succ} {cmd : Command} {s t : State} (h : poll c k cmd s = .next t) :
    t.mem = s.mem := by
  obtain ⟨-, -, hread⟩ := pollOnce_sameOutside c s
  unfold poll at h
  split at h
  · exact (advance_mem h).trans hread
  · cases h
    obtain ⟨-, hm⟩ | ⟨-, -, hm⟩ | ⟨-, -, hm⟩ := pollMissed_cases c (pollOnce c s).2 <;> rw [hm] <;> exact hread

theorem settleStep_mem {k : Succ} {cmd : Command} {s t : State} (h : settleStep k cmd s = .next t) :
    t.mem = s.mem := by
  unfold settleStep at h
  split at h
  · exact advance_mem h
  · cases h
    rfl

theorem runRow_mem {row : Row} {c : Command} {s t : State} (h : runRow row c s = .next t) :
    t.mem = s.mem ∨ (row.act = .captureBuf ∧ CapturesByte c s t) := by
  unfold runRow at h
  split at h
  · exact .inl (poll_mem h)
  · exact .inl (settleStep_mem h)
  · split at h
    · rename_i u hu
      have hmem := advance_mem h
      unfold CapturesByte
      rw [hmem]
      exact doAct_mem hu
    · cases h

/-- The rows that capture into the buffer are the two of the multi-byte read (R114). -/
theorem stepTable_captureBuf {op : Op} {l : Label} {row : Row} (h : stepTable op l = some row)
    (hact : row.act = .captureBuf) : op = .readMemoryMulti ∧ (l = .captureN ∨ l = .capture) := by
  cases op <;> cases l <;>
    simp [stepTable, scanTable, writeByteTable, writeMemoryByteTable, readByteTable, readMemoryByteTable,
      readMemoryMultiTable, writeMemoryMultiTable] at h <;>
    subst h <;> simp at hact ⊢

/-- From `s` to `t` a running multi-byte read captures a byte at one of its two capture labels (R114). -/
def MultiReadCaptures (s t : State) : Prop :=
  ∃ c, s.e.cmd = some c ∧ c.op = .readMemoryMulti ∧ (s.e.pc = .captureN ∨ s.e.pc = .capture) ∧ CapturesByte c s t

theorem tableStep_mem {s t : State} (h : tableStep s.e.pc s = .next t) : t.mem = s.mem ∨ MultiReadCaptures s t := by
  unfold tableStep at h
  split at h
  · cases h
  · rename_i c hc
    split at h
    · cases h
    · rename_i row hrow
      obtain hmem | ⟨hact, hcap⟩ := runRow_mem h
      · exact .inl hmem
      · obtain ⟨hop, hpc⟩ := stepTable_captureBuf hrow hact
        exact .inr ⟨c, hc, hop, hpc, hcap⟩

theorem accept_mem {op : Op} {a : Addr7} {r d : Byte} {l : Label} {s t : State}
    (h : accept op a r d l s = .next t) : t.mem = s.mem := by
  have h := gated_next h
  split at h <;> cases h <;> rfl

/-- An instruction writes no byte of the caller's memory: a command's captures come later, in its step table. -/
theorem exec_mem {i : Instr} {s t : State} (h : exec i s = .next t) : t.mem = s.mem := by
  cases i <;> simp only [exec] at h
  case writeDr b => exact (primWriteDr_sameOutside (outcomeOf_next h)).2.2
  case readDr =>
    have h := outcomeOf_next h
    cases hr : primReadDr s with
    | error f => rw [hr] at h; cases h
    | ok vu =>
      rw [hr] at h
      cases h
      exact (primReadDr_sameOutside hr).2.2
  case issueStart | issueStop | readStatus | readStatus2 | setAck => cases h; rfl
  all_goals exact accept_mem h

theorem runWord_mem {w : InstrWord} {s t : State} (h : runWord w s = .next t) : t.mem = s.mem := by
  unfold runWord at h
  split at h
  · exact exec_mem h
  · cases gated_next h; rfl
  · cases gated_next h; rfl
  · cases h
  · cases h

theorem initCall_mem {s t : State} (h : initCall s = .next t) : t.mem = s.mem := by
  unfold initCall at h
  split at h <;> cases h
  rfl

theorem turn_mem {s t : State} (h : turn s = .next t) : t.mem = s.mem ∨ MultiReadCaptures s t := by
  obtain ⟨-, -, ht⟩ | ⟨rest, -, -, ht⟩ | ⟨cw, len, buf, rest, -, -, ht⟩ | ⟨-, ht⟩ | ⟨-, ht⟩ | ⟨-, -, -, ht⟩ :=
    turn_cases s <;> rw [ht] at h
  · cases h; exact .inl rfl
  · exact .inl (initCall_mem h :)
  · exact .inl (runWord_mem h :)
  · cases h; exact .inl rfl
  · cases h; exact .inl rfl
  · exact tableStep_mem h

/-- Over one machine step, hardware resets included, the caller's memory stays or takes a captured byte (R34, R36,
log 13). -/
theorem step_mem {s t : State} (h : step s = .next t) : t.mem = s.mem ∨ MultiReadCaptures s t := by
  obtain ⟨l, rest, -, hl⟩ | ⟨w, rest, -, hw⟩ | ⟨u, hu, hmove⟩ := step_cases s
  · rw [hl] at h
    cases h
    exact .inl rfl
  · rw [hw] at h
    exact .inl (runWord_mem h :)
  · obtain ⟨sc, n, w, d, rfl⟩ := hu.eq_rescheduled
    obtain ⟨k, -, -, hk⟩ | ht := hmove
    · rw [hk] at h
      obtain ⟨⟨-, -, -, -, hmem, -⟩, -⟩ := envStep_next h
      exact .inl hmem
    · rw [ht] at h
      exact (turn_mem h :)

/-! ## What the invariant says of a capture -/

/-- At a capture label the invariant keeps the index below the length and the length within the buffer (R55, R88,
R115). -/
theorem inv_capture_range {s : State} {c : Command} {i : Nat} (hinv : s.inv = true) (hc : s.e.cmd = some c)
    (hop : c.op = .readMemoryMulti) (hpc : s.e.pc = .captureN ∨ s.e.pc = .capture) (hi : s.e.idx = some i) :
    i < c.len ∧ c.len ≤ c.buf.size := by
  have hcmd : commandInv s = true := by
    simp only [State.inv, Bool.and_eq_true] at hinv
    tauto
  obtain ⟨haccepted, hcount⟩ : c.accepted s.params = true ∧ countInv s.e.pc c.len s.e = true := by
    obtain hpc | hpc := hpc <;>
      simp only [commandInv, hc, hpc, counterInv, hop, multiReadInv, Bool.and_eq_true] at hcmd ⊢ <;> tauto
  have hsize : c.len ≤ c.buf.size := by
    simp only [Command.accepted, implies, hop, Op.takesBuffer, Bool.not_true, Bool.false_or, Bool.and_eq_true,
      decide_eq_true_eq] at haccepted
    exact haccepted.2
  refine ⟨?_, hsize⟩
  cases hr : s.e.rem with
  | none => simp [countInv, hr] at hcount
  | some r =>
    obtain hpc | hpc := hpc <;>
      simp only [countInv, hr, hi, hpc, Bool.and_eq_true, decide_eq_true_eq] at hcount <;> omega

theorem canonical_iff {s : State} :
    s.canonical = true ↔ s.mem.wf = true ∧ s.slaves.wf = true ∧ launchesCanonical s = true := by
  simp [State.canonical, and_assoc]

/-- A capture changes the byte at its own address only, to the byte received. -/
theorem CapturesByte.read_ne {c : Command} {s t : State} {x : Nat} (h : CapturesByte c s t) (hwf : s.mem.wf = true)
    (hx : t.mem.read x ≠ s.mem.read x) :
    ∃ i, s.e.idx = some i ∧ x = c.buf.base + i ∧ s.p.drRx = some (t.mem.read x) := by
  obtain ⟨i, v, hi, -, hv, hmem⟩ := h
  rw [hmem] at hx
  have hxi : x = c.buf.base + i := by
    by_contra hne
    exact hx (Memory.read_write_other v s.mem hne)
  refine ⟨i, hi, hxi, ?_⟩
  rw [hmem, hxi, Memory.read_write_same _ _ hwf, hv]

/-- Settles O41: a byte changes only by a capture (`step_mem`), which the invariant keeps within the buffer. -/
theorem bufferIsolation : Obligations.BufferIsolation := by
  intro s t x hinv hcan h hx
  obtain ⟨hwf, -⟩ := canonical_iff.1 hcan
  obtain hmem | ⟨c, hc, hop, hpc, hcap⟩ := step_mem h
  · exact absurd (by rw [hmem]) hx
  · obtain ⟨i, hi, hxi, hv⟩ := hcap.read_ne hwf hx
    obtain ⟨hlen, hsize⟩ := inv_capture_range hinv hc hop hpc hi
    exact ⟨c, i, hc, hop, hpc, hi, hlen, hsize, hxi, hv⟩

/-! ## The canonical form -/

theorem Memory.put_forall {P : Nat → Prop} {m : Memory} {a : Nat} {v : Byte} (ha : P a) (hm : ∀ c ∈ m, P c.1) :
    ∀ c ∈ Memory.put a v m, P c.1 := by
  unfold Memory.put
  split
  · exact hm
  · exact List.forall_mem_cons.2 ⟨ha, hm⟩

/-- A write adds no address but its own. -/
theorem Memory.write_forall {P : Nat → Prop} {m : Memory} {a : Nat} {v : Byte} (ha : P a) (hm : ∀ c ∈ m, P c.1) :
    ∀ c ∈ m.write a v, P c.1 := by
  induction m with
  | nil => exact Memory.put_forall ha hm
  | cons c m ih =>
    obtain ⟨hc, hrest⟩ := List.forall_mem_cons.1 hm
    simp only [Memory.write]
    split
    · exact Memory.put_forall ha hm
    · split
      · exact Memory.put_forall ha hrest
      · exact List.forall_mem_cons.2 ⟨hc, ih hrest⟩

/-- A mock slave's register file is canonical and within 256 registers (log 19). -/
def MockSlave.Wf (m : MockSlave) : Prop := m.mem.wf = true ∧ ∀ c ∈ m.mem, c.1 < 256

theorem mockWf_cons {lo : Nat} {m : MockSlave} {rest : List MockSlave} :
    mockWf lo (m :: rest) = true ↔ lo ≤ m.addr.toNat ∧ m.Wf ∧ mockWf (m.addr.toNat + 1) rest = true := by
  simp [mockWf, MockSlave.Wf, and_assoc]

theorem MockSlave.Wf.addressed {m : MockSlave} (h : m.Wf) (d : Dir) : (m.addressed d).Wf := by cases d <;> exact h

theorem MockSlave.Wf.take {m : MockSlave} (h : m.Wf) (b : Byte) : (m.take b).Wf := by
  unfold MockSlave.take
  split
  · exact h
  · exact ⟨Memory.write_wf _ _ h.1, Memory.write_forall (P := (· < 256)) m.ptr.isLt h.2⟩

theorem MockSlave.Wf.sent {m : MockSlave} (h : m.Wf) : m.sent.Wf := h

theorem findSlave_wf {a : Addr7} {m : MockSlave} {lo : Nat} {present : List MockSlave}
    (h : mockWf lo present = true) (hm : findSlave a present = some m) : m.Wf := by
  induction present generalizing lo with
  | nil => cases hm
  | cons q rest ih =>
    obtain ⟨-, hq, hrest⟩ := mockWf_cons.1 h
    unfold findSlave at hm
    split at hm
    · cases hm; exact hq
    · exact ih hrest hm

theorem putSlave_wf {n : MockSlave} {lo : Nat} {present : List MockSlave} (h : mockWf lo present = true)
    (hn : n.Wf) : mockWf lo (putSlave n present) = true := by
  induction present generalizing lo with
  | nil => rfl
  | cons q rest ih =>
    obtain ⟨hlo, hq, hrest⟩ := mockWf_cons.1 h
    unfold putSlave
    split
    · rename_i haddr
      rw [haddr] at hlo hrest
      exact mockWf_cons.2 ⟨hlo, hn, hrest⟩
    · exact mockWf_cons.2 ⟨hlo, hq, ih hrest⟩

theorem drawAck_slaves_wf {s : State} (h : s.slaves.wf = true) : (drawAck s).2.slaves.wf = true := by
  unfold drawAck
  split
  · rfl
  · exact h
  · exact h

theorem drawByte_slaves_wf {s : State} (h : s.slaves.wf = true) : (drawByte s).2.slaves.wf = true := by
  unfold drawByte
  split
  · rfl
  · exact h
  · exact h

theorem slaveAddrAck_slaves_wf {s : State} (a : Addr7) (d : Dir) (h : s.slaves.wf = true) :
    (slaveAddrAck a d s).2.slaves.wf = true := by
  unfold slaveAddrAck
  split
  · rename_i present hp
    rw [hp] at h
    split
    · rename_i m hm
      exact putSlave_wf h ((findSlave_wf h hm).addressed d)
    · rw [hp]; exact h
  · exact drawAck_slaves_wf h

theorem slaveWrite_slaves_wf {s : State} (a : Addr7) (b : Byte) (h : s.slaves.wf = true) :
    (slaveWrite a b s).2.slaves.wf = true := by
  unfold slaveWrite
  split
  · rename_i present hp
    split
    · rename_i m hm
      rw [hp] at h
      exact putSlave_wf h ((findSlave_wf h hm).take b)
    · exact drawAck_slaves_wf h
  · exact drawAck_slaves_wf h

theorem slaveRead_slaves_wf {s : State} (a : Addr7) (h : s.slaves.wf = true) :
    (slaveRead a s).2.slaves.wf = true := by
  unfold slaveRead
  split
  · rename_i present hp
    split
    · rename_i m hm
      rw [hp] at h
      exact putSlave_wf h (findSlave_wf h hm).sent
    · exact drawByte_slaves_wf h
  · exact drawByte_slaves_wf h

theorem targetWrite_slaves_wf {s : State} (b : Byte) (h : s.slaves.wf = true) :
    (targetWrite b s).2.slaves.wf = true := by
  unfold targetWrite
  split
  · exact slaveWrite_slaves_wf _ b h
  · exact drawAck_slaves_wf h

theorem targetRead_slaves_wf {s : State} (h : s.slaves.wf = true) : (targetRead s).2.slaves.wf = true := by
  unfold targetRead
  split
  · exact slaveRead_slaves_wf _ h
  · exact drawByte_slaves_wf h

/-- The environment asks the slaves in an address phase, a transmit and a receive, and each answer keeps their form
(R76, R78, R79). -/
theorem envStep_slaves_wf {k : EnvStep} {s t : State} (hs : s.slaves.wf = true) (h : envStep k s = .next t) :
    t.slaves.wf = true := by
  cases k <;> simp only [envStep] at h
  case stop =>
    cases h
    unfold envStop
    split <;> exact hs
  case start | extBusy => cases h; exact hs
  case address =>
    split at h <;> cases h
    · exact slaveAddrAck_slaves_wf _ _ hs
    · exact hs
  case txShift => split at h <;> cases h <;> exact hs
  case txDone =>
    split at h <;> cases h
    · exact targetWrite_slaves_wf _ hs
    · exact hs
  case receive => cases h; exact targetRead_slaves_wf hs

theorem launchesCanonical_iff {s : State} :
    launchesCanonical s = true ↔ ∀ l, .reset l ∈ s.script → l.slaves.wf = true := by
  unfold launchesCanonical
  rw [List.all_eq_true]
  constructor
  · exact fun h l hl => h _ hl
  · intro h k hk
    cases k with
    | reset l => exact h l hk
    | choose c => rfl
    | prim w => rfl

/-- What is left of a schedule brings no reset that the whole did not. -/
theorem launchesCanonical_mono {s t : State} (hsub : t.script ⊆ s.script) (h : launchesCanonical s = true) :
    launchesCanonical t = true :=
  launchesCanonical_iff.2 fun l hl => launchesCanonical_iff.1 h l (hsub hl)

theorem Consumed.script_subset {s u : State} (h : Consumed s u) : u.script ⊆ s.script := by
  obtain rfl | ⟨c, rest, hs, rfl⟩ | ⟨-, -, hu⟩ := h
  · exact List.Subset.refl _
  · rw [hs]; exact List.subset_cons_self _ _
  · rw [hu]; exact List.Subset.refl _

/-- The slaves and the schedule's resets keep their form under every step. -/
theorem step_slaves_launches_wf {s t : State} (hs : s.slaves.wf = true) (hl : launchesCanonical s = true)
    (h : step s = .next t) : t.slaves.wf = true ∧ launchesCanonical t = true := by
  obtain ⟨l, rest, hscript, hstep⟩ | ⟨w, rest, hscript, hstep⟩ | ⟨u, hu, hmove⟩ := step_cases s
  · rw [hstep] at h
    cases h
    refine ⟨launchesCanonical_iff.1 hl l (hscript ▸ List.mem_cons_self), launchesCanonical_mono ?_ hl⟩
    rw [hscript]
    exact List.subset_cons_self _ _
  · rw [hstep] at h
    obtain ⟨-, hsl, -, -, -, -, hsc, -⟩ := runWord_sameOutside h
    refine ⟨hsl ▸ hs, launchesCanonical_mono ?_ hl⟩
    rw [hsc, hscript]
    exact List.subset_cons_self _ _
  · have hsub := hu.script_subset
    have hus : u.slaves = s.slaves := by
      obtain ⟨sc, n, w, d, rfl⟩ := hu.eq_rescheduled
      rfl
    obtain ⟨k, -, -, hk⟩ | ht := hmove
    · rw [hk] at h
      obtain ⟨⟨-, -, -, -, -, -, -, -, -, -, hsc, -⟩, -⟩ := envStep_next h
      exact ⟨envStep_slaves_wf (hus ▸ hs) h, launchesCanonical_mono (hsc ▸ hsub) hl⟩
    · rw [ht] at h
      obtain ⟨-, hsl, -, -, -, -, hsc, -⟩ := turn_next h
      exact ⟨(hsl.trans hus) ▸ hs, launchesCanonical_mono (hsc ▸ hsub) hl⟩

/-- The caller's memory keeps its form: a captured byte is written by `Memory.write`. -/
theorem step_mem_wf {s t : State} (hs : s.mem.wf = true) (h : step s = .next t) : t.mem.wf = true := by
  obtain hmem | ⟨c, -, -, -, i, v, -, -, -, hmem⟩ := step_mem h <;> rw [hmem]
  · exact hs
  · exact Memory.write_wf _ _ hs

/-- Settles O47: the caller's memory by `step_mem_wf`, slaves and scripted resets by `step_slaves_launches_wf`. -/
theorem canonicalKept : Obligations.CanonicalKept := by
  refine ⟨fun s t hcan h => ?_, rfl⟩
  obtain ⟨hmem, hslaves, hlaunch⟩ := canonical_iff.1 hcan
  exact canonical_iff.2 ⟨step_mem_wf hmem h, step_slaves_launches_wf hslaves hlaunch h⟩

/-! ## The address byte (R38) -/

/-- The shift leaves bit 0 free for the direction, and no bit of the address is lost. -/
theorem addrByte_toNat (a : Addr7) (d : Dir) : (addrByte a d).toNat = 2 * a.toNat + d.bit.toNat := by
  have hd : d.bit.toNat < 2 ^ 1 := by cases d <;> decide
  have ha : a.toNat < 2 ^ 7 := a.isLt
  have hshift : (a.setWidth 8 <<< 1).toNat = a.toNat <<< 1 := by
    simp only [BitVec.toNat_shiftLeft, BitVec.toNat_setWidth, Nat.shiftLeft_eq]
    omega
  rw [addrByte, BitVec.toNat_or, hshift, ← Nat.shiftLeft_add_eq_or_of_lt hd, Nat.shiftLeft_eq]
  omega

theorem addrByte_high (a : Addr7) (d : Dir) : (addrByte a d).extractLsb' 1 7 = a := by
  have hd : d.bit.toNat < 2 := by cases d <;> decide
  apply BitVec.eq_of_toNat_eq
  rw [BitVec.extractLsb'_toNat, addrByte_toNat, Nat.shiftRight_eq_div_pow]
  omega

theorem addrByte_low (a : Addr7) (d : Dir) : (addrByte a d).extractLsb' 0 1 = d.bit.setWidth 1 := by
  apply BitVec.eq_of_toNat_eq
  rw [BitVec.extractLsb'_toNat, addrByte_toNat, BitVec.toNat_setWidth, Nat.shiftRight_zero]
  omega

theorem dirOfByte_addrByte (a : Addr7) (d : Dir) : dirOfByte (addrByte a d) = d := by
  rw [dirOfByte, addrByte_low]
  cases d <;> rfl

/-- Settles O4: the byte's value gives both fields, and the peripheral reads those same fields. -/
theorem addressByteLayout : Obligations.AddressByteLayout := by
  refine fun a d => ⟨addrByte_high a d, ?low, ?value, addrByte_high a d, dirOfByte_addrByte a d⟩
  case low =>
    rw [addrByte_low]
    cases d <;> rfl
  case value =>
    rw [addrByte_toNat]
    cases d <;> rfl

end Sys2Proof.Machine
end

section
/-! The statements of 30_encoding.md on the decoder, the encoder and the rows of the opcode table (R51 to R53, R58): a
word is its fields, and all three read the same fields. -/

namespace Sys2Proof

/-! ## A word is its fields (R51, R58) -/

theorem CmdWord.ext_fields {w v : CmdWord} (hopc : CmdWord.opc w = CmdWord.opc v)
    (hlow : CmdWord.reservedLow w = CmdWord.reservedLow v) (haddr : CmdWord.addr w = CmdWord.addr v)
    (hhigh : CmdWord.reservedHigh w = CmdWord.reservedHigh v) (hreg : CmdWord.reg w = CmdWord.reg v)
    (hdata : CmdWord.data w = CmdWord.data v) : w = v := by
  have joined (x : CmdWord) : x = CmdWord.data x ++ CmdWord.reg x ++ CmdWord.reservedHigh x ++ CmdWord.addr x ++
      CmdWord.reservedLow x ++ CmdWord.opc x := by
    unfold CmdWord.data CmdWord.reg CmdWord.reservedHigh CmdWord.addr CmdWord.reservedLow CmdWord.opc
    simp only [BitVec.extractLsb'_append_extractLsb'_eq_extractLsb', BitVec.extractLsb'_eq_self]
  rw [joined w, joined v, hopc, hlow, haddr, hhigh, hreg, hdata]

theorem PrimWord.ext_fields {w v : PrimWord} (hpk : PrimWord.pk w = PrimWord.pk v)
    (hres : PrimWord.reserved w = PrimWord.reserved v) (hopnd : PrimWord.opnd w = PrimWord.opnd v) : w = v := by
  have joined (x : PrimWord) : x = PrimWord.pk x ++ PrimWord.reserved x ++ PrimWord.opnd x := by
    unfold PrimWord.pk PrimWord.reserved PrimWord.opnd
    simp only [BitVec.extractLsb'_append_extractLsb'_eq_extractLsb', BitVec.extractLsb'_eq_self]
  rw [joined w, joined v, hpk, hres, hopnd]

/-- A command word is built from its fields when its reserved bits are zero. -/
theorem cmdWord_eq {w : CmdWord} {o : BitVec 4} {a : Addr7} {r d : Byte} (hopc : CmdWord.opc w = o)
    (hlow : CmdWord.reservedLow w = 0) (haddr : CmdWord.addr w = a) (hhigh : CmdWord.reservedHigh w = 0)
    (hreg : CmdWord.reg w = r) (hdata : CmdWord.data w = d) : cmdWord o a r d = w :=
  CmdWord.ext_fields (by rw [opc_cmdWord, hopc]) (by rw [reservedLow_cmdWord, hlow]) (by rw [addr_cmdWord, haddr])
    (by rw [reservedHigh_cmdWord, hhigh]) (by rw [reg_cmdWord, hreg]) (by rw [data_cmdWord, hdata])

/-- A primitive word is built from its fields when its reserved bits are zero. -/
theorem primWord_eq {w : PrimWord} {k : BitVec 4} {b : Byte} (hpk : PrimWord.pk w = k)
    (hres : PrimWord.reserved w = 0) (hopnd : PrimWord.opnd w = b) : primWord k b = w :=
  PrimWord.ext_fields (by rw [pk_primWord, hpk]) (by rw [reserved_primWord, hres]) (by rw [opnd_primWord, hopnd])

/-! ## Decoder and encoder -/

theorem decode_encode (i : Instr) : decode (encode i) = .instr i := by
  cases i with
  | setAck e => cases e <;> decide
  | issueStart | issueStop | writeDr | readDr | readStatus | readStatus2 =>
    simp [encode, decode, decodePrim, decodeIf, pk_primWord, reserved_primWord, opnd_primWord]
  | _ =>
    simp [encode, decode, decodeCmd, decodeIf, opc_cmdWord, reservedLow_cmdWord, addr_cmdWord, reservedHigh_cmdWord,
      reg_cmdWord, data_cmdWord]

/-- Settles O1: the encoder's fields are what the decoder reads, and no reserved bit is set. -/
theorem decodeOfEncode : Obligations.DecodeOfEncode := decode_encode

theorem decodeIf_eq_instr {zero : Bool} {i j : Instr} {e : DecodeError} :
    decodeIf zero i e = .instr j ↔ zero = true ∧ i = j := by
  cases zero <;> simp [decodeIf]

theorem encode_of_decodeCmd {w : CmdWord} {i : Instr} (h : decodeCmd w = .instr i) : encode i = .cmd w := by
  simp only [decodeCmd] at h
  split_ifs at h with h0 h1 h2 h3 h4 h5 h6 <;>
    simp only [decodeIf_eq_instr, Bool.and_eq_true, decide_eq_true_eq] at h
  · obtain ⟨⟨⟨⟨⟨hlow, hhigh⟩, ha⟩, hr⟩, hd⟩, rfl⟩ := h
    exact congrArg _ (cmdWord_eq h0 hlow ha hhigh hr hd)
  · obtain ⟨⟨⟨hlow, hhigh⟩, hr⟩, rfl⟩ := h
    exact congrArg _ (cmdWord_eq h1 hlow rfl hhigh hr rfl)
  · obtain ⟨⟨hlow, hhigh⟩, rfl⟩ := h
    exact congrArg _ (cmdWord_eq h2 hlow rfl hhigh rfl rfl)
  · obtain ⟨⟨⟨⟨hlow, hhigh⟩, hr⟩, hd⟩, rfl⟩ := h
    exact congrArg _ (cmdWord_eq h3 hlow rfl hhigh hr hd)
  · obtain ⟨⟨⟨hlow, hhigh⟩, hd⟩, rfl⟩ := h
    exact congrArg _ (cmdWord_eq h4 hlow rfl hhigh rfl hd)
  · obtain ⟨⟨⟨hlow, hhigh⟩, hd⟩, rfl⟩ := h
    exact congrArg _ (cmdWord_eq h5 hlow rfl hhigh rfl hd)
  · obtain ⟨⟨⟨hlow, hhigh⟩, hd⟩, rfl⟩ := h
    exact congrArg _ (cmdWord_eq h6 hlow rfl hhigh rfl hd)

/-- The operand of `SET_ACK` is its acknowledge bit (R58). -/
theorem ackOperand_of_bit {b : Byte} (h : b = 0 ∨ b = 1) : ackOperand (decide (b = 1)) = b := by
  obtain rfl | rfl := h <;> rfl

theorem encode_of_decodePrim {w : PrimWord} {i : Instr} (h : decodePrim w = .instr i) : encode i = .prim w := by
  simp only [decodePrim] at h
  split_ifs at h with h1 h2 h3 h4 h5 h6 h7 <;>
    simp only [decodeIf_eq_instr, Bool.and_eq_true, Bool.or_eq_true, decide_eq_true_eq] at h
  · obtain ⟨⟨hres, ho⟩, rfl⟩ := h
    exact congrArg _ (primWord_eq h1 hres ho)
  · obtain ⟨⟨hres, ho⟩, rfl⟩ := h
    exact congrArg _ (primWord_eq h2 hres ho)
  · obtain ⟨hres, rfl⟩ := h
    exact congrArg _ (primWord_eq h3 hres rfl)
  · obtain ⟨⟨hres, ho⟩, rfl⟩ := h
    exact congrArg _ (primWord_eq h4 hres ho)
  · obtain ⟨⟨hres, ho⟩, rfl⟩ := h
    exact congrArg _ (primWord_eq h5 hres ho)
  · obtain ⟨⟨hres, ho⟩, rfl⟩ := h
    exact congrArg _ (primWord_eq h6 hres ho)
  · obtain ⟨⟨hres, ho⟩, rfl⟩ := h
    exact congrArg _ (primWord_eq h7 hres (ackOperand_of_bit ho).symm)

/-- The decoder inverts the encoder: a word that decodes to an instruction is its one encoding (R50). -/
theorem decode_eq_instr_iff {w : InstrWord} {i : Instr} : decode w = .instr i ↔ encode i = w := by
  constructor
  · intro h
    cases w with
    | cmd w => exact encode_of_decodeCmd h
    | prim w => exact encode_of_decodePrim h
  · rintro rfl
    exact decode_encode i


/-! ## Rows (R53, R58) -/

theorem selectsRow_encode (i : Instr) : selectsRow (encode i) i = true := by
  cases i with
  | scan => exact Laws.SelectsOwnRow.scan
  | writeByte a d => exact Laws.SelectsOwnRow.writeByte a d
  | writeMemoryByte a r d => exact Laws.SelectsOwnRow.writeMemoryByte a r d
  | readByte a => exact Laws.SelectsOwnRow.readByte a
  | readMemoryByte a r => exact Laws.SelectsOwnRow.readMemoryByte a r
  | readMemoryMulti a r => exact Laws.SelectsOwnRow.readMemoryMulti a r
  | writeMemoryMulti a r => exact Laws.SelectsOwnRow.writeMemoryMulti a r
  | issueStart => exact Laws.SelectsOwnRow.issueStart
  | issueStop => exact Laws.SelectsOwnRow.issueStop
  | writeDr b => exact Laws.SelectsOwnRow.writeDr b
  | readDr => exact Laws.SelectsOwnRow.readDr
  | readStatus => exact Laws.SelectsOwnRow.readStatus
  | readStatus2 => exact Laws.SelectsOwnRow.readStatus2
  | setAck e => exact Laws.SelectsOwnRow.setAck e

/-- Where a mask is all ones the field is compared whole. -/
theorem eq_of_and_allOnes {n : Nat} {x y : BitVec n} (h : x &&& BitVec.allOnes n = y) : x = y :=
  BitVec.and_allOnes.symm.trans h

/-- A mask and a match compare a command word field by field (R53). -/
theorem CmdWord.fields_of_and {w mask m : CmdWord} (h : w &&& mask = m) :
    CmdWord.opc w &&& CmdWord.opc mask = CmdWord.opc m ∧
    CmdWord.reservedLow w &&& CmdWord.reservedLow mask = CmdWord.reservedLow m ∧
    CmdWord.addr w &&& CmdWord.addr mask = CmdWord.addr m ∧
    CmdWord.reservedHigh w &&& CmdWord.reservedHigh mask = CmdWord.reservedHigh m ∧
    CmdWord.reg w &&& CmdWord.reg mask = CmdWord.reg m ∧
    CmdWord.data w &&& CmdWord.data mask = CmdWord.data m := by
  subst h
  simp only [CmdWord.opc, CmdWord.reservedLow, CmdWord.addr, CmdWord.reservedHigh, CmdWord.reg, CmdWord.data,
    BitVec.extractLsb'_and, and_self]

/-- A mask and a match compare a primitive word field by field (R58). -/
theorem PrimWord.fields_of_and {w mask m : PrimWord} (h : w &&& mask = m) :
    PrimWord.pk w &&& PrimWord.pk mask = PrimWord.pk m ∧
    PrimWord.reserved w &&& PrimWord.reserved mask = PrimWord.reserved m ∧
    PrimWord.opnd w &&& PrimWord.opnd mask = PrimWord.opnd m := by
  subst h
  simp only [PrimWord.pk, PrimWord.reserved, PrimWord.opnd, BitVec.extractLsb'_and, and_self]

theorem bit_of_and_mask : ∀ {b : Byte}, b &&& 0xFE = 0 → b = 0 ∨ b = 1 := by decide

/-- A command word that selects a row is the encoding of an instruction of that row, its operands read from the
word (R53). -/
theorem exists_encode_of_cmd_row {w : CmdWord} {i : Instr} (h : selectsRow (.cmd w) i = true) :
    ∃ j, encode j = .cmd w ∧ rowMatch j = rowMatch i ∧ rowMask j = rowMask i := by
  cases i <;> simp only [selectsRow, encode, rowMask, rowMatch, beq_iff_eq, Bool.false_eq_true] at h <;>
    obtain ⟨ho, hl, ha, hh, hr, hd⟩ := CmdWord.fields_of_and h <;>
    replace ho := eq_of_and_allOnes ho <;>
    replace hl := eq_of_and_allOnes hl <;>
    replace hh := eq_of_and_allOnes hh
  case scan =>
    have ha := eq_of_and_allOnes ha
    have hr := eq_of_and_allOnes hr
    exact ⟨.scan, congrArg _ (cmdWord_eq ho hl ha hh hr (eq_of_and_allOnes hd)), rfl, rfl⟩
  case writeByte =>
    exact ⟨.writeByte _ _, congrArg _ (cmdWord_eq ho hl rfl hh (eq_of_and_allOnes hr) rfl), rfl, rfl⟩
  case writeMemoryByte =>
    exact ⟨.writeMemoryByte _ _ _, congrArg _ (cmdWord_eq ho hl rfl hh rfl rfl), rfl, rfl⟩
  case readByte =>
    have hr := eq_of_and_allOnes hr
    exact ⟨.readByte _, congrArg _ (cmdWord_eq ho hl rfl hh hr (eq_of_and_allOnes hd)), rfl, rfl⟩
  case readMemoryByte =>
    exact ⟨.readMemoryByte _ _, congrArg _ (cmdWord_eq ho hl rfl hh rfl (eq_of_and_allOnes hd)), rfl, rfl⟩
  case readMemoryMulti =>
    exact ⟨.readMemoryMulti _ _, congrArg _ (cmdWord_eq ho hl rfl hh rfl (eq_of_and_allOnes hd)), rfl, rfl⟩
  case writeMemoryMulti =>
    exact ⟨.writeMemoryMulti _ _, congrArg _ (cmdWord_eq ho hl rfl hh rfl (eq_of_and_allOnes hd)), rfl, rfl⟩

/-- A primitive word that selects a row is the encoding of an instruction of that row (R58). -/
theorem exists_encode_of_prim_row {w : PrimWord} {i : Instr} (h : selectsRow (.prim w) i = true) :
    ∃ j, encode j = .prim w ∧ rowMatch j = rowMatch i ∧ rowMask j = rowMask i := by
  cases i <;> simp only [selectsRow, encode, rowMask, rowMatch, beq_iff_eq, Bool.false_eq_true] at h <;>
    obtain ⟨hk, hs, ho⟩ := PrimWord.fields_of_and h <;>
    replace hk := eq_of_and_allOnes hk <;>
    replace hs := eq_of_and_allOnes hs
  case issueStart => exact ⟨.issueStart, congrArg _ (primWord_eq hk hs (eq_of_and_allOnes ho)), rfl, rfl⟩
  case issueStop => exact ⟨.issueStop, congrArg _ (primWord_eq hk hs (eq_of_and_allOnes ho)), rfl, rfl⟩
  case writeDr => exact ⟨.writeDr _, congrArg _ (primWord_eq hk hs rfl), rfl, rfl⟩
  case readDr => exact ⟨.readDr, congrArg _ (primWord_eq hk hs (eq_of_and_allOnes ho)), rfl, rfl⟩
  case readStatus => exact ⟨.readStatus, congrArg _ (primWord_eq hk hs (eq_of_and_allOnes ho)), rfl, rfl⟩
  case readStatus2 => exact ⟨.readStatus2, congrArg _ (primWord_eq hk hs (eq_of_and_allOnes ho)), rfl, rfl⟩
  case setAck =>
    have hbit := ackOperand_of_bit (bit_of_and_mask ho)
    exact ⟨.setAck _, congrArg _ (primWord_eq hk hs hbit.symm), rfl, rfl⟩

/-- A word that selects a row decodes to an instruction of that row. -/
theorem exists_decode_of_selectsRow {w : InstrWord} {i : Instr} (h : selectsRow w i = true) :
    ∃ j, decode w = .instr j ∧ rowMatch j = rowMatch i ∧ rowMask j = rowMask i := by
  have row : ∃ j, encode j = w ∧ rowMatch j = rowMatch i ∧ rowMask j = rowMask i := by
    cases w with
    | cmd w => exact exists_encode_of_cmd_row h
    | prim w => exact exists_encode_of_prim_row h
  obtain ⟨j, hj, hrow⟩ := row
  exact ⟨j, decode_eq_instr_iff.2 hj, hrow⟩

theorem selectsRow_of_decode {w : InstrWord} {i : Instr} (h : decode w = .instr i) : selectsRow w i = true :=
  decode_eq_instr_iff.1 h ▸ selectsRow_encode i

/-- Settles O2: the decoder inverts the encoder, a word that selects a row decodes to an instruction of it,
and a word decodes to one instruction. -/
theorem rowsAndDecoderAgree : Obligations.RowsAndDecoderAgree := by
  refine ⟨fun w i h => ⟨decode_eq_instr_iff.1 h, selectsRow_of_decode h⟩,
    fun w i => exists_decode_of_selectsRow, fun w i j hi hj => ?_⟩
  obtain ⟨k, hk, hmatch, hmask⟩ := exists_decode_of_selectsRow hi
  obtain ⟨k', hk', hmatch', hmask'⟩ := exists_decode_of_selectsRow hj
  obtain rfl : k = k' := Decoded.instr.inj (hk.symm.trans hk')
  exact ⟨hmatch.symm.trans hmatch', hmask.symm.trans hmask'⟩

end Sys2Proof
end

section
/-! The statements of 30_encoding.md on command words: the two rejections of the decoder (R52, R53, R56), and acceptance
of a word, which is the meaning of its command (R55). -/

namespace Sys2Proof.Machine

open Sys2Proof

/-! ## Reserved command words (R52, R53, R56) -/

theorem decodeIf_cases (zero : Bool) (i : Instr) (e : DecodeError) :
    decodeIf zero i e = .reject e ∨ ∃ j, decodeIf zero i e = .instr j := by
  cases zero
  · exact .inl rfl
  · exact .inr ⟨i, rfl⟩

/-- The operation code is tested first; the other rejection is for a word of one of the seven codes (R55, R56). -/
theorem decode_cmd_cases (w : CmdWord) :
    (7 ≤ (CmdWord.opc w).toNat ∧ decode (.cmd w) = .reject .reservedOpc) ∨
    ((CmdWord.opc w).toNat < 7 ∧
      (decode (.cmd w) = .reject .nonzeroReserved ∨ ∃ i, decode (.cmd w) = .instr i)) := by
  simp only [decode, decodeCmd]
  split_ifs with h0 h1 h2 h3 h4 h5 h6
  case neg => exact .inl ⟨by bv_omega, rfl⟩
  all_goals exact .inr ⟨by simp [*], decodeIf_cases ..⟩

theorem decode_eq_reservedOpc_iff (w : CmdWord) :
    decode (.cmd w) = .reject .reservedOpc ↔ 7 ≤ (CmdWord.opc w).toNat := by
  obtain ⟨h, hd⟩ | ⟨h, hd | ⟨i, hd⟩⟩ := decode_cmd_cases w <;> simp [hd, h]

/-- The match of a command's row is one of the seven codes; a primitive's is wider (R53, R58). -/
theorem encode_cmd_of_rowMatch {i : Instr} (h : rowMatch i < 16) : rowMatch i < 7 ∧ ∃ w, encode i = .cmd w := by
  cases i
  case issueStart | issueStop | writeDr | readDr | readStatus | readStatus2 | setAck => simp [rowMatch] at h
  all_goals exact ⟨by simp [rowMatch], _, rfl⟩

theorem exists_rowMatch {n : Nat} (h : n < 7) : ∃ i, rowMatch i = n := by
  interval_cases n
  exacts [⟨.scan, rfl⟩, ⟨.writeByte 0 0, rfl⟩, ⟨.writeMemoryByte 0 0 0, rfl⟩, ⟨.readByte 0, rfl⟩,
    ⟨.readMemoryByte 0 0, rfl⟩, ⟨.readMemoryMulti 0 0, rfl⟩, ⟨.writeMemoryMulti 0 0, rfl⟩]

/-- Instructions of one match are of one row. -/
theorem rowMask_eq_of_rowMatch {i j : Instr} (h : rowMatch i = rowMatch j) : rowMask i = rowMask j := by
  cases i <;> cases j <;> simp [rowMatch, rowMask] at h ⊢

/-! ## A command word and its instruction -/

theorem Op.code_injective {op op' : Op} (h : op.code = op'.code) : op = op' := by
  cases op <;> cases op' <;> simp [Op.code] at h ⊢

theorem accept_cmdWord (op : Op) (o : BitVec 4) (a : Addr7) (r d : Byte) (l : Label) (s : State) :
    accept op (CmdWord.addr (cmdWord o a r d)) (CmdWord.reg (cmdWord o a r d)) (CmdWord.data (cmdWord o a r d)) l s =
      accept op a r d l s := by
  rw [addr_cmdWord, reg_cmdWord, data_cmdWord]

/-- The meaning of a command is the acceptance of its word: the operation of its code, the fields as they stand in the
word, the operation's first label (R54, R55). -/
theorem exec_command {i : Instr} {w : CmdWord} (h : encode i = .cmd w) :
    ∃ op : Op, op.code = CmdWord.opc w ∧ rowMatch i = op.code.toNat ∧
      ∀ s, exec i s = accept op (CmdWord.addr w) (CmdWord.reg w) (CmdWord.data w) op.firstLabel s := by
  cases i <;> cases h
  case scan => exact ⟨.scan, (opc_cmdWord ..).symm, rfl, fun s => (accept_cmdWord ..).symm⟩
  case writeByte => exact ⟨.writeByte, (opc_cmdWord ..).symm, rfl, fun s => (accept_cmdWord ..).symm⟩
  case writeMemoryByte => exact ⟨.writeMemoryByte, (opc_cmdWord ..).symm, rfl, fun s => (accept_cmdWord ..).symm⟩
  case readByte => exact ⟨.readByte, (opc_cmdWord ..).symm, rfl, fun s => (accept_cmdWord ..).symm⟩
  case readMemoryByte => exact ⟨.readMemoryByte, (opc_cmdWord ..).symm, rfl, fun s => (accept_cmdWord ..).symm⟩
  case readMemoryMulti => exact ⟨.readMemoryMulti, (opc_cmdWord ..).symm, rfl, fun s => (accept_cmdWord ..).symm⟩
  case writeMemoryMulti => exact ⟨.writeMemoryMulti, (opc_cmdWord ..).symm, rfl, fun s => (accept_cmdWord ..).symm⟩

theorem rowMatch_of_decode_cmd {w : CmdWord} {i : Instr} (h : decode (.cmd w) = .instr i) :
    rowMatch i = (CmdWord.opc w).toNat := by
  obtain ⟨op, hop, hrow, -⟩ := exec_command (decode_eq_instr_iff.1 h)
  rw [hrow, hop]

/-- A word whose code is that of a row decodes exactly when it has the row's match under its mask (R53). -/
theorem decode_cmd_of_row {w : CmdWord} {i : Instr} (hi : rowMatch i = (CmdWord.opc w).toNat) :
    (∃ j, decode (.cmd w) = .instr j) ↔ w &&& BitVec.ofNat 32 (rowMask i) = BitVec.ofNat 32 (rowMatch i) := by
  have selects : ∀ {j}, rowMatch j = (CmdWord.opc w).toNat → (selectsRow (.cmd w) j = true ↔
      w &&& BitVec.ofNat 32 (rowMask j) = BitVec.ofNat 32 (rowMatch j)) := by
    intro j hj
    obtain ⟨-, v, hv⟩ := encode_cmd_of_rowMatch (hj ▸ (CmdWord.opc w).isLt)
    simp [selectsRow, hv]
  rw [← selects hi]
  constructor
  · rintro ⟨j, hj⟩
    have hrow : rowMatch j = rowMatch i := (rowMatch_of_decode_cmd hj).trans hi.symm
    have hsel := selectsRow_of_decode hj
    rwa [selects (hrow.trans hi), hrow, rowMask_eq_of_rowMatch hrow, ← selects hi] at hsel
  · intro h
    obtain ⟨j, hj, -⟩ := exists_decode_of_selectsRow h
    exact ⟨j, hj⟩

theorem decode_eq_nonzeroReserved_iff (w : CmdWord) : decode (.cmd w) = .reject .nonzeroReserved ↔
    ∃ i, rowMatch i = (CmdWord.opc w).toNat ∧
      w &&& BitVec.ofNat 32 (rowMask i) ≠ BitVec.ofNat 32 (rowMatch i) := by
  constructor
  · intro h
    obtain ⟨-, hd⟩ | ⟨hlt, -⟩ := decode_cmd_cases w
    · simp [hd] at h
    · obtain ⟨i, hi⟩ := exists_rowMatch hlt
      refine ⟨i, hi, fun hmask => ?_⟩
      obtain ⟨j, hj⟩ := (decode_cmd_of_row hi).2 hmask
      simp [hj] at h
  · rintro ⟨i, hi, hmask⟩
    obtain ⟨hcode, -⟩ | ⟨-, hd | hd⟩ := decode_cmd_cases w
    · have hlt := (encode_cmd_of_rowMatch (hi ▸ (CmdWord.opc w).isLt)).1
      omega
    · exact hd
    · exact absurd ((decode_cmd_of_row hi).1 hd) hmask

/-! ## Running a word -/

theorem runWord_instr {w : InstrWord} {i : Instr} (h : decode w = .instr i) (s : State) : runWord w s = exec i s := by
  simp [runWord, h]

/-- A command word that is no instruction is rejected at acceptance (R56). -/
theorem runWord_rejectWord {w : CmdWord} (h : ∀ i, decode (.cmd w) ≠ .instr i) (s : State) :
    runWord (.cmd w) s = rejectWord s := by
  obtain ⟨-, hd⟩ | ⟨-, hd | ⟨i, hd⟩⟩ := decode_cmd_cases w
  · simp [runWord, hd]
  · simp [runWord, hd]
  · exact absurd hd (h i)

theorem gated_ready {s : State} (hpc : s.e.pc = .idle) (hinit : s.p.initialized = true)
    (run : State → Host.Outcome State Fault Refusal) : gated s run = run s := by
  simp [gated, hpc, hinit]

theorem ready_of_gated_next {s t : State} {run : State → Host.Outcome State Fault Refusal}
    (h : gated s run = .next t) : s.e.pc = .idle ∧ s.p.initialized = true := by
  unfold gated at h
  split at h
  · rename_i hpc
    split at h
    · rename_i hinit
      exact ⟨hpc, hinit⟩
    · cases h
  · cases h

/-- Every command word, reserved or not, passes the gate of R133 first. -/
theorem runWord_cmd_gated (w : CmdWord) (s : State) : ∃ run, runWord (.cmd w) s = gated s run := by
  by_cases h : ∃ i, decode (.cmd w) = .instr i
  · obtain ⟨i, hi⟩ := h
    obtain ⟨op, -, -, hexec⟩ := exec_command (decode_eq_instr_iff.1 hi)
    exact ⟨_, (runWord_instr hi s).trans (hexec s)⟩
  · exact ⟨_, runWord_rejectWord (fun i hi => h ⟨i, hi⟩) s⟩

theorem sideOperandsOk_iff (s : State) : sideOperandsOk s = true ↔ lengthsOk s.params s.side.len s.side.buf := by
  simp only [sideOperandsOk, lengthsOk, Bool.and_eq_true, decide_eq_true_eq, and_assoc, Nat.one_le_iff_ne_zero]

section
variable {s : State} (hpc : s.e.pc = .idle) (hinit : s.p.initialized = true)
include hpc hinit

theorem runWord_rejects {w : CmdWord} (h : ∀ i, decode (.cmd w) ≠ .instr i) :
    runWord (.cmd w) s = .next (rejectCommand s) := by
  rw [runWord_rejectWord h, rejectWord, gated_ready hpc hinit]

theorem accept_rejects {op : Op} (hop : op.takesBuffer = true)
    (hlen : ¬ lengthsOk s.params s.side.len s.side.buf) (a : Addr7) (r d : Byte) (l : Label) :
    accept op a r d l s = .next (rejectCommand s) := by
  rw [← sideOperandsOk_iff, Bool.not_eq_true] at hlen
  simp [accept, gated_ready hpc hinit, hop, hlen]

theorem accept_latches {op : Op} (hlen : op.takesBuffer = true → lengthsOk s.params s.side.len s.side.buf)
    (a : Addr7) (r d : Byte) (l : Label) :
    accept op a r d l s = .next (latch (commandOf op a r d s) l s) := by
  rw [← sideOperandsOk_iff] at hlen
  rw [accept, gated_ready hpc hinit]
  split
  · rename_i h
    simp_all
  · rfl

end

/-- Settles O11: the codes by `decode_eq_reservedOpc_iff`, the fields by `decode_eq_nonzeroReserved_iff`. -/
theorem reservedCommandWords : Obligations.ReservedCommandWords := by
  refine ⟨decode_eq_reservedOpc_iff, decode_eq_nonzeroReserved_iff, fun w => ?_,
    fun s w hpc hinit h => runWord_rejects hpc hinit h⟩
  obtain ⟨-, hd⟩ | ⟨-, hd | hd⟩ := decode_cmd_cases w
  · exact .inr (.inl hd)
  · exact .inr (.inr hd)
  · exact .inl hd

/-- Settles O10: the gate, the code, the fields under the row's mask, then the lengths. -/
theorem acceptanceOfWord : Obligations.AcceptanceOfWord := by
  intro s w
  refine ⟨fun hnot t h => ?gate, fun hpc hinit => ⟨fun hcode => ?code, fun op i hop hi => ?row⟩⟩
  case gate =>
    obtain ⟨run, hrun⟩ := runWord_cmd_gated w s
    obtain ⟨hpc, hinit⟩ := ready_of_gated_next (hrun.symm.trans h)
    simp [hpc, hinit] at hnot
  case code =>
    have hd := (decode_eq_reservedOpc_iff w).2 hcode
    exact runWord_rejects hpc hinit fun i hi => by simp [hd] at hi
  case row =>
    have hi : rowMatch i = (CmdWord.opc w).toNat := hi.trans (congrArg _ hop)
    refine ⟨fun hmask => ?_, fun hmask => ?_⟩
    · exact runWord_rejects hpc hinit fun j hj => hmask ((decode_cmd_of_row hi).1 ⟨j, hj⟩)
    · obtain ⟨j, hj⟩ := (decode_cmd_of_row hi).2 hmask
      obtain ⟨op', hop', -, hexec⟩ := exec_command (decode_eq_instr_iff.1 hj)
      obtain rfl := Op.code_injective (hop'.trans hop.symm)
      rw [runWord_instr hj, hexec]
      exact ⟨fun hb hlen => accept_rejects hpc hinit hb hlen .., fun hlen => accept_latches hpc hinit hlen ..⟩

/-! ## Commands as instructions (R55) -/

theorem isCommand_iff (i : Instr) : isCommand i = true ↔ ∃ w, encode i = .cmd w := by
  unfold isCommand isCommand.commandWordOf
  cases encode i <;> simp

theorem eq_scan_of_rowMatch {i : Instr} (h : rowMatch i = 0) : i = .scan := by
  cases i <;> simp [rowMatch] at h ⊢

/-- Settles O15: a command that is not refused ends in a rejection or a latch (`accept_cases`), and only the latch of
`scan` touches `SCAN_OUT`. -/
theorem commandsFrame : Obligations.CommandsFrame := by
  intro i s t hi h
  obtain ⟨w, hw⟩ := (isCommand_iff i).1 hi
  obtain ⟨op, -, hrow, hexec⟩ := exec_command hw
  rw [hexec] at h
  obtain ⟨-, ha⟩ | ⟨-, -, ha⟩ | ⟨-, -, -, -, ha⟩ | ⟨-, -, -, ha⟩ :=
    accept_cases op (CmdWord.addr w) (CmdWord.reg w) (CmdWord.data w) op.firstLabel s <;> rw [ha] at h <;> cases h
  · exact ⟨rfl, fun _ => rfl, rfl, rfl, rfl, rfl, rfl, fun _ => rfl, rfl, rfl, rfl, rfl, rfl, rfl, rfl, rfl, rfl, rfl⟩
  · have hscan : i ≠ .scan → op ≠ .scan := by
      rintro hne rfl
      exact hne (eq_scan_of_rowMatch hrow)
    exact ⟨rfl, fun _ => rfl, rfl, rfl, rfl, rfl, rfl, fun hne => if_neg (hscan hne), rfl, rfl, rfl, rfl, rfl, rfl, rfl,
      rfl, rfl, rfl⟩

/-- Settles O12: each command latches its own record (`accept_latches`). -/
theorem commandsComplete : Obligations.CommandsComplete := by
  intro s a r d hpc hinit
  have latches (op : Op) (hb : op.takesBuffer = false) (a : Addr7) (r d : Byte) (l : Label) :
      accept op a r d l s = .next (latch (commandOf op a r d s) l s) :=
    accept_latches hpc hinit (by simp [hb]) a r d l
  refine ⟨latches .scan rfl .., latches .writeByte rfl .., latches .writeMemoryByte rfl .., latches .readByte rfl ..,
    latches .readMemoryByte rfl .., fun h1 h2 h3 => ?_⟩
  have hlen : lengthsOk s.params s.side.len s.side.buf := ⟨h1, h2, h3⟩
  exact ⟨accept_latches hpc hinit (fun _ => hlen) .., accept_latches hpc hinit (fun _ => hlen) ..⟩

end Sys2Proof.Machine
end

section
/-! The statements of 30_encoding.md on primitive words (R59), on the step that runs a decoded word (R55, R84), and on
words written in the spec. -/

namespace Sys2Proof.Machine

open Sys2Proof

/-! ## Primitive words (R58, R59) -/

theorem decode_prim_cases (w : PrimWord) : decode (.prim w) = .reject .reservedPk ∨
    decode (.prim w) = .reject .nonzeroPrimBits ∨ ∃ i, decode (.prim w) = .instr i := by
  simp only [decode, decodePrim]
  split_ifs
  case neg => exact .inl rfl
  all_goals exact .inr (decodeIf_cases ..)

/-- A primitive word that is no instruction is a fault of the Bus Interface. -/
theorem runWord_prim_faults {w : PrimWord} (h : ∀ i, decode (.prim w) ≠ .instr i) (s : State) :
    runWord (.prim w) s = .fault .reservedPrimitive := by
  obtain hd | hd | ⟨i, hd⟩ := decode_prim_cases w
  · simp [runWord, hd]
  · simp [runWord, hd]
  · exact absurd hd (h i)

theorem execReadDr_next_iff {s t : State} : exec .readDr s = .next t ↔ ∃ v, primReadDr s = .ok (v, t) := by
  simp only [exec, execReadDr]
  cases primReadDr s with
  | error f => simp [Except.map]
  | ok vu =>
    obtain ⟨v, u⟩ := vu
    simp [Except.map]

theorem execWriteDr_next_iff {b : Byte} {s t : State} : exec (.writeDr b) s = .next t ↔ primWriteDr b s = .ok t := by
  simp only [exec, execWriteDr]
  cases primWriteDr b s <;> simp

/-- A primitive that answers leaves its own word in `T` (R29). -/
theorem exec_prim_record {i : Instr} {w : PrimWord} {s t : State} (hw : encode i = .prim w) (h : exec i s = .next t) :
    ∃ ret, t.primTrace = s.primTrace ++ [⟨w, ret⟩] := by
  cases i <;> cases hw
  case issueStart | issueStop | readStatus | readStatus2 | setAck => cases h; exact ⟨_, rfl⟩
  case writeDr b =>
    obtain ⟨-, rfl⟩ | ⟨-, -, rfl⟩ := primWriteDr_cases (execWriteDr_next_iff.1 h) <;> exact ⟨_, rfl⟩
  case readDr =>
    obtain ⟨v, hv⟩ := execReadDr_next_iff.1 h
    obtain ⟨-, rfl⟩ := primReadDr_cases hv
    exact ⟨_, rfl⟩

/-- From `s` to `t` the Bus Interface and `T` stay as they are, or become what one primitive makes of them (R84, R85). -/
def RunsPrimitive (s t : State) : Prop :=
  (t.p = s.p ∧ t.primTrace = s.primTrace) ∨
    ∃ i w u, encode i = .prim w ∧ exec i s = .next u ∧ t.p = u.p ∧ t.primTrace = u.primTrace

theorem RunsPrimitive.refl (s : State) : RunsPrimitive s s := .inl ⟨rfl, rfl⟩

theorem RunsPrimitive.of_exec {i : Instr} {w : PrimWord} {s t : State} (hw : encode i = .prim w)
    (h : exec i s = .next t) : RunsPrimitive s t := .inr ⟨i, w, t, hw, h, rfl, rfl⟩

theorem RunsPrimitive.congr_right {s t u : State} (h : RunsPrimitive s t) (hp : u.p = t.p)
    (hT : u.primTrace = t.primTrace) : RunsPrimitive s u := by
  unfold RunsPrimitive at *
  rwa [hp, hT]

theorem primWriteDr_runsPrimitive {b : Byte} {s t : State} (h : primWriteDr b s = .ok t) : RunsPrimitive s t :=
  .of_exec rfl (execWriteDr_next_iff.2 h)

theorem primReadDr_runsPrimitive {v : Byte} {s t : State} (h : primReadDr s = .ok (v, t)) : RunsPrimitive s t :=
  .of_exec rfl (execReadDr_next_iff.2 ⟨v, h⟩)

theorem primReadStatus_runsPrimitive (s : State) : RunsPrimitive s (primReadStatus s).2 :=
  .of_exec (i := .readStatus) rfl rfl

theorem primReadStatus2_runsPrimitive (s : State) : RunsPrimitive s (primReadStatus2 s).2 :=
  .of_exec (i := .readStatus2) rfl rfl

theorem primIssueStop_runsPrimitive (s : State) : RunsPrimitive s (primIssueStop s) :=
  .of_exec (i := .issueStop) rfl rfl

/-- An action of a step table acts on the Bus Interface by one primitive or not at all (R84, R85). -/
theorem doAct_runsPrimitive {a : Act} {c : Command} {s t : State} (h : doAct a c s = .ok t) : RunsPrimitive s t := by
  cases a <;> simp only [doAct] at h
  case issueStart => cases h; exact .of_exec (i := .issueStart) rfl rfl
  case issueStop => cases h; exact primIssueStop_runsPrimitive s
  case ackOff | ackIfMany => cases h; exact .of_exec (i := .setAck _) rfl rfl
  case clearAddr | clearAddrInitCount => cases h; exact (primReadStatus2_runsPrimitive s).congr_right rfl rfl
  case sendAddr | sendReg | sendData => exact primWriteDr_runsPrimitive h
  case sendProbe =>
    cases hn : s.e.sa with
    | none => rw [hn] at h; cases h
    | some n =>
      rw [hn] at h
      exact primWriteDr_runsPrimitive h
  case sendRegClearIdx =>
    cases hu : primWriteDr c.reg s with
    | error f => rw [hu] at h; cases h
    | ok u =>
      rw [hu] at h
      cases h
      exact (primWriteDr_runsPrimitive hu).congr_right rfl rfl
  case sendBuf =>
    obtain ⟨i, b, u, -, -, hu, rfl⟩ := actSendBuf_ok h
    exact (primWriteDr_runsPrimitive hu).congr_right rfl rfl
  case captureRdata =>
    obtain ⟨v, u, hu, rfl⟩ := actCaptureRdata_ok h
    exact (primReadDr_runsPrimitive hu).congr_right rfl rfl
  case captureBuf =>
    obtain ⟨i, r, v, u, w, -, -, hu, hw, rfl⟩ := actCaptureBuf_ok h
    obtain ⟨-, rfl⟩ := bufWrite_ok hw
    exact (primReadDr_runsPrimitive hu).congr_right rfl rfl
  case inspect =>
    obtain ⟨n, -, rfl⟩ := actInspect_ok h
    exact (primReadStatus_runsPrimitive s).congr_right rfl rfl
  case nextProbe =>
    cases hn : s.e.sa with
    | none => rw [hn] at h; cases h
    | some n =>
      rw [hn] at h
      cases h
      exact RunsPrimitive.refl s
  case scanInit | test | wait | settle => cases h; exact RunsPrimitive.refl s

theorem RunsPrimitive.advance {k : Succ} {c : Command} {s t u : State} (h : RunsPrimitive s t)
    (hu : advance k c t = .next u) : RunsPrimitive s u := by
  obtain ⟨l, -, rfl⟩ := advance_next hu
  exact h.congr_right rfl rfl

/-- A poll is one read of a status register, whatever it does next (R90, R91). -/
theorem poll_runsPrimitive {c : WaitCond} {k : Succ} {cmd : Command} {s t : State} (h : poll c k cmd s = .next t) :
    RunsPrimitive s t := by
  have hread : RunsPrimitive s (pollOnce c s).2 := by
    rw [pollOnce_eq]
    dsimp only
    split
    · exact primReadStatus2_runsPrimitive s
    · exact primReadStatus_runsPrimitive s
  unfold poll at h
  split at h
  · exact (hread.congr_right (u := (pollOnce c s).2.setPolls 0) rfl rfl).advance h
  · cases h
    obtain ⟨-, hm⟩ | ⟨-, -, hm⟩ | ⟨-, -, hm⟩ := pollMissed_cases c (pollOnce c s).2 <;> rw [hm] <;>
      exact hread.congr_right rfl rfl

theorem runRow_runsPrimitive {row : Row} {c : Command} {s t : State} (h : runRow row c s = .next t) :
    RunsPrimitive s t := by
  unfold runRow at h
  split at h
  · exact poll_runsPrimitive h
  · unfold settleStep at h
    split at h
    · exact (RunsPrimitive.refl s).advance h
    · cases h
      exact RunsPrimitive.refl s
  · split at h
    · rename_i u hu
      exact (doAct_runsPrimitive hu).advance h
    · cases h

theorem tableStep_runsPrimitive {l : Label} {s t : State} (h : tableStep l s = .next t) : RunsPrimitive s t := by
  unfold tableStep at h
  split at h
  · cases h
  · split at h
    · cases h
    · exact runRow_runsPrimitive h

/-- An engine step acts on the Bus Interface by one primitive or not at all. -/
theorem engineStep_runsPrimitive {s t : State} (h : engineStep s = .next t) : RunsPrimitive s t := by
  unfold engineStep at h
  split at h
  · cases h; exact RunsPrimitive.refl s
  · cases h; exact (primIssueStop_runsPrimitive s).congr_right rfl rfl
  · cases h; exact .inl ⟨rfl, rfl⟩
  · exact tableStep_runsPrimitive h

/-- Settles O21: a word of no row does not decode, and what an engine step adds to `T` is the word of the primitive it
ran. -/
theorem reservedPrimitiveWords : Obligations.ReservedPrimitiveWords := by
  refine ⟨fun s w h => runWord_prim_faults (fun i hi => ?_) s, fun s t h => ?_⟩
  · exact absurd (selectsRow_of_decode hi) (by simp [h i])
  · obtain ⟨-, hT⟩ | ⟨i, w, u, hw, hu, -, hT⟩ := engineStep_runsPrimitive h
    · exact .inl hT
    · obtain ⟨ret, hret⟩ := exec_prim_record hw hu
      exact .inr ⟨⟨w, ret⟩, i, hT.trans hret, decode_eq_instr_iff.2 hw⟩

/-! ## The step of a decoded word (R55, R84) -/

/-- The Caller's turn issues the oldest move, its side operands at hand. -/
theorem turn_command {s : State} {w : CmdWord} {len : BitVec 32} {buf : BufRef} {rest : List Call} {i : Instr}
    (hpc : s.e.pc = .idle) (hcalls : s.calls = .command w len buf :: rest) (hw : decode (.cmd w) = .instr i) :
    turn s = exec i { s with calls := rest, side := ⟨len, buf⟩ } := by
  simp only [turn, callerStep, hpc, hcalls, if_true, runWord_instr hw]

theorem step_go {s : State} {rest : List Pick} (hs : s.script = .choose .go :: rest) :
    step s = turn { s with script := rest } := step_choose hs

theorem referenceStep_turn {s : State} (h : firstEnabled s.p = none) : referenceStep s = turn s := by
  simp [referenceStep, h]

/-- The step after a primitive word is placed runs it in the state itself (log 11). -/
theorem step_placePrim {w : PrimWord} {i : Instr} (hw : decode (.prim w) = .instr i) (s : State) :
    step (s.placePrim w) = exec i s :=
  (step_prim rfl).trans (runWord_instr hw s)

/-- The step after a command word is placed runs it with the engine IDLE and initialized (log 11). -/
theorem step_placeCommand {w : CmdWord} {i : Instr} (hw : decode (.cmd w) = .instr i) (s : State) :
    step (s.placeCommand w) =
      exec i { s with e := { s.e with pc := .idle, cmd := none }, p := { s.p with initialized := true } } :=
  (step_go rfl).trans (turn_command rfl rfl hw)

theorem decodeTableWord_cases {nbits n : Nat} {i : Instr} (h : decodeTableWord nbits n = some i) :
    (nbits = 32 ∧ decode (.cmd (BitVec.ofNat 32 n)) = .instr i) ∨
    (nbits = 16 ∧ decode (.prim (BitVec.ofNat 16 n)) = .instr i) := by
  have of_toOption {d : Decoded} (hd : d.toOption = some i) : d = .instr i := by
    cases d <;> simp [Decoded.toOption] at hd ⊢
    exact hd
  unfold decodeTableWord tableWord at h
  split_ifs at h with h32 _ h16
  · exact .inl ⟨h32, of_toOption h⟩
  · exact .inr ⟨h16, of_toOption h⟩

/-- Settles O22: the turn issues the next move, a presented primitive runs at once, and a placed word is either. -/
theorem stepRunsDecoded : Obligations.StepRunsDecoded := by
  refine ⟨fun s w len buf rest i hpc hcalls hw => ⟨fun more hs => ?go, fun hs hfree hnone => ?reference⟩,
    fun s w more i hs hw => (step_prim hs).trans (runWord_instr hw _), fun s nbits n i h => ?placed⟩
  case go => exact (step_go hs).trans (turn_command hpc hcalls hw)
  case reference => rw [step_reference ⟨hs, hfree⟩, referenceStep_turn hnone, turn_command hpc hcalls hw]
  case placed =>
    obtain ⟨rfl, hw⟩ | ⟨rfl, hw⟩ := decodeTableWord_cases h
    · have hcmd : isCommand i = true := (isCommand_iff i).2 ⟨_, decode_eq_instr_iff.1 hw⟩
      exact ⟨fun hprim => by simp [hcmd] at hprim, fun _ => step_placeCommand hw s⟩
    · refine ⟨fun _ => step_placePrim hw s, fun hcmd => ?_⟩
      obtain ⟨v, hv⟩ := (isCommand_iff i).1 hcmd
      simp [decode_eq_instr_iff.1 hw] at hv

/-- Settles O3: the decoder evaluated on each word. -/
theorem sampleWordsDecode : Obligations.SampleWordsDecode := by
  unfold Obligations.SampleWordsDecode
  decide

end Sys2Proof.Machine
end

section
/-! The statements of 30_encoding.md on the registers' bits (R60) and on the assembler (R62). -/

namespace Sys2Proof.Machine

open Sys2Proof

/-! ## Register bits (R60) -/

theorem getLsbD_flagAt {pos : Nat} (hpos : pos < 16) (b : Bool) (n : Nat) :
    (flagAt b pos).getLsbD n = (b && decide (n = pos)) := by
  cases b with
  | false => simp [flagAt]
  | true =>
    have hbit : (1#16 <<< pos) = BitVec.twoPow 16 pos := (BitVec.twoPow_eq ..).symm
    rw [flagAt, if_pos rfl, hbit, BitVec.getLsbD_twoPow]
    simp [hpos, eq_comm]

/-- `STATUS` has its flags at bits 0, 1, 2, 6 and 7. -/
theorem StatusFlags.getLsbD_word (f : StatusFlags) (n : Nat) : f.word.getLsbD n =
    if n = 0 then f.sb else if n = 1 then f.addr else if n = 2 then f.btf else if n = 6 then f.rxne
    else if n = 7 then f.txe else false := by
  simp only [StatusFlags.word, BitVec.getLsbD_or, getLsbD_flagAt, Nat.reduceLT]
  split_ifs <;> simp [*]

/-- `STATUS2` has `BUSY` at bit 1. -/
theorem getLsbD_status2Word (b : Bool) (n : Nat) : (status2Word b).getLsbD n = if n = 1 then b else false := by
  rw [status2Word, getLsbD_flagAt (by decide)]
  split_ifs with h <;> simp [h]

/-- A bit of a register value is the flag at that position or, outside the mask, the reserved value's. -/
theorem getLsbD_withReserved (flags mask rsv : PrimWord) (n : Nat) :
    (withReserved flags mask rsv).getLsbD n = (flags.getLsbD n || (rsv.getLsbD n && !mask.getLsbD n)) := by
  simp only [withReserved, BitVec.getLsbD_or, BitVec.getLsbD_and, BitVec.getLsbD_not]
  by_cases hn : n < 16
  · simp [hn]
  · simp [hn, BitVec.getLsbD_of_ge rsv n (by omega)]

/-- The mask of `STATUS` is the value in which every flag is set. -/
theorem status_mask_eq : 0x00C7#16 = StatusFlags.word ⟨true, true, true, true, true⟩ := by decide

theorem status2_mask_eq : 0x0002#16 = status2Word true := by decide

theorem getLsbD_statusValue (s : State) (n : Nat) : s.statusValue.getLsbD n =
    if n = 0 then s.p.sb else if n = 1 then s.p.addr else if n = 2 then s.p.btf else if n = 6 then s.p.rxne
    else if n = 7 then s.p.txe else s.reservedNow.getLsbD n := by
  rw [State.statusValue, getLsbD_withReserved, status_mask_eq, StatusFlags.getLsbD_word, StatusFlags.getLsbD_word]
  split_ifs <;> simp [Periph.status]

theorem getLsbD_status2Value (s : State) (n : Nat) :
    s.status2Value.getLsbD n = if n = 1 then s.p.busy else s.reservedNow.getLsbD n := by
  rw [State.status2Value, getLsbD_withReserved, status2_mask_eq, getLsbD_status2Word, getLsbD_status2Word]
  split_ifs <;> simp

/-- `CONTROL` under the reference binding. -/
def controlFlags (p : Periph) : PrimWord := flagAt p.reqStart 8 ||| flagAt p.reqStop 9 ||| flagAt p.ackEn 10

theorem getLsbD_controlFlags (p : Periph) (n : Nat) : (controlFlags p).getLsbD n =
    if n = 8 then p.reqStart else if n = 9 then p.reqStop else if n = 10 then p.ackEn else false := by
  simp only [controlFlags, BitVec.getLsbD_or, getLsbD_flagAt, Nat.reduceLT]
  split_ifs <;> simp [*]

theorem registerView_reference_status (s : State) :
    registerView .reference s.reservedNow s.p .status = some s.statusValue := by
  have hmask : RegBinding.statusMask .reference = 0x00C7#16 := by decide
  simp only [registerView, hmask]
  rfl

theorem registerView_reference_status2 (s : State) :
    registerView .reference s.reservedNow s.p .status2 = some s.status2Value := by
  have hmask : RegBinding.status2Mask .reference = 0x0002#16 := by decide
  simp only [registerView, hmask]
  rfl

theorem registerView_reference_control (rsv : PrimWord) (p : Periph) :
    registerView .reference rsv p .control = some (controlFlags p) :=
  congrArg some (withReserved_zero ..)

/-- Settles O5: each register bit by bit; `CONTROL`'s value is `controlFlags`. -/
theorem registerLayout : Obligations.RegisterLayout := by
  refine ⟨StatusFlags.getLsbD_word, getLsbD_status2Word, getLsbD_statusValue, getLsbD_status2Value, fun s => ?reserved,
    fun s => ⟨controlFlags s.p, registerView_reference_status s, registerView_reference_status2 s,
      registerView_reference_control .., getLsbD_controlFlags .., getLsbD_controlFlags .., getLsbD_controlFlags .., rfl⟩⟩
  case reserved =>
    refine ⟨fun hzero => ?_, fun given seed v hdrawn hv => ?_⟩
    · simp [State.reservedNow, hzero]
    · simp [State.reservedNow, ReservedBits.bitsAt, hdrawn, hv]

/-! ## The assembler (R62) -/

theorem addrInRange_iff (a : Nat) : addrInRange a = true ↔ a < 128 := decide_eq_true_iff

theorem byteInRange_iff (b : Nat) : byteInRange b = true ↔ b < 256 := decide_eq_true_iff

theorem lenInRange_iff (n : Nat) : lenInRange n = true ↔ 1 ≤ n ∧ n < 2 ^ 32 := by
  simp only [lenInRange, Bool.and_eq_true, decide_eq_true_eq]

/-- A field moved to its place keeps its value when it fits. -/
theorem toNat_setWidth_shiftLeft {m n : Nat} (x : BitVec m) (hm : m ≤ 32) (hfits : 2 ^ n * x.toNat < 2 ^ 32) :
    (x.setWidth 32 <<< n).toNat = 2 ^ n * x.toNat := by
  rw [BitVec.toNat_shiftLeft, BitVec.toNat_setWidth_of_le hm, Nat.shiftLeft_eq, Nat.mul_comm, Nat.mod_eq_of_lt hfits]

/-- A command word as a number: each field at its place, none reaching into the next (R51). -/
theorem cmdWord_toNat (o : BitVec 4) (a : Addr7) (r d : Byte) :
    (cmdWord o a r d).toNat = 2 ^ 24 * d.toNat + (2 ^ 16 * r.toNat + (2 ^ 8 * a.toNat + o.toNat)) := by
  have ho : o.toNat < 16 := o.isLt
  have ha : a.toNat < 128 := a.isLt
  have hr : r.toNat < 256 := r.isLt
  have : d.toNat < 256 := d.isLt
  rw [cmdWord, BitVec.or_assoc, BitVec.or_assoc, BitVec.toNat_or, BitVec.toNat_or, BitVec.toNat_or,
    toNat_setWidth_shiftLeft d (by decide) (by omega), toNat_setWidth_shiftLeft r (by decide) (by omega),
    toNat_setWidth_shiftLeft a (by decide) (by omega), BitVec.toNat_setWidth_of_le (by decide),
    ← Nat.two_pow_add_eq_or_of_lt (by omega) a.toNat, ← Nat.two_pow_add_eq_or_of_lt (by omega) r.toNat,
    ← Nat.two_pow_add_eq_or_of_lt (by omega)]

/-- A command added with operands in range: its word's number has the operands at their places (R51, R62). -/
theorem addCommand_fields {i : Instr} {o : BitVec 4} {a r d n : Nat}
    (h : encode i = .cmd (cmdWord o (.ofNat 7 a) (.ofNat 8 r) (.ofNat 8 d))) (ha : a < 128) (hr : r < 256)
    (hn : n = d * 2 ^ 24 + r * 2 ^ 16 + a * 2 ^ 8 + o.toNat) (p : Program) (len : Nat) (buf : BufRef) :
    p.addCommand i len buf =
      { p with calls := p.calls ++ [.command (BitVec.ofNat 32 n) (BitVec.ofNat 32 len) buf] } := by
  have hword : cmdWord o (.ofNat 7 a) (.ofNat 8 r) (.ofNat 8 d) = BitVec.ofNat 32 n := by
    apply BitVec.eq_of_toNat_eq
    simp only [cmdWord_toNat, BitVec.toNat_ofNat]
    have ho : o.toNat < 16 := o.isLt
    omega
  simp only [Program.addCommand, commandWord, h, hword]

/-- A line of text that has a form of R62 is refused for its operands or added. -/
theorem addText_line {text w : List Char} {rest : List Token} {l : AsmLine}
    (ht : tokensFrom [] text = some (.word w :: rest)) (hl : lineOf w rest = some l) (p : Program) :
    p.addText text = if l.wellFormed then p.addLine l else .error .operandRange := by
  simp only [Program.addText, ht, hl]

theorem assembleLines_error {p : Program} {text : List Char} {r : AsmReason} (h : p.addText text = .error r) (n : Nat)
    (more : List (List Char)) : assembleLines p n (text :: more) = .refused ⟨n, r⟩ := by
  simp only [assembleLines, h]

/-- Settles O6: the ranges, the refusal of a line outside them, and the word of each command line. -/
theorem assemblerChecksOperands : Obligations.AssemblerChecksOperands := by
  refine ⟨?ranges, fun p text w rest l n more ht hl => ⟨fun hwf => ?refused, fun hwf => ?added⟩, fun p => ?scan,
    fun p a d ha _ => ?writeByte, fun p a r d ha hr _ => ?writeMemoryByte, fun p a ha => ?readByte,
    fun p a r ha hr => ?readMemoryByte, fun p a r n b ref ha hr _ hb => ⟨?readMulti, ?writeMulti⟩⟩
  case ranges => simp [AsmLine.wellFormed, addrInRange_iff, byteInRange_iff, lenInRange_iff, and_assoc]
  case refused => exact assembleLines_error (by rw [addText_line ht hl, hwf]; rfl) n more
  case added => rw [addText_line ht hl, hwf]; rfl
  case scan =>
    exact congrArg _
      (addCommand_fields (i := .scan) (a := 0) (r := 0) (d := 0) (n := 0) rfl (by decide) (by decide) (by decide) ..)
  case writeByte => exact congrArg _ (addCommand_fields (r := 0) rfl ha (by decide) (by simp) ..)
  case writeMemoryByte => exact congrArg _ (addCommand_fields rfl ha hr (by simp) ..)
  case readByte => exact congrArg _ (addCommand_fields (r := 0) (d := 0) rfl ha (by decide) (by simp) ..)
  case readMemoryByte => exact congrArg _ (addCommand_fields (d := 0) rfl ha hr (by simp) ..)
  case readMulti =>
    simp only [Program.addLine, hb]
    exact congrArg _ (addCommand_fields (d := 0) rfl ha hr (by simp) ..)
  case writeMulti =>
    simp only [Program.addLine, hb]
    exact congrArg _ (addCommand_fields (d := 0) rfl ha hr (by simp) ..)

end Sys2Proof.Machine
end

section
/-! The statements of 40_bus_primitives.md on the seven primitives (R63 to R69): what each does in every state, and what
it leaves unchanged. -/

namespace Sys2Proof.Machine

open Sys2Proof

/-! ## The meaning of each primitive, case by case -/

theorem exec_issueStart (s : State) : exec .issueStart s =
    .next ((s.setP { s.p with reqStart := true }).record 0x1000 none) := rfl

theorem exec_issueStop (s : State) : exec .issueStop s =
    .next ((s.setP { s.p with reqStop := true, reqStart := false }).record 0x2000 none) := rfl

theorem exec_setAck (e : Bool) (s : State) : exec (.setAck e) s =
    .next ((s.setP { s.p with ackEn := e }).record (if e then 0x7001 else 0x7000) none) := by
  cases e <;> rfl

section
variable (b : Byte) {s : State}

theorem exec_writeDr_of_pStart (hmode : s.p.mode = .pStart) : exec (.writeDr b) s =
    .next ((s.setP { s.p with sb := false, addrResolved := false, target := none, mode := .pAddr b }).record
      (0x3000 ||| b.setWidth 16) none) := by
  simp only [exec, execWriteDr, primWriteDr, hmode]
  rfl

theorem exec_writeDr_of_empty (hmode : s.p.mode = .pTx) (hdr : s.p.drTx = none) : exec (.writeDr b) s =
    .next ((s.setP { s.p with drTx := some b, txe := false, btf := false }).record
      (0x3000 ||| b.setWidth 16) none) := by
  simp only [exec, execWriteDr, primWriteDr, hmode, hdr, if_true]
  rfl

theorem exec_writeDr_of_full (hmode : s.p.mode = .pTx) (hdr : s.p.drTx ≠ none) :
    exec (.writeDr b) s = .fault .dataOverrun := by
  simp [exec, execWriteDr, primWriteDr, hmode, hdr]

theorem exec_writeDr_out_of_phase (hstart : s.p.mode ≠ .pStart) (htx : s.p.mode ≠ .pTx) :
    exec (.writeDr b) s = .fault .writeOutOfPhase := by
  simp only [exec, execWriteDr, primWriteDr]
  split
  next hmode => exact absurd hmode hstart
  next hmode => exact absurd hmode htx
  all_goals rfl

end

theorem exec_readDr_of_some {s : State} {v : Byte} (hdr : s.p.drRx = some v) : exec .readDr s =
    .next ((s.setP { s.p with rxne := false, btf := false }).record 0x4000 (some (v.setWidth 16))) := by
  simp only [exec, execReadDr, primReadDr, hdr]
  rfl

theorem exec_readDr_of_none {s : State} (hdr : s.p.drRx = none) : exec .readDr s = .fault .unwrittenRead := by
  simp only [exec, execReadDr, primReadDr, hdr]
  rfl

theorem exec_readStatus (s : State) : exec .readStatus s = .next (s.record 0x5000 (some s.statusValue)) := rfl

theorem exec_readStatus2 (s : State) :
    exec .readStatus2 s = .next ((s.setP s.p.clearAddr).record 0x6000 (some s.status2Value)) := rfl

/-! ## The side effect of `READ_STATUS2` (R68) -/

section
variable {p : Periph}

theorem Periph.clearAddr_of_clear (haddr : p.addr = false) : p.clearAddr = p := by
  simp [Periph.clearAddr, haddr]

theorem Periph.clearAddr_of_pTxWaitClr (haddr : p.addr = true) (hmode : p.mode = .pTxWaitClr) :
    p.clearAddr = { p with addr := false, mode := .pTx, txe := true } := by
  simp [Periph.clearAddr, haddr, hmode]

theorem Periph.clearAddr_of_pRxWaitClr (haddr : p.addr = true) (hmode : p.mode = .pRxWaitClr) :
    p.clearAddr = { p with addr := false, mode := .pRx } := by
  simp [Periph.clearAddr, haddr, hmode]

/-- Outside the two phases that wait for it, clearing `ADDR` starts no data phase. -/
theorem Periph.clearAddr_of_not_waiting (haddr : p.addr = true) (htx : p.mode ≠ .pTxWaitClr)
    (hrx : p.mode ≠ .pRxWaitClr) : p.clearAddr = { p with addr := false } := by
  rw [Periph.clearAddr, if_pos haddr]
  split
  next hmode => exact absurd hmode htx
  next hmode => exact absurd hmode hrx
  all_goals rfl

end

theorem Periph.clearAddr_frame (p : Periph) : p.clearAddr =
    { p with addr := p.clearAddr.addr, mode := p.clearAddr.mode, txe := p.clearAddr.txe } := by
  unfold Periph.clearAddr
  split
  · split <;> rfl
  · rfl

/-! ## What each primitive leaves unchanged -/

/-- A primitive that answers has replaced the Bus Interface state and appended its word to `T`, nothing else. -/
theorem exec_prim_next {i : Instr} {w : PrimWord} {s t : State} (hw : encode i = .prim w) (h : exec i s = .next t) :
    ∃ q ret, t = (s.setP q).record w ret := by
  cases i <;> cases hw
  case issueStart | issueStop | readStatus | readStatus2 | setAck => cases h; exact ⟨_, _, rfl⟩
  case writeDr b =>
    obtain ⟨-, rfl⟩ | ⟨-, -, rfl⟩ := primWriteDr_cases (execWriteDr_next_iff.1 h) <;> exact ⟨_, _, rfl⟩
  case readDr =>
    obtain ⟨v, hv⟩ := execReadDr_next_iff.1 h
    obtain ⟨-, rfl⟩ := primReadDr_cases hv
    exact ⟨_, _, rfl⟩

theorem encode_prim_of_not_command {i : Instr} (h : isCommand i = false) : ∃ w, encode i = .prim w := by
  cases hw : encode i with
  | cmd w => simp [(isCommand_iff i).2 ⟨w, hw⟩] at h
  | prim w => exact ⟨w, rfl⟩

section
variable {s t : State}

theorem exec_issueStart_p (h : exec .issueStart s = .next t) : t.p = { s.p with reqStart := t.p.reqStart } := by
  cases h
  rfl

theorem exec_issueStop_p (h : exec .issueStop s = .next t) :
    t.p = { s.p with reqStop := t.p.reqStop, reqStart := t.p.reqStart } := by
  cases h
  rfl

theorem exec_writeDr_p {b : Byte} (h : exec (.writeDr b) s = .next t) : t.p = { s.p with
    sb := t.p.sb, addrResolved := t.p.addrResolved, target := t.p.target, mode := t.p.mode, drTx := t.p.drTx,
    txe := t.p.txe, btf := t.p.btf } := by
  obtain ⟨-, rfl⟩ | ⟨-, -, rfl⟩ := primWriteDr_cases (execWriteDr_next_iff.1 h) <;> rfl

theorem exec_readDr_p (h : exec .readDr s = .next t) : t.p = { s.p with rxne := t.p.rxne, btf := t.p.btf } := by
  obtain ⟨v, hv⟩ := execReadDr_next_iff.1 h
  obtain ⟨-, rfl⟩ := primReadDr_cases hv
  rfl

theorem exec_readStatus_p (h : exec .readStatus s = .next t) : t.p = s.p := by
  cases h
  rfl

theorem exec_readStatus2_p (h : exec .readStatus2 s = .next t) :
    t.p = { s.p with addr := t.p.addr, mode := t.p.mode, txe := t.p.txe } := by
  cases h
  exact Periph.clearAddr_frame s.p

theorem exec_setAck_p {e : Bool} (h : exec (.setAck e) s = .next t) : t.p = { s.p with ackEn := t.p.ackEn } := by
  cases h
  rfl

end

/-! ## The obligations -/

/-- Settles O20: the next state is `s` but for the Bus Interface and one entry of `T` (`exec_prim_next`); each
primitive's own fields are in its lemma. -/
theorem primitivesFrame : Obligations.PrimitivesFrame := by
  intro i s t hi h
  obtain ⟨w, hw⟩ := encode_prim_of_not_command hi
  obtain ⟨q, ret, rfl⟩ := exec_prim_next hw h
  refine ⟨⟨w, ret, hw, rfl⟩, rfl, rfl, rfl, rfl, fun _ => rfl, rfl, rfl, rfl, rfl, rfl, rfl, rfl, rfl, rfl, rfl, rfl,
    rfl, rfl, ?issueStart, ?issueStop, ?writeDr, ?readDr, ?readStatus, ?readStatus2, ?setAck⟩
  case issueStart => rintro rfl; exact exec_issueStart_p h
  case issueStop => rintro rfl; exact exec_issueStop_p h
  case writeDr => rintro b rfl; exact exec_writeDr_p h
  case readDr => rintro rfl; exact exec_readDr_p h
  case readStatus => rintro rfl; exact exec_readStatus_p h
  case readStatus2 => rintro rfl; exact exec_readStatus2_p h
  case setAck => rintro e rfl; exact exec_setAck_p h

/-- Settles O16: the equation of each control primitive. -/
theorem controlPrimitives : Obligations.ControlPrimitives := fun s =>
  ⟨exec_issueStart s, exec_issueStop s, exec_setAck false s, exec_setAck true s⟩

/-- Settles O17: one equation per phase. -/
theorem writeDrByPhase : Obligations.WriteDrByPhase := fun b _ =>
  ⟨exec_writeDr_of_pStart b, exec_writeDr_of_empty b, exec_writeDr_of_full b, exec_writeDr_out_of_phase b⟩

/-- Settles O18: a read leaves the received byte where it is, so the same equation applies to a second read, whose flags
are already clear. -/
theorem readDrReturnsByte : Obligations.ReadDrReturnsByte := fun _ =>
  ⟨fun _ hdr => ⟨_, exec_readDr_of_some hdr, rfl, exec_readDr_of_some hdr⟩, exec_readDr_of_none⟩

/-- Settles O19: what `READ_STATUS2` makes of the Bus Interface is `Periph.clearAddr`, known in each of its cases. -/
theorem statusReads : Obligations.StatusReads := by
  refine fun s => ⟨exec_readStatus s, fun haddr => ?clear, fun haddr hmode => ?tx, fun haddr hmode => ?rx,
    fun haddr htx hrx => ?other⟩ <;> rw [exec_readStatus2]
  case clear => rw [Periph.clearAddr_of_clear haddr]; rfl
  case tx => rw [Periph.clearAddr_of_pTxWaitClr haddr hmode]; rfl
  case rx => rw [Periph.clearAddr_of_pRxWaitClr haddr hmode]; rfl
  case other => rw [Periph.clearAddr_of_not_waiting haddr htx hrx]; rfl

end Sys2Proof.Machine
end

section
/-! The statements of 41_bus_reference_model.md: when each environment step is enabled and what it does (R73 to R80), the
reference mock (R82), and who holds the bus (R72, R74, R75). -/

namespace Sys2Proof.Machine

open Sys2Proof

/-! ## When an environment step is enabled (R73 to R80) -/

theorem PMode.isAddr_iff {m : PMode} : m.isAddr = true ↔ ∃ b, m = .pAddr b := by
  cases m <;> simp [PMode.isAddr]

/-- No byte is in flight: not an address byte, not one being received, and in `PTX` none to send (R73). -/
theorem Periph.quiet_iff {p : Periph} : p.quiet = true ↔
    (p.mode = .pIdle ∨ p.mode = .pStart ∨ p.mode = .pTxWaitClr ∨ p.mode = .pRxWaitClr ∨ p.mode = .pRxDone ∨
      p.mode = .pNacked ∨ (p.mode = .pTx ∧ p.shift = none ∧ p.drTx = none)) := by
  cases hm : p.mode <;> simp [Periph.quiet, hm]

theorem envEnabled_stop_iff {p : Periph} : envEnabled .stop p = true ↔ p.reqStop = true ∧ p.quiet = true := by
  simp [envEnabled]

theorem envEnabled_start_iff {p : Periph} : envEnabled .start p = true ↔
    p.reqStart = true ∧ p.reqStop = false ∧ p.quiet = true ∧ (p.owner = true ∨ p.extBusy = false) := by
  simp [envEnabled, and_assoc]

theorem envEnabled_address_iff {p : Periph} : envEnabled .address p = true ↔ ∃ b, p.mode = .pAddr b :=
  PMode.isAddr_iff

theorem envEnabled_txShift_iff {p : Periph} :
    envEnabled .txShift p = true ↔ p.mode = .pTx ∧ p.drTx ≠ none ∧ p.shift = none := by
  simp [envEnabled, Option.isSome_iff_ne_none, and_assoc]

theorem envEnabled_txDone_iff {p : Periph} : envEnabled .txDone p = true ↔ p.mode = .pTx ∧ p.shift ≠ none := by
  simp [envEnabled, Option.isSome_iff_ne_none]

theorem envEnabled_receive_iff {p : Periph} : envEnabled .receive p = true ↔ p.mode = .pRx ∧ p.rxne = false := by
  simp [envEnabled]

theorem envEnabled_extBusy_iff {p : Periph} (b : Bool) : envEnabled (.extBusy b) p = true ↔ p.owner = false := by
  simp [envEnabled]

/-! ## What an environment step does (R74 to R80) -/

section
variable {s u : State}

theorem envStep_stop_of_owner (howner : s.p.owner = true) : envStep .stop s =
    .next ((s.setP { s.p with
      owner := false, busy := s.p.extBusy, reqStop := false, mode := .pIdle, sb := false, txe := false,
      btf := false, drTx := none, shift := none, target := none }).emit .P) := by
  simp [envStep, envStop, howner]

theorem envStep_stop_of_not_owner (howner : s.p.owner = false) :
    envStep .stop s = .next (s.setP { s.p with reqStop := false }) := by
  simp [envStep, envStop, howner]

/-- Answering an event on the bus: the slaves may change, the Bus Interface is set and the event follows the trace as it
was. -/
theorem SameButSlaves.setP_emit (h : SameButSlaves s u) (q : Periph) (ev : BusEvent) :
    (u.setP q).emit ev = { u with busTrace := s.busTrace ++ [ev], p := q } := by
  obtain ⟨sl, d, rfl⟩ := h
  rfl

theorem SameButSlaves.p_eq (h : SameButSlaves s u) : u.p = s.p := by
  obtain ⟨sl, d, rfl⟩ := h
  rfl

theorem envStep_address {b : Byte} {k : Bool} (hmode : s.p.mode = .pAddr b)
    (hack : slaveAddrAck (addrOfByte b) (dirOfByte b) s = (k, u)) : envStep .address s = .next { u with
      busTrace := s.busTrace ++ [.A b k]
      p := s.p.addressed (addrOfByte b) (dirOfByte b) k } := by
  have hu : SameButSlaves s u := by simpa [hack] using slaveAddrAck_sameButSlaves (addrOfByte b) (dirOfByte b) s
  simp only [envStep, hmode, envAddress, hack, hu.p_eq, hu.setP_emit]

theorem envStep_txShift {b : Byte} (hdr : s.p.drTx = some b) : envStep .txShift s =
    .next (s.setP { s.p with shift := some b, drTx := none, txe := true }) := by
  simp only [envStep, hdr, envTxShift]

theorem envStep_txDone {b : Byte} {k : Bool} (hshift : s.p.shift = some b) (hack : targetWrite b s = (k, u)) :
    envStep .txDone s = .next { u with busTrace := s.busTrace ++ [.W b k], p := s.p.sent k } := by
  have hu : SameButSlaves s u := by simpa [hack] using targetWrite_sameButSlaves b s
  simp only [envStep, hshift, envTxDone, hack, hu.p_eq, hu.setP_emit]

theorem envStep_receive {v : Byte} (hread : targetRead s = (v, u)) : envStep .receive s =
    .next { u with busTrace := s.busTrace ++ [.R v s.p.ackEn], p := s.p.received v } := by
  have hu : SameButSlaves s u := by simpa [hread] using targetRead_sameButSlaves s
  simp only [envStep, envReceive, hread, hu.p_eq, hu.setP_emit]

end

/-- The acknowledge slot of an address byte, by the acknowledge and the byte's direction bit (R76). -/
theorem Periph.addressed_eq (p : Periph) (b : Byte) (k : Bool) : p.addressed (addrOfByte b) (dirOfByte b) k =
    if k = false then { p with addrResolved := true, mode := .pNacked }
    else if b.extractLsb' 0 1 = 0#1 then
      { p with addrResolved := true, addr := true, target := some (addrOfByte b, .write), mode := .pTxWaitClr }
    else
      { p with addrResolved := true, addr := true, target := some (addrOfByte b, .read), mode := .pRxWaitClr } := by
  cases k with
  | false => rfl
  | true =>
    unfold dirOfByte
    split <;> rfl

/-- The acknowledge slot of a data byte (R78). -/
theorem Periph.sent_eq (p : Periph) (k : Bool) : p.sent k =
    if k = false then { p with shift := none, mode := .pNacked, txe := false, btf := false, drTx := none }
    else if p.drTx = none then { p with shift := none, btf := true }
    else { p with shift := none } := by
  cases k with
  | false => rfl
  | true => cases hdr : p.drTx <;> simp [Periph.sent, hdr]

/-- Settles O31: a stop as owner, and one without the bus. -/
theorem stopGeneration : Obligations.StopGeneration :=
  ⟨fun _ => envEnabled_stop_iff, fun _ => Periph.quiet_iff, fun _ => envStep_stop_of_owner,
    fun _ => envStep_stop_of_not_owner⟩

/-- Settles O32: the effect is `envStart` itself. -/
theorem startGeneration : Obligations.StartGeneration :=
  ⟨fun _ => envEnabled_start_iff, fun _ => rfl⟩

/-- Settles O33: the event carries the slave's answer (`envStep_address`), and that answer decides the phase
(`Periph.addressed_eq`). -/
theorem addressPhase : Obligations.AddressPhase := by
  refine fun s => ⟨envEnabled_address_iff, fun b k u hmode hack => ?_⟩
  rw [envStep_address hmode hack, Periph.addressed_eq]
  rfl

/-- Settles O34: the shift by `envStep_txShift`; the latched slave's answer (`envStep_txDone`) decides what follows the
byte (`Periph.sent_eq`). -/
theorem transmitPhase : Obligations.TransmitPhase := by
  refine ⟨fun _ => envEnabled_txShift_iff, fun _ _ => envStep_txShift, fun _ => envEnabled_txDone_iff,
    fun s u b a d k hshift htarget hack => ?_⟩
  rw [envStep_txDone hshift ((targetWrite_some htarget b).trans hack), Periph.sent_eq]

/-- Settles O35: the byte comes from the latched slave, the acknowledge from the bit in force. -/
theorem receivePhase : Obligations.ReceivePhase :=
  ⟨fun _ => envEnabled_receive_iff, fun _ _ _ _ _ htarget hread =>
    envStep_receive ((targetRead_some htarget).trans hread)⟩

/-- Settles O36: the reference scheduler's list leaves the step out (`firstEnabled_ne_extBusy`). -/
theorem externalBusUse : Obligations.ExternalBusUse :=
  ⟨fun _ b => envEnabled_extBusy_iff b, fun _ _ => rfl, fun _ b h => firstEnabled_ne_extBusy h b rfl⟩

/-! ## The reference mock (R82) -/

/-- Puts a mock slave in the place of the present one at its address. -/
def State.replaceSlave (s : State) (n : MockSlave) : State :=
  match s.slaves with
  | .mock present => { s with slaves := .mock (putSlave n present) }
  | .oracle _ _ => s

theorem slaveAt_eq_some {s : State} {a : Addr7} {m : MockSlave} (h : s.slaveAt a = some m) :
    ∃ present, s.slaves = .mock present ∧ findSlave a present = some m := by
  unfold State.slaveAt at h
  split at h
  · exact ⟨_, ‹_›, h⟩
  · cases h

theorem slaveAt_mock {s : State} {present : List MockSlave} (hs : s.slaves = .mock present) (a : Addr7) :
    s.slaveAt a = findSlave a present := by
  simp [State.slaveAt, hs]

/-- An address at which no slave is present is not acknowledged, and asking for it changes nothing. -/
theorem slaveAddrAck_absent {s : State} {present : List MockSlave} {a : Addr7} (hs : s.slaves = .mock present)
    (ha : s.slaveAt a = none) (d : Dir) : slaveAddrAck a d s = (false, s) := by
  rw [slaveAt_mock hs] at ha
  simp [slaveAddrAck, hs, ha]

section
variable {s : State} {a : Addr7} {m n : MockSlave}

theorem slaveAddrAck_present (ha : s.slaveAt a = some m) (d : Dir) :
    slaveAddrAck a d s = (true, s.replaceSlave (m.addressed d)) := by
  obtain ⟨present, hs, hm⟩ := slaveAt_eq_some ha
  simp [slaveAddrAck, State.replaceSlave, hs, hm]

theorem slaveWrite_present (ha : s.slaveAt a = some m) (b : Byte) :
    slaveWrite a b s = (true, s.replaceSlave (m.take b)) := by
  obtain ⟨present, hs, hm⟩ := slaveAt_eq_some ha
  simp [slaveWrite, State.replaceSlave, hs, hm]

theorem slaveRead_present (ha : s.slaveAt a = some m) :
    slaveRead a s = (m.current, s.replaceSlave m.sent) := by
  obtain ⟨present, hs, hm⟩ := slaveAt_eq_some ha
  simp [slaveRead, State.replaceSlave, hs, hm]

theorem slaveAt_addr (ha : s.slaveAt a = some m) : m.addr = a := by
  obtain ⟨present, -, hm⟩ := slaveAt_eq_some ha
  exact findSlave_addr hm

theorem slaveAt_replaceSlave_same (ha : s.slaveAt a = some m) (hn : n.addr = m.addr) :
    (s.replaceSlave n).slaveAt a = some n := by
  obtain ⟨present, hs, hm⟩ := slaveAt_eq_some ha
  simp only [State.replaceSlave, hs, State.slaveAt]
  exact findSlave_putSlave_same hm (hn.trans (findSlave_addr hm))

theorem slaveAt_replaceSlave_other (ha : s.slaveAt a = some m) (hn : n.addr = m.addr) {x : Addr7} (hx : x ≠ a) :
    (s.replaceSlave n).slaveAt x = s.slaveAt x := by
  obtain ⟨present, hs, hm⟩ := slaveAt_eq_some ha
  simp only [State.replaceSlave, hs, State.slaveAt]
  exact findSlave_putSlave_other (hn.trans (findSlave_addr hm)) hx present

end

@[simp] theorem MockSlave.addressed_addr (m : MockSlave) (d : Dir) : (m.addressed d).addr = m.addr := by
  cases d <;> rfl

@[simp] theorem MockSlave.take_addr (m : MockSlave) (b : Byte) : (m.take b).addr = m.addr := by
  unfold MockSlave.take
  split <;> rfl

@[simp] theorem MockSlave.sent_addr (m : MockSlave) : m.sent.addr = m.addr := rfl

theorem MockSlave.take_pointer {m : MockSlave} (h : m.expectPtr = true) (b : Byte) :
    m.take b = { m with ptr := b, expectPtr := false } := by
  simp [MockSlave.take, h]

theorem MockSlave.take_data {m : MockSlave} (h : m.expectPtr = false) (b : Byte) :
    m.take b = { m with mem := m.mem.write m.ptr.toNat b, ptr := m.ptr + 1 } := by
  simp [MockSlave.take, h]

/-- After any data byte the pointer has been given. -/
@[simp] theorem MockSlave.take_expectPtr (m : MockSlave) (b : Byte) : (m.take b).expectPtr = false := by
  cases h : m.expectPtr with
  | true => rw [MockSlave.take_pointer h]
  | false => rw [MockSlave.take_data h, h]

/-- The register pointer moves on modulo 256. -/
theorem MockSlave.ptr_succ_toNat (m : MockSlave) : (m.ptr + 1).toNat = (m.ptr.toNat + 1) % 256 :=
  BitVec.toNat_add ..

/-- Settles O37: each answer of a present slave replaces that slave alone, by what `MockSlave.addressed`,
`MockSlave.take` and `MockSlave.sent` make of it. -/
theorem mockSlaveBehaviour : Obligations.MockSlaveBehaviour := by
  refine fun s present a hs => ⟨fun d ha => slaveAddrAck_absent hs ha d, fun m ha hwf =>
    ⟨fun d => ?address, fun b => ?write, ?read⟩⟩
  case address =>
    refine ⟨_, slaveAddrAck_present ha d, ?_, fun x => slaveAt_replaceSlave_other ha (m.addressed_addr d)⟩
    rw [slaveAt_replaceSlave_same ha (m.addressed_addr d)]
    cases d <;> rfl
  case write =>
    refine ⟨_, m.take b, slaveWrite_present ha b, slaveAt_replaceSlave_same ha (m.take_addr b), m.take_addr b,
      m.take_expectPtr b, fun hptr => ?pointer, fun hptr => ?data,
      fun x => slaveAt_replaceSlave_other ha (m.take_addr b)⟩
    case pointer =>
      rw [MockSlave.take_pointer hptr]
      exact ⟨rfl, rfl⟩
    case data =>
      rw [MockSlave.take_data hptr]
      exact ⟨m.ptr_succ_toNat, Memory.read_write_same _ _ hwf, fun x hx => Memory.read_write_other b m.mem hx⟩
  case read =>
    exact ⟨_, m.sent, slaveRead_present ha, slaveAt_replaceSlave_same ha m.sent_addr, rfl, m.ptr_succ_toNat,
      fun x => slaveAt_replaceSlave_other ha m.sent_addr⟩

/-! ## Who holds the bus (R72, R74, R75) -/

/-- What one step can do to the bus: nothing, with the bus held as before; take it with an `S`; give it up with a `P`;
or any other event while the master holds it and keeps it. -/
def MovesOwnership (s t : State) : Prop :=
  (t.busTrace = s.busTrace ∧ t.p.owner = s.p.owner) ∨
  (t.busTrace = s.busTrace ++ [.S] ∧ s.p.owner = false ∧ t.p.owner = true) ∨
  (t.busTrace = s.busTrace ++ [.P] ∧ s.p.owner = true ∧ t.p.owner = false) ∨
  ∃ ev, ev ≠ .S ∧ ev ≠ .P ∧ t.busTrace = s.busTrace ++ [ev] ∧ s.p.owner = true ∧ t.p.owner = true

/-- An event that is no start and no stop, in a step that keeps the bus. -/
theorem MovesOwnership.of_event {s t : State} {ev : BusEvent} (hS : ev ≠ .S) (hP : ev ≠ .P)
    (hB : t.busTrace = s.busTrace ++ [ev]) (howner : s.p.owner = true) (hkept : t.p.owner = s.p.owner) :
    MovesOwnership s t := .inr (.inr (.inr ⟨ev, hS, hP, hB, howner, hkept.trans howner⟩))

/-- In the invariant the master holds the bus while a transaction runs (R72). -/
theorem Periph.owner_of_inv {p : Periph} (hinv : p.inv = true) (hmode : p.mode ≠ .pIdle) : p.owner = true := by
  simp only [Periph.inv, Bool.and_eq_true, beq_iff_eq] at hinv
  obtain ⟨⟨-, howner⟩, -⟩ := hinv
  simp [howner, hmode]

@[simp] theorem Periph.addressed_owner (p : Periph) (a : Addr7) (d : Dir) (k : Bool) :
    (p.addressed a d k).owner = p.owner := by cases k <;> rfl

@[simp] theorem Periph.sent_owner (p : Periph) (k : Bool) : (p.sent k).owner = p.owner := by cases k <;> rfl

theorem envStart_movesOwnership (s : State) : MovesOwnership s (envStart s) := by
  cases howner : s.p.owner with
  | false => exact .inr (.inl ⟨by simp [envStart, howner], howner, rfl⟩)
  | true => exact .inr (.inr (.inr ⟨.Sr, by simp, by simp, by simp [envStart, howner], howner, rfl⟩))

theorem envStop_movesOwnership (s : State) : MovesOwnership s (envStop s) := by
  cases howner : s.p.owner with
  | false => exact .inl (by simp [envStop, howner])
  | true => exact .inr (.inr (.inl (by simp [envStop, howner])))

/-- An environment step that is enabled in the invariant: `S` and `P` move the ownership, and a byte is on the bus only in
a phase in which the master holds it. -/
theorem envStep_movesOwnership {k : EnvStep} {s t : State} (h : envStep k s = .next t)
    (henabled : envEnabled k s.p = true) (hinv : s.p.inv = true) : MovesOwnership s t := by
  cases k with
  | stop => cases h; exact envStop_movesOwnership s
  | start => cases h; exact envStart_movesOwnership s
  | extBusy b => cases h; exact .inl ⟨rfl, rfl⟩
  | address =>
    obtain ⟨b, hmode⟩ := envEnabled_address_iff.1 henabled
    rw [envStep_address hmode rfl] at h
    cases h
    exact .of_event (by simp) (by simp) rfl (Periph.owner_of_inv hinv (by simp [hmode])) (Periph.addressed_owner ..)
  | txShift =>
    obtain ⟨-, hdr, -⟩ := envEnabled_txShift_iff.1 henabled
    obtain ⟨b, hb⟩ := Option.ne_none_iff_exists'.1 hdr
    rw [envStep_txShift hb] at h
    cases h
    exact .inl ⟨rfl, rfl⟩
  | txDone =>
    obtain ⟨hmode, hshift⟩ := envEnabled_txDone_iff.1 henabled
    obtain ⟨b, hb⟩ := Option.ne_none_iff_exists'.1 hshift
    rw [envStep_txDone hb rfl] at h
    cases h
    exact .of_event (by simp) (by simp) rfl (Periph.owner_of_inv hinv (by simp [hmode])) (Periph.sent_owner ..)
  | receive =>
    obtain ⟨hmode, -⟩ := envEnabled_receive_iff.1 henabled
    rw [envStep_receive rfl] at h
    cases h
    exact .of_event (by simp) (by simp) rfl (Periph.owner_of_inv hinv (by simp [hmode])) rfl

/-- No primitive takes the bus or gives it up: a start or a stop is only requested (R63, R64, R73). -/
theorem exec_prim_owner {i : Instr} {w : PrimWord} {s t : State} (hw : encode i = .prim w) (h : exec i s = .next t) :
    t.p.owner = s.p.owner := by
  cases i <;> cases hw
  case issueStart => exact (congrArg Periph.owner (exec_issueStart_p h) :)
  case issueStop => exact (congrArg Periph.owner (exec_issueStop_p h) :)
  case writeDr => exact (congrArg Periph.owner (exec_writeDr_p h) :)
  case readDr => exact (congrArg Periph.owner (exec_readDr_p h) :)
  case readStatus => exact (congrArg Periph.owner (exec_readStatus_p h) :)
  case readStatus2 => exact (congrArg Periph.owner (exec_readStatus2_p h) :)
  case setAck => exact (congrArg Periph.owner (exec_setAck_p h) :)

theorem RunsPrimitive.owner_eq {s t : State} (h : RunsPrimitive s t) : t.p.owner = s.p.owner := by
  obtain ⟨hp, -⟩ | ⟨i, w, u, hw, hu, hp, -⟩ := h <;> rw [hp]
  exact exec_prim_owner hw hu

/-- A command is accepted without a primitive; a primitive is itself (R50). -/
theorem exec_runsPrimitive {i : Instr} {s t : State} (h : exec i s = .next t) : RunsPrimitive s t := by
  cases hw : encode i with
  | prim w => exact .of_exec hw h
  | cmd w =>
    obtain ⟨op, -, -, hexec⟩ := exec_command hw
    rw [hexec] at h
    have h := gated_next h
    split at h <;> cases h <;> exact .inl ⟨rfl, rfl⟩

theorem runWord_runsPrimitive {w : InstrWord} {s t : State} (h : runWord w s = .next t) : RunsPrimitive s t := by
  unfold runWord at h
  split at h
  · exact exec_runsPrimitive h
  · cases gated_next h; exact .inl ⟨rfl, rfl⟩
  · cases gated_next h; exact .inl ⟨rfl, rfl⟩
  · cases h
  · cases h

theorem initCall_owner {s t : State} (h : initCall s = .next t) : t.p.owner = s.p.owner := by
  unfold initCall at h
  split at h <;> cases h
  rfl

/-- Neither the Caller nor the engine moves the ownership: the environment does. -/
theorem turn_owner {s t : State} (h : turn s = .next t) : t.p.owner = s.p.owner := by
  unfold turn callerStep at h
  split at h
  · split at h
    · cases h; rfl
    · exact (initCall_owner h :)
    · exact ((runWord_runsPrimitive h).owner_eq :)
  · exact (engineStep_runsPrimitive h).owner_eq

/-- Every step but a hardware reset moves the ownership as the trace says. -/
theorem step_movesOwnership {s t : State} (hinv : s.p.inv = true) (hs : s.noReset) (h : step s = .next t) :
    MovesOwnership s t := by
  obtain ⟨l, rest, hl, -⟩ | ⟨w, rest, -, hw⟩ | ⟨u, hu, hmove⟩ := step_cases s
  · exact absurd hl (hs l rest)
  · rw [hw] at h
    obtain ⟨hB, -⟩ := runWord_sameOutside h
    exact .inl ⟨hB, ((runWord_runsPrimitive h).owner_eq :)⟩
  · obtain ⟨sc, n, w, d, rfl⟩ := hu.eq_rescheduled
    obtain ⟨k, -, henabled, hk⟩ | ht := hmove
    · rw [hk] at h
      exact (envStep_movesOwnership h henabled hinv :)
    · rw [ht] at h
      obtain ⟨hB, -⟩ := turn_next h
      exact .inl ⟨hB, (turn_owner h :)⟩

theorem State.p_inv_of_inv {s : State} (hinv : s.inv = true) : s.p.inv = true := by
  simp only [State.inv, Bool.and_eq_true] at hinv
  tauto

/-- Settles O39: read off the four things a step can do to the bus (`step_movesOwnership`). -/
theorem ownershipFollowsTrace : Obligations.OwnershipFollowsTrace := by
  intro s t hinv hs h
  obtain ⟨hB, howner⟩ | ⟨hB, hbefore, hafter⟩ | ⟨hB, hbefore, hafter⟩ | ⟨ev, hS, hP, hB, hbefore, hafter⟩ :=
    step_movesOwnership (State.p_inv_of_inv hinv) hs h <;> rw [hB]
  · simp [howner]
  · simp [hbefore, hafter]
  · simp [hbefore, hafter]
  · simp [hbefore, hafter, hS, hP]

end Sys2Proof.Machine
end

section
/-! The statements of 42_phase_sequencer.md on single engine steps: the primitives a table issues (R84, R85), one poll
(R90, R91), failing and returning (R86, R128), and every `SET_ACK` the engine issues (R95). -/

namespace Sys2Proof.Machine

open Sys2Proof

/-! ## Rows of a step table -/

/-- The action is neither a poll nor the settle. -/
def Act.isDirect : Act → Bool
  | .wait _ | .settle => false
  | .issueStart | .issueStop | .sendAddr _ | .sendProbe | .sendReg | .sendRegClearIdx | .sendData | .sendBuf
  | .clearAddr | .clearAddrInitCount | .ackOff | .ackIfMany | .captureRdata | .captureBuf | .scanInit | .inspect
  | .nextProbe | .test => true

section
variable {row : Row} {c : Command} {s t u : State} {f : Fault}

theorem runRow_of_ok (hd : row.act.isDirect = true) (h : doAct row.act c s = .ok u) :
    runRow row c s = advance row.succ c u := by
  obtain ⟨a, k⟩ := row
  cases a
  case wait | settle => cases hd
  all_goals
    dsimp only at h
    simp only [runRow, h]

theorem runRow_of_error (hd : row.act.isDirect = true) (h : doAct row.act c s = .error f) :
    runRow row c s = .fault f := by
  obtain ⟨a, k⟩ := row
  cases a
  case wait | settle => cases hd
  all_goals
    dsimp only at h
    simp only [runRow, h]

theorem runRow_wait (w : WaitCond) (k : Succ) : runRow ⟨.wait w, k⟩ c s = poll w k c s := rfl

theorem runRow_settle (k : Succ) : runRow ⟨.settle, k⟩ c s = settleStep k c s := rfl

/-- A row that answers is a poll, the settle, or its action and then the move to the successor (R84). -/
theorem runRow_cases (h : runRow row c s = .next t) :
    (∃ w, row.act = .wait w ∧ poll w row.succ c s = .next t) ∨
    (row.act = .settle ∧ settleStep row.succ c s = .next t) ∨
    ∃ u l, row.act.isDirect = true ∧ doAct row.act c s = .ok u ∧ succLabel row.succ c u = .ok l ∧
      t = u.setPc l := by
  obtain ⟨a, k⟩ := row
  cases a
  case wait w => exact .inl ⟨w, rfl, h⟩
  case settle => exact .inr (.inl ⟨rfl, h⟩)
  all_goals
    refine .inr (.inr ?_)
    cases hu : doAct _ c s with
    | error f =>
      rw [runRow_of_error rfl hu] at h
      cases h
    | ok u =>
      rw [runRow_of_ok rfl hu] at h
      obtain ⟨l, hl, rfl⟩ := advance_next h
      exact ⟨u, l, rfl, rfl, hl, rfl⟩

end

/-- The labels a step can move to. -/
def Succ.targets : Succ → List Label
  | .goto l => [l]
  | .ifRem more last | .ifIdx more last | .ifSa more last => [more, last]

theorem succLabel_mem {k : Succ} {c : Command} {s : State} {l : Label} (h : succLabel k c s = .ok l) :
    l ∈ k.targets := by
  have chosen {p : Prop} [Decidable p] (a b : Label) : (if p then a else b) ∈ [a, b] := by split <;> simp
  cases k with
  | goto m => cases h; exact List.mem_singleton.2 rfl
  | ifRem a b =>
    cases hr : s.e.rem <;> simp only [succLabel, hr] at h <;> cases h
    exact chosen a b
  | ifIdx a b =>
    cases hr : s.e.idx <;> simp only [succLabel, hr] at h <;> cases h
    exact chosen a b
  | ifSa a b =>
    cases hr : s.e.sa <;> simp only [succLabel, hr] at h <;> cases h
    exact chosen a b

/-! ## A fact about every row of every table -/

/-- The operations. -/
def Op.all : List Op := 
  [.scan, .writeByte, .writeMemoryByte, .readByte, .readMemoryByte, .readMemoryMulti, .writeMemoryMulti]

/-- The labels. -/
def Label.all : List Label :=
  [.idle, .done, .abort, .busFreeWait, .start, .startWait, .addrWrite, .addrAcked, .clearAddr, .txeWait, .registerByte,
    .regTxeWait, .dataByte, .transferComplete, .stop, .restart, .restartWait, .addrRead, .addrAckedR, .disableAck,
    .clearAddrR, .rxneWait, .capture, .initAck, .loop, .rxneWaitN, .captureN, .scanInit, .probeStart, .probeStartWait,
    .probeAddr, .settle, .probeStop, .inspect, .probeClear, .next]

theorem Op.mem_all (op : Op) : op ∈ Op.all := by cases op <;> decide

theorem Label.mem_all (l : Label) : l ∈ Label.all := by cases l <;> decide

/-- Whether a check passes at every row of every table. -/
def everyRow (check : Op → Label → Row → Bool) : Bool :=
  Op.all.all fun op => Label.all.all fun l =>
    match stepTable op l with
    | none => true
    | some row => check op l row

/-- A check decided on the tables holds of a row at hand. -/
theorem of_everyRow {check : Op → Label → Row → Bool} (h : everyRow check = true) {op : Op} {l : Label} {row : Row}
    (hrow : stepTable op l = some row) : check op l row = true := by
  have hop := List.all_eq_true.1 h op op.mem_all
  simpa [hrow] using List.all_eq_true.1 hop l l.mem_all

/-- An engine step is the return of `ABORT` or `DONE`, or a row of the running command's table. -/
theorem engineStep_cases {s t : State} (h : engineStep s = .next t) :
    (s.e.pc = .idle ∧ t = s) ∨ (s.e.pc = .abort ∧ t = abortStep s) ∨ (s.e.pc = .done ∧ t = doneStep s) ∨
    ∃ c row, s.e.cmd = some c ∧ stepTable c.op s.e.pc = some row ∧ runRow row c s = .next t := by
  unfold engineStep at h
  split at h
  case h_1 hpc => cases h; exact .inl ⟨hpc, rfl⟩
  case h_2 hpc => cases h; exact .inr (.inl ⟨hpc, rfl⟩)
  case h_3 hpc => cases h; exact .inr (.inr (.inl ⟨hpc, rfl⟩))
  case h_4 =>
    unfold tableStep at h
    split at h
    · cases h
    · rename_i c hc
      split at h
      · cases h
      · rename_i row hrow
        exact .inr (.inr (.inr ⟨c, row, hc, hrow, h⟩))

theorem engineStep_abort {s : State} (h : s.e.pc = .abort) : engineStep s = .next (abortStep s) := by
  simp [engineStep, h]

theorem engineStep_done {s : State} (h : s.e.pc = .done) : engineStep s = .next (doneStep s) := by
  simp [engineStep, h]

/-! ## Primitives of a table (R84, R85) -/

/-- The action that is one primitive is that instruction's meaning. -/
theorem exec_primitiveOf {a : Act} {c : Command} {s : State} {i : Instr} (h : primitiveOf a c s.e = some i) :
    a.isDirect = true ∧ exec i s = outcomeOf (doAct a c s) := by
  cases a
  case sendProbe =>
    obtain ⟨n, hn, rfl⟩ := Option.map_eq_some_iff.1 h
    refine ⟨rfl, ?_⟩
    simp only [doAct, hn]
    rfl
  case issueStart | issueStop | sendAddr | sendReg | sendData | clearAddr | ackOff | ackIfMany =>
    cases h
    exact ⟨rfl, rfl⟩
  all_goals cases h

theorem outcomeOf_fault {x : Except Fault State} {f : Fault} (h : outcomeOf x = .fault f) : x = .error f := by
  cases x <;> cases h
  rfl

theorem outcomeOf_ne_refused (x : Except Fault State) (r : Refusal) : outcomeOf x ≠ .refused r := by
  cases x <;> simp

/-- `REGISTER_BYTE` of the multi-byte write sends the register and sets `E.idx` to 0 (R121). -/
theorem doAct_sendRegClearIdx (c : Command) (s : State) : doAct .sendRegClearIdx c s =
    (primWriteDr c.reg s).map fun u => { u with e := { u.e with idx := some 0 } } := by
  cases h : primWriteDr c.reg s <;> simp [doAct, h, bind, Except.bind, Except.map]

/-- Settles O23: the action of a primitive row is the instruction (`exec_primitiveOf`); the two rows that also set
counters are the same with the counters set. -/
theorem sequencerIssuesPrimitives : Obligations.SequencerIssuesPrimitives := by
  refine ⟨fun s c row i hc hrow hi => ?primitive, fun s c hc hop hpc => ?registerByte,
    fun s c hc hop hpc => ⟨_, rfl, ?clearAddrR⟩⟩
  case primitive =>
    obtain ⟨hd, hexec⟩ := exec_primitiveOf hi
    rw [engineStep_row hc hrow, hexec]
    exact ⟨fun u hu => runRow_of_ok hd (outcomeOf_next hu), fun f hf => runRow_of_error hd (outcomeOf_fault hf),
      outcomeOf_ne_refused _⟩
  case registerByte =>
    have hrow : stepTable c.op s.e.pc = some ⟨.sendRegClearIdx, .goto .regTxeWait⟩ := by rw [hop, hpc]; rfl
    rw [engineStep_row hc hrow]
    constructor
    · intro u hu
      have hw := execWriteDr_next_iff.1 hu
      obtain ⟨-, he, -⟩ := primWriteDr_sameOutside hw
      rw [runRow_of_ok (by rfl) ((doAct_sendRegClearIdx c s).trans (by rw [hw]; rfl)), advance_goto, ← he]
      rfl
    · intro f hf
      exact runRow_of_error (by rfl) ((doAct_sendRegClearIdx c s).trans (by rw [outcomeOf_fault hf]; rfl))
  case clearAddrR =>
    have hrow : stepTable c.op s.e.pc = some ⟨.clearAddrInitCount, .goto .loop⟩ := by rw [hop, hpc]; rfl
    rw [engineStep_row hc hrow]
    rfl

/-! ## One poll (R90, R91) -/

/-- The read of a poll is an instruction of its own, and leaves the engine alone. -/
theorem exec_pollInstr (w : WaitCond) (s : State) :
    exec (pollInstr w) s = .next (pollOnce w s).2 ∧ (pollOnce w s).2.e = s.e ∧ (pollOnce w s).2.params = s.params := by
  cases w <;> exact ⟨rfl, rfl, rfl⟩

section
variable {w : WaitCond} {k : Succ} {c : Command} {s : State}

theorem poll_satisfied (h : w.holds s.p = true) :
    poll w k c s = advance k c ((pollOnce w s).2.setPolls 0) := by
  simp [poll, pollOnce_eq, h]

theorem poll_missed (h : w.holds s.p = false) : poll w k c s = .next (pollMissed w (pollOnce w s).2) := by
  simp [poll, pollOnce_eq, h]

theorem pollMissed_spin (h : s.params.policy = .spin) : pollMissed w s = s := by
  simp [pollMissed, h]

theorem pollMissed_counts (h : s.params.policy = .bounded) (hp : s.e.polls + 1 ≠ s.params.timeoutPolls) :
    pollMissed w s = s.setPolls (s.e.polls + 1) := by
  simp [pollMissed, h, hp]

theorem pollMissed_expires (h : s.params.policy = .bounded) (hp : s.e.polls + 1 = s.params.timeoutPolls) :
    pollMissed w s = takeAbort w.expiry s := by
  simp [pollMissed, h, hp]

end

/-- Settles O24: the classes and conditions are the definitions; a poll by its four cases. -/
theorem pollLaw : Obligations.PollLaw := by
  refine ⟨by decide, fun p => ⟨rfl, rfl, rfl, rfl, rfl, rfl⟩, ⟨rfl, fun w hw => ?_⟩, fun s c w k hc hrow => ?_⟩
  · cases w
    case notBusy => exact absurd rfl hw
    all_goals rfl
  · obtain ⟨hread, he, hparams⟩ := exec_pollInstr w s
    rw [engineStep_row hc hrow, runRow_wait]
    refine ⟨_, hread, fun hholds => poll_satisfied hholds, fun hholds hpol => ?_, fun hholds hpol hp => ?_,
      fun hholds hpol hp => ?_⟩ <;> rw [poll_missed hholds]
    · rw [pollMissed_spin (by rw [hparams, hpol])]
    · rw [pollMissed_counts (by rw [hparams, hpol]) (by rw [he, hparams]; exact hp), ← he]
      rfl
    · rw [pollMissed_expires (by rw [hparams, hpol]) (by rw [he, hparams]; exact hp)]
      rfl

/-! ## Failing and returning (R86, R128, R129) -/

/-- Settles O25: `ABORT` and `DONE` are steps of their own; `DONE` keeps a result that is set. -/
theorem abortAndDone : Obligations.AbortAndDone := by
  refine fun s => ⟨fun hpc => engineStep_abort hpc, fun hpc hr => ?_, fun hpc hr => ?_⟩ <;> rw [engineStep_done hpc]
  · simp [doneStep, hr]
  · obtain ⟨r, hr⟩ := Option.ne_none_iff_exists'.1 hr
    simp [doneStep, hr]

/-! ## The acknowledge policy (R95, R149) -/

/-- The word of another primitive is no `SET_ACK`. -/
theorem setAck_of_word {i : Instr} {w : PrimWord} {e : Bool} (hw : encode i = .prim w)
    (h : decode (.prim w) = .instr (.setAck e)) : i = .setAck e := by
  rw [← hw, decode_encode] at h
  exact Decoded.instr.inj h

/-- From `s` to `t` the trace `T` stays, or grows by a primitive that is no `SET_ACK`. -/
def NoSetAck (s t : State) : Prop :=
  t.primTrace = s.primTrace ∨
    ∃ i w ret, (∀ e, i ≠ .setAck e) ∧ encode i = .prim w ∧ t.primTrace = s.primTrace ++ [⟨w, ret⟩]

/-- Such a step leaves no `SET_ACK` in `T`. -/
theorem NoSetAck.not_setAck {s t : State} {r : PrimRecord} {e : Bool} (h : NoSetAck s t)
    (hT : t.primTrace = s.primTrace ++ [r]) : decode (.prim r.word) ≠ .instr (.setAck e) := by
  intro hdec
  obtain hkept | ⟨i, w, ret, hi, hw, hT'⟩ := h
  · simp [hkept] at hT
  · rw [hT', List.append_cancel_left_eq] at hT
    cases hT
    exact hi e (setAck_of_word hw hdec)

theorem NoSetAck.congr_right {s t u : State} (h : NoSetAck s t) (hT : u.primTrace = t.primTrace) : NoSetAck s u := by
  unfold NoSetAck at *
  rwa [hT]

theorem NoSetAck.of_exec {i : Instr} {w : PrimWord} {s t : State} (hi : ∀ e, i ≠ .setAck e) (hw : encode i = .prim w)
    (h : exec i s = .next t) : NoSetAck s t := by
  obtain ⟨ret, hT⟩ := exec_prim_record hw h
  exact .inr ⟨i, w, ret, hi, hw, hT⟩

theorem primWriteDr_noSetAck {b : Byte} {s t : State} (h : primWriteDr b s = .ok t) : NoSetAck s t :=
  .of_exec (i := .writeDr b) (by simp) rfl (execWriteDr_next_iff.2 h)

theorem primReadDr_noSetAck {v : Byte} {s t : State} (h : primReadDr s = .ok (v, t)) : NoSetAck s t :=
  .of_exec (i := .readDr) (by simp) rfl (execReadDr_next_iff.2 ⟨v, h⟩)

/-- Of the actions of the step tables two issue `SET_ACK`. -/
theorem doAct_setAck {a : Act} {c : Command} {s t : State} (h : doAct a c s = .ok t) :
    NoSetAck s t ∨ (a = .ackOff ∧ t = primSetAck false s) ∨
      (a = .ackIfMany ∧ t = primSetAck (decide (c.len > 1)) s) := by
  cases a <;> simp only [doAct] at h
  case ackOff => cases h; exact .inr (.inl ⟨rfl, rfl⟩)
  case ackIfMany => cases h; exact .inr (.inr ⟨rfl, rfl⟩)
  case issueStart => cases h; exact .inl (.of_exec (i := .issueStart) (by simp) rfl rfl)
  case issueStop => cases h; exact .inl (.of_exec (i := .issueStop) (by simp) rfl rfl)
  case clearAddr | clearAddrInitCount =>
    cases h
    exact .inl ((NoSetAck.of_exec (i := .readStatus2) (t := (primReadStatus2 s).2) (by simp) rfl rfl).congr_right rfl)
  case sendAddr | sendReg | sendData => exact .inl (primWriteDr_noSetAck h)
  case sendProbe =>
    cases hn : s.e.sa with
    | none => rw [hn] at h; cases h
    | some n =>
      rw [hn] at h
      exact .inl (primWriteDr_noSetAck h)
  case sendRegClearIdx =>
    cases hu : primWriteDr c.reg s with
    | error f => rw [hu] at h; cases h
    | ok u =>
      rw [hu] at h
      cases h
      exact .inl ((primWriteDr_noSetAck hu).congr_right rfl)
  case sendBuf =>
    obtain ⟨i, b, u, -, -, hu, rfl⟩ := actSendBuf_ok h
    exact .inl ((primWriteDr_noSetAck hu).congr_right rfl)
  case captureRdata =>
    obtain ⟨v, u, hu, rfl⟩ := actCaptureRdata_ok h
    exact .inl ((primReadDr_noSetAck hu).congr_right rfl)
  case captureBuf =>
    obtain ⟨i, r, v, u, w, -, -, hu, hw, rfl⟩ := actCaptureBuf_ok h
    obtain ⟨-, rfl⟩ := bufWrite_ok hw
    exact .inl ((primReadDr_noSetAck hu).congr_right rfl)
  case inspect =>
    obtain ⟨n, -, rfl⟩ := actInspect_ok h
    exact .inl ((NoSetAck.of_exec (i := .readStatus) (t := (primReadStatus s).2) (by simp) rfl rfl).congr_right rfl)
  case nextProbe =>
    cases hn : s.e.sa with
    | none => rw [hn] at h; cases h
    | some n =>
      rw [hn] at h
      cases h
      exact .inl (.inl rfl)
  case scanInit | test | wait | settle => cases h; exact .inl (.inl rfl)

theorem pollOnce_noSetAck (w : WaitCond) (s : State) : NoSetAck s (pollOnce w s).2 := by
  obtain ⟨hread, -⟩ := exec_pollInstr w s
  cases w <;> exact .of_exec (by simp [pollInstr]) rfl hread

theorem poll_noSetAck {w : WaitCond} {k : Succ} {c : Command} {s t : State} (h : poll w k c s = .next t) :
    NoSetAck s t := by
  have hread := pollOnce_noSetAck w s
  unfold poll at h
  split at h
  · obtain ⟨l, -, rfl⟩ := advance_next h
    exact hread.congr_right rfl
  · cases h
    obtain ⟨-, hm⟩ | ⟨-, -, hm⟩ | ⟨-, -, hm⟩ := pollMissed_cases w (pollOnce w s).2 <;> rw [hm] <;>
      exact hread.congr_right rfl

theorem settleStep_noSetAck {k : Succ} {c : Command} {s t : State} (h : settleStep k c s = .next t) :
    NoSetAck s t := by
  unfold settleStep at h
  split at h
  · obtain ⟨l, -, rfl⟩ := advance_next h
    exact .inl rfl
  · cases h
    exact .inl rfl

/-- An engine step that issues `SET_ACK` is a row with one of the two actions that do, and moves to its successor. -/
theorem engineStep_setAck {s t : State} {r : PrimRecord} {e : Bool} (h : engineStep s = .next t)
    (hT : t.primTrace = s.primTrace ++ [r]) (hr : decode (.prim r.word) = .instr (.setAck e)) :
    ∃ c row, s.e.cmd = some c ∧ stepTable c.op s.e.pc = some row ∧
      succLabel row.succ c (primSetAck e s) = .ok t.e.pc ∧
      ((row.act = .ackOff ∧ e = false) ∨ (row.act = .ackIfMany ∧ e = decide (c.len > 1))) := by
  have absurdNo (hno : NoSetAck s t) : False := hno.not_setAck hT hr
  obtain ⟨-, rfl⟩ | ⟨-, rfl⟩ | ⟨-, rfl⟩ | ⟨c, row, hc, hrow, h⟩ := engineStep_cases h
  · exact (absurdNo (.inl rfl)).elim
  · have hstop : NoSetAck s (primIssueStop s) := .of_exec (i := .issueStop) (by simp) rfl rfl
    exact (absurdNo (hstop.congr_right rfl)).elim
  · exact (absurdNo (.inl rfl)).elim
  obtain ⟨w, -, hpoll⟩ | ⟨-, hsettle⟩ | ⟨u, l, -, hu, hl, rfl⟩ := runRow_cases h
  · exact (absurdNo (poll_noSetAck hpoll)).elim
  · exact (absurdNo (settleStep_noSetAck hsettle)).elim
  have issued (e' : Bool) (hu : u = primSetAck e' s) : e = e' := by
    subst hu
    rw [show r = ackRecord e' from (List.cons.inj (List.append_cancel_left hT)).1.symm] at hr
    have hw := setAck_of_word (i := .setAck e') rfl hr
    exact (Instr.setAck.inj hw).symm
  obtain hno | ⟨ha, rfl⟩ | ⟨ha, rfl⟩ := doAct_setAck hu
  · exact (absurdNo (hno.congr_right rfl)).elim
  · obtain rfl := issued _ rfl
    exact ⟨c, row, hc, hrow, hl, .inl ⟨ha, rfl⟩⟩
  · obtain rfl := issued _ rfl
    exact ⟨c, row, hc, hrow, hl, .inr ⟨ha, rfl⟩⟩

/-- The rows that issue `SET_ACK` (R95, R149). -/
theorem stepTable_ack {op : Op} {l : Label} {row : Row} (h : stepTable op l = some row) :
    (row.act = .ackOff →
      (op = .readByte ∧ l = .disableAck ∧ row.succ = .goto .clearAddr) ∨
      (op = .readMemoryByte ∧ l = .disableAck ∧ row.succ = .goto .clearAddrR) ∨
      (op = .readMemoryMulti ∧ l = .disableAck ∧ row.succ = .goto .stop)) ∧
    (row.act = .ackIfMany → op = .readMemoryMulti ∧ l = .initAck ∧ row.succ = .goto .clearAddrR) := by
  cases op <;> cases l <;>
    simp [stepTable, scanTable, writeByteTable, writeMemoryByteTable, readByteTable, readMemoryByteTable,
      readMemoryMultiTable, writeMemoryMultiTable] at h <;>
    subst h <;> simp

/-- In the invariant one byte remains where the multi-byte read gives up the acknowledge (R88, R115). -/
theorem rem_of_inv_disableAck {s : State} {c : Command} (hinv : s.inv = true) (hc : s.e.cmd = some c)
    (hop : c.op = .readMemoryMulti) (hpc : s.e.pc = .disableAck) : s.e.rem = some 1 := by
  have hcmd : commandInv s = true := by
    simp only [State.inv, Bool.and_eq_true] at hinv
    tauto
  have hcount : countInv .disableAck c.len s.e = true := by
    simp only [commandInv, hc, hpc, counterInv, hop, multiReadInv, Bool.and_eq_true] at hcmd
    tauto
  unfold countInv at hcount
  split at hcount
  · rename_i r i hr hi
    simp only [Bool.and_eq_true, decide_eq_true_eq] at hcount
    rw [hr, hcount.2]
  · cases hcount

/-- An engine step issues at most one primitive, and writes Acknowledge Control with a `SET_ACK` alone. -/
theorem engineStep_atMostOnePrim {s t : State} (h : engineStep s = .next t) : AtMostOnePrim s t := by
  by_cases hpc : s.e.pc = .idle
  · rw [engineStep, hpc] at h
    cases h
    exact AtMostOnePrim.refl s
  · exact turn_atMostOnePrim ((if_neg hpc).trans h)

/-- Settles O30: a `SET_ACK` in `T` is one of the rows that issue it (`engineStep_setAck`, `stepTable_ack`), and the bit
changes only with one (`engineStep_atMostOnePrim`). -/
theorem acknowledgePolicy : Obligations.AcknowledgePolicy := by
  refine ⟨fun s t r e h hT hr => ?_, fun s t h hack => ?_⟩
  · obtain ⟨c, row, hc, hrow, hl, hact⟩ := engineStep_setAck h hT hr
    obtain ⟨hoff, hmany⟩ := stepTable_ack hrow
    refine ⟨c, hc, ?_⟩
    obtain ⟨ha, rfl⟩ | ⟨ha, rfl⟩ := hact
    · obtain ⟨hop, hpc, hsucc⟩ | ⟨hop, hpc, hsucc⟩ | ⟨hop, hpc, hsucc⟩ := hoff ha <;>
        rw [hsucc] at hl <;> have hl := Except.ok.inj hl
      · exact .inl ⟨hop, hpc, rfl, hl.symm⟩
      · exact .inr (.inl ⟨hop, hpc, rfl, hl.symm⟩)
      · exact .inr (.inr (.inr ⟨hop, hpc, rfl, hl.symm, fun hinv => rem_of_inv_disableAck hinv hc hop hpc⟩))
    · obtain ⟨hop, hpc, hsucc⟩ := hmany ha
      rw [hsucc] at hl
      exact .inr (.inr (.inl ⟨hop, hpc, rfl, (Except.ok.inj hl).symm⟩))
  · obtain ⟨-, hkept⟩ | ⟨r, hT, hr⟩ := engineStep_atMostOnePrim h
    · exact absurd hkept hack
    · refine ⟨r, hT, ?_⟩
      rw [hr hack]
      exact decode_encode (.setAck t.p.ackEn)

end Sys2Proof.Machine
end

section
/-! The statements of 42_phase_sequencer.md and 90_conflicts.md C6 on the two wait policies: SPIN gives no command a
result of its own, and the policies differ only where a wait expires. -/

namespace Sys2Proof.Machine

open Sys2Proof

/-! ## Under SPIN no wait expires (R92, R127) -/

/-- From `s` to `t` the result is kept, cleared, or set to `OK` or `REJECTED`, and `ABORT` is not entered. -/
def NoExpiry (s t : State) : Prop :=
  (t.result = s.result ∨ t.result = none ∨ t.result = some .ok ∨ t.result = some .rejected) ∧
    (t.e.pc = .abort → s.e.pc = .abort)

theorem NoExpiry.of_kept {s t : State} (hr : t.result = s.result) (hpc : t.e.pc = s.e.pc) : NoExpiry s t :=
  ⟨.inl hr, fun h => hpc ▸ h⟩

/-- An action of a step table touches neither the result nor the label. -/
theorem doAct_result_pc {a : Act} {c : Command} {s t : State} (h : doAct a c s = .ok t) :
    t.result = s.result ∧ t.e.pc = s.e.pc := by
  have write {b : Byte} {u : State} (hu : primWriteDr b s = .ok u) : u.result = s.result ∧ u.e.pc = s.e.pc := by
    obtain ⟨-, rfl⟩ | ⟨-, -, rfl⟩ := primWriteDr_cases hu <;> exact ⟨rfl, rfl⟩
  cases a <;> simp only [doAct] at h
  case sendAddr | sendReg | sendData => exact write h
  case sendProbe =>
    cases hn : s.e.sa with
    | none => rw [hn] at h; cases h
    | some n =>
      rw [hn] at h
      exact write h
  case sendRegClearIdx =>
    cases hu : primWriteDr c.reg s with
    | error f => rw [hu] at h; cases h
    | ok u =>
      rw [hu] at h
      cases h
      exact (write hu :)
  case sendBuf =>
    obtain ⟨i, b, u, -, -, hu, rfl⟩ := actSendBuf_ok h
    exact (write hu :)
  case captureRdata =>
    obtain ⟨v, u, hu, rfl⟩ := actCaptureRdata_ok h
    obtain ⟨-, rfl⟩ := primReadDr_cases hu
    exact ⟨rfl, rfl⟩
  case captureBuf =>
    obtain ⟨i, r, v, u, w, -, -, hu, hw, rfl⟩ := actCaptureBuf_ok h
    obtain ⟨-, rfl⟩ := bufWrite_ok hw
    obtain ⟨-, rfl⟩ := primReadDr_cases hu
    exact ⟨rfl, rfl⟩
  case inspect =>
    obtain ⟨n, -, rfl⟩ := actInspect_ok h
    exact ⟨rfl, rfl⟩
  case nextProbe =>
    cases hn : s.e.sa with
    | none => rw [hn] at h; cases h
    | some n =>
      rw [hn] at h
      cases h
      exact ⟨rfl, rfl⟩
  case issueStart | issueStop | clearAddr | clearAddrInitCount | ackOff | ackIfMany | scanInit | test | wait | settle =>
    cases h
    exact ⟨rfl, rfl⟩

theorem stepTable_targets {op : Op} {l : Label} {row : Row} (h : stepTable op l = some row) :
    ∀ m ∈ row.succ.targets, m ≠ .idle ∧ m ≠ .abort := by
  have hall : everyRow (fun _ _ row => row.succ.targets.all fun m =>
    decide (m ≠ .idle) && decide (m ≠ .abort)) = true := by
    decide
  simpa using of_everyRow hall h

theorem pollOnce_result (w : WaitCond) (s : State) : (pollOnce w s).2.result = s.result := by
  cases w <;> rfl

theorem runRow_noExpiry {op : Op} {row : Row} {c : Command} {s t : State} (hpol : s.params.policy = .spin)
    (hrow : stepTable op s.e.pc = some row) (h : runRow row c s = .next t) : NoExpiry s t := by
  have moved {u : State} {l : Label} (hr : u.result = s.result) (hl : succLabel row.succ c u = .ok l) :
      NoExpiry s (u.setPc l) :=
    ⟨.inl hr, fun hpc => absurd hpc (stepTable_targets hrow l (succLabel_mem hl)).2⟩
  obtain ⟨w, -, hpoll⟩ | ⟨-, hsettle⟩ | ⟨u, l, -, hu, hl, rfl⟩ := runRow_cases h
  · obtain ⟨-, he, hparams⟩ := exec_pollInstr w s
    unfold poll at hpoll
    split at hpoll
    · obtain ⟨l, hl, rfl⟩ := advance_next hpoll
      exact moved (pollOnce_result w s) hl
    · cases hpoll
      rw [pollMissed_spin (by rw [hparams, hpol])]
      exact .of_kept (pollOnce_result w s) (by rw [he])
  · unfold settleStep at hsettle
    split at hsettle
    · obtain ⟨l, hl, rfl⟩ := advance_next hsettle
      exact moved rfl hl
    · cases hsettle
      exact .of_kept rfl rfl
  · exact moved (doAct_result_pc hu).1 hl

theorem engineStep_noExpiry {s t : State} (hpol : s.params.policy = .spin) (h : engineStep s = .next t) :
    NoExpiry s t := by
  obtain ⟨-, rfl⟩ | ⟨hpc, rfl⟩ | ⟨-, rfl⟩ | ⟨c, row, -, hrow, h⟩ := engineStep_cases h
  · exact .of_kept rfl rfl
  · exact ⟨.inl rfl, fun _ => hpc⟩
  · refine ⟨?_, fun h => by cases h⟩
    cases hr : s.result <;> simp [doneStep, hr]
  · exact runRow_noExpiry hpol hrow h

/-- A command's label is never `ABORT` at first. -/
theorem Op.firstLabel_ne_abort (op : Op) : op.firstLabel ≠ .abort := by cases op <;> decide

theorem rejectWord_noExpiry {s t : State} (h : rejectWord s = .next t) : NoExpiry s t := by
  cases gated_next h
  exact ⟨.inr (.inr (.inr rfl)), id⟩

theorem exec_noExpiry {i : Instr} {s t : State} (h : exec i s = .next t) : NoExpiry s t := by
  cases hw : encode i with
  | prim w =>
    obtain ⟨q, ret, rfl⟩ := exec_prim_next hw h
    exact .of_kept rfl rfl
  | cmd w =>
    obtain ⟨op, -, -, hexec⟩ := exec_command hw
    rw [hexec] at h
    have h := gated_next h
    split at h <;> cases h
    · exact ⟨.inr (.inr (.inr rfl)), id⟩
    · exact ⟨.inr (.inl rfl), fun hpc => absurd hpc op.firstLabel_ne_abort⟩

theorem runWord_noExpiry {w : InstrWord} {s t : State} (h : runWord w s = .next t) : NoExpiry s t := by
  unfold runWord at h
  split at h
  · exact exec_noExpiry h
  · exact rejectWord_noExpiry h
  · exact rejectWord_noExpiry h
  · cases h
  · cases h

theorem initCall_noExpiry {s t : State} (h : initCall s = .next t) : NoExpiry s t := by
  unfold initCall at h
  split at h <;> cases h
  exact .of_kept rfl rfl

theorem turn_noExpiry {s t : State} (hpol : s.params.policy = .spin) (h : turn s = .next t) : NoExpiry s t := by
  unfold turn callerStep at h
  split at h
  · split at h
    · cases h; exact .of_kept rfl rfl
    · exact (initCall_noExpiry h :)
    · exact (runWord_noExpiry h :)
  · exact engineStep_noExpiry hpol h

theorem step_noExpiry {s t : State} (hpol : s.params.policy = .spin) (h : step s = .next t) : NoExpiry s t := by
  obtain ⟨l, rest, -, hl⟩ | ⟨w, rest, -, hw⟩ | ⟨u, hu, hmove⟩ := step_cases s
  · rw [hl] at h
    cases h
    exact ⟨.inr (.inl rfl), fun hpc => by cases hpc⟩
  · rw [hw] at h
    exact (runWord_noExpiry h :)
  · obtain ⟨sc, n, w, d, rfl⟩ := hu.eq_rescheduled
    obtain ⟨k, -, -, hk⟩ | ht := hmove
    · rw [hk] at h
      obtain ⟨⟨he, hr, -⟩, -⟩ := envStep_next h
      exact .of_kept hr (by rw [he])
    · rw [ht] at h
      exact (turn_noExpiry (by exact hpol) h :)

/-- Settles O42: no step under SPIN sets a class of expiry (`step_noExpiry`). -/
theorem spinNeverExpires : Obligations.SpinNeverExpires := by
  intro s t hpol h
  obtain ⟨hr, hpc⟩ := step_noExpiry hpol h
  refine ⟨fun hset => ?_, hpc⟩
  obtain hr | hr | hr | hr := hr
  · exact hr
  all_goals simp [hr] at hset

/-! ## The policies agree until a wait expires (C6) -/

/-- An action does to the state under SPIN what it does to the state itself. -/
theorem doAct_asSpin {a : Act} {c : Command} {s t : State} (h : doAct a c s = .ok t) :
    doAct a c s.asSpin = .ok t.asSpin := by
  have write {b : Byte} {u : State} (hu : primWriteDr b s = .ok u) : primWriteDr b s.asSpin = .ok u.asSpin := by
    obtain ⟨hm, rfl⟩ | ⟨hm, hd, rfl⟩ := primWriteDr_cases hu
    · simp only [primWriteDr, show s.asSpin.p = s.p from rfl, hm]
      rfl
    · simp only [primWriteDr, show s.asSpin.p = s.p from rfl, hm, hd, if_true]
      rfl
  have read {v : Byte} {u : State} (hu : primReadDr s = .ok (v, u)) : primReadDr s.asSpin = .ok (v, u.asSpin) := by
    obtain ⟨hd, rfl⟩ := primReadDr_cases hu
    simp only [primReadDr, show s.asSpin.p = s.p from rfl, hd]
    rfl
  have regs : s.asSpin.e.sa = s.e.sa ∧ s.asSpin.e.idx = s.e.idx ∧ s.asSpin.e.rem = s.e.rem := ⟨rfl, rfl, rfl⟩
  obtain ⟨hsa, hidx, hrem⟩ := regs
  cases a <;> simp only [doAct] at h ⊢
  case sendAddr | sendReg | sendData => exact write h
  case sendProbe =>
    cases hn : s.e.sa with
    | none => rw [hn] at h; cases h
    | some n =>
      rw [hn] at h
      rw [hsa, hn]
      exact write h
  case sendRegClearIdx =>
    cases hu : primWriteDr c.reg s with
    | error f => rw [hu] at h; cases h
    | ok u =>
      rw [hu] at h
      cases h
      rw [write hu]
      rfl
  case sendBuf =>
    obtain ⟨i, b, u, hi, hb, hu, rfl⟩ := actSendBuf_ok h
    simp only [actSendBuf, hidx, hi, readWritten_some, bind, Except.bind,
      show bufRead c.buf i s.asSpin = .ok b from hb, write hu]
    rfl
  case captureRdata =>
    obtain ⟨v, u, hu, rfl⟩ := actCaptureRdata_ok h
    simp only [actCaptureRdata, bind, Except.bind, read hu]
    rfl
  case captureBuf =>
    obtain ⟨i, r, v, u, w, hi, hr, hu, hw, rfl⟩ := actCaptureBuf_ok h
    obtain ⟨hsize, rfl⟩ := bufWrite_ok hw
    simp only [actCaptureBuf, hidx, hrem, hi, hr, readWritten_some, bind, Except.bind, read hu, bufWrite, hsize, if_true]
    rfl
  case inspect =>
    obtain ⟨n, hn, rfl⟩ := actInspect_ok h
    have hread : readWritten s.asSpin.e.sa = .ok n := (readWritten_ok_iff ..).2 hn
    simp only [actInspect, hread, bind, Except.bind]
    rfl
  case nextProbe =>
    cases hn : s.e.sa with
    | none => rw [hn] at h; cases h
    | some n =>
      rw [hn] at h
      cases h
      rw [hsa, hn]
      rfl
  case issueStart | issueStop | clearAddr | clearAddrInitCount | ackOff | ackIfMany | scanInit | test | wait | settle =>
    cases h
    rfl

theorem succLabel_asSpin (k : Succ) (c : Command) (s : State) : succLabel k c s.asSpin = succLabel k c s := by
  cases k <;> rfl

theorem pollOnce_asSpin (w : WaitCond) (s : State) :
    pollOnce w s.asSpin = ((pollOnce w s).1, (pollOnce w s).2.asSpin) := by
  cases w <;> rfl

theorem advance_of_succLabel {k : Succ} {c : Command} {s : State} {l : Label} (h : succLabel k c s = .ok l) :
    advance k c s = .next (s.setPc l) := by
  simp [advance, h]

theorem advance_asSpin {k : Succ} {c : Command} {s t : State} (h : advance k c s = .next t) :
    advance k c s.asSpin = .next t.asSpin := by
  obtain ⟨l, hl, rfl⟩ := advance_next h
  exact advance_of_succLabel ((succLabel_asSpin k c s).trans hl)

/-- A poll that does not expire is the poll under SPIN, but for the counter. -/
theorem poll_asSpin {w : WaitCond} {k : Succ} {c : Command} {s t : State} (h : poll w k c s = .next t)
    (habort : t.e.pc ≠ .abort) : poll w k c s.asSpin = .next t.asSpin := by
  unfold poll at h ⊢
  rw [pollOnce_asSpin]
  dsimp only
  split at h
  · rename_i hsat
    rw [if_pos hsat]
    exact (advance_asSpin h :)
  · rename_i hmiss
    rw [if_neg hmiss]
    cases h
    rw [pollMissed_spin (by rfl)]
    obtain ⟨-, hm⟩ | ⟨-, -, hm⟩ | ⟨-, -, hm⟩ := pollMissed_cases w (pollOnce w s).2 <;> rw [hm] at habort ⊢
    · exact absurd rfl habort
    · rfl

theorem runRow_asSpin {row : Row} {c : Command} {s t : State} (h : runRow row c s = .next t)
    (habort : t.e.pc ≠ .abort) : runRow row c s.asSpin = .next t.asSpin := by
  obtain ⟨a, k⟩ := row
  obtain ⟨w, rfl, hpoll⟩ | ⟨rfl, hsettle⟩ | ⟨u, l, hd, hu, hl, rfl⟩ := runRow_cases h
  · exact poll_asSpin hpoll habort
  · rw [runRow_settle]
    unfold settleStep at hsettle ⊢
    split at hsettle
    · rename_i hres
      rw [if_pos (show s.asSpin.p.addrResolved = true from hres)]
      exact advance_asSpin hsettle
    · rename_i hres
      rw [if_neg (show ¬ s.asSpin.p.addrResolved = true from hres)]
      cases hsettle
      rfl
  · rw [runRow_of_ok hd (doAct_asSpin hu)]
    exact advance_of_succLabel ((succLabel_asSpin k c u).trans hl)

theorem engineStep_asSpin {s t : State} (h : engineStep s = .next t) (habort : t.e.pc ≠ .abort) :
    engineStep s.asSpin = .next t.asSpin := by
  obtain ⟨hpc, rfl⟩ | ⟨hpc, rfl⟩ | ⟨hpc, rfl⟩ | ⟨c, row, hc, hrow, h⟩ := engineStep_cases h
  · simp [engineStep, show t.asSpin.e.pc = .idle from hpc]
  · exact engineStep_abort hpc
  · exact engineStep_done hpc
  · exact (engineStep_row (s := s.asSpin) hc hrow).trans (runRow_asSpin h habort)

/-- A primitive on the state under SPIN is the primitive itself. -/
theorem exec_prim_asSpin {i : Instr} {w : PrimWord} {s t : State} (hw : encode i = .prim w) (h : exec i s = .next t) :
    exec i s.asSpin = .next t.asSpin := by
  cases i <;> cases hw
  case issueStart | issueStop | readStatus | readStatus2 | setAck => cases h; rfl
  case writeDr b =>
    have hwrite : doAct .sendData ⟨.scan, 0, 0, b, 0, ⟨0, 0⟩⟩ s = .ok t := execWriteDr_next_iff.1 h
    exact execWriteDr_next_iff.2 (doAct_asSpin hwrite)
  case readDr =>
    obtain ⟨v, hv⟩ := execReadDr_next_iff.1 h
    obtain ⟨hd, rfl⟩ := primReadDr_cases hv
    exact exec_readDr_of_some (s := s.asSpin) hd

theorem gated_asSpin {run : State → Host.Outcome State Fault Refusal} {s t : State}
    (hrun : run s = .next t → run s.asSpin = .next t.asSpin) (h : gated s run = .next t) :
    gated s.asSpin run = .next t.asSpin := by
  obtain ⟨hpc, hinit⟩ := ready_of_gated_next h
  rw [gated_ready (s := s.asSpin) hpc hinit]
  exact hrun (gated_next h)

theorem accept_asSpin {op : Op} {a : Addr7} {r d : Byte} {l : Label} {s t : State}
    (h : accept op a r d l s = .next t) : accept op a r d l s.asSpin = .next t.asSpin := by
  refine gated_asSpin (fun hrun => ?_) h
  rw [show sideOperandsOk s.asSpin = sideOperandsOk s from rfl]
  split at hrun <;> cases hrun
  · rename_i hlen
    rw [if_pos hlen]
    rfl
  · rename_i hlen
    rw [if_neg hlen]
    rfl

theorem exec_asSpin {i : Instr} {s t : State} (h : exec i s = .next t) : exec i s.asSpin = .next t.asSpin := by
  cases hw : encode i with
  | prim w => exact exec_prim_asSpin hw h
  | cmd w =>
    obtain ⟨op, -, -, hexec⟩ := exec_command hw
    rw [hexec] at h ⊢
    exact accept_asSpin h

theorem rejectWord_asSpin {s t : State} (h : rejectWord s = .next t) : rejectWord s.asSpin = .next t.asSpin :=
  gated_asSpin (fun hrun => by cases hrun; rfl) h

theorem runWord_asSpin {w : InstrWord} {s t : State} (h : runWord w s = .next t) :
    runWord w s.asSpin = .next t.asSpin := by
  unfold runWord at h ⊢
  split at h
  · exact exec_asSpin h
  · exact rejectWord_asSpin h
  · exact rejectWord_asSpin h
  · cases h
  · cases h

theorem initCall_asSpin {s t : State} (h : initCall s = .next t) : initCall s.asSpin = .next t.asSpin := by
  unfold initCall at h ⊢
  split at h <;> cases h
  rename_i hinit
  rw [if_neg (show ¬ s.asSpin.p.initialized = true from hinit)]
  rfl

theorem turn_asSpin {s t : State} (h : turn s = .next t) (habort : t.e.pc ≠ .abort) :
    turn s.asSpin = .next t.asSpin := by
  unfold turn at h ⊢
  split at h
  · rename_i hpc
    rw [if_pos (show s.asSpin.e.pc = .idle from hpc)]
    unfold callerStep at h ⊢
    rw [show s.asSpin.calls = s.calls from rfl]
    split at h
    · cases h; rfl
    · exact initCall_asSpin h
    · exact runWord_asSpin h
  · rename_i hpc
    rw [if_neg (show ¬ s.asSpin.e.pc = .idle from hpc)]
    exact engineStep_asSpin h habort

/-! The environment sees neither the policy nor the poll counter. -/

/-- A slave's answer to the state under SPIN is its answer to the state. -/
def AnswersAsSpin {α : Type} (ask : State → α × State) : Prop :=
  ∀ s, ask s.asSpin = ((ask s).1, (ask s).2.asSpin)

theorem drawAck_asSpin : AnswersAsSpin drawAck := by
  intro s
  unfold drawAck
  rw [show s.asSpin.slaves = s.slaves from rfl]
  split <;> rfl

theorem drawByte_asSpin : AnswersAsSpin drawByte := by
  intro s
  unfold drawByte
  rw [show s.asSpin.slaves = s.slaves from rfl]
  split <;> rfl

theorem slaveAddrAck_asSpin (a : Addr7) (d : Dir) : AnswersAsSpin (slaveAddrAck a d) := by
  intro s
  unfold slaveAddrAck
  rw [show s.asSpin.slaves = s.slaves from rfl]
  split
  · split <;> rfl
  · exact drawAck_asSpin s

theorem slaveWrite_asSpin (a : Addr7) (b : Byte) : AnswersAsSpin (slaveWrite a b) := by
  intro s
  unfold slaveWrite
  rw [show s.asSpin.slaves = s.slaves from rfl]
  split
  · split
    · rfl
    · exact drawAck_asSpin s
  · exact drawAck_asSpin s

theorem slaveRead_asSpin (a : Addr7) : AnswersAsSpin (slaveRead a) := by
  intro s
  unfold slaveRead
  rw [show s.asSpin.slaves = s.slaves from rfl]
  split
  · split
    · rfl
    · exact drawByte_asSpin s
  · exact drawByte_asSpin s

theorem targetWrite_asSpin (b : Byte) : AnswersAsSpin (targetWrite b) := by
  intro s
  unfold targetWrite
  rw [show s.asSpin.p = s.p from rfl]
  split
  · exact slaveWrite_asSpin _ b s
  · exact drawAck_asSpin s

theorem targetRead_asSpin : AnswersAsSpin targetRead := by
  intro s
  unfold targetRead
  rw [show s.asSpin.p = s.p from rfl]
  split
  · exact slaveRead_asSpin _ s
  · exact drawByte_asSpin s

theorem envStep_asSpin {k : EnvStep} {s t : State} (h : envStep k s = .next t) :
    envStep k s.asSpin = .next t.asSpin := by
  have hp : s.asSpin.p = s.p := rfl
  cases k <;> simp only [envStep, hp] at h ⊢
  case stop =>
    cases h
    unfold envStop
    rw [hp]
    split <;> rfl
  case start | extBusy => cases h; rfl
  case address =>
    split at h <;> cases h
    · simp only [envAddress, slaveAddrAck_asSpin _ _ s]
      rfl
    · rfl
  case txShift =>
    split at h <;> cases h <;> rfl
  case txDone =>
    split at h <;> cases h
    · simp only [envTxDone, targetWrite_asSpin _ s]
      rfl
    · rfl
  case receive =>
    cases h
    simp only [envReceive, targetRead_asSpin s]
    rfl

/-! The schedule sees the label and the Bus Interface only. -/

/-- The same move of the scheduler, to the state and to the state under SPIN. -/
theorem referenceStep_asSpin {s t : State} (h : referenceStep s = .next t) (habort : t.e.pc ≠ .abort) :
    referenceStep s.asSpin = .next t.asSpin := by
  unfold referenceStep at h ⊢
  rw [show s.asSpin.p = s.p from rfl, show s.asSpin.e.pc = s.e.pc from rfl]
  split
  · rename_i hy
    rw [if_pos hy] at h
    split at h
    · exact envStep_asSpin h
    · exact turn_asSpin h habort
  · rename_i hy
    rw [if_neg hy] at h
    exact turn_asSpin h habort

theorem chosenStep_asSpin {ch : Choice} {s t : State} (h : chosenStep ch s = .next t) (habort : t.e.pc ≠ .abort) :
    chosenStep ch s.asSpin = .next t.asSpin := by
  cases ch with
  | go => exact turn_asSpin h habort
  | env k =>
    simp only [chosenStep] at h ⊢
    rw [show s.asSpin.p = s.p from rfl, show s.asSpin.e.pc = s.e.pc from rfl]
    split at h
    · rename_i hk
      rw [if_pos hk]
      exact envStep_asSpin h
    · rename_i hk
      rw [if_neg hk]
      exact referenceStep_asSpin h habort

theorem unforcedStep_asSpin {s t : State} (h : unforcedStep s = .next t) (habort : t.e.pc ≠ .abort) :
    unforcedStep s.asSpin = .next t.asSpin := by
  by_cases hpc : s.e.pc = .idle
  · rw [unforcedStep_idle hpc] at h
    rw [unforcedStep_idle (s := s.asSpin) hpc]
    exact chosenStep_asSpin h habort
  · cases hp : s.patience with
    | zero =>
      rw [unforcedStep_turn hpc hp] at h
      rw [unforcedStep_turn (s := s.asSpin) hpc hp]
      exact turn_asSpin h habort
    | succ n =>
      rw [unforcedStep_chosen hpc hp] at h
      rw [unforcedStep_chosen (s := s.asSpin) hpc hp]
      exact chosenStep_asSpin h habort

theorem freeStep_asSpin {s t : State} (h : freeStep s = .next t) (habort : t.e.pc ≠ .abort) :
    freeStep s.asSpin = .next t.asSpin := by
  cases hy : s.e.pc.yields with
  | false =>
    rw [freeStep_turn hy] at h
    rw [freeStep_turn (s := s.asSpin) hy]
    exact turn_asSpin h habort
  | true =>
    cases hd : s.due with
    | none =>
      rw [freeStep_none hy hd] at h
      rw [freeStep_none (s := s.asSpin) hy hd]
      exact unforcedStep_asSpin h habort
    | some w =>
      obtain ⟨k, n⟩ := w
      cases n with
      | zero =>
        rw [freeStep_forced hy hd] at h
        rw [freeStep_forced (s := s.asSpin) hy hd]
        exact envStep_asSpin h
      | succ n =>
        rw [freeStep_passed hy hd] at h
        rw [freeStep_passed (s := s.asSpin) hy hd]
        exact unforcedStep_asSpin h habort

/-- Settles O43: the schedule makes the same move in both states, and only an expired poll tells them apart
(`poll_asSpin`). -/
theorem policiesAgreeUntilExpiry : Obligations.PoliciesAgreeUntilExpiry := by
  intro s t h habort
  simp only [step, machineStep] at h ⊢
  rw [show s.asSpin.script = s.script from rfl, show s.asSpin.freeTail = s.freeTail from rfl]
  split at h
  · exact chosenStep_asSpin h habort
  · cases h
    rfl
  · exact runWord_asSpin h
  · split at h
    · rename_i hf
      rw [if_pos hf]
      exact freeStep_asSpin h habort
    · rename_i hf
      rw [if_neg hf]
      exact referenceStep_asSpin h habort

end Sys2Proof.Machine
end

section
/-! Commands to an absent slave under the reference scheduler (R96, R125, R128, R131): the address byte is not
acknowledged, and its wait expires under BOUNDED and polls forever under SPIN. -/

namespace Sys2Proof.Machine

open Sys2Proof

/-! ## Steps of the reference scheduler (R71) -/

theorem step_reference_env {s : State} {k : EnvStep} (hs : s.reference) (hy : s.e.pc.yields = true)
    (hk : firstEnabled s.p = some k) : step s = envStep k s := by
  simp [step_reference hs, referenceStep, hy, hk]

theorem step_reference_turn {s : State} (hs : s.reference) (h : s.e.pc.yields = false ∨ firstEnabled s.p = none) :
    step s = turn s := by
  rw [step_reference hs]
  obtain hy | hk := h
  · simp [referenceStep, hy]
  · exact referenceStep_turn hk

theorem turn_engine {s : State} (h : s.e.pc ≠ .idle) : turn s = engineStep s := if_neg h

theorem pc_ne_idle_of_row {op : Op} {l : Label} {row : Row} (h : stepTable op l = some row) : l ≠ .idle := by
  have hall : everyRow (fun _ l _ => decide (l ≠ .idle)) = true := by decide
  simpa using of_everyRow hall h

theorem step_reference_row {s : State} {c : Command} {row : Row} (hs : s.reference) (hc : s.e.cmd = some c)
    (hrow : stepTable c.op s.e.pc = some row) (h : s.e.pc.yields = false ∨ firstEnabled s.p = none) :
    step s = runRow row c s := by
  rw [step_reference_turn hs h, turn_engine (pc_ne_idle_of_row hrow), engineStep_row hc hrow]

/-! ## A wait that cannot succeed -/

/-- Replaces the primitive trace. -/
def State.setT (s : State) (T : List PrimRecord) : State := { s with primTrace := T }

/-- The engine stands at a wait whose condition does not hold, the environment is at rest, and the read of the poll
has no side effect. -/
def State.stuckAt (s : State) (c : Command) (w : WaitCond) (k : Succ) : Prop :=
  s.reference ∧ s.e.cmd = some c ∧ stepTable c.op s.e.pc = some ⟨.wait w, k⟩ ∧ w.holds s.p = false ∧
    firstEnabled s.p = none ∧ (w = .notBusy → s.p.addr = false)

/-- The read of a poll without side effect leaves its record in `T` and changes nothing else. -/
theorem pollOnce_record {w : WaitCond} {s : State} (h : w = .notBusy → s.p.addr = false) :
    (pollOnce w s).2 = s.setT (s.primTrace ++ [s.pollRecord w s.primTrace.length]) := by
  cases w
  case notBusy =>
    change ((s.setP s.p.clearAddr).record 0x6000 (some s.status2Value)) = _
    rw [Periph.clearAddr_of_clear (h rfl)]
    rfl
  all_goals rfl

/-- `s` after `n` polls that change nothing but `T`. -/
def State.polled (s : State) (w : WaitCond) (n : Nat) : State :=
  s.setT (s.primTrace ++ (List.range n).map fun j => s.pollRecord w (s.primTrace.length + j))

section
variable {s : State} {c : Command} {w : WaitCond} {k : Succ}

theorem step_stuck (h : s.stuckAt c w k) :
    step s = .next (pollMissed w (s.setT (s.primTrace ++ [s.pollRecord w s.primTrace.length]))) := by
  obtain ⟨hs, hc, hrow, hholds, hrest, hread⟩ := h
  rw [step_reference_row hs hc hrow (.inr hrest), runRow_wait, poll_missed hholds, pollOnce_record hread]

/-- Under SPIN a poll adds its record and changes nothing else (R92). -/
theorem step_spin (h : s.stuckAt c w k) (hpol : s.params.policy = .spin) :
    step s = .next (s.setT (s.primTrace ++ [s.pollRecord w s.primTrace.length])) :=
  (step_stuck h).trans (congrArg _ (pollMissed_spin hpol))

theorem runSteps_spin (h : s.stuckAt c w k) (hpol : s.params.policy = .spin) (n : Nat) :
    runSteps n s = .next (s.polled w n) := by
  induction n with
  | zero => simp [State.polled, State.setT]
  | succ n ih =>
    have hnext := step_spin (s := s.polled w n) (c := c) (w := w) (k := k) h hpol
    rw [runSteps_add 1 ih, runSteps_succ 0 hnext]
    simp only [State.polled, State.setT, runSteps_zero, List.range_succ, List.map_append, List.length_append,
      List.length_map, List.length_range, List.map_cons, List.map_nil, List.append_assoc]
    rfl

/-- Under BOUNDED the wait expires after the polls that are left to the bound (R91, R93). -/
theorem runSteps_expires {n : Nat} (h : s.stuckAt c w k) (hpol : s.params.policy = .bounded)
    (hn : s.e.polls + (n + 1) = s.params.timeoutPolls) :
    ∃ T, runSteps (n + 1) s = .next (takeAbort w.expiry (s.setT T)) := by
  induction n generalizing s with
  | zero =>
    have hlast := (step_stuck h).trans (congrArg _ (pollMissed_expires hpol hn))
    exact ⟨_, runSteps_succ 0 hlast⟩
  | succ n ih =>
    have hp : s.e.polls + 1 ≠ s.params.timeoutPolls := by omega
    have hcount := (step_stuck h).trans (congrArg _ (pollMissed_counts hpol hp))
    rw [runSteps_succ _ hcount]
    exact ih (s := (s.setT _).setPolls (s.e.polls + 1)) h hpol
      (show s.e.polls + 1 + (n + 1) = s.params.timeoutPolls by omega)

end

/-! ## The way to the address acknowledge (R85) -/

/-- The direction of an operation's first address byte (R106 to R121). -/
def Op.firstDir : Op → Option Dir
  | .scan => none
  | .readByte => some .read
  | .writeByte | .writeMemoryByte | .readMemoryByte | .readMemoryMulti | .writeMemoryMulti => some .write

/-- The label of an address byte. -/
def addrLabel : Dir → Label
  | .write => .addrWrite
  | .read => .addrRead

/-- The rows of the start and the first address byte, shared by the addressed operations (R85). -/
theorem addressing_rows {op : Op} {d : Dir} (h : op.firstDir = some d) :
    stepTable op .start = some ⟨.issueStart, .goto .startWait⟩ ∧
    stepTable op .startWait = some ⟨.wait .sb, .goto (addrLabel d)⟩ ∧
    stepTable op (addrLabel d) = some ⟨.sendAddr d, .goto .addrAcked⟩ ∧
    (∃ k, stepTable op .addrAcked = some ⟨.wait .addr, k⟩) ∧
    (op.firstLabel = .start ∨
      op.firstLabel = .busFreeWait ∧ stepTable op .busFreeWait = some ⟨.wait .notBusy, .goto .start⟩) := by
  cases op <;> cases h <;> exact ⟨rfl, rfl, rfl, ⟨_, rfl⟩, by decide⟩

theorem addrLabel_not_yields (d : Dir) : (addrLabel d).yields = false := by cases d <;> rfl

/-- The Bus Interface with the bus free and nothing pending. -/
def Periph.free (p : Periph) : Prop :=
  p.mode = .pIdle ∧ p.owner = false ∧ p.extBusy = false ∧ p.busy = false ∧ p.reqStart = false ∧ p.reqStop = false

theorem Periph.free.firstEnabled {p : Periph} (h : p.free) : firstEnabled p = none := by
  obtain ⟨hmode, -, -, -, hstart, hstop⟩ := h
  simp [Machine.firstEnabled, envEnabled, hmode, hstart, hstop, PMode.isAddr]

/-- Clearing a stale `ADDR` while the bus is free changes nothing else (R68). -/
theorem Periph.free.clearAddr {p : Periph} (h : p.free) : p.clearAddr = { p with addr := false } := by
  cases haddr : p.addr with
  | false => rw [Periph.clearAddr_of_clear haddr, ← haddr]
  | true => exact Periph.clearAddr_of_not_waiting haddr (by simp [h.1]) (by simp [h.1])

/-- What a start makes of the Bus Interface (R75). -/
def Periph.started (p : Periph) : Periph :=
  { p with
    owner := true, busy := true, sb := true, reqStart := false, mode := .pStart, txe := false, btf := false,
    addr := false, rxne := false, drTx := none, shift := none, target := none }

/-- What a start and an address byte without an acknowledge make of it (R75, R65, R76). -/
def Periph.refused (p : Periph) : Periph :=
  { p.started with sb := false, addrResolved := true, mode := .pNacked }

/-- `s` at a label of its command, the transaction so far on the bus. -/
def State.onBus (s : State) (l : Label) (p : Periph) (evs : List BusEvent) (T : List PrimRecord) : State :=
  { s with e := { s.e with pc := l, polls := 0 }, p := p, busTrace := s.busTrace ++ evs, primTrace := T }

section
variable {s : State} {c : Command} {d : Dir} (hs : s.reference) (hc : s.e.cmd = some c) (hd : c.op.firstDir = some d)
include hs hc hd

/-- With the bus free, the start is generated and seen, and the address byte is next. -/
theorem runSteps_start (hpc : s.e.pc = .start) (hfree : s.p.free) :
    ∃ T, runSteps 3 s = .next (s.onBus (addrLabel d) s.p.started [.S] T) := by
  obtain ⟨hstart, hwait, -⟩ := addressing_rows hd
  obtain ⟨hmode, howner, hext, -, -, hstop⟩ := hfree
  have hrequest : step s = .next ((primIssueStart s).setPc .startWait) :=
    (step_reference_row hs hc (hpc ▸ hstart) (.inl (by rw [hpc]; rfl))).trans (runRow_of_ok rfl rfl)
  have hS : step ((primIssueStart s).setPc .startWait) =
      .next ((((primIssueStart s).setPc .startWait).setP s.p.started).emit .S) := by
    rw [step_reference_env (s := (primIssueStart s).setPc .startWait) (k := .start) hs rfl
      (by simp [primIssueStart, firstEnabled, envEnabled, Periph.quiet, hmode, howner, hext, hstop])]
    simp [envStep, envStart, primIssueStart, Periph.started, howner]
  have hseen := (step_reference_row (s := (((primIssueStart s).setPc .startWait).setP s.p.started).emit .S) hs hc hwait
    (.inr (by simp [Periph.started, firstEnabled, envEnabled, PMode.isAddr, hstop]))).trans (poll_satisfied rfl)
  rw [runSteps_succ _ hrequest, runSteps_succ _ hS, runSteps_succ _ hseen]
  exact ⟨_ ++ _, rfl⟩

/-- The address byte is sent, and no slave acknowledges it. -/
theorem runSteps_address {q : Periph} {present : List MockSlave} (hpc : s.e.pc = addrLabel d) (hp : s.p = q.started)
    (hstop : q.reqStop = false) (hslaves : s.slaves = .mock present) (habsent : s.slaveAt c.addr = none) :
    ∃ T, runSteps 2 s =
      .next { s with
        e := { s.e with pc := .addrAcked }, p := q.refused, busTrace := s.busTrace ++ [.A (addrByte c.addr d) false]
        primTrace := T } := by
  obtain ⟨-, -, hsend, -⟩ := addressing_rows hd
  have hwrite : primWriteDr (addrByte c.addr d) s = .ok ((s.setP { q.started with
      sb := false, addrResolved := false, mode := .pAddr (addrByte c.addr d) }).record
        (primWord 0x3 (addrByte c.addr d)) none) := by
    simp only [primWriteDr, hp]
    rfl
  have hsent := (step_reference_row hs hc (hpc ▸ hsend) (.inl (by rw [hpc]; exact addrLabel_not_yields d))).trans
    (runRow_of_ok (row := ⟨.sendAddr d, .goto .addrAcked⟩) rfl hwrite)
  have hnak (u : State) (hu : u.slaves = s.slaves) :
      slaveAddrAck (addrOfByte (addrByte c.addr d)) (dirOfByte (addrByte c.addr d)) u = (false, u) := by
    rw [show addrOfByte (addrByte c.addr d) = c.addr from addrByte_high c.addr d]
    refine slaveAddrAck_absent (hu.trans hslaves) ?_ _
    rw [slaveAt_mock (hu.trans hslaves), ← slaveAt_mock hslaves, habsent]
  have hrefused := (step_reference_env (s := ((s.setP { q.started with
      sb := false, addrResolved := false, mode := .pAddr (addrByte c.addr d) }).record
        (primWord 0x3 (addrByte c.addr d)) none).setPc .addrAcked) (k := .address) hs rfl
      (by simp [Periph.started, firstEnabled, envEnabled, PMode.isAddr, Periph.quiet, hstop])).trans
    (envStep_address rfl (hnak _ rfl))
  rw [runSteps_succ _ hsent, runSteps_succ _ hrefused]
  exact ⟨_ ++ _, rfl⟩

/-- From the start to the wait for the acknowledge that does not come. -/
theorem runSteps_start_refused {present : List MockSlave} (hpc : s.e.pc = .start) (hfree : s.p.free)
    (hslaves : s.slaves = .mock present) (habsent : s.slaveAt c.addr = none) :
    ∃ k T, runSteps k s = .next (s.onBus .addrAcked s.p.refused [.S, .A (addrByte c.addr d) false] T) := by
  obtain ⟨T, hrun⟩ := runSteps_start hs hc hd hpc hfree
  obtain ⟨-, -, -, -, -, hstop⟩ := hfree
  obtain ⟨T', hrun'⟩ := runSteps_address (s := s.onBus (addrLabel d) s.p.started [.S] T) hs hc hd rfl rfl hstop hslaves
    habsent
  refine ⟨3 + 2, T', ?_⟩
  rw [runSteps_add 2 hrun, hrun']
  simp [State.onBus]

/-- The same from the first label, past the bus-free wait where there is one. -/
theorem runSteps_refused {present : List MockSlave} (hpc : s.e.pc = c.op.firstLabel) (hfree : s.p.free)
    (hslaves : s.slaves = .mock present) (habsent : s.slaveAt c.addr = none) :
    ∃ k T, runSteps k s = .next (s.onBus .addrAcked s.p.refused [.S, .A (addrByte c.addr d) false] T) := by
  obtain ⟨-, -, -, -, hfirst | ⟨hfirst, hrow⟩⟩ := addressing_rows hd
  · exact runSteps_start_refused hs hc hd (hpc.trans hfirst) hfree hslaves habsent
  · have hpc := hpc.trans hfirst
    have hnotBusy : WaitCond.holds .notBusy s.p = true := by
      obtain ⟨-, -, -, hbusy, -⟩ := hfree
      simp [WaitCond.holds, hbusy]
    have hpoll := step_reference_row hs hc (hpc ▸ hrow) (.inr hfree.firstEnabled)
    rw [runRow_wait, poll_satisfied hnotBusy] at hpoll
    simp only [pollOnce_eq, if_true, advance_goto, primReadStatus2, hfree.clearAddr] at hpoll
    obtain ⟨k, T, hrun⟩ := runSteps_start_refused (s := ((((s.setP { s.p with addr := false }).record (primWord 0x6 0)
      (some s.status2Value)).setPolls 0).setPc .start)) hs hc hd rfl hfree hslaves habsent
    exact ⟨k + 1, T, (runSteps_succ k hpoll).trans hrun⟩

end

/-! ## Acceptance of an addressed command -/

/-- The Caller's turn in a ready state latches the command it issues. -/
theorem step_addressed {s : State} {i : Instr} {a : Addr7} {d : Dir} {len : BitVec 32} {buf : BufRef}
    {rest : List Call} (hready : s.ready) (hs : s.reference) (hi : s.issues i len buf rest)
    (haddr : addressedBy i = some (a, d)) (hlen : takesSideOperands i = true → lengthsOk s.params len buf) :
    ∃ c, c.addr = a ∧ c.op.firstDir = some d ∧
      step s = .next (latch c c.op.firstLabel { s with calls := rest, side := ⟨len, buf⟩ }) := by
  obtain ⟨hpc, -, -, hinit, hmode, howner, hext, hbusy, hstart, hstop, -⟩ := hready
  obtain ⟨cw, hcw, hcalls⟩ := hi
  have hfree : s.p.free := ⟨hmode, howner, hext, hbusy, hstart, hstop⟩
  obtain ⟨hissue, -⟩ := stepRunsDecoded
  have hexec := (hissue s cw len buf rest i hpc hcalls (decode_eq_instr_iff.2 hcw)).2 hs.1 hs.2 hfree.firstEnabled
  rw [hexec]
  have latches {op : Op} (r dt : Byte) (hdir : op.firstDir = some d)
      (hop : op.takesBuffer = true → takesSideOperands i = true) : ∃ c : Command, c.addr = a ∧ c.op.firstDir = some d ∧
        accept op a r dt op.firstLabel { s with calls := rest, side := ⟨len, buf⟩ } =
          .next (latch c c.op.firstLabel { s with calls := rest, side := ⟨len, buf⟩ }) :=
    ⟨_, rfl, hdir, accept_latches (s := { s with calls := rest, side := ⟨len, buf⟩ }) hpc hinit
      (fun hb => hlen (hop hb)) ..⟩
  cases i <;> cases haddr
  case writeByte => exact latches (op := .writeByte) _ _ rfl (by simp [Op.takesBuffer])
  case writeMemoryByte => exact latches (op := .writeMemoryByte) _ _ rfl (by simp [Op.takesBuffer])
  case readByte => exact latches (op := .readByte) _ _ rfl (by simp [Op.takesBuffer])
  case readMemoryByte => exact latches (op := .readMemoryByte) _ _ rfl (by simp [Op.takesBuffer])
  case readMemoryMulti => exact latches (op := .readMemoryMulti) _ _ rfl (by simp [takesSideOperands])
  case writeMemoryMulti => exact latches (op := .writeMemoryMulti) _ _ rfl (by simp [takesSideOperands])

/-- `s` waiting for the acknowledge of the first address byte of `c`, which was not acknowledged. -/
def State.unanswered (s : State) (c : Command) (b : Byte) (rest : List Call) (side : SideOperands)
    (T : List PrimRecord) : State :=
  (latch c .addrAcked { s with calls := rest, side := side }).onBus .addrAcked s.p.refused [.S, .A b false] T

/-- A command to an absent slave comes to the wait for its acknowledge. -/
theorem exists_unanswered {s : State} {present : List MockSlave} {i : Instr} {a : Addr7} {d : Dir} {len : BitVec 32}
    {buf : BufRef} {rest : List Call} (hready : s.ready) (hs : s.reference) (hslaves : s.slaves = .mock present)
    (habsent : s.slaveAt a = none) (hi : s.issues i len buf rest) (haddr : addressedBy i = some (a, d))
    (hlen : takesSideOperands i = true → lengthsOk s.params len buf) :
    ∃ c k T K, c.op ≠ .scan ∧ runSteps k s = .next (s.unanswered c (addrByte a d) rest ⟨len, buf⟩ T) ∧
      (s.unanswered c (addrByte a d) rest ⟨len, buf⟩ T).stuckAt c .addr K := by
  obtain ⟨c, rfl, hdir, hlatch⟩ := step_addressed hready hs hi haddr hlen
  obtain ⟨-, -, -, -, hmode, howner, hext, hbusy, hstart, hstop, -⟩ := hready
  have hfree : s.p.free := ⟨hmode, howner, hext, hbusy, hstart, hstop⟩
  obtain ⟨k, T, hrun⟩ := runSteps_refused
    (s := latch c c.op.firstLabel { s with calls := rest, side := ⟨len, buf⟩ }) hs rfl hdir rfl hfree hslaves habsent
  obtain ⟨-, -, -, ⟨K, hrow⟩, -⟩ := addressing_rows hdir
  refine ⟨c, k + 1, T, K, ?_, (runSteps_succ k hlatch).trans hrun, hs, rfl, hrow, rfl, ?_, by simp⟩
  · rintro hscan
    simp [hscan, Op.firstDir] at hdir
  · simp [State.unanswered, State.onBus, Periph.refused, Periph.started, firstEnabled, envEnabled, PMode.isAddr, hstop]

/-! ## The obligations -/

/-- Settles O56: a poll that changes nothing but `T` repeats (`runSteps_spin`), and a command to an absent slave comes
to such a wait (`exists_unanswered`). -/
theorem spinHangsForever : Obligations.SpinHangsForever := by
  refine ⟨fun s c w k hs hpol hc hrow hholds hrest hread => runSteps_spin ⟨hs, hc, hrow, hholds, hrest, hread⟩ hpol,
    fun s present i a d len buf rest hready hs hslaves habsent hi haddr hlen hpol => ?_⟩
  obtain ⟨c, k, T, K, -, hrun, hstuck⟩ := exists_unanswered hready hs hslaves habsent hi haddr hlen
  exact ⟨k, fun j => ⟨_, (runSteps_add j hrun).trans (runSteps_spin hstuck hpol j), rfl, rfl, rfl, rfl⟩⟩

/-- An aborted command issues its stop, returns, and the stop reaches the bus (R128, R74). -/
theorem runSteps_abort {s : State} (hs : s.reference) (hpc : s.e.pc = .abort) (howner : s.p.owner = true)
    (hmode : s.p.mode = .pNacked) : ∃ T, runSteps 3 s = .next { s with
      e := { s.e with cmd := none, polls := 0, pc := .idle }, result := some (s.result.getD .ok), primTrace := T
      busTrace := s.busTrace ++ [.P]
      p := { s.p with
        owner := false, busy := s.p.extBusy, reqStop := false, reqStart := false, mode := .pIdle, sb := false,
        txe := false, btf := false, drTx := none, shift := none, target := none } } := by
  have habort : step s = .next (abortStep s) := by
    rw [step_reference_turn hs (.inl (by rw [hpc]; rfl)), turn_engine (by simp [hpc]), engineStep_abort hpc]
  have hdone : step (abortStep s) = .next (doneStep (abortStep s)) :=
    (step_reference_turn (s := abortStep s) hs (.inl rfl)).trans (engineStep_done (s := abortStep s) rfl)
  have hstop := (step_reference_env (s := doneStep (abortStep s)) (k := .stop) hs rfl
    (by simp [doneStep, abortStep, primIssueStop, firstEnabled, envEnabled, Periph.quiet, hmode])).trans
    (envStep_stop_of_owner howner)
  rw [runSteps_succ _ habort, runSteps_succ _ hdone, runSteps_succ _ hstop]
  exact ⟨_ ++ _, rfl⟩

/-- Settles O55: the wait that cannot succeed expires as `NAK` (`runSteps_expires`), and the abort releases the bus
(`runSteps_abort`). -/
theorem absentSlaveReturnsNak : Obligations.AbsentSlaveReturnsNak := by
  intro s present i a d len buf rest hready hs hslaves habsent hi haddr hlen hpol hbound
  obtain ⟨c, k, T, K, hscan, hrun, hstuck⟩ := exists_unanswered hready hs hslaves habsent hi haddr hlen
  obtain ⟨-, -, -, hinit, -, -, hext, -⟩ := hready
  obtain ⟨n, hn⟩ : ∃ n, s.params.timeoutPolls = n + 1 := ⟨_, (Nat.sub_add_cancel hbound).symm⟩
  obtain ⟨T', hexpires⟩ := runSteps_expires (n := n) hstuck hpol ((Nat.zero_add _).trans hn.symm)
  obtain ⟨T'', habort⟩ := runSteps_abort (s := takeAbort .nak ((s.unanswered c (addrByte a d) rest ⟨len, buf⟩ T).setT T'))
    hs rfl rfl rfl
  refine ⟨k + (n + 1) + 3, _,
    (runSteps_add 3 ((runSteps_add (n + 1) hrun).trans hexpires)).trans habort, ⟨?_, hs, rfl, rfl, rfl⟩, rfl, if_neg hscan,
    rfl, rfl, by simp [takeAbort, State.setT, State.unanswered, State.onBus, latch]⟩
  exact ⟨rfl, rfl, rfl, hinit, rfl, rfl, hext, hext, rfl, rfl, rfl, rfl, rfl, rfl, rfl, rfl⟩

end Sys2Proof.Machine
end

section
/-! What an environment step makes of the Bus Interface, said once (R74 to R80), and what every step keeps of it: the
relations between its fields (R24, R72 to R80) and its link to the sequencer (R65, R66, R99, R152). -/

namespace Sys2Proof.Machine

open Sys2Proof

/-! ## The moves of the environment -/

/-- What an enabled environment step can make of the Bus Interface, with the events it puts on the bus. Whatever a slave
answers is allowed. -/
inductive EnvMove (p : Periph) : EnvStep → Periph → List BusEvent → Prop
  | stop (hreq : p.reqStop = true) (hquiet : p.quiet = true) (howner : p.owner = true) :
      EnvMove p .stop { p with
        owner := false, busy := p.extBusy, reqStop := false, mode := .pIdle, sb := false, txe := false, btf := false,
        drTx := none, shift := none, target := none } [.P]
  | drop (hreq : p.reqStop = true) (howner : p.owner = false) : EnvMove p .stop { p with reqStop := false } []
  | start (hreq : p.reqStart = true) (hstop : p.reqStop = false) (hquiet : p.quiet = true) :
      EnvMove p .start p.started [if p.owner then .Sr else .S]
  | address (b : Byte) (k : Bool) (hmode : p.mode = .pAddr b) :
      EnvMove p .address (p.addressed (addrOfByte b) (dirOfByte b) k) [.A b k]
  | txShift (b : Byte) (hmode : p.mode = .pTx) (hdr : p.drTx = some b) (hshift : p.shift = none) :
      EnvMove p .txShift { p with shift := some b, drTx := none, txe := true } []
  | txDone (b : Byte) (k : Bool) (hmode : p.mode = .pTx) (hshift : p.shift = some b) : EnvMove p .txDone (p.sent k)
      [.W b k]
  | receive (v : Byte) (hmode : p.mode = .pRx) (hrxne : p.rxne = false) :
      EnvMove p .receive (p.received v) [.R v p.ackEn]
  | extBusy (b : Bool) (howner : p.owner = false) : EnvMove p (.extBusy b) { p with extBusy := b, busy := b } []

/-- An enabled environment step is one of the moves, and leaves the engine's side alone. -/
theorem envStep_move {k : EnvStep} {s t : State} (h : envStep k s = .next t) (hk : envEnabled k s.p = true) :
    SameEngine s t ∧ ∃ evs, EnvMove s.p k t.p evs ∧ t.busTrace = s.busTrace ++ evs := by
  refine ⟨(envStep_next h).1, ?_⟩
  cases k with
  | stop =>
    obtain ⟨hreq, hquiet⟩ := envEnabled_stop_iff.1 hk
    cases howner : s.p.owner with
    | true =>
      rw [envStep_stop_of_owner howner] at h
      cases h
      exact ⟨_, .stop hreq hquiet howner, rfl⟩
    | false =>
      rw [envStep_stop_of_not_owner howner] at h
      cases h
      exact ⟨_, .drop hreq howner, by simp⟩
  | start =>
    obtain ⟨hreq, hstop, hquiet, -⟩ := envEnabled_start_iff.1 hk
    cases h
    exact ⟨_, .start hreq hstop hquiet, rfl⟩
  | address =>
    obtain ⟨b, hmode⟩ := envEnabled_address_iff.1 hk
    rw [envStep_address hmode rfl] at h
    cases h
    exact ⟨_, .address b _ hmode, rfl⟩
  | txShift =>
    obtain ⟨hmode, hdr, hshift⟩ := envEnabled_txShift_iff.1 hk
    obtain ⟨b, hb⟩ := Option.ne_none_iff_exists'.1 hdr
    rw [envStep_txShift hb] at h
    cases h
    exact ⟨_, .txShift b hmode hb hshift, by simp⟩
  | txDone =>
    obtain ⟨hmode, hshift⟩ := envEnabled_txDone_iff.1 hk
    obtain ⟨b, hb⟩ := Option.ne_none_iff_exists'.1 hshift
    rw [envStep_txDone hb rfl] at h
    cases h
    exact ⟨_, .txDone b _ hmode hb, rfl⟩
  | receive =>
    obtain ⟨hmode, hrxne⟩ := envEnabled_receive_iff.1 hk
    rw [envStep_receive rfl] at h
    cases h
    exact ⟨_, .receive _ hmode hrxne, rfl⟩
  | extBusy b =>
    cases h
    exact ⟨_, .extBusy b ((envEnabled_extBusy_iff b).1 hk), by simp [envExtBusy]⟩

/-! ## The relations between the fields of the Bus Interface -/

/-- `Periph.inv` as a proposition, its parts named. -/
structure Periph.Inv (p : Periph) : Prop where
  sb : p.sb = true ↔ p.mode = .pStart
  txe : p.txe = true → p.mode = .pTx ∧ p.drTx = none
  btf : p.btf = true → p.mode = .pTx ∧ p.drTx = none ∧ p.shift = none
  rxne : p.rxne = true → p.drRx ≠ none
  tx : p.mode ≠ .pTx → p.drTx = none ∧ p.shift = none
  waits : p.mode = .pTxWaitClr ∨ p.mode = .pRxWaitClr → p.addr = true
  target : p.targetOk = true
  owner : p.owner = true ↔ p.mode ≠ .pIdle
  busy : p.busy = (p.owner || p.extBusy)

theorem implies_iff {a b : Bool} : implies a b = true ↔ (a = true → b = true) := by
  cases a <;> simp [implies]

theorem Periph.inv_iff {p : Periph} : p.inv = true ↔ p.Inv := by
  have hbool {a : Bool} {q : Prop} [Decidable q] : (a == decide q) = true ↔ (a = true ↔ q) := by
    by_cases hq : q <;> simp [hq]
  simp only [Periph.inv, Bool.and_eq_true, implies_iff, hbool, Periph.txEmpty, Option.isNone_iff_eq_none,
    Option.isSome_iff_ne_none, decide_eq_true_eq, Bool.or_eq_true, beq_iff_eq]
  constructor
  · rintro ⟨⟨⟨⟨⟨⟨⟨⟨h1, h2⟩, h3⟩, h4⟩, h5⟩, h6⟩, h7⟩, h8⟩, h9⟩
    exact ⟨h1, h2, h3, h4, h5, h6, h7, h8, h9⟩
  · rintro ⟨h1, h2, h3, h4, h5, h6, h7, h8, h9⟩
    exact ⟨⟨⟨⟨⟨⟨⟨⟨h1, h2⟩, h3⟩, h4⟩, h5⟩, h6⟩, h7⟩, h8⟩, h9⟩

/-- Every move of the environment keeps the relations. -/
theorem EnvMove.keeps_inv {k : EnvStep} {p q : Periph} {evs : List BusEvent} (h : EnvMove p k q evs) (hp : p.Inv) :
    q.Inv := by
  obtain ⟨hsb, htxe, hbtf, hrxne, htx, hwaits, htarget, howner, hbusy⟩ := hp
  cases h with
  | stop | drop | start | extBusy => constructor <;> simp_all [Periph.started, Periph.targetOk]
  | address b k hmode =>
    cases k with
    | false => constructor <;> simp_all [Periph.addressed, Periph.targetOk]
    | true =>
      cases hd : dirOfByte b <;> constructor <;> simp_all [Periph.addressed, Periph.targetOk]
  | txShift b hmode hdr hshift => constructor <;> simp_all [Periph.targetOk]
  | txDone b k hmode hshift =>
    cases k <;> constructor <;> simp_all [Periph.sent, Periph.targetOk]
  | receive v hmode hreceived =>
    by_cases hlast : p.ackEn = false ∨ p.reqStop = true <;>
      constructor <;> simp_all [Periph.received, Periph.targetOk]

end Sys2Proof.Machine
end

section
/-! The invariant is kept by every step, and the engine answers every state of it (R132): the link between the sequencer
and the Bus Interface, the counters of the loops, and the poll counter (R65, R66, R88, R99, R138, R152). -/

namespace Sys2Proof.Machine

open Sys2Proof

/-! ## The link between the sequencer and the Bus Interface -/

/-- `linkInv` as a proposition over the label and the Bus Interface, its parts named. -/
structure Linked (l : Label) (p : Periph) : Prop where
  label : labelPeriphInv l p = true
  pending : p.reqStart = true → l.startPending = true
  sent : p.sb = true → l.startSent = true ∧ p.reqStart = false
  released : l.afterStop = true → p.owner = false ∨ p.reqStop = true

theorem linkInv_iff {s : State} : linkInv s = true ↔ Linked s.e.pc s.p := by
  simp only [linkInv, Bool.and_eq_true, implies_iff, Periph.released, Bool.or_eq_true, Bool.not_eq_true']
  constructor
  · rintro ⟨⟨⟨h1, h2⟩, h3⟩, h4⟩
    exact ⟨h1, h2, h3, h4⟩
  · rintro ⟨h1, h2, h3, h4⟩
    exact ⟨⟨⟨h1, h2⟩, h3⟩, h4⟩

/-- At a scheduling point the label asks nothing of the Bus Interface but that the address phase of a settle is in
flight or resolved. -/
theorem labelPeriphInv_of_yields {l : Label} {p : Periph} (hy : l.yields = true) : labelPeriphInv l p = true ↔
    (l = .settle → p.addrResolved = true ∨ p.mode.isAddr = true) := by
  cases l <;> simp [Label.yields, Label.isWait, labelPeriphInv] at hy ⊢

theorem EnvMove.keeps_resolving {k : EnvStep} {p q : Periph} {evs : List BusEvent} (h : EnvMove p k q evs)
    (hp : p.addrResolved = true ∨ p.mode.isAddr = true) : q.addrResolved = true ∨ q.mode.isAddr = true := by
  cases h with
  | stop hreq hquiet | start hreq hstop hquiet =>
    refine .inl (hp.resolve_right fun hm => ?_)
    obtain ⟨b, hb⟩ := PMode.isAddr_iff.1 hm
    simp [Periph.quiet, hb] at hquiet
  | drop | extBusy => exact hp
  | address b k => cases k <;> exact .inl rfl
  | txShift b hmode | receive v hmode => exact .inl (hp.resolve_right (by simp [hmode, PMode.isAddr]))
  | txDone b k hmode => cases k <;> exact .inl (hp.resolve_right (by simp [hmode, PMode.isAddr]))

/-- Labels at which a start is pending are none of those at which the bus is released; at a scheduling point a pending
start is that of the wait for it. -/
theorem Label.startPending_facts {l : Label} (h : l.startPending = true) :
    l.afterStop = false ∧ (l.yields = true → l.startSent = true) := by
  cases l <;> cases h <;> decide

/-- Every move of the environment, at a scheduling point, keeps the link. -/
theorem EnvMove.keeps_link {k : EnvStep} {p q : Periph} {evs : List BusEvent} (h : EnvMove p k q evs) {l : Label}
    (hy : l.yields = true) (hl : Linked l p) : Linked l q := by
  obtain ⟨hlabel, hpending, hsent, hreleased⟩ := hl
  rw [labelPeriphInv_of_yields hy] at hlabel
  refine ⟨(labelPeriphInv_of_yields hy).2 fun hsettle => h.keeps_resolving (hlabel hsettle), ?_, ?_, ?_⟩
  · cases h with
    | start => simp [Periph.started]
    | address b k | txDone b k => cases k <;> exact hpending
    | _ => exact hpending
  · cases h with
    | start hreq => exact fun _ => ⟨(Label.startPending_facts (hpending hreq)).2 hy, rfl⟩
    | stop => simp
    | address b k | txDone b k => cases k <;> exact hsent
    | _ => exact hsent
  · cases h with
    | start hreq => simp [(Label.startPending_facts (hpending hreq)).1]
    | stop => exact fun _ => .inl rfl
    | drop hreq howner => exact fun _ => .inl howner
    | address b k | txDone b k => cases k <;> exact hreleased
    | _ => exact hreleased

/-! ## What an action does to the Bus Interface and to the counters -/

/-- What a `WRITE_DR` makes of the Bus Interface (R65). -/
def WritesDr (p q : Periph) : Prop :=
  ∃ b, (p.mode = .pStart ∧ q = { p with sb := false, addrResolved := false, target := none, mode := .pAddr b }) ∨
    (p.mode = .pTx ∧ p.drTx = none ∧ q = { p with drTx := some b, txe := false, btf := false })

/-- What an action makes of the Bus Interface (R84). -/
def Act.Moves (a : Act) (p q : Periph) : Prop :=
  match a with
  | .issueStart => q = { p with reqStart := true }
  | .issueStop => q = { p with reqStop := true, reqStart := false }
  | .sendAddr _ | .sendProbe | .sendReg | .sendRegClearIdx | .sendData | .sendBuf => WritesDr p q
  | .clearAddr | .clearAddrInitCount => q = p.clearAddr
  | .ackOff | .ackIfMany => ∃ e, q = { p with ackEn := e }
  | .captureRdata | .captureBuf => q = { p with rxne := false, btf := false }
  | .scanInit | .inspect | .nextProbe | .test | .wait _ | .settle => q = p

/-- What an action makes of the engine's registers (R88). -/
def Act.Counts (a : Act) (c : Command) (e f : Engine) : Prop :=
  match a with
  | .sendRegClearIdx => f = { e with idx := some 0 }
  | .sendBuf => ∃ i, e.idx = some i ∧ f = { e with idx := some (i + 1) }
  | .clearAddrInitCount => f = { e with rem := some c.len, idx := some 0 }
  | .captureBuf => ∃ i r, e.idx = some i ∧ e.rem = some r ∧ f = { e with idx := some (i + 1), rem := some (r - 1) }
  | .scanInit => f = { e with sa := some 0 }
  | .inspect => ∃ x, f = { e with snap := some x }
  | .nextProbe => ∃ n, e.sa = some n ∧ f = { e with sa := some (n + 1) }
  | .issueStart | .issueStop | .sendAddr _ | .sendProbe | .sendReg | .sendData | .clearAddr | .ackOff | .ackIfMany
  | .captureRdata | .test | .wait _ | .settle => f = e

theorem primWriteDr_writesDr {b : Byte} {s t : State} (h : primWriteDr b s = .ok t) : WritesDr s.p t.p ∧ t.e = s.e := by
  obtain ⟨hm, rfl⟩ | ⟨hm, hd, rfl⟩ := primWriteDr_cases h
  · exact ⟨⟨b, .inl ⟨hm, rfl⟩⟩, rfl⟩
  · exact ⟨⟨b, .inr ⟨hm, hd, rfl⟩⟩, rfl⟩

theorem doAct_moves {a : Act} {c : Command} {s t : State} (h : doAct a c s = .ok t) :
    a.Moves s.p t.p ∧ a.Counts c s.e t.e := by
  cases a <;> simp only [doAct] at h
  case sendAddr | sendReg | sendData => exact primWriteDr_writesDr h
  case sendProbe =>
    cases hn : s.e.sa with
    | none => rw [hn] at h; cases h
    | some n =>
      rw [hn] at h
      exact primWriteDr_writesDr h
  case sendRegClearIdx =>
    cases hu : primWriteDr c.reg s with
    | error f => rw [hu] at h; cases h
    | ok u =>
      rw [hu] at h
      cases h
      obtain ⟨hp, he⟩ := primWriteDr_writesDr hu
      exact ⟨hp, by rw [← he]; rfl⟩
  case sendBuf =>
    obtain ⟨i, b, u, hi, -, hu, rfl⟩ := actSendBuf_ok h
    obtain ⟨hp, he⟩ := primWriteDr_writesDr hu
    exact ⟨hp, i, hi, by rw [← he]⟩
  case captureRdata =>
    obtain ⟨v, u, hu, rfl⟩ := actCaptureRdata_ok h
    obtain ⟨-, rfl⟩ := primReadDr_cases hu
    exact ⟨rfl, rfl⟩
  case captureBuf =>
    obtain ⟨i, r, v, u, w, hi, hr, hu, hw, rfl⟩ := actCaptureBuf_ok h
    obtain ⟨-, rfl⟩ := bufWrite_ok hw
    obtain ⟨-, rfl⟩ := primReadDr_cases hu
    exact ⟨rfl, i, r, hi, hr, rfl⟩
  case inspect =>
    obtain ⟨n, -, rfl⟩ := actInspect_ok h
    exact ⟨rfl, _, rfl⟩
  case nextProbe =>
    cases hn : s.e.sa with
    | none => rw [hn] at h; cases h
    | some n =>
      rw [hn] at h
      cases h
      exact ⟨rfl, n, hn, rfl⟩
  case ackOff | ackIfMany => cases h; exact ⟨⟨_, rfl⟩, rfl⟩
  case issueStart | issueStop | clearAddr | clearAddrInitCount | scanInit | test | wait | settle =>
    cases h
    exact ⟨rfl, rfl⟩

theorem Periph.Inv.clearAddr {p : Periph} (h : p.Inv) : p.clearAddr.Inv := by
  cases haddr : p.addr with
  | false => rwa [Periph.clearAddr_of_clear haddr]
  | true =>
    obtain ⟨hsb, htxe, hbtf, hrxne, htx, hwaits, htarget, howner, hbusy⟩ := h
    by_cases htxw : p.mode = .pTxWaitClr
    · rw [Periph.clearAddr_of_pTxWaitClr haddr htxw]
      constructor <;> simp_all [Periph.targetOk]
    · by_cases hrxw : p.mode = .pRxWaitClr
      · rw [Periph.clearAddr_of_pRxWaitClr haddr hrxw]
        constructor <;> simp_all [Periph.targetOk]
      · rw [Periph.clearAddr_of_not_waiting haddr htxw hrxw]
        constructor <;> simp_all [Periph.targetOk]

theorem WritesDr.keeps_inv {p q : Periph} (h : WritesDr p q) (hp : p.Inv) : q.Inv := by
  obtain ⟨hsb, htxe, hbtf, hrxne, htx, hwaits, htarget, howner, hbusy⟩ := hp
  obtain ⟨b, ⟨hm, rfl⟩ | ⟨hm, hd, rfl⟩⟩ := h <;> constructor <;> simp_all [Periph.targetOk]

/-- Every action keeps the relations between the fields. -/
theorem Act.Moves.keeps_inv {a : Act} {p q : Periph} (h : a.Moves p q) (hp : p.Inv) : q.Inv := by
  cases a
  case sendAddr | sendProbe | sendReg | sendRegClearIdx | sendData | sendBuf => exact WritesDr.keeps_inv h hp
  case clearAddr | clearAddrInitCount => cases h; exact hp.clearAddr
  case scanInit | inspect | nextProbe | test | wait | settle => cases h; exact hp
  case ackOff | ackIfMany =>
    obtain ⟨e, rfl⟩ := h
    obtain ⟨hsb, htxe, hbtf, hrxne, htx, hwaits, htarget, howner, hbusy⟩ := hp
    exact ⟨hsb, htxe, hbtf, hrxne, htx, hwaits, htarget, howner, hbusy⟩
  case issueStart | issueStop =>
    cases h
    obtain ⟨hsb, htxe, hbtf, hrxne, htx, hwaits, htarget, howner, hbusy⟩ := hp
    exact ⟨hsb, htxe, hbtf, hrxne, htx, hwaits, htarget, howner, hbusy⟩
  case captureRdata | captureBuf =>
    cases h
    obtain ⟨hsb, htxe, hbtf, hrxne, htx, hwaits, htarget, howner, hbusy⟩ := hp
    exact ⟨hsb, htxe, by simp, by simp, htx, hwaits, htarget, howner, hbusy⟩

/-! ## What the tables say of labels -/

/-- How a step table reaches a label at which something is asked of the Bus Interface (R65, R66, R99). -/
def Label.reachedBy (m : Label) (a : Act) : Bool :=
  match m with
  | .addrWrite | .addrRead | .probeAddr => decide (a = .wait .sb)
  | .registerByte | .dataByte => decide (a = .wait .txe) || decide (a = .wait .btf)
  | .capture | .captureN => decide (a = .wait .rxne)
  | .settle => decide (a = .sendProbe)
  | _ => true

/-- What is asked of the Bus Interface at a label, by the way the tables reach it. -/
theorem labelPeriphInv_of_reachedBy {m : Label} {a : Act} {p : Periph} (h : m.reachedBy a = true) :
    labelPeriphInv m p = true ∨
    (a = .wait .sb ∧ (p.mode = .pStart → labelPeriphInv m p = true)) ∨
    ((a = .wait .txe ∨ a = .wait .btf) ∧ (p.mode = .pTx ∧ p.drTx = none → labelPeriphInv m p = true)) ∨
    (a = .wait .rxne ∧ (p.drRx ≠ none → labelPeriphInv m p = true)) ∨
    (a = .sendProbe ∧ (p.mode.isAddr = true → labelPeriphInv m p = true)) := by
  cases m <;> simp [Label.reachedBy, labelPeriphInv, Option.isSome_iff_ne_none] at h ⊢ <;> simp +contextual [h]

/-- The action writes the data register. -/
def Act.sends : Act → Bool
  | .sendAddr _ | .sendProbe | .sendReg | .sendRegClearIdx | .sendData | .sendBuf => true
  | .issueStart | .issueStop | .clearAddr | .clearAddrInitCount | .ackOff | .ackIfMany | .captureRdata | .captureBuf
  | .scanInit | .inspect | .nextProbe | .test | .wait _ | .settle => false

/-- Where the tables place an action that asks something of the Bus Interface. -/
def Act.placedAt (a : Act) (l : Label) : Bool :=
  match a with
  | .sendAddr _ | .sendProbe => decide (l = .addrWrite) || decide (l = .addrRead) || decide (l = .probeAddr)
  | .sendReg | .sendRegClearIdx | .sendData | .sendBuf => decide (l = .registerByte) || decide (l = .dataByte)
  | .captureRdata | .captureBuf => decide (l = .capture) || decide (l = .captureN)
  | .settle => decide (l = .settle)
  | .wait w => l.isWait && (decide (w = .sb) || !l.startSent) && (decide (w ≠ .sb) || l.startSent)
  | _ => true

section
variable {op : Op} {l m : Label} {row : Row} (hrow : stepTable op l = some row)
include hrow

theorem row_placed : row.act.placedAt l = true := by
  have hall : everyRow (fun _ l row => row.act.placedAt l) = true := by decide
  exact of_everyRow hall hrow

theorem row_isWait : l.isWait = true ↔ ∃ w, row.act = .wait w := by
  have hall : everyRow (fun _ l row => match row.act with | .wait _ => l.isWait | _ => !l.isWait) = true := by decide
  have h := of_everyRow hall hrow
  cases ha : row.act <;> simp [ha] at h ⊢ <;> exact h

/-- A label with a pending start is the wait for it. -/
theorem row_startPending (h : l.startPending = true) : row.act = .wait .sb := by
  have hall : everyRow (fun _ l row => !l.startPending || decide (row.act = .wait .sb)) = true := by decide
  simpa [h] using of_everyRow hall hrow

/-- A start that awaits its address byte is seen, or the byte is sent. -/
theorem row_startSent (h : l.startSent = true) : row.act = .wait .sb ∨ row.act.sends = true := by
  have hall : everyRow (fun _ l row => !l.startSent || decide (row.act = .wait .sb) || row.act.sends) = true := by decide
  simpa [h] using of_everyRow hall hrow

section
variable (hm : m ∈ row.succ.targets)
include hm

theorem row_reaches : m.reachedBy row.act = true := by
  have hall : everyRow (fun _ _ row => row.succ.targets.all fun m => m.reachedBy row.act) = true := by decide
  exact List.all_eq_true.1 (of_everyRow hall hrow) m hm

/-- A step moves to `DONE` or to a label of the same table. -/
theorem row_target : m = .done ∨ (stepTable op m).isSome = true := by
  have hall : everyRow (fun op _ row => row.succ.targets.all fun m =>
    decide (m = .done) || (stepTable op m).isSome) = true := by decide
  simpa using List.all_eq_true.1 (of_everyRow hall hrow) m hm

theorem row_target_startPending (h : m.startPending = true) : row.act = .issueStart := by
  have hall : everyRow (fun _ _ row => row.succ.targets.all fun m =>
    !m.startPending || decide (row.act = .issueStart)) = true := by decide
  simpa [h] using List.all_eq_true.1 (of_everyRow hall hrow) m hm

theorem row_issueStart (h : row.act = .issueStart) : m.startPending = true := by
  have hall : everyRow (fun _ _ row => row.succ.targets.all fun m =>
    decide (row.act ≠ .issueStart) || m.startPending) = true := by decide
  simpa [h] using List.all_eq_true.1 (of_everyRow hall hrow) m hm

theorem row_startSeen (h : row.act = .wait .sb) : m.startSent = true := by
  have hall : everyRow (fun _ _ row => row.succ.targets.all fun m =>
    decide (row.act ≠ .wait .sb) || m.startSent) = true := by decide
  simpa [h] using List.all_eq_true.1 (of_everyRow hall hrow) m hm

/-- The labels after a stop begin with the stop itself. -/
theorem row_afterStop (h : m.afterStop = true) : row.act = .issueStop ∨ l.afterStop = true := by
  have hall : everyRow (fun _ l row => row.succ.targets.all fun m =>
    !m.afterStop || decide (row.act = .issueStop) || l.afterStop) = true := by decide
  simpa [h] using List.all_eq_true.1 (of_everyRow hall hrow) m hm

end
end

/-! ## The link along a row -/

theorem clearAddr_kept (p : Periph) : p.clearAddr.reqStart = p.reqStart ∧ p.clearAddr.reqStop = p.reqStop ∧
    p.clearAddr.sb = p.sb ∧ p.clearAddr.owner = p.owner := by
  rw [Periph.clearAddr_frame p]
  exact ⟨rfl, rfl, rfl, rfl⟩

/-- No action requests a start but `ISSUE_START`, none drops a stop or moves the ownership, and none but a `WRITE_DR`,
which clears it, touches `SB`. -/
theorem Act.Moves.requests {a : Act} {p q : Periph} (h : a.Moves p q) (hp : p.Inv) :
    (q.reqStart = true → a = .issueStart ∨ p.reqStart = true) ∧
    (a = .issueStop ∨ p.reqStop = true → q.reqStop = true) ∧ q.owner = p.owner ∧
    (q.sb = true → p.sb = true ∧ a.sends = false) := by
  have writes (h : WritesDr p q) (hs : a.sends = true) : (q.reqStart = true → a = .issueStart ∨ p.reqStart = true) ∧
      (a = .issueStop ∨ p.reqStop = true → q.reqStop = true) ∧ q.owner = p.owner ∧
      (q.sb = true → p.sb = true ∧ a.sends = false) := by
    have hstop : a ≠ .issueStop := by rintro rfl; cases hs
    obtain ⟨b, ⟨-, rfl⟩ | ⟨hm, -, rfl⟩⟩ := h
    · exact ⟨.inr, fun h => h.resolve_left hstop, rfl, by simp⟩
    · refine ⟨.inr, fun h => h.resolve_left hstop, rfl, fun hsb => ?_⟩
      simp [hp.sb.1 hsb] at hm
  obtain ⟨h1, h2, h3, h4⟩ := clearAddr_kept p
  cases a
  case sendAddr | sendProbe | sendReg | sendRegClearIdx | sendData | sendBuf => exact writes h rfl
  case clearAddr | clearAddrInitCount => cases h; simp [h1, h2, h3, h4, Act.sends]
  case ackOff | ackIfMany => obtain ⟨e, rfl⟩ := h; simp [Act.sends]
  all_goals cases h; simp [Act.sends]

section
variable {op : Op} {l m : Label} {row : Row} {p q : Periph} (hrow : stepTable op l = some row)
  (hm : m ∈ row.succ.targets) (hp : p.Inv) (hl : Linked l p)
include hrow hm hp hl

/-- A row that is no wait keeps the link. -/
theorem Linked.of_moves (ha : ∀ w, row.act ≠ .wait w) (h : row.act.Moves p q) : Linked m q := by
  obtain ⟨hstart, hstop, howner, hsb⟩ := h.requests hp
  have hnotPending : p.reqStart = true → False := fun hr => ha _ (row_startPending hrow (hl.pending hr))
  refine ⟨?_, fun hr => ?_, fun hs => ?_, fun haf => ?_⟩
  · obtain hq | ⟨hw, -⟩ | ⟨hw | hw, -⟩ | ⟨hw, -⟩ | ⟨hprobe, hq⟩ :=
      labelPeriphInv_of_reachedBy (p := q) (row_reaches hrow hm)
    · exact hq
    · exact absurd hw (ha _)
    · exact absurd hw (ha _)
    · exact absurd hw (ha _)
    · exact absurd hw (ha _)
    · have hplaced := row_placed hrow
      rw [hprobe] at h hplaced
      have hmode : p.mode = .pStart := by
        simp only [Act.placedAt, Bool.or_eq_true, decide_eq_true_eq, or_assoc] at hplaced
        obtain rfl | rfl | rfl := hplaced <;> exact of_decide_eq_true hl.label
      obtain ⟨b, ⟨-, rfl⟩ | ⟨htx, -⟩⟩ := h
      · exact hq rfl
      · simp [hmode] at htx
  · exact row_issueStart hrow hm ((hstart hr).resolve_right hnotPending)
  · obtain ⟨hpsb, hsend⟩ := hsb hs
    obtain hw | hw := row_startSent hrow (hl.sent hpsb).1
    · exact absurd hw (ha _)
    · simp [hw] at hsend
  · obtain ha | haf := row_afterStop hrow hm haf
    · exact .inr (hstop (.inl ha))
    · rw [howner]
      exact (hl.released haf).imp_right fun hr => hstop (.inr hr)

/-- A wait that is satisfied keeps the link: what it waited for is what the next label asks. -/
theorem Linked.of_satisfied {w : WaitCond} (ha : row.act = .wait w) (hw : w.holds p = true)
    (hq : q = p ∨ w = .notBusy ∧ q = p.clearAddr) : Linked m q := by
  have hplaced := row_placed hrow
  have hreach := row_reaches hrow hm
  obtain ⟨hsame, hreq, hstop, hsb, howner⟩ : (w ≠ .notBusy → q = p) ∧ q.reqStart = p.reqStart ∧
      q.reqStop = p.reqStop ∧ q.sb = p.sb ∧ q.owner = p.owner := by
    obtain rfl | ⟨rfl, rfl⟩ := hq
    · simp
    · simp [clearAddr_kept p]
  have hseen : w = .sb → p.sb = true := by rintro rfl; exact hw
  refine ⟨?_, fun hr => ?_, fun hs => ?_, fun haf => ?_⟩
  · rw [ha] at hreach
    obtain hok | ⟨hsb', hask⟩ | ⟨htx, hask⟩ | ⟨hrx, hask⟩ | ⟨hprobe, -⟩ := labelPeriphInv_of_reachedBy (p := q) hreach
    · exact hok
    · cases hsb'
      rw [hsame (by simp)] at hask ⊢
      exact hask (hp.sb.1 hw)
    · obtain htx | htx := htx <;> cases htx <;> rw [hsame (by simp)] at hask ⊢
      · exact hask (hp.txe hw)
      · exact hask ((hp.btf hw).imp_right And.left)
    · cases hrx
      rw [hsame (by simp)] at hask ⊢
      exact hask (hp.rxne hw)
    · cases hprobe
  · rw [hreq] at hr
    have hsb := row_startPending hrow (hl.pending hr)
    rw [ha] at hsb
    cases hsb
    simp [(hl.sent hw).2] at hr
  · rw [hsb] at hs
    have hsent := hl.sent hs
    rw [ha] at hplaced
    have hwsb : w = .sb := by
      by_contra hne
      simp [Act.placedAt, hsent.1, hne] at hplaced
    exact ⟨row_startSeen hrow hm (by rw [ha, hwsb]), hreq.trans hsent.2⟩
  · rw [howner, hstop]
    exact hl.released ((row_afterStop hrow hm haf).resolve_left (by simp [ha]))

end

section
variable {op : Op} {l : Label} {row : Row} {p q : Periph} {w : WaitCond} (hrow : stepTable op l = some row)
  (ha : row.act = .wait w) (hq : q = p ∨ q = p.clearAddr) (hl : Linked l p)
include hrow ha hq hl

/-- A wait that is not satisfied keeps the link, at its own label. -/
theorem Linked.of_missed : Linked l q := by
  have hwait : l.isWait = true := (row_isWait hrow).2 ⟨w, ha⟩
  obtain ⟨hreq, hstop, hsb, howner⟩ : q.reqStart = p.reqStart ∧ q.reqStop = p.reqStop ∧ q.sb = p.sb ∧
      q.owner = p.owner := by
    obtain rfl | rfl := hq
    · simp
    · exact clearAddr_kept p
  refine ⟨?_, hreq ▸ hl.pending, hreq ▸ hsb ▸ hl.sent, howner ▸ hstop ▸ hl.released⟩
  refine (labelPeriphInv_of_yields (by simp [Label.yields, hwait])).2 ?_
  rintro rfl
  cases hwait

/-- A wait that expires keeps the link: the start that was not seen may come later. -/
theorem Linked.of_expired (hmiss : w.holds p = false) : Linked .abort q := by
  refine ⟨rfl, fun _ => rfl, fun hs => ?_, by simp [Label.afterStop]⟩
  have hs : p.sb = true := by
    obtain rfl | rfl := hq
    · exact hs
    · exact (clearAddr_kept p).2.2.1 ▸ hs
  have hplaced := row_placed hrow
  have hne : w ≠ .sb := by
    rintro rfl
    exact absurd hs (by simpa [WaitCond.holds] using hmiss)
  simp [ha, Act.placedAt, (hl.sent hs).1, hne] at hplaced

end

end Sys2Proof.Machine
end

section
/-! The invariant, part by part: what the command in progress and its counters are (R55, R88, R115, R121), the poll
counter (R138), and the whole of it under every step. -/

namespace Sys2Proof.Machine

open Sys2Proof

/-! ## The counters of the loops -/

theorem scanInv_iff {l : Label} {e : Engine} (hl : l ≠ .scanInit) :
    scanInv l e = true ↔ ∃ n, e.sa = some n ∧ n < 128 := by
  unfold scanInv
  split
  · exact absurd rfl hl
  · cases e.sa <;> simp

theorem countInv_iff {l : Label} {len : Nat} {e : Engine} : countInv l len e = true ↔
    ∃ i r, e.idx = some i ∧ e.rem = some r ∧ i + r = len ∧
      (if l = .loop then 1 ≤ r else if l = .rxneWaitN ∨ l = .captureN then 1 < r else r = 1) := by
  unfold countInv
  cases hr : e.rem <;> cases hi : e.idx <;> simp
  intro _
  split <;> simp_all

section
variable {l m : Label} {row : Row} {c : Command} {e : Engine} {u : State}

/-- The scan's rows keep its candidate as R98 and R103 say. -/
theorem scanInv_of_row (hrow : scanTable l = some row) (h : scanInv l e = true) (hu : row.act.Counts c e u.e)
    (hm : succLabel row.succ c u = .ok m) (hdone : m ≠ .done) : scanInv m u.e = true := by
  have hnext : m ≠ .scanInit := by
    have hall : everyRow (fun _ _ row => row.succ.targets.all fun m => decide (m ≠ .scanInit)) = true := by decide
    simpa using List.all_eq_true.1 (of_everyRow hall (op := .scan) hrow) m (succLabel_mem hm)
  rw [scanInv_iff hnext]
  cases l <;> cases hrow
  case scanInit => exact ⟨0, congrArg Engine.sa hu, by decide⟩
  case next =>
    obtain ⟨n, -, hu⟩ := hu
    rw [hu]
    simp only [succLabel, hu, readWritten_some, Except.map, Except.ok.injEq] at hm
    split at hm
    · exact ⟨n + 1, rfl, by assumption⟩
    · exact absurd hm.symm hdone
  case inspect =>
    obtain ⟨x, hu⟩ := hu
    rw [hu]
    exact (scanInv_iff (l := .inspect) (by simp)).1 h
  all_goals
    cases (hu : u.e = e)
    exact (scanInv_iff (by simp)).1 h

/-- The multi-byte read's rows keep its counters as R114 and R115 say. -/
theorem multiReadInv_of_row (hrow : readMemoryMultiTable l = some row) (hlen : 1 ≤ c.len)
    (h : multiReadInv l c.len e = true) (hu : row.act.Counts c e u.e) (hm : succLabel row.succ c u = .ok m)
    (hdone : m ≠ .done) : multiReadInv m c.len u.e = true := by
  cases l <;> cases hrow
  case clearAddrR =>
    cases hm
    rw [show u.e = { e with rem := some c.len, idx := some 0 } from hu]
    exact (countInv_iff (l := .loop) (len := c.len) (e := { e with rem := some c.len, idx := some 0 })).2
      ⟨0, c.len, rfl, rfl, by simp, by simpa using hlen⟩
  case loop =>
    cases (hu : u.e = e)
    obtain ⟨i, r, hi, hr, hsum, hpos⟩ := (countInv_iff (l := .loop) (e := u.e)).1 h
    simp only [succLabel, hr, readWritten_some, Except.map, Except.ok.injEq] at hm
    simp only [if_true] at hpos
    split at hm <;> subst hm
    · exact (countInv_iff (l := .rxneWaitN)).2 ⟨i, r, hi, hr, hsum, by simpa⟩
    · exact (countInv_iff (l := .disableAck)).2 ⟨i, r, hi, hr, hsum, by simp; omega⟩
  case captureN =>
    cases hm
    obtain ⟨i, r, hi, hr, hu⟩ := hu
    obtain ⟨i', r', hi', hr', hsum, hpos⟩ := (countInv_iff (l := .captureN)).1 h
    cases hi.symm.trans hi'
    cases hr.symm.trans hr'
    rw [hu]
    simp at hpos
    exact (countInv_iff (l := .loop) (len := c.len) (e := { e with idx := some (i + 1), rem := some (r - 1) })).2
      ⟨i + 1, r - 1, rfl, rfl, by omega, by simp; omega⟩
  case rxneWaitN | disableAck | stop | rxneWait =>
    cases hm
    cases (hu : u.e = e)
    unfold multiReadInv at h ⊢
    obtain ⟨i, r, hi, hr, hsum, hpos⟩ := countInv_iff.1 h
    exact countInv_iff.2 ⟨i, r, hi, hr, hsum, by simpa using hpos⟩
  case capture => exact absurd (Except.ok.inj hm).symm hdone
  all_goals
    cases hm
    rfl

/-- The multi-byte write's rows keep its index as R121 says. -/
theorem multiWriteInv_of_row (hrow : writeMemoryMultiTable l = some row) (hlen : 1 ≤ c.len)
    (h : multiWriteInv l c.len e = true) (hu : row.act.Counts c e u.e) (hm : succLabel row.succ c u = .ok m)
    (hdone : m ≠ .done) : multiWriteInv m c.len u.e = true := by
  cases l <;> cases hrow
  case registerByte =>
    cases hm
    rw [show u.e = { e with idx := some 0 } from hu]
    rfl
  case regTxeWait =>
    cases hm
    cases (hu : u.e = e)
    cases hi : u.e.idx with
    | none => simp [multiWriteInv, hi] at h
    | some i => simp [multiWriteInv, hi] at h ⊢; omega
  case dataByte =>
    cases hm
    obtain ⟨i, hi, hu⟩ := hu
    rw [hu]
    simp [multiWriteInv, hi] at h ⊢
    omega
  case transferComplete =>
    cases (hu : u.e = e)
    cases hi : u.e.idx with
    | none => simp [multiWriteInv, hi] at h
    | some i =>
      simp only [succLabel, hi, readWritten_some, Except.map, Except.ok.injEq] at hm
      split at hm <;> subst hm
      · simpa [multiWriteInv, hi]
      · simp [multiWriteInv]
  case stop => exact absurd (Except.ok.inj hm).symm hdone
  all_goals
    cases hm
    simp [multiWriteInv]

/-- Every row keeps the registers its operation has written. -/
theorem counterInv_of_row {q : Params} (hrow : stepTable c.op l = some row) (hacc : c.accepted q = true)
    (h : counterInv c l e = true) (hu : row.act.Counts c e u.e) (hm : succLabel row.succ c u = .ok m)
    (hdone : m ≠ .done) : counterInv c m u.e = true := by
  have hlen (hb : c.op.takesBuffer = true) : 1 ≤ c.len := by
    simp only [Command.accepted, implies_iff, hb, Bool.and_eq_true, decide_eq_true_eq, true_imp_iff] at hacc
    exact hacc.1.1
  unfold counterInv at h ⊢
  cases hop : c.op <;> rw [hop] at h hrow hlen <;> dsimp only at h ⊢
  case scan => exact scanInv_of_row hrow h hu hm hdone
  case readMemoryMulti => exact multiReadInv_of_row hrow (hlen rfl) h hu hm hdone
  case writeMemoryMulti => exact multiWriteInv_of_row hrow (hlen rfl) h hu hm hdone

end

/-! ## The command in progress -/

theorem pc_of_row {op : Op} {l : Label} {row : Row} (h : stepTable op l = some row) :
    l ≠ .idle ∧ l ≠ .done ∧ l ≠ .abort := by
  have hall : everyRow (fun _ l _ => decide (l ≠ .idle) && decide (l ≠ .done) && decide (l ≠ .abort)) = true := by decide
  simpa [and_assoc] using of_everyRow hall h

theorem commandInv_idle {s : State} (h : commandInv s = true) : s.e.pc = .idle ↔ s.e.cmd = none := by
  unfold commandInv at h
  cases hc : s.e.cmd with
  | none => simpa [hc] using h
  | some c =>
    simp only [hc, Bool.and_eq_true, decide_eq_true_eq] at h
    simp [h.1.1.1]

/-- At a label of its table a command is accepted, has no result yet, and its registers are written. -/
theorem commandInv_row {s : State} {c : Command} {row : Row} (h : commandInv s = true) (hc : s.e.cmd = some c)
    (hrow : stepTable c.op s.e.pc = some row) :
    c.accepted s.params = true ∧ s.p.initialized = true ∧ s.result = none ∧ counterInv c s.e.pc s.e = true := by
  obtain ⟨hidle, hdone, habort⟩ := pc_of_row hrow
  simp only [commandInv, hc, Bool.and_eq_true] at h
  obtain ⟨⟨⟨-, hacc⟩, hinit⟩, h⟩ := h
  simp only [Option.isNone_iff_eq_none] at h
  exact ⟨hacc, hinit, h.1.2, h.2⟩

/-- A running command's label, where nothing is wrong with it. -/
theorem commandInv_of_label {s : State} {c : Command} (hc : s.e.cmd = some c) (hacc : c.accepted s.params = true)
    (hinit : s.p.initialized = true)
    (h : s.e.pc = .done ∨ (s.e.pc = .abort ∧ s.result ≠ none) ∨ ((stepTable c.op s.e.pc).isSome = true ∧
      s.result = none ∧ counterInv c s.e.pc s.e = true)) : commandInv s = true := by
  simp only [commandInv, hc, hacc, hinit, Bool.and_true]
  obtain hpc | ⟨hpc, hr⟩ | ⟨hrow, hr, hcount⟩ := h
  · simp [hpc]
  · simp [hpc, Option.isSome_iff_ne_none, hr]
  · obtain ⟨row, hrow'⟩ := Option.isSome_iff_exists.1 hrow
    obtain ⟨hidle, hdone, habort⟩ := pc_of_row hrow'
    simp [hidle, hrow, hr, hcount]

/-! ## The whole invariant -/

/-- `State.inv` as a proposition, its parts named. -/
structure State.Inv (s : State) : Prop where
  wf : s.params.wellFormed = true
  periph : s.p.Inv
  command : commandInv s = true
  polls : pollsInv s = true
  link : Linked s.e.pc s.p
  own : ownPrimitives s = true

theorem State.inv_iff {s : State} : s.inv = true ↔ s.Inv := by
  simp only [State.inv, Bool.and_eq_true, Periph.inv_iff, linkInv_iff]
  constructor
  · rintro ⟨⟨⟨⟨⟨h1, h2⟩, h3⟩, h4⟩, h5⟩, h6⟩
    exact ⟨h1, h2, h3, h4, h5, h6⟩
  · rintro ⟨h1, h2, h3, h4, h5, h6⟩
    exact ⟨⟨⟨⟨⟨h1, h2⟩, h3⟩, h4⟩, h5⟩, h6⟩

theorem pollsInv_iff {s : State} : pollsInv s = true ↔ (s.e.pc.isWait = false → s.e.polls = 0) ∧
    (s.params.policy = .spin → s.e.polls = 0) ∧
    (s.params.policy = .bounded → s.e.polls < s.params.timeoutPolls) := by
  unfold pollsInv
  rw [Bool.and_eq_true, implies_iff]
  cases s.params.policy <;> simp

theorem one_le_timeoutPolls {q : Params} (h : q.wellFormed = true) : 1 ≤ q.timeoutPolls := by
  simp only [Params.wellFormed, Bool.and_eq_true, decide_eq_true_eq] at h
  exact h.1

/-- A counter at 0 is within every bound (R10, R138). -/
theorem pollsInv_of_zero {s : State} (hwf : s.params.wellFormed = true) (h : s.e.polls = 0) : pollsInv s = true :=
  pollsInv_iff.2 ⟨fun _ => h, fun _ => h, fun _ => h ▸ one_le_timeoutPolls hwf⟩

/-! ## The rows keep the invariant -/

theorem Act.Counts.kept {a : Act} {c : Command} {e f : Engine} (h : a.Counts c e f) :
    f.cmd = e.cmd ∧ f.polls = e.polls := by
  cases a
  case sendBuf | nextProbe => obtain ⟨i, -, rfl⟩ := h; exact ⟨rfl, rfl⟩
  case captureBuf => obtain ⟨i, r, -, -, rfl⟩ := h; exact ⟨rfl, rfl⟩
  case inspect => obtain ⟨x, rfl⟩ := h; exact ⟨rfl, rfl⟩
  all_goals cases h; exact ⟨rfl, rfl⟩

theorem Act.Moves.initialized {a : Act} {p q : Periph} (h : a.Moves p q) : q.initialized = p.initialized := by
  cases a
  case sendAddr | sendProbe | sendReg | sendRegClearIdx | sendData | sendBuf =>
    obtain ⟨b, ⟨-, rfl⟩ | ⟨-, -, rfl⟩⟩ := h <;> rfl
  case clearAddr | clearAddrInitCount => cases h; rw [Periph.clearAddr_frame]
  case ackOff | ackIfMany => obtain ⟨e, rfl⟩ := h; rfl
  all_goals cases h; rfl

/-- What the read of a poll makes of the Bus Interface: only the read of `STATUS2` has a side effect (R90). -/
theorem pollOnce_p (w : WaitCond) (s : State) :
    (pollOnce w s).2.p = s.p ∨ w = .notBusy ∧ (pollOnce w s).2.p = s.p.clearAddr := by
  cases w
  case notBusy => exact .inr ⟨rfl, rfl⟩
  all_goals exact .inl rfl

theorem pollOnce_moves (w : WaitCond) (s : State) :
    (s.p.Inv → (pollOnce w s).2.p.Inv) ∧ (pollOnce w s).2.p.initialized = s.p.initialized ∧
      ((pollOnce w s).2.p = s.p ∨ (pollOnce w s).2.p = s.p.clearAddr) := by
  obtain hp | ⟨-, hp⟩ := pollOnce_p w s <;> rw [hp]
  · simp
  · exact ⟨Periph.Inv.clearAddr, by rw [Periph.clearAddr_frame], .inr rfl⟩

section
variable {s t u : State} {c : Command} {row : Row} {m : Label} (hinv : s.Inv) (hc : s.e.cmd = some c)
  (hrow : stepTable c.op s.e.pc = some row)
include hinv hc hrow

/-- A step that moves to a successor keeps the invariant, given what its action does. -/
theorem State.Inv.moved (hm : m ∈ row.succ.targets) (hout : SameOutside s u) (hcmd : u.e.cmd = some c)
    (hpolls : u.e.polls = 0) (hresult : u.result = s.result) (hinit : u.p.initialized = s.p.initialized)
    (hp : u.p.Inv) (hl : Linked m u.p) (hcount : m ≠ .done → counterInv c m u.e = true) : (u.setPc m).Inv := by
  obtain ⟨-, -, -, hparams, -, -, hscript, -⟩ := hout
  obtain ⟨hacc, hinit', hnone, -⟩ := commandInv_row hinv.command hc hrow
  have hwf : (u.setPc m).params.wellFormed = true := by simpa [hparams] using hinv.wf
  refine ⟨hwf, hp, ?_, pollsInv_of_zero hwf (by simpa using hpolls), hl, ?_⟩
  · refine commandInv_of_label hcmd (by simpa [hparams] using hacc) (by simpa [hinit] using hinit') ?_
    obtain hdone | hsome := row_target hrow hm
    · exact .inl hdone
    · by_cases hdone : m = .done
      · exact .inl hdone
      · exact .inr (.inr ⟨hsome, hresult.trans hnone, hcount hdone⟩)
  · have hown := hinv.own
    unfold ownPrimitives at hown ⊢
    rwa [State.setPc_script, hscript]

/-- A satisfied wait keeps the invariant. -/
theorem State.Inv.satisfied {w : WaitCond} (ha : row.act = .wait w) (hw : w.holds s.p = true)
    (hm : succLabel row.succ c (pollOnce w s).2 = .ok m) : (((pollOnce w s).2.setPolls 0).setPc m).Inv := by
  obtain ⟨hout, he, -⟩ := pollOnce_sameOutside w s
  obtain ⟨hp, hinit, -⟩ := pollOnce_moves w s
  obtain ⟨hacc, -, -, hcount⟩ := commandInv_row hinv.command hc hrow
  have hmem := succLabel_mem hm
  refine State.Inv.moved hinv hc hrow hmem hout (by simp [he, hc]) rfl (pollOnce_result w s) hinit (hp hinv.periph)
    (Linked.of_satisfied hrow hmem hinv.periph hinv.link ha hw (pollOnce_p w s)) fun hdone => ?_
  have hkept := counterInv_of_row hrow hacc hcount (u := (pollOnce w s).2) (by rw [ha]; exact he) hm hdone
  unfold counterInv scanInv multiReadInv countInv multiWriteInv at *
  exact hkept

/-- An unsatisfied wait keeps the invariant: it stays, counts, or expires below the bound. -/
theorem State.Inv.missed {w : WaitCond} (ha : row.act = .wait w) (hw : w.holds s.p = false) :
    (pollMissed w (pollOnce w s).2).Inv := by
  obtain ⟨⟨-, -, -, hparams, -, -, hscript, -⟩, he, -⟩ := pollOnce_sameOutside w s
  obtain ⟨hp, hinit, hmove⟩ := pollOnce_moves w s
  obtain ⟨hacc, hinit', hnone, hcount⟩ := commandInv_row hinv.command hc hrow
  obtain ⟨-, hspin, hbounded⟩ := pollsInv_iff.1 hinv.polls
  have hwait : s.e.pc.isWait = true := (row_isWait hrow).2 ⟨w, ha⟩
  have hwf : (pollOnce w s).2.params.wellFormed = true := by rw [hparams]; exact hinv.wf
  have hown : ownPrimitives (pollOnce w s).2 = true := by
    unfold ownPrimitives
    rw [hscript]
    exact hinv.own
  have hacc' : c.accepted (pollOnce w s).2.params = true := by rw [hparams]; exact hacc
  have hlink : Linked s.e.pc (pollOnce w s).2.p := Linked.of_missed hrow ha hmove hinv.link
  have stays (n : Nat) (hn : pollsInv ((pollOnce w s).2.setPolls n) = true) : ((pollOnce w s).2.setPolls n).Inv := by
    refine ⟨hwf, hp hinv.periph, commandInv_of_label (c := c) (by simp [he, hc]) hacc' (hinit.trans hinit')
      (.inr (.inr ⟨?_, (pollOnce_result w s).trans hnone, ?_⟩)), hn, ?_, hown⟩
    · simp [he, hrow]
    · unfold counterInv scanInv multiReadInv countInv multiWriteInv at *
      simpa [he] using hcount
    · simpa [he] using hlink
  obtain ⟨hpol, hm⟩ | ⟨hpol, hlast, hm⟩ | ⟨hpol, hcounts, hm⟩ := pollMissed_cases w (pollOnce w s).2 <;> rw [hm]
  · have h0 : (pollOnce w s).2.e.polls = 0 := by rw [he]; exact hspin (hparams ▸ hpol)
    have h := stays 0 (pollsInv_of_zero hwf rfl)
    unfold State.setPolls at h
    rw [← h0] at h
    exact h
  · exact ⟨hwf, hp hinv.periph, commandInv_of_label (c := c) (by simp [takeAbort, he, hc]) hacc' (hinit.trans hinit')
      (.inr (.inl ⟨rfl, by simp [takeAbort]⟩)), pollsInv_of_zero hwf rfl,
      Linked.of_expired hrow ha hmove hinv.link hw, hown⟩
  · refine stays _ (pollsInv_iff.2 ⟨?_, ?_, fun _ => ?_⟩)
    · simp [he, hwait]
    · intro hspin'
      simp [hpol] at hspin'
    · have hlt := hbounded (hparams ▸ hpol)
      rw [he, hparams] at hcounts
      simp only [State.setPolls_e, State.setPolls_params, he, hparams]
      omega

/-- A row keeps the invariant. -/
theorem State.Inv.of_runRow (h : runRow row c s = .next t) : t.Inv := by
  obtain ⟨hacc, -, -, hcount⟩ := commandInv_row hinv.command hc hrow
  have hpolls (ha : ∀ w, row.act ≠ .wait w) : s.e.polls = 0 := by
    refine (pollsInv_iff.1 hinv.polls).1 (Bool.eq_false_iff.2 fun hwait => ?_)
    obtain ⟨w, hw⟩ := (row_isWait hrow).1 hwait
    exact ha w hw
  obtain ⟨w, ha, hpoll⟩ | ⟨ha, hsettle⟩ | ⟨u, l, hd, hu, hl, rfl⟩ := runRow_cases h
  · cases hw : w.holds s.p with
    | true =>
      rw [poll_satisfied hw] at hpoll
      obtain ⟨l, hl, rfl⟩ := advance_next hpoll
      refine State.Inv.satisfied hinv hc hrow ha hw ?_
      cases hs : row.succ <;> rw [hs] at hl <;> exact hl
    | false =>
      rw [poll_missed hw] at hpoll
      cases hpoll
      exact State.Inv.missed hinv hc hrow ha hw
  · unfold settleStep at hsettle
    split at hsettle
    · obtain ⟨l, hl, rfl⟩ := advance_next hsettle
      have hmem := succLabel_mem hl
      have hnot : ∀ w, row.act ≠ .wait w := by simp [ha]
      exact State.Inv.moved hinv hc hrow hmem (SameOutside.refl s) hc (hpolls hnot) rfl rfl hinv.periph
        (Linked.of_moves hrow hmem hinv.periph hinv.link hnot (by rw [ha]; rfl))
        fun hdone => counterInv_of_row hrow hacc hcount (by rw [ha]; rfl) hl hdone
    · cases hsettle
      exact hinv
  · obtain ⟨hmoves, hcounts⟩ := doAct_moves hu
    obtain ⟨hcmd, hpolls'⟩ := hcounts.kept
    have hmem := succLabel_mem hl
    have hnot : ∀ w, row.act ≠ .wait w := by
      intro w hw
      rw [hw] at hd
      cases hd
    exact State.Inv.moved hinv hc hrow hmem (doAct_sameOutside hu) (hcmd.trans hc) (hpolls'.trans (hpolls hnot))
      (doAct_result_pc hu).1 hmoves.initialized (hmoves.keeps_inv hinv.periph)
      (Linked.of_moves hrow hmem hinv.periph hinv.link hnot hmoves)
      fun hdone => counterInv_of_row hrow hacc hcount hcounts hl hdone

end

end Sys2Proof.Machine
end

section
/-! Every step keeps the invariant, and in the invariant a running command's step answers a next state: no fault of
R132 is reached (R65, R66, R84, R144). -/

namespace Sys2Proof.Machine

open Sys2Proof

/-! ## Every step keeps the invariant -/

theorem commandInv_running {s : State} {c : Command} (h : commandInv s = true) (hc : s.e.cmd = some c) :
    s.e.pc ≠ .idle ∧ c.accepted s.params = true ∧ s.p.initialized = true := by
  simp only [commandInv, hc, Bool.and_eq_true, decide_eq_true_eq] at h
  obtain ⟨⟨⟨hpc, hacc⟩, hinit⟩, -⟩ := h
  exact ⟨hpc, hacc, hinit⟩

theorem State.Inv.polls_zero {s : State} (hinv : s.Inv) (hw : s.e.pc.isWait = false) : s.e.polls = 0 :=
  (pollsInv_iff.1 hinv.polls).1 hw

theorem ownPrimitives_congr {s t : State} (h : ownPrimitives s = true) (hs : ∀ k ∈ t.script, k ∈ s.script) :
    ownPrimitives t = true := by
  unfold ownPrimitives at *
  exact List.all_eq_true.2 fun k hk => List.all_eq_true.1 h k (hs k hk)

theorem State.Inv.abortStep {s : State} (hinv : s.Inv) (hpc : s.e.pc = .abort) : (abortStep s).Inv := by
  have hpolls := hinv.polls_zero (by rw [hpc]; rfl)
  obtain ⟨c, hc⟩ := Option.ne_none_iff_exists'.1 ((commandInv_idle hinv.command).not.1 (by simp [hpc]))
  obtain ⟨-, hacc, hinit⟩ := commandInv_running hinv.command hc
  have hsb : s.p.sb = false := by
    refine Bool.eq_false_iff.2 fun hs => ?_
    have hsent := (hinv.link.sent hs).1
    rw [hpc] at hsent
    cases hsent
  refine ⟨hinv.wf, Act.Moves.keeps_inv (a := .issueStop) rfl hinv.periph,
    commandInv_of_label (s := Machine.abortStep s) hc hacc hinit (.inl rfl), pollsInv_of_zero hinv.wf hpolls,
    ⟨rfl, by simp [Machine.abortStep, primIssueStop], ?_, fun _ => .inr rfl⟩, hinv.own⟩
  simp [Machine.abortStep, primIssueStop, hsb]

theorem State.Inv.doneStep {s : State} (hinv : s.Inv) (hpc : s.e.pc = .done) : (doneStep s).Inv := by
  obtain ⟨-, hpending, hsent, hreleased⟩ := hinv.link
  rw [hpc] at hpending hsent hreleased
  exact ⟨hinv.wf, hinv.periph, rfl, pollsInv_of_zero hinv.wf rfl,
    ⟨rfl, fun h => (by cases hpending h), fun h => (by cases (hsent h).1), fun _ => hreleased rfl⟩, hinv.own⟩

theorem State.Inv.engineStep {s t : State} (hinv : s.Inv) (h : engineStep s = .next t) : t.Inv := by
  obtain ⟨-, rfl⟩ | ⟨hpc, rfl⟩ | ⟨hpc, rfl⟩ | ⟨c, row, hc, hrow, h⟩ := engineStep_cases h
  · exact hinv
  · exact hinv.abortStep hpc
  · exact hinv.doneStep hpc
  · exact hinv.of_runRow hc hrow h

/-- What the first label of an operation asks, once the command is accepted: nothing but that the bus is released. -/
theorem Op.firstLabel_facts (c : Command) (e : Engine) (p : Periph) : (stepTable c.op c.op.firstLabel).isSome = true ∧
    counterInv c c.op.firstLabel e = true ∧ labelPeriphInv c.op.firstLabel p = true := by
  have hrow : (stepTable c.op c.op.firstLabel).isSome = true := by cases c.op <;> rfl
  have hlabel : labelPeriphInv c.op.firstLabel p = true := by cases c.op <;> rfl
  refine ⟨hrow, ?_, hlabel⟩
  cases hop : c.op <;> simp [Op.firstLabel, counterInv, hop, scanInv, multiReadInv, multiWriteInv]

/-- Acceptance keeps the invariant (R55). -/
theorem State.Inv.latch {s : State} {c : Command} (hinv : s.Inv) (hpc : s.e.pc = .idle)
    (hacc : c.accepted s.params = true) (hinit : s.p.initialized = true) : (latch c c.op.firstLabel s).Inv := by
  obtain ⟨-, hpending, hsent, hreleased⟩ := hinv.link
  rw [hpc] at hpending hsent hreleased
  obtain ⟨hrow, hcount, hlabel⟩ := Op.firstLabel_facts c { s.e with cmd := some c, pc := c.op.firstLabel } s.p
  refine ⟨hinv.wf, hinv.periph,
    commandInv_of_label (s := Machine.latch c c.op.firstLabel s) rfl hacc hinit (.inr (.inr ⟨hrow, rfl, hcount⟩)),
    pollsInv_of_zero hinv.wf (hinv.polls_zero (by rw [hpc]; rfl)),
    ⟨hlabel, fun h => (by cases hpending h), fun h => (by cases (hsent h).1), fun _ => hreleased rfl⟩, hinv.own⟩

theorem commandOf_accepted {op : Op} {a : Addr7} {r d : Byte} {s : State}
    (h : op.takesBuffer = true → lengthsOk s.params s.side.len s.side.buf) :
    (commandOf op a r d s).accepted s.params = true := by
  simp only [Command.accepted, commandOf, implies_iff, Bool.and_eq_true, and_assoc]
  intro hb
  obtain ⟨h1, h2, h3⟩ := h hb
  exact ⟨decide_eq_true h1, decide_eq_true h2, decide_eq_true h3⟩

theorem State.Inv.rejectCommand {s : State} (hinv : s.Inv) (hpc : s.e.pc = .idle) : (rejectCommand s).Inv := by
  have hc := (commandInv_idle hinv.command).1 hpc
  refine ⟨hinv.wf, hinv.periph, ?_, hinv.polls, hinv.link, hinv.own⟩
  simp [commandInv, Machine.rejectCommand, hc, hpc]

/-- A command word, accepted or rejected, keeps the invariant. -/
theorem State.Inv.runWord_cmd {s t : State} {w : CmdWord} (hinv : s.Inv) (h : runWord (.cmd w) s = .next t) :
    t.Inv := by
  obtain ⟨run, hrun⟩ := runWord_cmd_gated w s
  obtain ⟨hpc, hinit⟩ := ready_of_gated_next (hrun.symm.trans h)
  by_cases hd : ∃ i, decode (.cmd w) = .instr i
  · obtain ⟨i, hi⟩ := hd
    obtain ⟨op, -, -, hexec⟩ := exec_command (decode_eq_instr_iff.1 hi)
    rw [runWord_instr hi, hexec] at h
    obtain ⟨-, ha⟩ | ⟨-, -, ha⟩ | ⟨-, -, -, -, ha⟩ | ⟨-, -, hlen, ha⟩ :=
      accept_cases op (CmdWord.addr w) (CmdWord.reg w) (CmdWord.data w) op.firstLabel s <;> rw [ha] at h <;> cases h
    · exact hinv.rejectCommand hpc
    · exact State.Inv.latch (c := commandOf op _ _ _ s) hinv hpc
        (commandOf_accepted fun hb => (sideOperandsOk_iff s).1 (hlen hb)) hinit
  · rw [runWord_rejects hpc hinit fun i hi => hd ⟨i, hi⟩] at h
    cases h
    exact hinv.rejectCommand hpc

/-- The invariant speaks of no move of the Caller. -/
theorem State.Inv.setCalls {s : State} (hinv : s.Inv) (calls : List Call) (side : SideOperands) :
    ({ s with calls := calls, side := side } : State).Inv :=
  ⟨hinv.wf, hinv.periph, hinv.command, hinv.polls, hinv.link, hinv.own⟩

theorem State.Inv.initCall {s t : State} (hinv : s.Inv) (hpc : s.e.pc = .idle) (h : initCall s = .next t) : t.Inv := by
  have hc := (commandInv_idle hinv.command).1 hpc
  unfold Machine.initCall at h
  split at h <;> cases h
  obtain ⟨h1, h2, h3, h4, h5, h6, h7, h8, h9⟩ := hinv.periph
  obtain ⟨l1, l2, l3, l4⟩ := hinv.link
  refine ⟨hinv.wf, ⟨h1, h2, h3, h4, h5, h6, h7, h8, h9⟩, by simp [commandInv, hc, hpc], hinv.polls, ⟨?_, l2, l3, l4⟩,
    hinv.own⟩
  simp [hpc, labelPeriphInv]

theorem State.Inv.turn {s t : State} (hinv : s.Inv) (h : turn s = .next t) : t.Inv := by
  by_cases hpc : s.e.pc = .idle
  · simp only [Machine.turn, hpc, if_true, callerStep] at h
    split at h
    · cases h; exact hinv
    · rename_i rest _
      exact (hinv.setCalls rest s.side).initCall hpc h
    · exact (hinv.setCalls _ _).runWord_cmd h
  · rw [turn_engine hpc] at h
    exact hinv.engineStep h

theorem EnvMove.initialized {k : EnvStep} {p q : Periph} {evs : List BusEvent} (h : EnvMove p k q evs) :
    q.initialized = p.initialized := by
  cases h with
  | address b k | txDone b k => cases k <;> rfl
  | _ => rfl

theorem State.Inv.envStep {s t : State} {k : EnvStep} (hinv : s.Inv) (hy : s.e.pc.yields = true)
    (hk : envEnabled k s.p = true) (h : envStep k s = .next t) : t.Inv := by
  obtain ⟨⟨he, hresult, -, -, -, -, -, hparams, -, -, hscript, -⟩, evs, hmove, -⟩ := envStep_move h hk
  refine ⟨hparams ▸ hinv.wf, hmove.keeps_inv hinv.periph, ?_, ?_, he ▸ hmove.keeps_link hy hinv.link, ?_⟩
  · have hcmd := hinv.command
    unfold commandInv at hcmd ⊢
    rw [he, hparams, hresult, hmove.initialized]
    exact hcmd
  · have hpolls := hinv.polls
    unfold pollsInv at hpolls ⊢
    rwa [he, hparams]
  · exact ownPrimitives_congr hinv.own (hscript ▸ fun _ hk => hk)

/-- Consuming a schedule entry keeps the invariant. -/
theorem State.Inv.consumed {s u : State} (hinv : s.Inv) (hu : Consumed s u) : u.Inv := by
  obtain rfl | ⟨c, rest, hs, rfl⟩ | ⟨hs, -, hu⟩ := hu
  · exact hinv
  · exact ⟨hinv.wf, hinv.periph, hinv.command, hinv.polls, hinv.link,
      ownPrimitives_congr hinv.own fun k hk => by rw [hs]; exact List.mem_cons_of_mem _ hk⟩
  · rw [hu]
    exact ⟨hinv.wf, hinv.periph, hinv.command, hinv.polls, hinv.link, hinv.own⟩

theorem Periph.Inv.reset (b : Bool) : (Periph.reset b).Inv := by
  constructor <;> simp [Periph.reset, Periph.targetOk]

/-- A hardware reset brings a state of the invariant (R143, R144). -/
theorem State.Inv.hardwareReset {s : State} (hinv : s.Inv) (l : Launch) : (hardwareReset l s).Inv :=
  ⟨hinv.wf, Periph.Inv.reset l.extBusy, rfl, pollsInv_of_zero hinv.wf rfl,
    ⟨rfl, fun h => (by cases h), fun h => (by cases h), fun _ => .inl rfl⟩, hinv.own⟩

theorem State.Inv.no_prim {s : State} {w : PrimWord} {rest : List Pick} (hinv : s.Inv)
    (hs : s.script = .prim w :: rest) : False := by
  have hown := hinv.own
  simp [ownPrimitives, hs] at hown

/-- Every step keeps the invariant: every schedule, every oracle, both wait policies, hardware resets. -/
theorem State.Inv.step {s t : State} (hinv : s.Inv) (h : step s = .next t) : t.Inv := by
  obtain ⟨l, rest, hs, hl⟩ | ⟨w, rest, hs, -⟩ | ⟨u, hu, hmove⟩ := step_cases s
  · rw [hl] at h
    cases h
    have hrest : ({ s with script := rest } : State).Inv := ⟨hinv.wf, hinv.periph, hinv.command, hinv.polls, hinv.link,
      ownPrimitives_congr hinv.own fun k hk => by rw [hs]; exact List.mem_cons_of_mem _ hk⟩
    exact hrest.hardwareReset l
  · exact (hinv.no_prim hs).elim
  · obtain ⟨k, hy, hk, hstep⟩ | ht := hmove
    · exact (hinv.consumed hu).envStep hy hk (hstep ▸ h)
    · exact (hinv.consumed hu).turn (ht ▸ h)

/-! ## A running command's step answers -/

section
variable {s : State} {c : Command} {row : Row} (hinv : s.Inv) (hc : s.e.cmd = some c)
  (hrow : stepTable c.op s.e.pc = some row)

/-- The rows with a choice of successor (R87). -/
theorem row_succ {op : Op} {l : Label} {row : Row} (h : stepTable op l = some row) :
    (∃ m, row.succ = .goto m) ∨ (op = .scan ∧ row = ⟨.nextProbe, .ifSa .probeStart .done⟩) ∨
    (op = .readMemoryMulti ∧ l = .loop ∧ row = ⟨.test, .ifRem .rxneWaitN .disableAck⟩) ∨
    (op = .writeMemoryMulti ∧ l = .transferComplete ∧ row = ⟨.wait .btf, .ifIdx .dataByte .stop⟩) := by
  cases op <;> cases l <;> cases h <;> simp

include hinv hc hrow in
/-- The register that a choice of successor tests is written. -/
theorem succLabel_answers {u : State} (hu : row.act.Counts c s.e u.e) : ∃ m, succLabel row.succ c u = .ok m := by
  obtain ⟨-, -, -, hcount⟩ := commandInv_row hinv.command hc hrow
  obtain ⟨m, hm⟩ | ⟨-, rfl⟩ | ⟨hop, hpc, rfl⟩ | ⟨hop, hpc, rfl⟩ := row_succ hrow
  · exact ⟨m, by rw [hm]; rfl⟩
  · obtain ⟨n, -, hu⟩ := hu
    exact ⟨_, by simp only [succLabel, hu, readWritten_some]; rfl⟩
  · have hu : u.e = s.e := hu
    simp only [counterInv, hop, hpc, multiReadInv] at hcount
    obtain ⟨i, r, -, hr, -⟩ := countInv_iff.1 hcount
    exact ⟨_, by simp only [succLabel, hu, hr, readWritten_some]; rfl⟩
  · have hu : u.e = s.e := hu
    cases hi : s.e.idx with
    | none => simp [counterInv, hop, hpc, multiWriteInv, hi] at hcount
    | some i => exact ⟨_, by simp only [succLabel, hu, hi, readWritten_some]; rfl⟩

/-- A byte can be written where the peripheral is in phase (R65). -/
theorem primWriteDr_answers (b : Byte) (h : s.p.mode = .pStart ∨ s.p.mode = .pTx ∧ s.p.drTx = none) :
    ∃ u, primWriteDr b s = .ok u := by
  obtain hm | ⟨hm, hd⟩ := h
  · exact ⟨_, by simp only [primWriteDr, hm]; rfl⟩
  · exact ⟨_, by simp only [primWriteDr, hm, hd, if_true]; rfl⟩

theorem primReadDr_answers (h : s.p.drRx ≠ none) : ∃ v u, primReadDr s = .ok (v, u) := by
  obtain ⟨v, hv⟩ := Option.ne_none_iff_exists'.1 h
  exact ⟨v, _, by simp only [primReadDr, hv, readWritten_some]; rfl⟩

/-- The rows that read an engine register in their action. -/
theorem row_reads {op : Op} {l : Label} {row : Row} (h : stepTable op l = some row) :
    (row.act = .sendProbe ∨ row.act = .inspect ∨ row.act = .nextProbe → op = .scan ∧ l ≠ .scanInit) ∧
    (row.act = .sendBuf → op = .writeMemoryMulti ∧ l = .dataByte) := by
  cases op <;> cases l <;> cases h <;> simp

/-- What the placement of an action says of the Bus Interface, by the link. -/
theorem Linked.of_placed {op : Op} {l : Label} {row : Row} {p : Periph} (hl : Linked l p)
    (hrow : stepTable op l = some row) :
    (row.act.sends = true → p.mode = .pStart ∨ p.mode = .pTx ∧ p.drTx = none) ∧
    (row.act = .captureRdata ∨ row.act = .captureBuf → p.drRx ≠ none) := by
  have hlabel := hl.label
  have hplaced := row_placed hrow
  constructor
  · intro hsend
    cases ha : row.act <;> rw [ha] at hsend hplaced <;> cases hsend <;>
      simp only [Act.placedAt, Bool.or_eq_true, decide_eq_true_eq, or_assoc] at hplaced <;>
      (obtain rfl | rfl | rfl := hplaced) <;> simp [labelPeriphInv] at hlabel <;> simp [hlabel]
  · rintro (ha | ha) <;> rw [ha] at hplaced <;>
      simp only [Act.placedAt, Bool.or_eq_true, decide_eq_true_eq] at hplaced <;>
      obtain rfl | rfl := hplaced <;> simpa [labelPeriphInv, Option.isSome_iff_ne_none] using hlabel

include hinv hc hrow in
/-- Every action of the tables answers in the invariant. -/
theorem doAct_answers : ∃ u, doAct row.act c s = .ok u := by
  obtain ⟨hacc, -, -, hcount⟩ := commandInv_row hinv.command hc hrow
  obtain ⟨hsends, hcaptures⟩ := hinv.link.of_placed hrow
  obtain ⟨hscan, hbuf⟩ := row_reads hrow
  have write (b : Byte) (ha : row.act.sends = true) : ∃ u, primWriteDr b s = .ok u := primWriteDr_answers b (hsends ha)
  have candidate (ha : row.act = .sendProbe ∨ row.act = .inspect ∨ row.act = .nextProbe) : ∃ n, s.e.sa = some n := by
    obtain ⟨hop, hl⟩ := hscan ha
    simp only [counterInv, hop] at hcount
    obtain ⟨n, hn, -⟩ := (scanInv_iff hl).1 hcount
    exact ⟨n, hn⟩
  have range (hop : c.op.takesBuffer = true) : c.len ≤ c.buf.size := by
    simp only [Command.accepted, implies_iff, hop, Bool.and_eq_true, decide_eq_true_eq, true_imp_iff] at hacc
    exact hacc.2
  cases ha : row.act <;> rw [ha] at write candidate hcaptures hbuf
  case sendAddr d => exact write _ rfl
  case sendReg | sendData => exact write _ rfl
  case sendProbe =>
    obtain ⟨n, hn⟩ := candidate (.inl rfl)
    simp only [doAct, hn, readWritten_some, bind, Except.bind]
    exact write _ rfl
  case sendRegClearIdx =>
    obtain ⟨u, hu⟩ := write c.reg rfl
    exact ⟨_, by rw [doAct_sendRegClearIdx, hu]; rfl⟩
  case sendBuf =>
    obtain ⟨hop, hpc⟩ := hbuf rfl
    cases hi : s.e.idx with
    | none => simp [counterInv, hop, hpc, multiWriteInv, hi] at hcount
    | some i =>
      have hsize : i < c.buf.size := by
        simp only [counterInv, hop, hpc, multiWriteInv, hi, decide_eq_true_eq] at hcount
        have := range (by rw [hop]; rfl)
        omega
      obtain ⟨u, hu⟩ := write (s.mem.read (c.buf.base + i)) rfl
      exact ⟨_, by
        simp only [doAct, actSendBuf, hi, readWritten_some, bufRead, hsize, if_true, bind, Except.bind, hu]
        rfl⟩
  case captureRdata =>
    obtain ⟨v, u, hu⟩ := primReadDr_answers (hcaptures (.inl rfl))
    exact ⟨_, by simp only [doAct, actCaptureRdata, bind, Except.bind, hu]; rfl⟩
  case captureBuf =>
    obtain ⟨hop, hpc⟩ := stepTable_captureBuf hrow ha
    obtain ⟨i, r, hi, hr, hsum, hpos⟩ : ∃ i r, s.e.idx = some i ∧ s.e.rem = some r ∧ i + r = c.len ∧ 1 ≤ r := by
      obtain hpc | hpc := hpc <;> simp only [counterInv, hop, hpc, multiReadInv] at hcount <;>
        obtain ⟨i, r, hi, hr, hsum, hpos⟩ := countInv_iff.1 hcount <;>
        exact ⟨i, r, hi, hr, hsum, by simp at hpos; omega⟩
    obtain ⟨v, u, hu⟩ := primReadDr_answers (hcaptures (.inr rfl))
    have hsize : i < c.buf.size := by
      have := range (by rw [hop]; rfl)
      omega
    exact ⟨_, by
      simp only [doAct, actCaptureBuf, hi, hr, readWritten_some, bind, Except.bind, hu, bufWrite, hsize, if_true]; rfl⟩
  case inspect =>
    obtain ⟨n, hn⟩ := candidate (.inr (.inl rfl))
    exact ⟨_, by simp only [doAct, actInspect, hn, readWritten_some, bind, Except.bind]; rfl⟩
  case nextProbe =>
    obtain ⟨n, hn⟩ := candidate (.inr (.inr rfl))
    exact ⟨_, by simp only [doAct, hn, readWritten_some, bind, Except.bind]; rfl⟩
  all_goals exact ⟨_, rfl⟩

include hinv hc hrow in
theorem runRow_answers : ∃ t, runRow row c s = .next t := by
  obtain ⟨u, hu⟩ := doAct_answers hinv hc hrow
  obtain ⟨-, hcounts⟩ := doAct_moves hu
  obtain ⟨m, hm⟩ := succLabel_answers hinv hc hrow hcounts
  obtain ⟨a, k⟩ := row
  cases hd : a.isDirect with
  | true => exact ⟨_, (runRow_of_ok hd hu).trans (advance_of_succLabel hm)⟩
  | false =>
    cases a <;> cases hd <;> cases hu
    · rename_i w
      rw [runRow_wait]
      cases hw : w.holds s.p with
      | false => exact ⟨_, poll_missed hw⟩
      | true =>
        obtain ⟨-, he, -⟩ := exec_pollInstr w s
        have hm' : succLabel k c ((pollOnce w s).2.setPolls 0) = .ok m := by
          rw [← hm]
          cases k <;> simp [succLabel, he]
        exact ⟨_, (poll_satisfied hw).trans (advance_of_succLabel hm')⟩
    · rw [runRow_settle]
      unfold settleStep
      split
      · exact ⟨_, advance_of_succLabel hm⟩
      · exact ⟨_, rfl⟩

end

/-- In the invariant the engine's turn answers while a command runs. -/
theorem turn_answers {s : State} (hinv : s.Inv) (hpc : s.e.pc ≠ .idle) : ∃ t, turn s = .next t := by
  rw [turn_engine hpc]
  by_cases habort : s.e.pc = .abort
  · exact ⟨_, engineStep_abort habort⟩
  by_cases hdone : s.e.pc = .done
  · exact ⟨_, engineStep_done hdone⟩
  obtain ⟨c, hc⟩ := Option.ne_none_iff_exists'.1 ((commandInv_idle hinv.command).not.1 hpc)
  have hrow : (stepTable c.op s.e.pc).isSome = true := by
    have hcmd := hinv.command
    simp only [commandInv, hc, Bool.and_eq_true] at hcmd
    simp_all
  obtain ⟨row, hrow⟩ := Option.isSome_iff_exists.1 hrow
  rw [engineStep_row hc hrow]
  exact runRow_answers hinv hc hrow

/-- In the invariant every step answers while a command runs. -/
theorem step_answers {s : State} (hinv : s.Inv) (hpc : s.e.pc ≠ .idle) : ∃ t, step s = .next t := by
  obtain ⟨l, rest, -, hl⟩ | ⟨w, rest, hs, -⟩ | ⟨u, hu, hmove⟩ := step_cases s
  · exact ⟨_, hl⟩
  · exact (hinv.no_prim hs).elim
  · obtain ⟨k, -, -, hk⟩ | ht := hmove
    · rw [hk]
      exact envStep_answers k u
    · rw [ht]
      refine turn_answers (hinv.consumed hu) ?_
      obtain ⟨sc, n, w, d, rfl⟩ := hu.eq_rescheduled
      exact hpc

end Sys2Proof.Machine
end

section
/-! Under BOUNDED every command comes back to IDLE (R93): an engine step brings a running command closer to its end, an
environment step brings the environment closer to rest, and a fair schedule lets neither wait for ever (R70). -/

namespace Sys2Proof.Machine

open Sys2Proof

/-! ## What is left of a command -/

/-- The labels of an operation in the order in which it leaves them for the last time. In the loop of the multi-byte
write the byte that is sent counts the loop down, so its label stands last (R121). -/
def Op.path : Op → List Label
  | .scan => [.scanInit, .probeStart, .probeStartWait, .probeAddr, .settle, .probeStop, .inspect, .probeClear, .next]
  | .writeByte =>
    [.busFreeWait, .start, .startWait, .addrWrite, .addrAcked, .clearAddr, .txeWait, .dataByte, .transferComplete, .stop]
  | .writeMemoryByte =>
    [.busFreeWait, .start, .startWait, .addrWrite, .addrAcked, .clearAddr, .txeWait, .registerByte, .regTxeWait,
      .dataByte, .transferComplete, .stop]
  | .readByte => [.start, .startWait, .addrRead, .addrAcked, .disableAck, .clearAddr, .stop, .rxneWait, .capture]
  | .readMemoryByte =>
    [.start, .startWait, .addrWrite, .addrAcked, .clearAddr, .txeWait, .registerByte, .regTxeWait, .restart,
      .restartWait, .addrRead, .addrAckedR, .disableAck, .clearAddrR, .stop, .rxneWait, .capture]
  | .readMemoryMulti =>
    [.start, .startWait, .addrWrite, .addrAcked, .clearAddr, .txeWait, .registerByte, .regTxeWait, .restart,
      .restartWait, .addrRead, .addrAckedR, .initAck, .clearAddrR, .loop, .rxneWaitN, .captureN, .disableAck, .stop,
      .rxneWait, .capture]
  | .writeMemoryMulti =>
    [.start, .startWait, .addrWrite, .addrAcked, .clearAddr, .txeWait, .registerByte, .regTxeWait, .transferComplete,
      .dataByte, .stop]

/-- Passes of the operation's loop still to come at a label (R87, R88). -/
def loopsLeft (c : Command) (l : Label) (e : Engine) : Nat :=
  match c.op with
  | .scan => if l = .scanInit then 128 else 128 - e.sa.getD 0
  | .readMemoryMulti =>
    if l ∈ [Label.loop, .rxneWaitN, .captureN, .disableAck, .stop, .rxneWait, .capture] then e.rem.getD 0 else c.len
  | .writeMemoryMulti =>
    if l ∈ [Label.regTxeWait, .dataByte, .transferComplete, .stop] then c.len - e.idx.getD 0 else c.len
  | .writeByte | .writeMemoryByte | .readByte | .readMemoryByte => 0

/-- The rows that end a pass of a loop. -/
def endsPass (op : Op) (l : Label) : Bool :=
  match op with
  | .scan => decide (l = .next)
  | .readMemoryMulti => decide (l = .captureN)
  | .writeMemoryMulti => decide (l = .dataByte)
  | .writeByte | .writeMemoryByte | .readByte | .readMemoryByte => false

/-- Labels still to come, at most. No path has more than 21 labels. -/
def stagesLeft (c : Command) (l : Label) (e : Engine) : Nat :=
  match l with
  | .idle => 0
  | .done => 1
  | .abort => 2
  | l => 3 + 30 * loopsLeft c l e + (29 - c.op.path.idxOf l)

theorem stagesLeft_eq {c : Command} {l : Label} {e : Engine} (h : l ≠ .idle ∧ l ≠ .done ∧ l ≠ .abort) :
    stagesLeft c l e = 3 + 30 * loopsLeft c l e + (29 - c.op.path.idxOf l) := by
  unfold stagesLeft
  split <;> simp_all

section
variable {l m : Label} {row : Row} {c : Command} {e : Engine} {u : State}
  (hrow : stepTable c.op l = some row) (hcount : counterInv c l e = true) (hu : row.act.Counts c e u.e)
  (hm : succLabel row.succ c u = .ok m)
include hrow hcount hu hm

/-- A row never adds a pass of the loop, and takes one where it ends a pass. -/
theorem loopsLeft_of_row : m = .done ∨
    loopsLeft c m u.e + (if endsPass c.op l = true then 1 else 0) ≤ loopsLeft c l e := by
  cases hop : c.op <;> rw [hop] at hrow <;> simp only [counterInv, hop] at hcount <;>
    simp only [loopsLeft, endsPass, hop]
  case scan =>
    cases l <;> cases hrow
    case scanInit =>
      cases hm
      simp [show u.e = { e with sa := some 0 } from hu]
    case next =>
      obtain ⟨n, hn, hu⟩ := hu
      obtain ⟨n', hn', hlt⟩ := (scanInv_iff (l := .next) (by simp)).1 hcount
      cases hn.symm.trans hn'
      simp only [succLabel, hu, readWritten_some, Except.map, Except.ok.injEq] at hm
      split at hm <;> subst hm
      · refine .inr ?_
        simp [hu, hn]
        omega
      · exact .inl rfl
    case inspect =>
      cases hm
      obtain ⟨x, hu⟩ := hu
      simp [hu]
    all_goals
      cases hm
      simp [show u.e = e from hu]
  case readMemoryMulti =>
    cases l <;> cases hrow
    case clearAddrR =>
      cases hm
      simp [show u.e = { e with rem := some c.len, idx := some 0 } from hu]
    case loop =>
      have hu : u.e = e := hu
      obtain ⟨i, r, -, hr, -⟩ := (countInv_iff (l := .loop)).1 hcount
      simp only [succLabel, hu, hr, readWritten_some, Except.map, Except.ok.injEq] at hm
      split at hm <;> subst hm <;> simp [hu]
    case captureN =>
      cases hm
      obtain ⟨i, r, -, hr, hu⟩ := hu
      obtain ⟨i', r', -, hr', -, hpos⟩ := (countInv_iff (l := .captureN)).1 hcount
      cases hr.symm.trans hr'
      simp at hpos
      simp [hu, hr]
      omega
    case capture =>
      cases hm
      exact .inl rfl
    all_goals
      cases hm
      simp [show u.e = e from hu]
  case writeMemoryMulti =>
    cases l <;> cases hrow
    case registerByte =>
      cases hm
      simp [show u.e = { e with idx := some 0 } from hu]
    case regTxeWait =>
      cases hm
      simp [show u.e = e from hu]
    case dataByte =>
      cases hm
      obtain ⟨i, hi, hu⟩ := hu
      simp [multiWriteInv, hi] at hcount
      simp [hu, hi]
      omega
    case transferComplete =>
      have hu : u.e = e := hu
      cases hi : e.idx with
      | none => simp [multiWriteInv, hi] at hcount
      | some i =>
        simp only [succLabel, hu, hi, readWritten_some, Except.map, Except.ok.injEq] at hm
        split at hm <;> subst hm <;> simp [hu, hi]
    case stop =>
      cases hm
      exact .inl rfl
    all_goals
      cases hm
      simp
  all_goals simp

omit hcount hu in
/-- A row moves on along the path, unless it ends a pass of the loop. -/
theorem path_of_row : m = .done ∨ (endsPass c.op l = true ∨ c.op.path.idxOf l < c.op.path.idxOf m) ∧
    c.op.path.idxOf m < 29 := by
  have hall : everyRow (fun op l row => row.succ.targets.all fun m => decide (m = .done) ||
    ((endsPass op l || decide (op.path.idxOf l < op.path.idxOf m)) && decide (op.path.idxOf m < 29))) = true := by
    decide
  have h := List.all_eq_true.1 (of_everyRow hall hrow) m (succLabel_mem hm)
  simpa only [Bool.or_eq_true, Bool.and_eq_true, decide_eq_true_eq] using h

theorem stagesLeft_of_row : stagesLeft c m u.e < stagesLeft c l e := by
  have hl := pc_of_row hrow
  have hlhs : stagesLeft c l e = 3 + 30 * loopsLeft c l e + (29 - c.op.path.idxOf l) := stagesLeft_eq hl
  obtain rfl | ⟨hpos, hlt⟩ := path_of_row hrow hm
  · rw [hlhs]
    simp only [stagesLeft]
    omega
  obtain rfl | hloops := loopsLeft_of_row hrow hcount hu hm
  · rw [hlhs]
    simp only [stagesLeft]
    omega
  obtain hm' | hm' := row_target hrow (succLabel_mem hm)
  · rw [hlhs, hm']
    simp only [stagesLeft]
    omega
  · obtain ⟨row', hrow'⟩ := Option.isSome_iff_exists.1 hm'
    rw [hlhs, stagesLeft_eq (pc_of_row hrow')]
    obtain hend | hpos := hpos
    · simp only [hend, if_true] at hloops
      omega
    · split at hloops <;> omega

end

/-! ## Every turn of the engine brings the command closer to its end -/

/-- The scan's settle waits for the address phase. -/
def State.unresolved (s : State) : Prop := s.e.pc = .settle ∧ s.p.addrResolved = false

/-- What is left of the command in progress: labels still to come, polls left at this one, and whether a settle still
holds. A label takes less of it than moving on to the next one gives back. -/
def State.rank (s : State) : Nat :=
  match s.e.cmd with
  | none => 0
  | some c =>
    stagesLeft c s.e.pc s.e * (s.params.timeoutPolls + 2) + (s.params.timeoutPolls - s.e.polls) +
      (if s.e.pc = .settle ∧ s.p.addrResolved = false then 1 else 0)

theorem State.rank_eq {s : State} {c : Command} (hc : s.e.cmd = some c) : s.rank =
    stagesLeft c s.e.pc s.e * (s.params.timeoutPolls + 2) + (s.params.timeoutPolls - s.e.polls) +
      (if s.e.pc = .settle ∧ s.p.addrResolved = false then 1 else 0) := by
  simp [State.rank, hc]

/-- A label left behind outweighs all polls. -/
theorem rank_lt_of_stages {s t : State} {c : Command} (hc : s.e.cmd = some c) (hparams : t.params = s.params)
    (hcmd : t.e.cmd = none ∨ t.e.cmd = some c) (h : stagesLeft c t.e.pc t.e < stagesLeft c s.e.pc s.e) :
    t.rank < s.rank := by
  have hmul := Nat.mul_le_mul_right (s.params.timeoutPolls + 2) h
  rw [State.rank_eq hc]
  obtain hcmd | hcmd := hcmd
  · simp only [State.rank, hcmd]
    rw [Nat.succ_mul] at hmul
    omega
  · rw [State.rank_eq hcmd, hparams]
    rw [Nat.succ_mul] at hmul
    split <;> omega

section
variable {s t : State} {c : Command} {row : Row} (hinv : s.Inv) (hpol : s.params.policy = .bounded)
  (hc : s.e.cmd = some c)
include hinv hpol hc

/-- A missed poll takes a poll, or gives the command up (R91, R93). -/
theorem rank_missed {w : WaitCond} (hrow : stepTable c.op s.e.pc = some row) :
    (pollMissed w (pollOnce w s).2).rank < s.rank := by
  obtain ⟨⟨-, -, -, hparams, -⟩, he, -⟩ := pollOnce_sameOutside w s
  have hbound := (pollsInv_iff.1 hinv.polls).2.2 hpol
  obtain ⟨hspin, -⟩ | ⟨-, -, hm⟩ | ⟨-, -, hm⟩ := pollMissed_cases w (pollOnce w s).2
  · rw [hparams, hpol] at hspin
    cases hspin
  · rw [hm]
    refine rank_lt_of_stages hc hparams (.inr (by simp [takeAbort, he, hc])) ?_
    rw [stagesLeft_eq (pc_of_row hrow)]
    simp only [takeAbort, stagesLeft]
    omega
  · rw [hm, State.rank_eq hc, State.rank_eq (c := c) (by simp [he, hc])]
    have hres : s.e.pc = .settle ∧ (pollOnce w s).2.p.addrResolved = false ↔
        s.e.pc = .settle ∧ s.p.addrResolved = false := by
      obtain hp | ⟨-, hp⟩ := pollOnce_p w s <;> rw [hp]
      rw [Periph.clearAddr_frame]
    have hstages : stagesLeft c s.e.pc { s.e with polls := s.e.polls + 1 } = stagesLeft c s.e.pc s.e := rfl
    simp only [State.setPolls_e, State.setPolls_p, State.setPolls_params, he, hparams, hres, hstages]
    omega

theorem rank_runRow (hrow : stepTable c.op s.e.pc = some row) (h : runRow row c s = .next t) :
    t.rank < s.rank ∨ s.unresolved ∧ t = s := by
  obtain ⟨-, -, -, hcount⟩ := commandInv_row hinv.command hc hrow
  have moved {u : State} {m : Label} (hparams : u.params = s.params) (hcmd : u.e.cmd = some c)
      (hstages : stagesLeft c m u.e < stagesLeft c s.e.pc s.e) : (u.setPc m).rank < s.rank :=
    rank_lt_of_stages hc hparams (.inr hcmd) (by exact hstages)
  obtain ⟨w, ha, hpoll⟩ | ⟨ha, hsettle⟩ | ⟨u, l, -, hu, hl, rfl⟩ := runRow_cases h
  · obtain ⟨⟨-, -, -, hparams, -⟩, he, -⟩ := pollOnce_sameOutside w s
    cases hw : w.holds s.p with
    | true =>
      rw [poll_satisfied hw] at hpoll
      obtain ⟨l, hl, rfl⟩ := advance_next hpoll
      have hl' : succLabel row.succ c (pollOnce w s).2 = .ok l := by
        rw [← hl]
        cases row.succ <;> rfl
      have hstages := stagesLeft_of_row hrow hcount (by rw [ha]; exact he) hl'
      exact .inl (moved (u := (pollOnce w s).2.setPolls 0) hparams (by simp [he, hc]) (by exact hstages))
    | false =>
      rw [poll_missed hw] at hpoll
      cases hpoll
      exact .inl (rank_missed hinv hpol hc hrow)
  · unfold settleStep at hsettle
    split at hsettle
    · obtain ⟨l, hl, rfl⟩ := advance_next hsettle
      exact .inl (moved rfl hc (stagesLeft_of_row hrow hcount (by rw [ha]; rfl) hl))
    · rename_i hres
      cases hsettle
      have hplaced := row_placed hrow
      rw [ha] at hplaced
      exact .inr ⟨⟨of_decide_eq_true hplaced, by simpa using hres⟩, rfl⟩
  · obtain ⟨-, hcounts⟩ := doAct_moves hu
    obtain ⟨-, -, -, hparams, -⟩ := doAct_sameOutside hu
    exact .inl (moved hparams (hcounts.kept.1.trans hc) (stagesLeft_of_row hrow hcount hcounts hl))

end

/-- Each turn of the engine takes something of what is left of its command, but where a settle holds. -/
theorem rank_turn {s t : State} (hinv : s.Inv) (hpol : s.params.policy = .bounded) (hpc : s.e.pc ≠ .idle)
    (h : turn s = .next t) : t.rank < s.rank ∨ s.unresolved ∧ t = s := by
  obtain ⟨c, hc⟩ := Option.ne_none_iff_exists'.1 ((commandInv_idle hinv.command).not.1 hpc)
  rw [turn_engine hpc] at h
  obtain ⟨hidle, -⟩ | ⟨hpc, rfl⟩ | ⟨hpc, rfl⟩ | ⟨c', row, hc', hrow, h⟩ := engineStep_cases h
  · exact absurd hidle hpc
  · exact .inl (rank_lt_of_stages hc rfl (.inr hc) (by rw [hpc]; exact Nat.lt_succ_self 1))
  · exact .inl (rank_lt_of_stages hc rfl (.inl rfl) (by rw [hpc]; exact Nat.lt_succ_self 0))
  · exact rank_runRow hinv hpol hc' hrow h

/-! ## Every step of the environment brings it closer to rest -/

/-- What the environment can still do by itself. -/
def Periph.unrest (p : Periph) : Nat :=
  p.reqStop.toNat + p.reqStart.toNat + p.mode.isAddr.toNat + 2 * p.drTx.isSome.toNat + p.shift.isSome.toNat +
    (decide (p.mode = .pRx) && !p.rxne).toNat

/-- An environment step takes something of it; the change of `EXT_BUSY` leaves it. -/
theorem EnvMove.unrest {k : EnvStep} {p q : Periph} {evs : List BusEvent} (h : EnvMove p k q evs) :
    q.unrest ≤ p.unrest ∧ ((∀ b, k ≠ .extBusy b) → q.unrest < p.unrest) := by
  suffices hlt : (∀ b, k ≠ .extBusy b) → q.unrest < p.unrest by
    refine ⟨?_, hlt⟩
    cases h with
    | extBusy => exact Nat.le_refl _
    | _ => exact Nat.le_of_lt (hlt (by simp))
  intro hk
  cases h with
  | extBusy b => exact absurd rfl (hk b)
  | stop hreq | start hreq =>
    simp only [Periph.unrest, Periph.started, hreq, PMode.isAddr, Option.isSome_none, Bool.toNat_true, Bool.toNat_false,
      reduceCtorEq, decide_false, Bool.false_and]
    omega
  | drop hreq => simp [Periph.unrest, hreq]
  | address b k hmode =>
    cases k with
    | false => simp [Periph.unrest, Periph.addressed, hmode, PMode.isAddr]
    | true =>
      cases hd : dirOfByte b <;> simp [Periph.unrest, Periph.addressed, hmode, PMode.isAddr]
  | txShift b hmode hdr hshift => simp [Periph.unrest, hmode, hdr, hshift]
  | txDone b k hmode hshift => cases k <;> simp [Periph.unrest, Periph.sent, hmode, hshift, PMode.isAddr]
  | receive v hmode hrxne =>
    simp only [Periph.unrest, Periph.received, hmode, hrxne]
    split <;> simp [PMode.isAddr]

/-- No environment step undoes the address phase. -/
theorem EnvMove.resolved {k : EnvStep} {p q : Periph} {evs : List BusEvent} (h : EnvMove p k q evs)
    (hp : p.addrResolved = true) : q.addrResolved = true := by
  cases h with
  | address b k => cases k <;> rfl
  | txDone b k => cases k <;> exact hp
  | _ => exact hp

/-- An environment step adds nothing to what is left of the command, and takes something where it resolves a settle. -/
theorem rank_env {s t : State} {c : Command} (hc : s.e.cmd = some c) (hparams : t.params = s.params) (he : t.e = s.e)
    (hres : s.p.addrResolved = true → t.p.addrResolved = true) :
    t.rank ≤ s.rank ∧ (s.unresolved → t.p.addrResolved = true → t.rank < s.rank) := by
  rw [State.rank_eq hc, State.rank_eq (he ▸ hc), he, hparams]
  constructor
  · have hfewer : s.e.pc = .settle ∧ t.p.addrResolved = false → s.e.pc = .settle ∧ s.p.addrResolved = false :=
      fun ⟨hpc, ht⟩ => ⟨hpc, by cases h : s.p.addrResolved <;> simp_all⟩
    split
    · rw [if_pos (hfewer ‹_›)]
    · omega
  · rintro ⟨hpc, hs⟩ ht
    simp [hpc, hs, ht]

/-! ## The schedule lets neither wait for ever -/

/-- A state whose schedule stands elsewhere. -/
def State.scheduled (s : State) (picks : Nat) (waiting : Option (EnvStep × Nat)) (patience : Nat) : State :=
  { s with picks, waiting, patience }

theorem State.Inv.scheduled {s : State} (h : s.Inv) (i : Nat) (w : Option (EnvStep × Nat)) (n : Nat) :
    (s.scheduled i w n).Inv :=
  ⟨h.wf, h.periph, h.command, h.polls, h.link, h.own⟩

/-- Where nothing is scripted a step of a running command is the engine's turn, or an environment step; an environment
step adds no patience, and the change of `EXT_BUSY` takes some (R70, log 4). -/
theorem step_fair {s : State} (hs : s.script = []) (hpc : s.e.pc ≠ .idle) :
    ∃ i w n, step s = turn (s.scheduled i w n) ∨ ∃ k, s.e.pc.yields = true ∧ envEnabled k s.p = true ∧
      step s = envStep k (s.scheduled i w n) ∧ n ≤ s.patience ∧ ((∃ b, k = .extBusy b) → n < s.patience) := by
  obtain hf | hf := Bool.eq_false_or_eq_true s.freeTail
  case inr =>
    refine ⟨s.picks, s.waiting, s.patience, ?_⟩
    rw [step_reference ⟨hs, hf⟩]
    unfold referenceStep
    split
    · rename_i hy
      cases hk : firstEnabled s.p with
      | none => exact .inl rfl
      | some k =>
        exact .inr ⟨k, hy, firstEnabled_enabled hk, rfl, Nat.le_refl _,
          fun ⟨b, hb⟩ => absurd hb (firstEnabled_ne_extBusy hk b)⟩
    · exact .inl rfl
  case inl =>
    rw [step_free hs hf]
    have unforced (w : Option (EnvStep × Nat)) (h : freeStep s = unforcedStep { s with waiting := w }) :
        ∃ i w n, freeStep s = turn (s.scheduled i w n) ∨ ∃ k, s.e.pc.yields = true ∧ envEnabled k s.p = true ∧
          freeStep s = envStep k (s.scheduled i w n) ∧ n ≤ s.patience ∧ ((∃ b, k = .extBusy b) → n < s.patience) := by
      cases hp : s.patience with
      | zero => exact ⟨_, _, _, .inl (h.trans (unforcedStep_turn hpc hp))⟩
      | succ n =>
        rw [unforcedStep_chosen (s := { s with waiting := w }) hpc hp] at h
        refine ⟨s.picks + 1, w, n, ?_⟩
        obtain ⟨k, hy, hk, hstep⟩ | hturn := chosenStep_cases (Config.freeChoice s.picks)
          (s.scheduled (s.picks + 1) w n)
        · exact .inr ⟨k, hy, hk, h.trans hstep, Nat.le_succ n, fun _ => Nat.lt_succ_self n⟩
        · exact .inl (h.trans hturn)
    obtain hy | hy := Bool.eq_false_or_eq_true s.e.pc.yields
    case inr => exact ⟨_, _, _, .inl (freeStep_turn hy)⟩
    case inl =>
      cases hd : s.due with
      | none => exact unforced _ (freeStep_none hy hd)
      | some w =>
        obtain ⟨k, n⟩ := w
        cases n with
        | zero =>
          have hk := due_some hd
          exact ⟨_, _, _, .inr ⟨k, hy, firstEnabled_enabled hk, freeStep_forced hy hd, Nat.le_refl _,
            fun ⟨b, hb⟩ => absurd hb (firstEnabled_ne_extBusy hk b)⟩⟩
        | succ n =>
          exact unforced _ (freeStep_passed hy hd)

/-- No step touches the parameters, and each takes one entry of the script. -/
theorem step_params_script {s t : State} (h : step s = .next t) : t.params = s.params ∧ t.script = s.script.tail := by
  have move {u : State} (hmove : (∃ k, u.e.pc.yields = true ∧ envEnabled k u.p = true ∧ step s = envStep k u) ∨
      step s = turn u) : t.params = u.params ∧ t.script = u.script := by
    obtain ⟨k, -, -, hk⟩ | ht := hmove
    · obtain ⟨⟨-, -, -, -, -, -, -, hparams, -, -, hscript, -⟩, -⟩ := envStep_next (hk ▸ h)
      exact ⟨hparams, hscript⟩
    · obtain ⟨-, -, -, hparams, -, -, hscript, -⟩ := turn_next (ht ▸ h)
      exact ⟨hparams, hscript⟩
  cases hs : s.script with
  | nil =>
    obtain hf | hf := Bool.eq_false_or_eq_true s.freeTail
    · obtain ⟨u, hu, hmove⟩ := freeStep_cases s
      obtain ⟨h1, h2⟩ := move (u := u) (step_free hs hf ▸ hmove)
      rw [hu] at h1 h2
      exact ⟨h1, h2.trans hs⟩
    · obtain ⟨h1, h2⟩ := move (u := s) (step_reference ⟨hs, hf⟩ ▸ referenceStep_cases s)
      exact ⟨h1, h2.trans hs⟩
  | cons k rest =>
    cases k with
    | choose c => exact move (u := { s with script := rest }) (step_choose hs ▸ chosenStep_cases c _)
    | reset l =>
      rw [step_reset hs] at h
      cases h
      exact ⟨rfl, rfl⟩
    | prim w =>
      rw [step_prim hs] at h
      obtain ⟨-, -, -, hparams, -, -, hscript, -⟩ := runWord_sameOutside h
      exact ⟨hparams, hscript⟩

/-- A state of the invariant under BOUNDED, with nothing scripted. -/
structure State.Unscripted (s : State) : Prop where
  inv : s.Inv
  bounded : s.params.policy = .bounded
  script : s.script = []

theorem State.Unscripted.step {s t : State} (hs : s.Unscripted) (h : step s = .next t) : t.Unscripted := by
  obtain ⟨hparams, hscript⟩ := step_params_script h
  exact ⟨hs.inv.step h, hparams ▸ hs.bounded, by rw [hscript, hs.script]; rfl⟩

/-- Where a settle holds, the address phase is the only environment step there is. -/
theorem State.Inv.resolving {s : State} (hinv : s.Inv) (hs : s.unresolved) :
    firstEnabled s.p = some .address ∧ ∀ k, envEnabled k s.p = true → k = .address := by
  obtain ⟨hpc, hunresolved⟩ := hs
  have hmode : s.p.mode.isAddr = true :=
    ((labelPeriphInv_of_yields (by rw [hpc]; rfl)).1 hinv.link.label hpc).resolve_left (by simp [hunresolved])
  have hfirst : firstEnabled s.p = some .address := envEnabled_firstEnabled hmode (by simp)
  refine ⟨hfirst, fun k hk => ?_⟩
  have hother (hb : ∀ b, k ≠ .extBusy b) : k = .address := by
    cases (envEnabled_firstEnabled hk hb).symm.trans hfirst
    rfl
  cases k with
  | extBusy b =>
    have howner := hinv.periph.owner.2 (by rintro h; simp [h, PMode.isAddr] at hmode)
    simp [(envEnabled_extBusy_iff b).1 hk] at howner
  | _ => exact hother (by simp)

theorem address_resolves {s t : State} {k : EnvStep} {i n : Nat} {w : Option (EnvStep × Nat)} (hinv : s.Inv)
    (hs : s.unresolved) (hk : envEnabled k s.p = true) (h : envStep k (s.scheduled i w n) = .next t) :
    t.rank < s.rank := by
  obtain ⟨⟨he, -, -, -, -, -, -, hparams, -⟩, evs, hmove, -⟩ := envStep_move h hk
  cases (hinv.resolving hs).2 k hk
  obtain ⟨c, hc⟩ := Option.ne_none_iff_exists'.1 ((commandInv_idle hinv.command).not.1 (by simp [hs.1]))
  refine (rank_env hc hparams he hmove.resolved).2 hs ?_
  generalize t.p = q at hmove
  cases hmove with
  | address b k => cases k <;> rfl

/-- The engine's turn where a settle holds changes nothing but the schedule, if it takes nothing of what is left. -/
theorem turn_unresolved {s t : State} {i n : Nat} {w : Option (EnvStep × Nat)} (hs : s.Unscripted) (hu : s.unresolved)
    (h : turn (s.scheduled i w n) = .next t) : t.rank < s.rank ∨ t = s.scheduled i w n := by
  obtain hlt | ⟨-, ht⟩ := rank_turn (hs.inv.scheduled i w n) hs.bounded (by simp [State.scheduled, hu.1]) h
  · exact .inl hlt
  · exact .inr ht

/-- A settle that holds is left in finitely many steps: a weakly fair schedule lets the address phase end (R70, R99). -/
theorem exists_resolved {s : State} (hs : s.Unscripted) (hu : s.unresolved) :
    ∃ k t, runSteps k s = .next t ∧ t.Unscripted ∧ t.rank < s.rank := by
  have hpc : s.e.pc ≠ .idle := by simp [hu.1]
  have hy : s.e.pc.yields = true := by rw [hu.1]; rfl
  obtain ⟨hfirst, -⟩ := hs.inv.resolving hu
  obtain ⟨t, ht⟩ := step_answers hs.inv hpc
  have inOne (h : t.rank < s.rank) : ∃ k t, runSteps k s = .next t ∧ t.Unscripted ∧ t.rank < s.rank :=
    ⟨1, t, runSteps_succ 0 ht, hs.step ht, h⟩
  have hstep := ht
  obtain hf | hf := Bool.eq_false_or_eq_true s.freeTail
  · obtain ⟨n, hn⟩ := due_enabled hfirst
    induction n generalizing s t with
    | zero =>
      rw [step_free hs.script hf, freeStep_forced hy hn] at hstep
      exact inOne (address_resolves (i := s.picks + 1) (w := none) (n := s.patience) hs.inv hu
        (firstEnabled_enabled hfirst) hstep)
    | succ n ih =>
      rw [step_free hs.script hf, freeStep_passed hy hn] at hstep
      obtain ⟨u, hu', hmoves⟩ := unforcedStep_cases { s with waiting := some (.address, n) }
      have hu' : u = s.scheduled (s.picks + 1) (some (.address, n)) u.patience := hu'
      generalize u.patience = m at hu'
      subst hu'
      obtain ⟨k, -, hk, henv⟩ | hturn := hmoves
      · exact inOne (address_resolves hs.inv hu hk (henv.symm.trans hstep))
      · obtain hlt | rfl := turn_unresolved hs hu (hturn.symm.trans hstep)
        · exact inOne hlt
        · obtain ⟨t', ht'⟩ := step_answers (hs.step ht).inv hpc
          obtain ⟨j, t'', hrun, hunscripted, hlt⟩ := ih (hs.step ht) hu hpc hy hfirst t' ht'
            (fun h => ⟨1, t', runSteps_succ 0 ht', (hs.step ht).step ht', h⟩) ht' hf
            (due_waiting (k := .address) hfirst rfl)
          exact ⟨j + 1, t'', (runSteps_succ j ht).trans hrun, hunscripted, hlt⟩
  · rw [step_reference ⟨hs.script, hf⟩, referenceStep, if_pos hy, hfirst] at hstep
    exact inOne (address_resolves (i := s.picks) (w := s.waiting) (n := s.patience) hs.inv hu
      (firstEnabled_enabled hfirst) hstep)

/-! ## Every command comes back to IDLE -/

/-- Where no settle holds, a step takes something of what is left of the command, or leaves it and brings the
environment closer to rest or takes patience. -/
theorem step_progress {s t : State} (hs : s.Unscripted) (hpc : s.e.pc ≠ .idle) (hu : ¬ s.unresolved)
    (h : step s = .next t) :
    t.rank < s.rank ∨ t.rank ≤ s.rank ∧ t.p.unrest + t.patience < s.p.unrest + s.patience := by
  obtain ⟨i, w, n, hturn | ⟨k, -, hk, henv, hn, hbusy⟩⟩ := step_fair hs.script hpc
  · obtain hlt | ⟨hres, -⟩ := rank_turn (hs.inv.scheduled i w n) hs.bounded hpc (hturn.symm.trans h)
    · exact .inl hlt
    · exact absurd hres hu
  · obtain ⟨⟨he, -, -, -, -, -, -, hparams, -, -, -, -, -, -, hpatience, -⟩, evs, hmove, -⟩ :=
      envStep_move (henv.symm.trans h) hk
    obtain ⟨c, hc⟩ := Option.ne_none_iff_exists'.1 ((commandInv_idle hs.inv.command).not.1 hpc)
    obtain ⟨hle, hlt⟩ := hmove.unrest
    have hpatience : t.patience = n := hpatience
    refine .inr ⟨(rank_env hc hparams he hmove.resolved).1, ?_⟩
    by_cases hb : ∃ b, k = .extBusy b
    · exact Nat.add_lt_add_of_le_of_lt hle (hpatience ▸ hbusy hb)
    · exact Nat.add_lt_add_of_lt_of_le (hlt fun b h => hb ⟨b, h⟩) (hpatience ▸ hn)

/-- With nothing scripted a command comes back. -/
theorem State.Unscripted.returns {s : State} (hs : s.Unscripted) : ∃ k t, runSteps k s = .next t ∧ t.e.pc = .idle := by
  have after {u : State} {j : Nat} (hrun : runSteps j s = .next u) :
      (∃ k t, runSteps k u = .next t ∧ t.e.pc = .idle) → ∃ k t, runSteps k s = .next t ∧ t.e.pc = .idle :=
    fun ⟨k, t, ht, hidle⟩ => ⟨j + k, t, (runSteps_add k hrun).trans ht, hidle⟩
  by_cases hpc : s.e.pc = .idle
  · exact ⟨0, s, rfl, hpc⟩
  by_cases hu : s.unresolved
  · obtain ⟨j, u, hrun, hsu, hlt⟩ := exists_resolved hs hu
    exact after hrun hsu.returns
  · obtain ⟨u, hstep⟩ := step_answers hs.inv hpc
    have hprogress := step_progress hs hpc hu hstep
    exact after (runSteps_succ 0 hstep) (hs.step hstep).returns
termination_by (s.rank, s.p.unrest + s.patience)
decreasing_by
  · exact Prod.Lex.left _ _ hlt
  · obtain hlt | ⟨hle, hlt⟩ := hprogress
    · exact Prod.Lex.left _ _ hlt
    · obtain heq | hlt' := Nat.eq_or_lt_of_le hle
      · rw [heq]
        exact Prod.Lex.right _ hlt
      · exact Prod.Lex.left _ _ hlt'

/-- Settles O57: a scripted step only shortens the script; with nothing scripted the steps left of the command, then the
unrest of the environment and the schedule's patience, decrease. -/
theorem boundedCommandsReturn : Obligations.BoundedCommandsReturn := by
  unfold Obligations.BoundedCommandsReturn
  intro s hinv hpol
  rw [State.inv_iff] at hinv
  generalize hn : s.script.length = n
  induction n generalizing s with
  | zero => exact State.Unscripted.returns ⟨hinv, hpol, List.length_eq_zero_iff.1 hn⟩
  | succ n ih =>
    by_cases hpc : s.e.pc = .idle
    · exact ⟨0, s, rfl, hpc⟩
    · obtain ⟨u, hstep⟩ := step_answers hinv hpc
      obtain ⟨hparams, hscript⟩ := step_params_script hstep
      obtain ⟨k, t, hrun, hidle⟩ := ih u (hinv.step hstep) (hparams ▸ hpol) (by simp [hscript, hn])
      exact ⟨k + 1, t, (runSteps_succ k hstep).trans hrun, hidle⟩

end Sys2Proof.Machine
end

section
/-! The stages of a read transaction on the bus, from the close of an earlier one to its own stop, and what the
environment makes of each (R97, R110, R111, R113 to R115). -/

namespace Sys2Proof.Machine

open Sys2Proof

/-! ## The stages -/

/-- The stages of a read. Those with a direction stand before and after the address byte of that direction. -/
inductive ReadStage where
  | closing | opening (d : Dir) | opened (d : Dir) | selecting (d : Dir) | selected (d : Dir) | silenced | counted
  | ready | sending | reopening | between | receiving | received | last | receivingLast | receivedLast | returned
  deriving DecidableEq

/-- The read operations. -/
def Op.reads : Op → Bool
  | .readByte | .readMemoryByte | .readMemoryMulti => true
  | .scan | .writeByte | .writeMemoryByte | .writeMemoryMulti => false

/-- The direction of a read's first address byte (R110, R111). -/
def Op.readDir (op : Op) : Dir := if op = .readByte then .read else .write

/-- The stage at a label of a read's step table; every other label stands at the last one. -/
def Op.readStage (op : Op) : Label → ReadStage
  | .start => .closing
  | .startWait => .opening op.readDir
  | .addrWrite => .opened .write
  | .addrAcked => .selecting op.readDir
  | .clearAddr => if op = .readByte then .silenced else .selected .write
  | .txeWait | .registerByte => .ready
  | .regTxeWait | .restart => .sending
  | .restartWait => .reopening
  | .addrRead => .opened .read
  | .addrAckedR => .selecting .read
  | .disableAck => if op = .readMemoryMulti then .between else .selected .read
  | .initAck => .selected .read
  | .clearAddrR => if op = .readMemoryMulti then .counted else .silenced
  | .loop => .between
  | .rxneWaitN => .receiving
  | .captureN => .received
  | .stop => .last
  | .rxneWait => .receivingLast
  | .capture => .receivedLast
  | _ => .returned

/-- The actions that carry a read on from a stage. -/
def ReadStage.steps (op : Op) : ReadStage → List (Act × ReadStage)
  | .closing => [(.issueStart, .opening op.readDir)]
  | .opening d => [(.wait .sb, .opened d)]
  | .opened d => [(.sendAddr d, .selecting d)]
  | .selecting d => [(.wait .addr, .selected d)]
  | .selected .write => [(.clearAddr, .ready)]
  | .selected .read => if op = .readMemoryMulti then [(.ackIfMany, .counted)] else [(.ackOff, .silenced)]
  | .silenced => if op = .readMemoryMulti then [] else [(.clearAddr, .last)]
  | .counted => [(.clearAddrInitCount, .between)]
  | .ready => [(.wait .txe, .ready), (.sendReg, .sending)]
  | .sending => [(.wait .txe, .sending), (.issueStart, .reopening)]
  | .reopening => [(.wait .sb, .opened .read)]
  | .between => if op = .readMemoryMulti then [(.test, .between), (.test, .receiving), (.ackOff, .last)] else []
  | .receiving => [(.wait .rxne, .received)]
  | .received => if op = .readMemoryMulti then [(.captureBuf, .between)] else []
  | .last => [(.issueStop, .receivingLast)]
  | .receivingLast => [(.wait .rxne, .receivedLast)]
  | .receivedLast => [(if op = .readMemoryMulti then .captureBuf else .captureRdata, .returned)]
  | .returned => []

/-- The step tables of the reads go through the stages. -/
theorem row_readStage {op : Op} {l m : Label} {row : Row} (hop : op.reads = true) (hrow : stepTable op l = some row)
    (hm : m ∈ row.succ.targets) : (row.act, op.readStage m) ∈ (op.readStage l).steps op := by
  have hall : everyRow (fun op l row => !op.reads || row.succ.targets.all fun m =>
    decide ((row.act, op.readStage m) ∈ (op.readStage l).steps op)) = true := by decide
  have h := of_everyRow hall hrow
  rw [hop] at h
  exact of_decide_eq_true (List.all_eq_true.1 h m hm)

/-! ## What stands on the bus -/

section
variable (s₀ : State) (c : Command)

/-- The events up to the start before an address byte: those of the transaction that closes, a start, and before the
read address of a register-addressed read the register byte and the repeated start. -/
def ReadHead : Dir → List BusEvent → Prop
  | .write, evs => c.op ≠ .readByte ∧ ∃ old, s₀.closes old ∧ evs = old ++ [.S]
  | .read, evs => ∃ old, s₀.closes old ∧ (c.op = .readByte ∧ evs = old ++ [.S] ∨
      c.op ≠ .readByte ∧ ∃ k, evs = old ++ [.S, .A (addrByte c.addr .write) true, .W c.reg k, .Sr])

/-- The events up to an address byte that was acknowledged. -/
def Selected (d : Dir) (evs : List BusEvent) : Prop :=
  ∃ head, ReadHead s₀ c d head ∧ evs = head ++ [.A (addrByte c.addr d) true]

/-- The events up to some received bytes, all acknowledged. -/
def Received (vs : List Byte) (evs : List BusEvent) : Prop :=
  ∃ head, Selected s₀ c .read head ∧ evs = head ++ vs.map (.R · true)

/-- The events up to the last received byte. -/
def Complete (vs : List Byte) (evs : List BusEvent) : Prop :=
  ∃ head, Selected s₀ c .read head ∧ evs = head ++ receiveEvents vs

/-- An earlier transaction may still be closing (R128, R150). -/
def Closing (p : Periph) (evs : List BusEvent) : Prop :=
  s₀.closes evs ∧ (p.owner = false ∨ p.reqStop = true) ∧ (s₀.p.owner = false → p.owner = false)

/-- Nothing is requested and no byte waits to be read. -/
def Periph.calm (p : Periph) : Prop := p.reqStart = false ∧ p.reqStop = false ∧ p.rxne = false

/-- A start stands on the bus. -/
def Opened (d : Dir) (p : Periph) (evs : List BusEvent) : Prop :=
  p.calm ∧ p.mode = .pStart ∧ p.addr = false ∧ ReadHead s₀ c d evs

/-- The mode of an acknowledged address byte whose status is not read yet (R76). -/
def PMode.waitClr : Dir → PMode
  | .write => .pTxWaitClr
  | .read => .pRxWaitClr

/-- The register byte waits, is in flight, or is on the bus. -/
def Sending (p : Periph) (evs : List BusEvent) : Prop :=
  p.reqStop = false ∧ p.rxne = false ∧
    (p.mode = .pTx ∧ (p.drTx = some c.reg ∧ p.shift = none ∨ p.drTx = none ∧ p.shift = some c.reg) ∧
        Selected s₀ c .write evs ∨
      (p.mode = .pTx ∧ p.drTx = none ∧ p.shift = none ∨ p.mode = .pNacked) ∧
        ∃ head k, Selected s₀ c .write head ∧ evs = head ++ [.W c.reg k])

/-- All bytes are on the bus, and the stop is or is still requested. -/
def Ended (vs : List Byte) (p : Periph) (evs : List BusEvent) : Prop :=
  p.reqStart = false ∧ (p.mode = .pRxDone ∧ p.reqStop = true ∧ Complete s₀ c vs evs ∨
    p.owner = false ∧ ∃ body, Complete s₀ c vs body ∧ evs = body ++ [.P])

/-- The Bus Interface and the events since the start of the run at each stage, `vs` being the bytes captured. -/
def ReadStage.Holds (vs : List Byte) (p : Periph) (evs : List BusEvent) : ReadStage → Prop
  | .closing => Closing s₀ p evs
  | .opening d => d = c.op.readDir ∧ p.reqStart = true ∧ Closing s₀ p evs ∨ Opened s₀ c d p evs
  | .opened d => Opened s₀ c d p evs
  | .selecting d => p.calm ∧
      ((p.mode = .pAddr (addrByte c.addr d) ∧ p.addr = false ∧ ReadHead s₀ c d evs) ∨
        (p.mode = .pNacked ∧ p.addr = false) ∨ (p.mode = PMode.waitClr d ∧ Selected s₀ c d evs))
  | .selected d => p.calm ∧ p.mode = PMode.waitClr d ∧ Selected s₀ c d evs
  | .silenced => p.calm ∧ p.mode = .pRxWaitClr ∧ p.ackEn = false ∧ Selected s₀ c .read evs
  | .counted => p.calm ∧ p.mode = .pRxWaitClr ∧ p.ackEn = decide (1 < c.len) ∧ Selected s₀ c .read evs
  | .ready => p.calm ∧ p.mode = .pTx ∧ p.drTx = none ∧ p.shift = none ∧ Selected s₀ c .write evs
  | .sending => p.reqStart = false ∧ Sending s₀ c p evs
  | .reopening => Sending s₀ c p evs ∨ Opened s₀ c .read p evs
  | .between => p.calm ∧ p.mode = .pRx ∧ p.ackEn = decide (1 < c.len) ∧ Received s₀ c vs evs
  | .receiving => p.reqStart = false ∧ p.reqStop = false ∧ p.mode = .pRx ∧ p.ackEn = true ∧ 1 < c.len ∧
      (p.rxne = false ∧ Received s₀ c vs evs ∨
        p.rxne = true ∧ ∃ v, p.drRx = some v ∧ Received s₀ c (vs ++ [v]) evs)
  | .received => p.reqStart = false ∧ p.reqStop = false ∧ p.mode = .pRx ∧ p.ackEn = true ∧ 1 < c.len ∧
      p.rxne = true ∧ ∃ v, p.drRx = some v ∧ Received s₀ c (vs ++ [v]) evs
  | .last => p.calm ∧ p.mode = .pRx ∧ p.ackEn = false ∧ Received s₀ c vs evs
  | .receivingLast =>
      (p.reqStart = false ∧ p.reqStop = true ∧ p.rxne = false ∧ p.mode = .pRx ∧ p.ackEn = false ∧
        Received s₀ c vs evs) ∨
        ∃ v, p.drRx = some v ∧ Ended s₀ c (vs ++ [v]) p evs
  | .receivedLast => ∃ v, p.drRx = some v ∧ Ended s₀ c (vs ++ [v]) p evs
  | .returned => Ended s₀ c vs p evs

end

/-! ## What the environment makes of a stage -/

theorem receiveEvents_append (vs : List Byte) (v : Byte) :
    receiveEvents (vs ++ [v]) = vs.map (.R · true) ++ [.R v false] := by
  induction vs with
  | nil => rfl
  | cons w vs ih =>
    cases vs with
    | nil => rfl
    | cons x rest => simpa [receiveEvents] using ih

/-- In a mode that is quiet and holds the bus nothing happens unless it is requested. -/
theorem EnvMove.false_of_calm {k : EnvStep} {p q : Periph} {evs : List BusEvent} (h : EnvMove p k q evs) (hp : p.Inv)
    (hstart : p.reqStart = false) (hstop : p.reqStop = false) (hquiet : p.quiet = true)
    (hidle : p.mode ≠ .pIdle) : False := by
  have howner := hp.owner.2 hidle
  cases h <;> simp_all [Periph.quiet]

section
variable {s₀ : State} {c : Command} {k : EnvStep} {p q : Periph} {evs es : List BusEvent} {vs : List Byte}
  (h : EnvMove p k q es) (hp : p.Inv)
include h hp

/-- A step that is no start leaves a requested start alone, and adds nothing to a free bus. -/
theorem EnvMove.noStart (hk : k ≠ .start) : q.reqStart = p.reqStart ∧ .S ∉ es ∧ .Sr ∉ es ∧
    (p.owner = false → q.owner = false ∧ es = []) ∧
    (p.owner = false ∨ p.reqStop = true → q.owner = false ∨ q.reqStop = true) := by
  have hmode : p.mode ≠ .pIdle → p.owner = true := hp.owner.2
  cases h with
  | start => exact absurd rfl hk
  | address b k | txDone b k => cases k <;> simp_all [Periph.addressed, Periph.sent]
  | _ => simp_all [Periph.received]

/-- A closing transaction closes on; a start that was requested comes after it, on a free bus. -/
theorem Closing.env (hc : Closing s₀ p evs) : Closing s₀ q (evs ++ es) ∧ q.reqStart = p.reqStart ∨
    p.reqStart = true ∧ Opened s₀ c c.op.readDir q (evs ++ es) := by
  obtain ⟨⟨hS, hSr, hnone⟩, hreleased, hheld⟩ := hc
  by_cases hk : k = .start
  · subst hk
    cases h with
    | start hreq hstop =>
      have howner : p.owner = false := hreleased.resolve_right (by simp [hstop])
      refine .inr ⟨hreq, ⟨rfl, hstop, rfl⟩, rfl, rfl, ?_⟩
      rw [howner]
      by_cases hop : c.op = .readByte
      · rw [Op.readDir, if_pos hop]
        exact ⟨evs, ⟨hS, hSr, hnone⟩, .inl ⟨hop, rfl⟩⟩
      · rw [Op.readDir, if_neg hop]
        exact ⟨hop, evs, ⟨hS, hSr, hnone⟩, rfl⟩
  · obtain ⟨hreq, hS', hSr', hfree, hrel⟩ := h.noStart hp hk
    refine .inl ⟨⟨⟨by simp [hS, hS'], by simp [hSr, hSr'], fun h0 => ?_⟩, hrel hreleased, fun h0 => ?_⟩, hreq⟩
    · simp [hnone h0, (hfree (hheld h0)).2]
    · exact (hfree (hheld h0)).1

theorem Opened.env {d : Dir} (hc : Opened s₀ c d p evs) : False := by
  obtain ⟨⟨hstart, hstop, -⟩, hmode, -⟩ := hc
  exact h.false_of_calm hp hstart hstop (by simp [Periph.quiet, hmode]) (by simp [hmode])

/-- The register byte goes out; a start that was requested comes after it, as the repeated one (R113). -/
theorem Sending.env (hc : Sending s₀ c p evs) : Sending s₀ c q (evs ++ es) ∧ q.reqStart = p.reqStart ∨
    p.reqStart = true ∧ Opened s₀ c .read q (evs ++ es) := by
  obtain ⟨hstop, hrxne, hsent⟩ := hc
  have howner : p.owner = true := hp.owner.2 (by rintro hmode; simp [hmode] at hsent)
  cases h with
  | stop hreq | drop hreq => simp [hstop] at hreq
  | extBusy b hfree => simp [howner] at hfree
  | address b k hmode => simp [hmode] at hsent
  | receive v hmode => simp [hmode] at hsent
  | start hreq hstop hquiet =>
    refine .inr ⟨hreq, ⟨rfl, hstop, rfl⟩, rfl, rfl, ?_⟩
    obtain ⟨hmode, hbyte, -⟩ | ⟨-, head, k, ⟨head', ⟨hop, old, hold, rfl⟩, rfl⟩, rfl⟩ := hsent
    · obtain ⟨hdr, -⟩ | ⟨-, hshift⟩ := hbyte <;> simp_all [Periph.quiet]
    · exact ⟨old, hold, .inr ⟨hop, k, by simp [howner]⟩⟩
  | txShift b hmode hdr hshift =>
    obtain ⟨-, hbyte, hsel⟩ | ⟨hdone, -⟩ := hsent
    · refine .inl ⟨⟨hstop, hrxne, .inl ⟨hmode, .inr ⟨rfl, ?_⟩, by simpa using hsel⟩⟩, rfl⟩
      simp_all
    · simp_all
  | txDone b k hmode hshift =>
    obtain ⟨-, hbyte, hsel⟩ | ⟨hdone, -⟩ := hsent
    · have hdata : p.drTx = none ∧ b = c.reg := by simp_all
      obtain ⟨hdr, rfl⟩ := hdata
      cases k with
      | true => exact .inl ⟨⟨hstop, hrxne, .inr ⟨.inl ⟨hmode, hdr, rfl⟩, evs, true, hsel, rfl⟩⟩, rfl⟩
      | false => exact .inl ⟨⟨hstop, hrxne, .inr ⟨.inr rfl, evs, false, hsel, rfl⟩⟩, rfl⟩
    · simp_all

/-- The address byte is answered, and then nothing moves before its status is read (R76). -/
theorem selecting_env {d : Dir} (hc : (ReadStage.selecting d).Holds s₀ c vs p evs) :
    (ReadStage.selecting d).Holds s₀ c vs q (evs ++ es) := by
  obtain ⟨⟨hstart, hstop, hrxne⟩, ⟨hmode, haddr, hhead⟩ | ⟨hmode, -⟩ | ⟨hmode, -⟩⟩ := hc
  · cases h with
    | address b k hb =>
      cases hb.symm.trans hmode
      cases k with
      | false => exact ⟨⟨hstart, hstop, hrxne⟩, .inr (.inl ⟨rfl, haddr⟩)⟩
      | true =>
        refine ⟨⟨hstart, hstop, hrxne⟩, .inr (.inr ⟨?_, evs, hhead, rfl⟩)⟩
        cases d <;> simp [Periph.addressed, dirOfByte_addrByte, PMode.waitClr]
    | extBusy b hfree => simp [hp.owner.2 (by simp [hmode])] at hfree
    | _ => simp_all
  · exact (h.false_of_calm hp hstart hstop (by simp [Periph.quiet, hmode]) (by simp [hmode])).elim
  · cases d <;>
      exact (h.false_of_calm hp hstart hstop (by simp [Periph.quiet, hmode, PMode.waitClr])
        (by simp [hmode, PMode.waitClr])).elim

/-- After the last byte only the stop can come (R86). -/
theorem Ended.env (hc : Ended s₀ c vs p evs) : Ended s₀ c vs q (evs ++ es) ∧ q.drRx = p.drRx := by
  obtain ⟨hstart, ⟨hmode, hreq, hbody⟩ | ⟨howner, body, hbody, rfl⟩⟩ := hc
  · have howner : p.owner = true := hp.owner.2 (by simp [hmode])
    cases h with
    | stop => exact ⟨⟨hstart, .inr ⟨rfl, evs, hbody, rfl⟩⟩, rfl⟩
    | _ => simp_all
  · have hmode : p.mode = .pIdle := by simpa [howner] using hp.owner
    cases h with
    | drop | extBusy => exact ⟨⟨hstart, .inr ⟨howner, body, hbody, by simp⟩⟩, rfl⟩
    | _ => simp_all

/-- A byte is received, acknowledged as the bit stands (R94), and is the only one before it is read (R79). -/
theorem receiving_env (hc : ReadStage.receiving.Holds s₀ c vs p evs) :
    ReadStage.receiving.Holds s₀ c vs q (evs ++ es) := by
  obtain ⟨hstart, hstop, hmode, hack, hlen, hbyte⟩ := hc
  have howner : p.owner = true := hp.owner.2 (by simp [hmode])
  cases h with
  | receive v _ hrxne =>
    obtain ⟨-, head, hsel, rfl⟩ | ⟨hfull, -⟩ := hbyte
    · refine ⟨hstart, hstop, by simp [Periph.received, hack, hstop, hmode], hack, hlen,
        .inr ⟨rfl, v, rfl, head, hsel, ?_⟩⟩
      simp [hack]
    · simp [hrxne] at hfull
  | _ => simp_all

/-- The last byte is received, not acknowledged (R95, R97). -/
theorem receivingLast_env (hc : ReadStage.receivingLast.Holds s₀ c vs p evs) :
    ReadStage.receivingLast.Holds s₀ c vs q (evs ++ es) := by
  obtain ⟨hstart, hstop, hrxne, hmode, hack, head, hsel, rfl⟩ | ⟨v, hv, hended⟩ := hc
  · have howner : p.owner = true := hp.owner.2 (by simp [hmode])
    cases h with
    | receive v =>
      refine .inr ⟨v, rfl, hstart, .inl ⟨by simp [Periph.received, hack], hstop, head, hsel, ?_⟩⟩
      simp [hack, receiveEvents_append]
    | _ => simp_all [Periph.quiet]
  · obtain ⟨hended, hdr⟩ := hended.env h hp
    exact .inr ⟨v, hdr.trans hv, hended⟩

/-- Every stage at which the environment may move stays what it is. -/
theorem ReadStage.Holds.env {st : ReadStage} (hc : st.Holds s₀ c vs p evs) (hst : st ≠ .between ∧ st ≠ .last)
    (hclosing : st = .closing → p.reqStart = false) : st.Holds s₀ c vs q (evs ++ es) := by
  have quiet (hcalm : p.calm) (hq : p.quiet = true ∧ p.mode ≠ .pIdle) : False :=
    h.false_of_calm hp hcalm.1 hcalm.2.1 hq.1 hq.2
  cases st with
  | closing =>
    obtain ⟨hclosed, -⟩ | ⟨hreq, -⟩ := Closing.env (c := c) h hp hc
    · exact hclosed
    · simp [hclosing rfl] at hreq
  | opening d =>
    obtain ⟨rfl, hreq, hc⟩ | hc := hc
    · obtain ⟨hclosed, hreq'⟩ | ⟨-, hopened⟩ := hc.env (c := c) h hp
      · exact .inl ⟨rfl, hreq'.trans hreq, hclosed⟩
      · exact .inr hopened
    · exact (hc.env h hp).elim
  | opened d => exact (Opened.env h hp hc).elim
  | selecting d => exact selecting_env h hp hc
  | selected d =>
    obtain ⟨hcalm, hmode, -⟩ := hc
    exact (quiet hcalm (by cases d <;> simp [Periph.quiet, hmode, PMode.waitClr])).elim
  | silenced | counted =>
    obtain ⟨hcalm, hmode, -⟩ := hc
    exact (quiet hcalm (by simp [Periph.quiet, hmode])).elim
  | ready =>
    obtain ⟨hcalm, hmode, hdr, hshift, -⟩ := hc
    exact (quiet hcalm (by simp [Periph.quiet, hmode, hdr, hshift])).elim
  | sending =>
    obtain ⟨hstart, hc⟩ := hc
    obtain ⟨hc, hreq⟩ | ⟨hreq, -⟩ := hc.env h hp
    · exact ⟨hreq.trans hstart, hc⟩
    · simp [hstart] at hreq
  | reopening =>
    obtain hc | hc := hc
    · exact (hc.env h hp).imp And.left And.right
    · exact (hc.env h hp).elim
  | between => exact absurd rfl hst.1
  | last => exact absurd rfl hst.2
  | receiving => exact receiving_env h hp hc
  | received =>
    obtain ⟨hstart, hstop, hmode, -, -, hrxne, -⟩ := hc
    have howner : p.owner = true := hp.owner.2 (by simp [hmode])
    cases h <;> simp_all [Periph.quiet]
  | receivingLast => exact receivingLast_env h hp hc
  | receivedLast =>
    obtain ⟨v, hv, hended⟩ := hc
    obtain ⟨hended, hdr⟩ := hended.env h hp
    exact ⟨v, hdr.trans hv, hended⟩
  | returned => exact (Ended.env h hp hc).1

end

end Sys2Proof.Machine
end

section
/-! A read under every schedule and for every oracle: the sequencer carries it through its stages, and what returns
`OK` is one whole transaction (R97, R110, R111, R113 to R115). -/

namespace Sys2Proof.Machine

open Sys2Proof

/-! ## The bytes captured -/

/-- The caller's memory with some bytes captured: a multi-byte read stores them in its buffer, the others store
nothing. -/
def Stored (s₀ : State) (c : Command) (vs : List Byte) (m : Memory) : Prop :=
  m.wf = true ∧
    if c.op = .readMemoryMulti then
      m.readBytes c.buf.base vs.length = vs ∧ ∀ x, outside c.buf vs.length x → m.read x = s₀.mem.read x
    else m = s₀.mem

/-- How the number of bytes captured shows in the engine's registers and outputs at a stage (R88, R115). -/
def ReadStage.Counted (op : Op) (len : Nat) (vs : List Byte) (s : State) : ReadStage → Prop
  | .between | .receiving | .received => s.e.idx = some vs.length
  | .last | .receivingLast | .receivedLast => if op = .readMemoryMulti then s.e.idx = some vs.length else vs = []
  | .returned => if op = .readMemoryMulti then vs.length = len else ∃ v, vs = [v] ∧ s.rdata = some v
  | _ => vs = []

/-- The stages of the data phase. -/
def ReadStage.receives : ReadStage → Bool
  | .between | .receiving | .received | .last | .receivingLast | .receivedLast | .returned => true
  | .closing | .opening _ | .opened _ | .selecting _ | .selected _ | .silenced | .counted | .ready | .sending
  | .reopening => false

/-- A read at a stage, some bytes captured. -/
structure Reading (s₀ : State) (c : Command) (st : ReadStage) (vs : List Byte) (s : State) : Prop where
  bus : ∃ evs, s.busTrace = s₀.busTrace ++ evs ∧ st.Holds s₀ c vs s.p evs
  stored : Stored s₀ c vs s.mem
  counted : st.Counted c.op c.len vs s

section
variable {s₀ : State} {c : Command}

theorem Reading.congr {st : ReadStage} {vs : List Byte} {s t : State} (h : Reading s₀ c st vs s)
    (htrace : t.busTrace = s.busTrace) (hp : t.p = s.p) (hm : t.mem = s.mem) (hidx : t.e.idx = s.e.idx)
    (hrdata : t.rdata = s.rdata) : Reading s₀ c st vs t := by
  obtain ⟨hbus, hstored, hcounted⟩ := h
  refine ⟨htrace ▸ hp ▸ hbus, hm ▸ hstored, ?_⟩
  cases st <;> simpa only [ReadStage.Counted, hidx, hrdata] using hcounted

theorem readBytes_append (m : Memory) (base n : Nat) :
    m.readBytes base (n + 1) = m.readBytes base n ++ [m.read (base + n)] := by
  induction n generalizing base with
  | zero => rfl
  | succ n ih =>
    rw [Memory.readBytes, ih, Memory.readBytes, List.cons_append, Nat.add_right_comm, Nat.add_assoc]

/-- A capture into the buffer adds the byte to those captured (R115). -/
theorem Stored.capture {vs : List Byte} {m : Memory} (v : Byte) (hop : c.op = .readMemoryMulti) (h : Stored s₀ c vs m) :
    Stored s₀ c (vs ++ [v]) (m.write (c.buf.base + vs.length) v) := by
  obtain ⟨hwf, h⟩ := h
  rw [if_pos hop] at h
  obtain ⟨hread, houtside⟩ := h
  refine ⟨Memory.write_wf _ _ hwf, ?_⟩
  rw [if_pos hop, List.length_append, List.length_singleton, readBytes_append, Memory.read_write_same _ _ hwf]
  refine ⟨?_, fun x hx => ?_⟩
  · rw [Memory.readBytes_congr fun x _ hx => Memory.read_write_other v m (by omega), hread]
  · unfold outside at hx houtside
    rw [Memory.read_write_other v m (by omega), houtside x (by omega)]

/-- `READ_DR` and the store into the buffer, at once (R115). -/
theorem captureBuf_effect {vs : List Byte} {s u : State} (hdo : doAct .captureBuf c s = .ok u)
    (hop : c.op = .readMemoryMulti) (hstored : Stored s₀ c vs s.mem) (hidx : s.e.idx = some vs.length) :
    ∃ v, s.p.drRx = some v ∧ Stored s₀ c (vs ++ [v]) u.mem ∧ u.e.idx = some (vs ++ [v]).length ∧
      u.p = { s.p with rxne := false, btf := false } ∧ u.busTrace = s.busTrace := by
  obtain ⟨i, r, v, w, w', hi, -, hread, hwrite, rfl⟩ := actCaptureBuf_ok hdo
  obtain ⟨hv, rfl⟩ := primReadDr_cases hread
  obtain ⟨-, rfl⟩ := bufWrite_ok hwrite
  cases hi.symm.trans hidx
  exact ⟨v, hv, hstored.capture v hop, by simp, rfl, rfl⟩

section
variable {a : Act} {st' : ReadStage} {vs : List Byte} {s u : State} (hinv : s.Inv) (hdo : doAct a c s = .ok u)
  (hwait : ∀ w, a = .wait w → w.holds s.p = true)
include hinv hdo hwait

/-- The actions of the register's part of a read and of its address bytes carry it on. -/
theorem Reading.act_address {st : ReadStage} (h : Reading s₀ c st vs s) (ha : (a, st') ∈ st.steps c.op)
    (hst : st.receives = false) :
    Reading s₀ c st' vs u := by
  obtain ⟨⟨evs, htrace, hbus⟩, hstored, hcounted⟩ := h
  cases st with
  | closing =>
    cases List.mem_singleton.1 ha
    cases hdo
    exact ⟨⟨evs, htrace, .inl ⟨rfl, rfl, hbus⟩⟩, hstored, hcounted⟩
  | opening d =>
    cases List.mem_singleton.1 ha
    cases hdo
    refine ⟨⟨evs, htrace, hbus.resolve_left fun ⟨_, hreq, _⟩ => ?_⟩, hstored, hcounted⟩
    simp [(hinv.link.sent (hwait _ rfl)).2] at hreq
  | opened d =>
    cases List.mem_singleton.1 ha
    obtain ⟨hcalm, hmode, haddr, hhead⟩ := hbus
    obtain ⟨-, rfl⟩ | ⟨htx, -⟩ := primWriteDr_cases hdo
    · exact ⟨⟨evs, htrace, hcalm, .inl ⟨rfl, haddr, hhead⟩⟩, hstored, hcounted⟩
    · simp [hmode] at htx
  | selecting d =>
    cases List.mem_singleton.1 ha
    cases hdo
    have haddr := hwait _ rfl
    obtain ⟨hcalm, ⟨-, hclear, -⟩ | ⟨-, hclear⟩ | ⟨hmode, hsel⟩⟩ := hbus
    · simp [WaitCond.holds, hclear] at haddr
    · simp [WaitCond.holds, hclear] at haddr
    · exact ⟨⟨evs, htrace, hcalm, hmode, hsel⟩, hstored, hcounted⟩
  | selected d =>
    obtain ⟨hcalm, hmode, hsel⟩ := hbus
    cases d with
    | write =>
      cases List.mem_singleton.1 ha
      cases hdo
      obtain ⟨hdr, hshift⟩ := hinv.periph.tx (by simp [hmode, PMode.waitClr])
      have hp : s.p.clearAddr = _ := Periph.clearAddr_of_pTxWaitClr (hinv.periph.waits (.inl hmode)) hmode
      refine ⟨⟨evs, htrace, ?_⟩, hstored, hcounted⟩
      show ReadStage.ready.Holds s₀ c vs s.p.clearAddr evs
      rw [hp]
      exact ⟨hcalm, rfl, hdr, hshift, hsel⟩
    | read =>
      simp only [ReadStage.steps] at ha
      split at ha <;> cases List.mem_singleton.1 ha <;> cases hdo
      · exact ⟨⟨evs, htrace, hcalm, hmode, rfl, hsel⟩, hstored, hcounted⟩
      · exact ⟨⟨evs, htrace, hcalm, hmode, rfl, hsel⟩, hstored, hcounted⟩
  | silenced =>
    simp only [ReadStage.steps] at ha
    split at ha
    · cases ha
    · rename_i hop
      cases List.mem_singleton.1 ha
      cases hdo
      obtain ⟨hcalm, hmode, hack, hsel⟩ := hbus
      have hp : s.p.clearAddr = _ := Periph.clearAddr_of_pRxWaitClr (hinv.periph.waits (.inr hmode)) hmode
      refine ⟨⟨evs, htrace, ?_⟩, hstored, (if_neg hop).mpr hcounted⟩
      show ReadStage.last.Holds s₀ c vs s.p.clearAddr evs
      rw [hp, show vs = [] from hcounted]
      exact ⟨hcalm, rfl, hack, evs, hsel, by simp⟩
  | counted =>
    cases List.mem_singleton.1 ha
    cases hdo
    obtain ⟨hcalm, hmode, hack, hsel⟩ := hbus
    have hp : s.p.clearAddr = _ := Periph.clearAddr_of_pRxWaitClr (hinv.periph.waits (.inr hmode)) hmode
    cases show vs = [] from hcounted
    refine ⟨⟨evs, htrace, ?_⟩, hstored, rfl⟩
    show ReadStage.between.Holds s₀ c [] s.p.clearAddr evs
    rw [hp]
    exact ⟨hcalm, rfl, hack, evs, hsel, by simp⟩
  | ready =>
    obtain ⟨hcalm, hmode, hdr, hshift, hsel⟩ := hbus
    simp only [ReadStage.steps, List.mem_cons, Prod.mk.injEq, List.not_mem_nil, or_false] at ha
    obtain ⟨rfl, rfl⟩ | ⟨rfl, rfl⟩ := ha
    · cases hdo
      exact ⟨⟨evs, htrace, hcalm, hmode, hdr, hshift, hsel⟩, hstored, hcounted⟩
    · obtain ⟨hstart, -⟩ | ⟨-, -, rfl⟩ := primWriteDr_cases hdo
      · simp [hmode] at hstart
      · exact ⟨⟨evs, htrace, hcalm.1, hcalm.2.1, hcalm.2.2, .inl ⟨hmode, .inl ⟨rfl, hshift⟩, hsel⟩⟩, hstored, hcounted⟩
  | sending =>
    simp only [ReadStage.steps, List.mem_cons, Prod.mk.injEq, List.not_mem_nil, or_false] at ha
    obtain ⟨rfl, rfl⟩ | ⟨rfl, rfl⟩ := ha <;> cases hdo
    · exact ⟨⟨evs, htrace, hbus⟩, hstored, hcounted⟩
    · exact ⟨⟨evs, htrace, .inl hbus.2⟩, hstored, hcounted⟩
  | reopening =>
    cases List.mem_singleton.1 ha
    cases hdo
    refine ⟨⟨evs, htrace, hbus.resolve_left fun ⟨_, _, hsent⟩ => ?_⟩, hstored, hcounted⟩
    simp [hinv.periph.sb.1 (hwait _ rfl)] at hsent
  | _ => cases hst

omit hinv in
/-- The actions of the data phase carry a read on; a capture adds a byte. -/
theorem Reading.act_receive {st : ReadStage} (h : Reading s₀ c st vs s) (ha : (a, st') ∈ st.steps c.op)
    (hst : st.receives = true) (hmany : st' = .receiving → 1 < c.len)
    (hlast : st = .receivedLast → c.op = .readMemoryMulti → ∀ i, s.e.idx = some i → i + 1 = c.len) :
    ∃ vs', Reading s₀ c st' vs' u := by
  obtain ⟨⟨evs, htrace, hbus⟩, hstored, hcounted⟩ := h
  cases st with
  | between =>
    simp only [ReadStage.steps] at ha
    split at ha
    · rename_i hop
      obtain ⟨hcalm, hmode, hack, hreceived⟩ := hbus
      simp only [List.mem_cons, Prod.mk.injEq, List.not_mem_nil, or_false] at ha
      obtain ⟨rfl, rfl⟩ | ⟨rfl, rfl⟩ | ⟨rfl, rfl⟩ := ha <;> cases hdo
      · exact ⟨vs, ⟨evs, htrace, hcalm, hmode, hack, hreceived⟩, hstored, hcounted⟩
      · have hlen := hmany rfl
        obtain ⟨hstart, hstop, hrxne⟩ := hcalm
        exact ⟨vs, ⟨evs, htrace, hstart, hstop, hmode, by simp [hack, hlen], hlen, .inl ⟨hrxne, hreceived⟩⟩, hstored,
          hcounted⟩
      · exact ⟨vs, ⟨evs, htrace, hcalm, hmode, rfl, hreceived⟩, hstored, (if_pos hop).mpr hcounted⟩
    · cases ha
  | receiving =>
    cases List.mem_singleton.1 ha
    cases hdo
    have hrxne := hwait _ rfl
    obtain ⟨hstart, hstop, hmode, hack, hlen, ⟨hempty, -⟩ | hfull⟩ := hbus
    · simp [WaitCond.holds, hempty] at hrxne
    · exact ⟨vs, ⟨evs, htrace, hstart, hstop, hmode, hack, hlen, hfull⟩, hstored, hcounted⟩
  | received =>
    simp only [ReadStage.steps] at ha
    split at ha
    · rename_i hop
      cases List.mem_singleton.1 ha
      obtain ⟨hstart, hstop, hmode, hack, hlen, -, v, hv, hreceived⟩ := hbus
      obtain ⟨w, hw, hstored, hidx, hp, hbus⟩ := captureBuf_effect hdo hop hstored hcounted
      cases hw.symm.trans hv
      refine ⟨vs ++ [v], ⟨evs, hbus.trans htrace, ?_⟩, hstored, hidx⟩
      rw [hp]
      exact ⟨⟨hstart, hstop, rfl⟩, hmode, by simp [hack, hlen], hreceived⟩
    · cases ha
  | last =>
    cases List.mem_singleton.1 ha
    cases hdo
    obtain ⟨⟨-, -, hrxne⟩, hmode, hack, hreceived⟩ := hbus
    exact ⟨vs, ⟨evs, htrace, .inl ⟨rfl, rfl, hrxne, hmode, hack, hreceived⟩⟩, hstored, hcounted⟩
  | receivingLast =>
    cases List.mem_singleton.1 ha
    cases hdo
    have hrxne := hwait _ rfl
    obtain ⟨-, -, hempty, -⟩ | hended := hbus
    · simp [WaitCond.holds, hempty] at hrxne
    · exact ⟨vs, ⟨evs, htrace, hended⟩, hstored, hcounted⟩
  | receivedLast =>
    cases List.mem_singleton.1 ha
    obtain ⟨v, hv, hended⟩ := hbus
    by_cases hop : c.op = .readMemoryMulti
    · rw [if_pos hop] at hdo
      have hidx : s.e.idx = some vs.length := (if_pos hop).mp hcounted
      obtain ⟨w, hw, hstored, -, hp, hbus⟩ := captureBuf_effect hdo hop hstored hidx
      cases hw.symm.trans hv
      refine ⟨vs ++ [v], ⟨evs, hbus.trans htrace, ?_⟩, hstored, (if_pos hop).mpr ?_⟩
      · rw [hp]
        exact hended
      · simpa using hlast rfl hop _ hidx
    · rw [if_neg hop] at hdo
      obtain ⟨w, u', hread, rfl⟩ := actCaptureRdata_ok hdo
      obtain ⟨hw, rfl⟩ := primReadDr_cases hread
      cases hw.symm.trans hv
      have hnone : vs = [] := (if_neg hop).mp hcounted
      obtain ⟨hwf, hmem⟩ := hstored
      rw [if_neg hop] at hmem
      exact ⟨vs ++ [v], ⟨evs, htrace, hended⟩, ⟨hwf, (if_neg hop).mpr hmem⟩,
        (if_neg hop).mpr ⟨v, by simp [hnone], rfl⟩⟩
  | returned => cases ha
  | _ => cases hst

end
end

end Sys2Proof.Machine
end

section
/-! What a read that returns `OK` put on the bus, under every schedule and for every oracle (R97, R113, R115). -/

namespace Sys2Proof.Machine

open Sys2Proof

/-! ## The rows of the step tables carry a read on -/

/-- A run of one read command: it is not issued yet, it runs, it has returned, or it has failed and will not return
`OK`. -/
inductive ReadRun (s₀ : State) (c : Command) (s : State) : Prop
  | before (hpc : s.e.pc = .idle) (hcalls : s.calls = s₀.calls) (hmem : s.mem = s₀.mem) (evs : List BusEvent)
      (htrace : s.busTrace = s₀.busTrace ++ evs) (hclosing : Closing s₀ s.p evs)
  | running (hcalls : s.calls = []) (hcmd : s.e.cmd = some c) (habort : s.e.pc ≠ .abort) (hresult : s.result = none)
      (vs : List Byte) (hread : Reading s₀ c (c.op.readStage s.e.pc) vs s)
  | returned (hcalls : s.calls = []) (hpc : s.e.pc = .idle) (vs : List Byte) (hread : Reading s₀ c .returned vs s)
  | failed (hcalls : s.calls = []) (r : Result) (hresult : s.result = some r) (hr : r ≠ .ok)

/-- The command the Caller has still to issue, its one remaining move. -/
def State.willIssue (s : State) (c : Command) : Prop :=
  ∃ i cw len buf, encode i = .cmd cw ∧ s.calls = [.command cw len buf] ∧ c.len = len.toNat ∧ c.buf = buf ∧
    ∀ u, exec i u = accept c.op c.addr c.reg c.data .start u

section
variable {op : Op} {l : Label} {row : Row} (hop : op.reads = true) (hrow : stepTable op l = some row)
include hop hrow

/-- A read has no settle and no wait for the free bus. -/
theorem row_reads_noSettle : row.act ≠ .settle ∧ row.act ≠ .wait .notBusy := by
  have hall : everyRow (fun op _ row => !op.reads ||
    (decide (row.act ≠ .settle) && decide (row.act ≠ .wait .notBusy))) = true := by decide
  simpa [hop] using of_everyRow hall hrow

/-- The labels of a row that counts the bytes left. -/
theorem row_readStage_counts
    (h : op.readStage l = .receiving ∨ op.readStage l = .receivedLast ∧ op = .readMemoryMulti) :
    op = .readMemoryMulti ∧ (op.readStage l = .receiving → l = .rxneWaitN) ∧
      (op.readStage l = .receivedLast → l = .capture) := by
  have hall : everyRow (fun op l _ => !op.reads ||
    !decide (op.readStage l = .receiving ∨ op.readStage l = .receivedLast ∧ op = .readMemoryMulti) ||
    decide (op = .readMemoryMulti ∧ (op.readStage l = .receiving → l = .rxneWaitN) ∧
      (op.readStage l = .receivedLast → l = .capture))) = true := by decide
  have hrow := of_everyRow hall hrow
  rw [hop, decide_eq_true h] at hrow
  exact of_decide_eq_true hrow

end

section
variable {s₀ : State} {c : Command} {s t : State} (hop : c.op.reads = true) (hinv : s.Inv) (hcmd : s.e.cmd = some c)
include hop hinv hcmd

/-- A byte is waited for in the loop only if more than one is asked for (R114). -/
theorem one_lt_len_of_receiving {row : Row} (hrow : stepTable c.op s.e.pc = some row)
    (h : c.op.readStage s.e.pc = .receiving) : 1 < c.len := by
  obtain ⟨hmulti, hl, -⟩ := row_readStage_counts hop hrow (.inl h)
  obtain ⟨-, -, -, hcount⟩ := commandInv_row hinv.command hcmd hrow
  simp only [counterInv, hmulti, hl h] at hcount
  obtain ⟨i, r, -, -, hlen, hr⟩ := (countInv_iff (l := .rxneWaitN)).1 hcount
  simp at hr
  omega

/-- The last capture is that of the last byte (R115). -/
theorem len_of_receivedLast {row : Row} (hrow : stepTable c.op s.e.pc = some row)
    (h : c.op.readStage s.e.pc = .receivedLast) (hmulti : c.op = .readMemoryMulti) (i : Nat) (hi : s.e.idx = some i) :
    i + 1 = c.len := by
  obtain ⟨-, -, hl⟩ := row_readStage_counts hop hrow (.inr ⟨h, hmulti⟩)
  obtain ⟨-, -, -, hcount⟩ := commandInv_row hinv.command hcmd hrow
  simp only [counterInv, hmulti, hl h] at hcount
  obtain ⟨j, r, hj, -, hlen, hr⟩ := (countInv_iff (l := .capture)).1 hcount
  cases hj.symm.trans hi
  simp at hr
  omega

/-- An action of a row carries the read to the stage of the next label. -/
theorem Reading.row {row : Row} {m : Label} {u : State} {vs : List Byte}
    (hrow : stepTable c.op s.e.pc = some row) (hm : m ∈ row.succ.targets)
    (hmany : c.op.readStage m = .receiving → 1 < c.len) (hread : Reading s₀ c (c.op.readStage s.e.pc) vs s)
    (hwait : ∀ w, row.act = .wait w → w.holds s.p = true) (hdo : doAct row.act c s = .ok u) :
    ∃ vs', Reading s₀ c (c.op.readStage m) vs' u := by
  have hstep := row_readStage hop hrow hm
  cases hst : (c.op.readStage s.e.pc).receives with
  | false => exact ⟨vs, hread.act_address hinv hdo hwait hstep hst⟩
  | true =>
    exact hread.act_receive hdo hwait hstep hst hmany (len_of_receivedLast hop hinv hcmd hrow)

/-- A row carries a running read on, or its wait expires. -/
theorem ReadRun.row {row : Row} {vs : List Byte} (hrow : stepTable c.op s.e.pc = some row) (hcalls : s.calls = [])
    (hresult : s.result = none) (hread : Reading s₀ c (c.op.readStage s.e.pc) vs s) (h : runRow row c s = .next t) :
    ReadRun s₀ c t := by
  have ht := hinv.of_runRow hcmd hrow h
  obtain ⟨hnoSettle, hnotBusy⟩ := row_reads_noSettle hop hrow
  have many {m : Label} (hm : m ∈ row.succ.targets) (hpc : t.e.pc = m) (htcmd : t.e.cmd = some c)
      (hmany : c.op.readStage m = .receiving) : 1 < c.len := by
    obtain rfl | hsome := row_target hrow hm
    · cases hmany
    · subst hpc
      obtain ⟨row', hrow'⟩ := Option.isSome_iff_exists.1 hsome
      exact one_lt_len_of_receiving hop ht htcmd hrow' hmany
  have moved {u : State} {m : Label} (hm : m ∈ row.succ.targets) (hucmd : u.e.cmd = some c) (hucalls : u.calls = [])
      (hures : u.result = none) (h : ∃ vs', Reading s₀ c (c.op.readStage m) vs' u) : ReadRun s₀ c (u.setPc m) := by
    obtain ⟨vs', h⟩ := h
    refine .running hucalls hucmd ?_ hures vs' (h.congr rfl rfl rfl rfl rfl)
    obtain rfl | hsome := row_target hrow hm
    · simp
    · obtain ⟨row', hrow'⟩ := Option.isSome_iff_exists.1 hsome
      exact (pc_of_row hrow').2.2
  obtain ⟨w, ha, hpoll⟩ | ⟨ha, -⟩ | ⟨u, m, hdirect, hu, hm, rfl⟩ := runRow_cases h
  · obtain ⟨⟨htrace, -, -, -, -, hcalls', -⟩, he, hmem⟩ := pollOnce_sameOutside w s
    have hp : (pollOnce w s).2.p = s.p := (pollOnce_p w s).resolve_right fun ⟨hw, _⟩ => hnotBusy (hw ▸ ha)
    have hrdata : (pollOnce w s).2.rdata = s.rdata := by cases w <;> rfl
    have hsame {st : ReadStage} {vs : List Byte} (h : Reading s₀ c st vs s) : Reading s₀ c st vs (pollOnce w s).2 :=
      h.congr htrace hp hmem (by rw [he]) hrdata
    have hres := (pollOnce_result w s).trans hresult
    cases hw : w.holds s.p with
    | true =>
      rw [poll_satisfied hw] at hpoll
      obtain ⟨m, hm, rfl⟩ := advance_next hpoll
      have hmem := succLabel_mem hm
      have hucmd : ((pollOnce w s).2.setPolls 0).e.cmd = some c := by simp [he, hcmd]
      obtain ⟨vs', h⟩ := hread.row hop hinv hcmd (u := s) hrow hmem (many hmem rfl hucmd) (by simp [ha, hw])
        (by rw [ha]; rfl)
      exact moved hmem hucmd (hcalls'.trans hcalls) hres ⟨vs', (hsame h).congr rfl rfl rfl rfl rfl⟩
    | false =>
      rw [poll_missed hw] at hpoll
      cases hpoll
      obtain ⟨-, hm⟩ | ⟨-, -, hm⟩ | ⟨-, -, hm⟩ := pollMissed_cases w (pollOnce w s).2 <;> rw [hm]
      · exact .running (hcalls'.trans hcalls) (by rw [he, hcmd]) (by rw [he]; exact (pc_of_row hrow).2.2) hres vs
          (by rw [he]; exact hsame hread)
      · exact .failed (hcalls'.trans hcalls) w.expiry rfl (by cases w <;> simp [WaitCond.expiry])
      · have hpc : ((pollOnce w s).2.setPolls ((pollOnce w s).2.e.polls + 1)).e.pc = s.e.pc := by simp [he]
        exact .running (hcalls'.trans hcalls) (by simp [he, hcmd]) (hpc ▸ (pc_of_row hrow).2.2) hres vs
          (hpc ▸ (hsame hread).congr rfl rfl rfl rfl rfl)
  · exact absurd ha hnoSettle
  · obtain ⟨-, -, -, -, -, hcalls', -⟩ := doAct_sameOutside hu
    obtain ⟨-, hcounts⟩ := doAct_moves hu
    have hucmd := hcounts.kept.1.trans hcmd
    have hmem := succLabel_mem hm
    exact moved hmem hucmd (hcalls'.trans hcalls) ((doAct_result_pc hu).1.trans hresult)
      (hread.row hop hinv hcmd hrow hmem (many hmem rfl hucmd) (fun w hw => by rw [hw] at hdirect; cases hdirect) hu)

end

/-! ## Every step keeps to the run of the one read -/

section
variable {s₀ : State} {c : Command} {s t : State} (hop : c.op.reads = true)

/-- The schedule does not matter to a run. -/
theorem ReadRun.rescheduled (h : ReadRun s₀ c s) (script : List Pick) (i n : Nat) (w : Option (EnvStep × Nat)) :
    ReadRun s₀ c { s with script := script, picks := i, waiting := w, patience := n } := by
  cases h with
  | before hpc hcalls hmem evs htrace hclosing => exact .before hpc hcalls hmem evs htrace hclosing
  | running hcalls hcmd habort hresult vs hread =>
    exact .running hcalls hcmd habort hresult vs (hread.congr rfl rfl rfl rfl rfl)
  | returned hcalls hpc vs hread => exact .returned hcalls hpc vs (hread.congr rfl rfl rfl rfl rfl)
  | failed hcalls r hresult hr => exact .failed hcalls r hresult hr

/-- At a scheduling point a read is at no stage that a step of the environment would change. -/
theorem readStage_of_yields {op : Op} {l : Label} (hy : l.yields = true) :
    op.readStage l ≠ .between ∧ op.readStage l ≠ .last ∧ op.readStage l ≠ .closing := by
  cases l <;> simp [Label.yields, Label.isWait] at hy <;> simp [Op.readStage]

theorem Reading.env {k : EnvStep} {evs : List BusEvent} {st : ReadStage} {vs : List Byte} (hp : s.p.Inv)
    (h : Reading s₀ c st vs s) (hmove : EnvMove s.p k t.p evs) (htrace : t.busTrace = s.busTrace ++ evs)
    (hsame : SameEngine s t) (hst : st ≠ .between ∧ st ≠ .last ∧ st ≠ .closing) : Reading s₀ c st vs t := by
  obtain ⟨⟨before, hbefore, hbus⟩, hstored, hcounted⟩ := h
  obtain ⟨he, -, hrdata, -, hmem, -⟩ := hsame
  obtain ⟨hbetween, hlast, hclosing⟩ := hst
  refine ⟨⟨before ++ evs, by rw [htrace, hbefore, List.append_assoc], ?_⟩, hmem ▸ hstored, ?_⟩
  · exact hbus.env hmove hp ⟨hbetween, hlast⟩ fun h => absurd h hclosing
  · cases st <;> simpa only [ReadStage.Counted, he, hrdata] using hcounted

theorem ReadRun.env {k : EnvStep} (hinv : s.Inv) (h : ReadRun s₀ c s) (hy : s.e.pc.yields = true)
    (hk : envEnabled k s.p = true) (hstep : envStep k s = .next t) : ReadRun s₀ c t := by
  obtain ⟨hsame, evs, hmove, htrace⟩ := envStep_move hstep hk
  obtain ⟨he, hresult', -, -, hmem', -, -, -, -, hcalls', -⟩ := id hsame
  cases h with
  | before hpc hcalls hmem before hbefore hclosing =>
    refine .before (he ▸ hpc) (hcalls'.trans hcalls) (hmem'.trans hmem) (before ++ evs)
      (by rw [htrace, hbefore, List.append_assoc]) ?_
    have hreq : s.p.reqStart = false := by
      refine Bool.eq_false_iff.2 fun hreq => ?_
      have hpending := hinv.link.pending hreq
      rw [hpc] at hpending
      cases hpending
    exact ReadStage.Holds.env (st := .closing) (c := c) (vs := []) hmove hinv.periph hclosing (by simp) fun _ => hreq
  | running hcalls hcmd habort hresult vs hread =>
    exact .running (hcalls'.trans hcalls) (he ▸ hcmd) (he ▸ habort) (hresult'.trans hresult) vs
      (he ▸ hread.env hinv.periph hmove htrace hsame (readStage_of_yields hy))
  | returned hcalls hpc vs hread =>
    exact .returned (hcalls'.trans hcalls) (he ▸ hpc) vs (hread.env hinv.periph hmove htrace hsame (by simp))
  | failed hcalls r hresult hr => exact .failed (hcalls'.trans hcalls) r (hresult'.trans hresult) hr

theorem turn_idle (h : s.e.pc = .idle) : turn s = callerStep s := if_pos h

/-- The Caller issues its command: it is rejected, or the read begins (R55). -/
theorem ReadRun.issue (hissue : s₀.willIssue c) (hwf : s₀.mem.wf = true) (hpc : s.e.pc = .idle)
    (hcalls : s.calls = s₀.calls) (hmem : s.mem = s₀.mem) {evs : List BusEvent}
    (htrace : s.busTrace = s₀.busTrace ++ evs) (hclosing : Closing s₀ s.p evs) (h : turn s = .next t) :
    ReadRun s₀ c t := by
  obtain ⟨i, cw, len, buf, hcw, hs, hlen, hbuf, hexec⟩ := hissue
  have hcommand (u : State) (hu : u.side = ⟨len, buf⟩) : commandOf c.op c.addr c.reg c.data u = c := by
    cases c
    simp_all [commandOf]
  rw [turn_idle hpc, callerStep, hcalls.trans hs] at h
  dsimp only at h
  rw [runWord_instr (hcw ▸ decode_encode i), hexec] at h
  obtain ⟨-, ha⟩ | ⟨-, -, ha⟩ | ⟨-, -, -, -, ha⟩ | ⟨-, -, -, ha⟩ := accept_cases c.op c.addr c.reg c.data .start
    { s with calls := [], side := ⟨len, buf⟩ } <;> rw [ha] at h <;> cases h
  · exact .failed rfl .rejected rfl (by simp)
  · rw [hcommand _ rfl]
    refine .running rfl rfl (by simp [latch]) rfl [] ⟨⟨evs, htrace, hclosing⟩, ?_, rfl⟩
    refine ⟨hmem ▸ hwf, ?_⟩
    split
    · exact ⟨rfl, fun x _ => by rw [← hmem]; rfl⟩
    · exact hmem

include hop in
/-- The engine's or the Caller's turn keeps to the run. -/
theorem ReadRun.turn (hissue : s₀.willIssue c) (hwf : s₀.mem.wf = true) (hinv : s.Inv) (h : ReadRun s₀ c s)
    (hturn : turn s = .next t) : ReadRun s₀ c t := by
  have atRest (hpc : s.e.pc = .idle) (hcalls : s.calls = []) : t = s := by
    rw [turn_idle hpc, callerStep, hcalls] at hturn
    cases hturn
    rfl
  cases h with
  | before hpc hcalls hmem evs htrace hclosing => exact .issue hissue hwf hpc hcalls hmem htrace hclosing hturn
  | running hcalls hcmd habort hresult vs hread =>
    obtain ⟨hpc, -, -⟩ := commandInv_running hinv.command hcmd
    rw [turn_engine hpc] at hturn
    obtain ⟨hidle, -⟩ | ⟨hab, -⟩ | ⟨hdone, rfl⟩ | ⟨c', row, hc', hrow, hrun⟩ := engineStep_cases hturn
    · exact absurd hidle hpc
    · exact absurd hab habort
    · rw [hdone] at hread
      exact .returned hcalls rfl vs (hread.congr rfl rfl rfl rfl rfl)
    · cases hc'.symm.trans hcmd
      exact ReadRun.row hop hinv hcmd hrow hcalls hresult hread hrun
  | returned hcalls hpc vs hread =>
    rw [atRest hpc hcalls]
    exact .returned hcalls hpc vs hread
  | failed hcalls r hresult hr =>
    by_cases hpc : s.e.pc = .idle
    · rw [atRest hpc hcalls]
      exact .failed hcalls r hresult hr
    · rw [turn_engine hpc] at hturn
      obtain ⟨hidle, -⟩ | ⟨-, rfl⟩ | ⟨-, rfl⟩ | ⟨c', row, hc', hrow, -⟩ := engineStep_cases hturn
      · exact absurd hidle hpc
      · exact .failed hcalls r hresult hr
      · exact .failed hcalls r (by simp [doneStep, hresult]) hr
      · obtain ⟨-, -, hnone, -⟩ := commandInv_row hinv.command hc' hrow
        simp [hnone] at hresult

include hop in
/-- Every step of a schedule without resets keeps to the run. -/
theorem ReadRun.step (hissue : s₀.willIssue c) (hwf : s₀.mem.wf = true) (hinv : s.Inv) (honly : s.onlyChoices)
    (h : ReadRun s₀ c s) (hstep : step s = .next t) : ReadRun s₀ c t := by
  obtain ⟨l, rest, hs, -⟩ | ⟨w, rest, hs, -⟩ | ⟨u, hu, hmove⟩ := step_cases s
  · obtain ⟨c, hc⟩ := honly (.reset l) (by simp [hs])
    cases hc
  · exact (hinv.no_prim hs).elim
  · have hinv' := hinv.consumed hu
    have h' : ReadRun s₀ c u := by
      obtain ⟨script, i, w, n, rfl⟩ := hu.eq_rescheduled
      exact h.rescheduled script i n w
    obtain ⟨k, hy, hk, henv⟩ | hturn := hmove
    · exact h'.env hinv' hy hk (henv.symm.trans hstep)
    · exact h'.turn hop hissue hwf hinv' (hturn.symm.trans hstep)

end

/-- A read that returned `OK` stands at its end. -/
theorem returned_of_read {s t : State} {c : Command} {k : Nat} (hop : c.op.reads = true) (hinv : s.inv = true)
    (hwf : s.canonical = true) (hpc : s.e.pc = .idle) (honly : s.onlyChoices) (hissue : s.willIssue c)
    (hrun : runSteps k s = .next t) (hok : t.returnedOk) : t.Inv ∧ ∃ vs, Reading s c .returned vs t := by
  have hinv := State.inv_iff.1 hinv
  simp only [State.canonical, Bool.and_eq_true] at hwf
  obtain ⟨⟨hwf, -⟩, -⟩ := hwf
  have hreleased : s.p.owner = false ∨ s.p.reqStop = true := hinv.link.released (by rw [hpc]; rfl)
  have hstart : ReadRun s c s := .before hpc rfl rfl [] (by simp) ⟨⟨by simp, by simp, fun _ => rfl⟩, hreleased, id⟩
  obtain ⟨hinv', -, h⟩ := runSteps_induct (I := fun u => u.Inv ∧ u.onlyChoices ∧ ReadRun s c u)
    (fun u v ⟨hu, honly, h⟩ hstep => ⟨hu.step hstep, fun x hx => honly x (List.mem_of_mem_tail
      ((step_params_script hstep).2 ▸ hx)), h.step hop hissue hwf hu honly hstep⟩) ⟨hinv, honly, hstart⟩ hrun
  obtain ⟨hpc', hcalls', hresult'⟩ := hok
  refine ⟨hinv', ?_⟩
  cases h with
  | before _ hcalls =>
    obtain ⟨_, _, _, _, _, hs, _⟩ := hissue
    cases hcalls'.symm.trans (hcalls.trans hs)
  | running _ hcmd => exact absurd hpc' (commandInv_running hinv'.command hcmd).1
  | returned _ _ vs hread => exact ⟨vs, hread⟩
  | failed _ r hresult hr => exact absurd (Option.some.inj (hresult.symm.trans hresult')) hr

/-- The stop of a read that ended is on the bus or pending. -/
theorem Ended.pendingStop {s t : State} {c : Command} {vs : List Byte} {evs : List BusEvent} (hp : t.p.Inv)
    (h : Ended s c vs t.p evs) : ∃ body, Complete s c vs body ∧ evs ++ t.pendingStop = body ++ [.P] := by
  obtain ⟨-, ⟨hmode, -, hbody⟩ | ⟨howner, body, hbody, rfl⟩⟩ := h
  · have howner : t.p.owner = true := hp.owner.2 (by simp [hmode])
    exact ⟨evs, hbody, by simp [State.pendingStop, howner]⟩
  · exact ⟨body, hbody, by simp [State.pendingStop, howner]⟩

/-- What a read that returned `OK` added to the bus. -/
theorem Reading.events {s t : State} {c : Command} {vs : List Byte} (hp : t.p.Inv) (h : Reading s c .returned vs t) :
    ∃ head, ReadHead s c .read head ∧ t.busTrace ++ t.pendingStop =
      s.busTrace ++ head ++ [.A (addrByte c.addr .read) true] ++ receiveEvents vs ++ [.P] := by
  obtain ⟨evs, htrace, hended⟩ := h.bus
  obtain ⟨body, ⟨sel, ⟨head, hhead, rfl⟩, rfl⟩, hstop⟩ := hended.pendingStop hp
  exact ⟨head, hhead, by rw [htrace, List.append_assoc, hstop]; simp⟩

/-- One word is the command of one instruction. -/
theorem State.issues_inj {s : State} {i j : Instr} {len : BitVec 32} {buf : BufRef} {rest : List Call}
    (hi : s.issues i len buf rest) (hj : s.issues j len buf rest) : i = j := by
  obtain ⟨cw, hcw, hs⟩ := hi
  obtain ⟨cw', hcw', hs'⟩ := hj
  cases hs.symm.trans hs'
  have h := decode_encode i
  rw [hcw, ← hcw', decode_encode j] at h
  cases h
  rfl

/-- What a read of one byte added to the bus, and what it returns. -/
theorem Reading.returns_byte {s t : State} {c : Command} {vs : List Byte} (hp : t.p.Inv)
    (h : Reading s c .returned vs t) (hop : c.op ≠ .readMemoryMulti) :
    ∃ head v, ReadHead s c .read head ∧ t.rdata = some v ∧ t.mem = s.mem ∧ t.busTrace ++ t.pendingStop =
      s.busTrace ++ head ++ [.A (addrByte c.addr .read) true, .R v false, .P] := by
  obtain ⟨head, hhead, hevents⟩ := h.events hp
  obtain ⟨v, rfl, hv⟩ := (if_neg hop).mp h.counted
  exact ⟨head, v, hhead, hv, (if_neg hop).mp h.stored.2, by rw [hevents]; simp [receiveEvents]⟩

/-- Settles O58: a run of one read goes through the stages of its transaction (`ReadRun.step`), and what returned `OK`
has been through all of them. -/
theorem readsAnySchedule : Obligations.ReadsAnySchedule := by
  unfold Obligations.ReadsAnySchedule
  intro s t a r len buf k hinv hwf hpc honly hrun hok
  have returned {i : Instr} {c : Command} (h : s.issues i len buf []) (hop : c.op.reads = true)
      (hlen : c.len = len.toNat) (hbuf : c.buf = buf)
      (hexec : ∀ u, exec i u = accept c.op c.addr c.reg c.data .start u) :
      t.p.Inv ∧ ∃ vs, Reading s c .returned vs t := by
    obtain ⟨cw, hcw, hs⟩ := h
    obtain ⟨hinv', h⟩ := returned_of_read hop hinv hwf hpc honly ⟨i, cw, len, buf, hcw, hs, hlen, hbuf, hexec⟩ hrun hok
    exact ⟨hinv'.periph, h⟩
  by_cases h1 : s.issues (.readByte a) len buf []
  · obtain ⟨hp, vs, hread⟩ := returned (c := ⟨.readByte, a, 0, 0, len.toNat, buf⟩) h1 rfl rfl rfl fun _ => rfl
    obtain ⟨head, v, ⟨old, hold, ⟨-, rfl⟩ | ⟨hne, -⟩⟩, hv, hmem, hevents⟩ := hread.returns_byte hp (by simp)
    · refine ⟨old, hold, fun _ => ⟨v, hv, hmem, by rw [hevents]; simp⟩, fun h => ?_, fun h => ?_⟩ <;>
        cases State.issues_inj h1 h
    · exact absurd rfl hne
  by_cases h2 : s.issues (.readMemoryByte a r) len buf []
  · obtain ⟨hp, vs, hread⟩ := returned (c := ⟨.readMemoryByte, a, r, 0, len.toNat, buf⟩) h2 rfl rfl rfl fun _ => rfl
    obtain ⟨head, v, ⟨old, hold, ⟨hop, -⟩ | ⟨-, kr, rfl⟩⟩, hv, hmem, hevents⟩ := hread.returns_byte hp (by simp)
    · cases hop
    · refine ⟨old, hold, fun h => absurd h h1, fun _ => ⟨kr, v, hv, hmem, by rw [hevents]; simp⟩, fun h => ?_⟩
      cases State.issues_inj h2 h
  by_cases h3 : s.issues (.readMemoryMulti a r) len buf []
  · obtain ⟨hp, vs, hread⟩ := returned (c := ⟨.readMemoryMulti, a, r, 0, len.toNat, buf⟩) h3 rfl rfl rfl fun _ => rfl
    obtain ⟨head, ⟨old, hold, ⟨hop, -⟩ | ⟨-, kr, rfl⟩⟩, hevents⟩ := hread.events hp
    · cases hop
    · have hlen : vs.length = len.toNat := hread.counted
      obtain ⟨hbytes, houtside⟩ :
          t.mem.readBytes buf.base vs.length = vs ∧ ∀ x, outside buf vs.length x → t.mem.read x = s.mem.read x :=
        hread.stored.2
      rw [hlen] at hbytes houtside
      exact ⟨old, hold, fun h => absurd h h1, fun h => absurd h h2,
        fun _ => ⟨kr, vs, hlen, hbytes, houtside, by rw [hevents]; simp⟩⟩
  exact ⟨[], ⟨by simp, by simp, fun _ => rfl⟩, fun h => absurd h h1, fun h => absurd h h2, fun h => absurd h h3⟩

end Sys2Proof.Machine
end

section
/-! The scan's engine steps, one equation per row of its table (R98 to R100, R103). -/

namespace Sys2Proof.Machine

open Sys2Proof

/-! ## The rows of the scan -/

section
variable {s : State} {c : Command} {n : Nat} (hc : s.e.cmd = some c) (hop : c.op = .scan)
include hc hop

/-- An engine step of a scan is the row of its label. -/
theorem engineStep_scan {row : Row} (hrow : scanTable s.e.pc = some row) : engineStep s = runRow row c s :=
  engineStep_row hc (by rw [hop]; exact hrow)

theorem engineStep_scanInit (hpc : s.e.pc = .scanInit) :
    engineStep s = .next { s with e := { s.e with sa := some 0, pc := .probeStart } } := by
  rw [engineStep_scan hc hop (row := ⟨.scanInit, .goto .probeStart⟩) (by rw [hpc]; rfl)]
  rfl

theorem engineStep_probeStart (hpc : s.e.pc = .probeStart) :
    engineStep s = .next ((primIssueStart s).setPc .probeStartWait) := by
  rw [engineStep_scan hc hop (row := ⟨.issueStart, .goto .probeStartWait⟩) (by rw [hpc]; rfl)]
  rfl

theorem engineStep_probeStartWait (hpc : s.e.pc = .probeStartWait) :
    engineStep s = poll .sb (.goto .probeAddr) c s :=
  engineStep_scan hc hop (row := ⟨.wait .sb, .goto .probeAddr⟩) (by rw [hpc]; rfl)

/-- A poll that sees the start goes on to the address byte. -/
theorem engineStep_startSeen (hpc : s.e.pc = .probeStartWait) (hsb : s.p.sb = true) :
    engineStep s = .next (((primReadStatus s).2.setPolls 0).setPc .probeAddr) :=
  (engineStep_probeStartWait hc hop hpc).trans (poll_satisfied hsb)

theorem engineStep_probeAddr (hpc : s.e.pc = .probeAddr) (hsa : s.e.sa = some n)
    (hmode : s.p.mode = .pStart) : engineStep s = .next { s with
      e := { s.e with pc := .settle }
      p := { s.p with
        sb := false, addrResolved := false, target := none, mode := .pAddr (addrByte (probeAddr n) .write) }
      primTrace := s.primTrace ++ [⟨primWord 0x3 (addrByte (probeAddr n) .write), none⟩] } := by
  have hdo : doAct .sendProbe c s = primWriteDr (addrByte (probeAddr n) .write) s := by simp only [doAct, hsa]; rfl
  rw [engineStep_scan hc hop (row := ⟨.sendProbe, .goto .settle⟩) (by rw [hpc]; rfl),
    runRow_of_ok (by rfl) (hdo.trans (by simp only [primWriteDr, hmode]; rfl))]
  rfl

theorem engineStep_settle (hpc : s.e.pc = .settle) : engineStep s =
    .next (if s.p.addrResolved = true then { s with e := { s.e with pc := .probeStop } } else s) := by
  rw [engineStep_scan hc hop (row := ⟨.settle, .goto .probeStop⟩) (by rw [hpc]; rfl), runRow_settle, settleStep]
  split <;> rfl

theorem engineStep_settled (hpc : s.e.pc = .settle) (h : s.p.addrResolved = true) :
    engineStep s = .next (s.setPc .probeStop) :=
  (engineStep_settle hc hop hpc).trans (congrArg _ (if_pos h))

theorem engineStep_probeStop (hpc : s.e.pc = .probeStop) :
    engineStep s = .next ((primIssueStop s).setPc .inspect) := by
  rw [engineStep_scan hc hop (row := ⟨.issueStop, .goto .inspect⟩) (by rw [hpc]; rfl)]
  rfl

theorem engineStep_inspect (hpc : s.e.pc = .inspect) (hsa : s.e.sa = some n) : engineStep s = .next { s with
    e := { s.e with snap := some (s.p.status.withBusy (Config.freeSnapBusy s.snaps)), pc := .probeClear }
    snaps := s.snaps + 1
    scanOut := if s.p.addr = true then s.scanOut ++ [probeAddr n] else s.scanOut
    primTrace := s.primTrace ++ [⟨0x5000, some s.statusValue⟩] } := by
  have hdo : doAct .inspect c s = actInspect s := rfl
  simp only [actInspect, hsa] at hdo
  rw [engineStep_scan hc hop (row := ⟨.inspect, .goto .probeClear⟩) (by rw [hpc]; rfl), runRow_of_ok (by rfl) hdo]
  rfl

theorem engineStep_probeClear (hpc : s.e.pc = .probeClear) :
    engineStep s = .next ((primReadStatus2 s).2.setPc .next) := by
  rw [engineStep_scan hc hop (row := ⟨.clearAddr, .goto .next⟩) (by rw [hpc]; rfl)]
  rfl

theorem engineStep_nextProbe (hpc : s.e.pc = .next) (hsa : s.e.sa = some n) : engineStep s =
    .next { s with e := { s.e with sa := some (n + 1), pc := if n + 1 < 128 then .probeStart else .done } } := by
  have hdo : doAct .nextProbe c s = .ok { s with e := { s.e with sa := some (n + 1) } } := by
    simp only [doAct, hsa]
    rfl
  rw [engineStep_scan hc hop (row := ⟨.nextProbe, .ifSa .probeStart .done⟩) (by rw [hpc]; rfl),
    runRow_of_ok (by rfl) hdo, advance_ifSa rfl]
  rfl

end

/-! ## The obligations on single steps -/

/-- Settles O26: the settle row by whether the address phase has resolved. -/
theorem settleStep_holds_or_advances : Obligations.SettleStep := by
  refine ⟨rfl, fun s c hc hop hpc => ⟨fun h => ?_, fun h => ?_⟩⟩ <;> rw [engineStep_settle hc hop hpc] <;> simp [h]

/-- Settles O27: the equations of the four rows; the successor of `NEXT` by the bound. -/
theorem scanSteps : Obligations.ScanSteps := by
  refine fun s c hc hop => ⟨engineStep_scanInit hc hop, fun n hpc hsa => ⟨_, engineStep_inspect hc hop hpc hsa⟩,
    fun n hpc hsa hn => ?_, fun n hpc hsa hn => ?_⟩ <;> rw [engineStep_nextProbe hc hop hpc hsa]
  · rw [if_pos hn]
  · rw [if_neg (by omega)]

end Sys2Proof.Machine
end

section
/-! What stands on the bus during a scan, label by label, and what the environment and the scan's own steps make of it
(R98 to R103, R105). -/

namespace Sys2Proof.Machine

open Sys2Proof

/-! ## One more probe -/

theorem scanEvents_append (n : Nat) (ks : List Bool) (k : Bool) :
    scanEvents n (ks ++ [k]) = scanEvents n ks ++ probeEvents (n + ks.length) k := by
  induction ks generalizing n with
  | nil => simp [scanEvents]
  | cons j ks ih => simp [scanEvents, ih, Nat.add_assoc, Nat.add_comm 1]

theorem acknowledged_append (n : Nat) (ks : List Bool) (k : Bool) :
    acknowledged n (ks ++ [k]) = acknowledged n ks ++ if k then [probeAddr (n + ks.length)] else [] := by
  induction ks generalizing n with
  | nil => simp [acknowledged]
  | cons j ks ih => cases j <;> simp [acknowledged, ih, Nat.add_assoc, Nat.add_comm 1]

/-! ## The bus at each label -/

/-- The stop that is still to come from a Bus Interface that holds the bus. -/
def Periph.pendingStop (p : Periph) : List BusEvent := if p.owner then [.P] else []

theorem State.pendingStop_eq (s : State) : s.pendingStop = s.p.pendingStop := rfl

section
variable (s₀ : State) (ks : List Bool)

/-- The events of the transaction that closes, of the probes answered `ks`, and of the one in progress. -/
def Probed (evs current : List BusEvent) : Prop :=
  ∃ old, s₀.closes old ∧ evs = old ++ scanEvents 0 ks ++ current

/-- An address byte for writing has been answered, and no data byte was written since. -/
def Periph.answered (p : Periph) : Prop :=
  p.mode = .pTxWaitClr ∨ p.mode = .pNacked ∨ p.mode = .pTx ∧ p.drTx = none ∧ p.shift = none

theorem Periph.answered.quiet {p : Periph} (h : p.answered) : p.quiet = true := by
  obtain hmode | hmode | ⟨hmode, hdr, hshift⟩ := h <;> simp [Periph.quiet, *]

theorem Periph.answered.clearAddr {p : Periph} (h : p.answered) (hp : p.Inv) : p.clearAddr.answered := by
  obtain hmode | hmode | hmode := h
  · obtain ⟨hdr, hshift⟩ := hp.tx (by simp [hmode])
    rw [Periph.clearAddr_of_pTxWaitClr (hp.waits (.inl hmode)) hmode]
    exact .inr (.inr ⟨rfl, hdr, hshift⟩)
  all_goals
    cases haddr : p.addr with
    | false =>
      rw [Periph.clearAddr_of_clear haddr]
      exact .inr (by simp [hmode])
    | true =>
      rw [Periph.clearAddr_of_not_waiting haddr (by simp [hmode]) (by simp [hmode])]
      exact .inr (by simp [hmode])

/-- The probes answered `ks` are over but for the last one's stop; before the first of them, an earlier transaction may
still be closing. -/
def BetweenProbes (p : Periph) (evs : List BusEvent) : Prop :=
  ks = [] ∧ Closing s₀ p evs ∨
    (p.owner = true → p.reqStop = true ∧ p.answered) ∧ Probed s₀ ks (evs ++ p.pendingStop) []

/-- Neither a start nor a stop is requested. -/
def Periph.unrequested (p : Periph) : Prop := p.reqStart = false ∧ p.reqStop = false

/-- The next probe's start stands on the bus. -/
def ProbeStarted (p : Periph) (evs : List BusEvent) : Prop :=
  p.unrequested ∧ p.mode = .pStart ∧ p.addr = false ∧ Probed s₀ ks evs [.S]

/-- The address byte of the next probe. -/
def probeByte : Byte := addrByte (probeAddr ks.length) .write

/-- The address byte is in flight. -/
def ProbeAsked (p : Periph) (evs : List BusEvent) : Prop :=
  p.unrequested ∧ p.mode = .pAddr (probeByte ks) ∧ p.addr = false ∧ p.addrResolved = false ∧ Probed s₀ ks evs [.S]

/-- The address byte is answered, and `ADDR` is the answer (R76, R100). -/
def ProbeAnswered (p : Periph) (evs : List BusEvent) : Prop :=
  p.unrequested ∧ p.mode = (if p.addr then .pTxWaitClr else .pNacked) ∧
    Probed s₀ ks evs [.S, .A (probeByte ks) p.addr]

/-- The Bus Interface and the events since the start of the run at each label of a scan whose answers so far are `ks`.
At `INSPECT` the answer that `ADDR` shows is not among them yet. -/
def ScanBus (p : Periph) (evs : List BusEvent) : Label → Prop
  | .probeStartWait => p.reqStart = true ∧ BetweenProbes s₀ ks p evs ∨ ProbeStarted s₀ ks p evs
  | .probeAddr => ProbeStarted s₀ ks p evs
  | .settle => ProbeAsked s₀ ks p evs ∨ ProbeAnswered s₀ ks p evs
  | .probeStop => ProbeAnswered s₀ ks p evs
  | .inspect => BetweenProbes s₀ (ks ++ [p.addr]) p evs
  | _ => BetweenProbes s₀ ks p evs

end

/-! ## What the environment makes of it -/

section
variable {s₀ : State} {ks : List Bool} {k : EnvStep} {p q : Periph} {evs es : List BusEvent}
  (h : EnvMove p k q es) (hp : p.Inv)
include h hp

/-- Between probes the pending stop comes, and a start that was requested after it. -/
theorem BetweenProbes.env (hb : BetweenProbes s₀ ks p evs) :
    BetweenProbes s₀ ks q (evs ++ es) ∧ q.reqStart = p.reqStart ∨
      p.reqStart = true ∧ ProbeStarted s₀ ks q (evs ++ es) := by
  obtain ⟨rfl, hclosing⟩ | ⟨hheld, old, hold, hevs⟩ := hb
  · obtain ⟨hclosing, hreq⟩ | ⟨hreq, ⟨hstart, hstop, -⟩, hmode, haddr, -, old, hold, hevs⟩ :=
      hclosing.env (c := ⟨.scan, 0, 0, 0, 0, ⟨0, 0⟩⟩) h hp
    · exact .inl ⟨.inl ⟨rfl, hclosing⟩, hreq⟩
    · exact .inr ⟨hreq, ⟨hstart, hstop⟩, hmode, haddr, old, hold, by simpa [scanEvents] using hevs⟩
  · have howner : p.mode ≠ .pIdle → p.quiet = true := fun hm => (hheld (hp.owner.2 hm)).2.quiet
    cases h with
    | stop hreq hquiet ho =>
      simp only [Periph.pendingStop, ho, if_true] at hevs
      exact .inl ⟨.inr ⟨by simp, old, hold, by simpa [Periph.pendingStop] using hevs⟩, rfl⟩
    | drop hreq ho | extBusy b ho =>
      exact .inl ⟨.inr ⟨by simp [ho], old, hold, by simpa [Periph.pendingStop, ho] using hevs⟩, rfl⟩
    | start hreq hstop hquiet =>
      have ho : p.owner = false := by
        refine Bool.eq_false_iff.2 fun ho => ?_
        simp [(hheld ho).1] at hstop
      simp only [Periph.pendingStop, ho] at hevs ⊢
      exact .inr ⟨hreq, ⟨rfl, hstop⟩, rfl, rfl, old, hold, by simpa using congrArg (· ++ [.S]) hevs⟩
    | address b k hmode => simp [hmode, Periph.quiet] at howner
    | receive v hmode => simp [hmode, Periph.quiet] at howner
    | txShift b hmode hdr => simp [hmode, Periph.quiet, hdr] at howner
    | txDone b k hmode hshift => simp [hmode, Periph.quiet, hshift] at howner

theorem ProbeStarted.env (hs : ProbeStarted s₀ ks p evs) : False := by
  obtain ⟨⟨hstart, hstop⟩, hmode, -⟩ := hs
  exact h.false_of_calm hp hstart hstop (by simp [Periph.quiet, hmode]) (by simp [hmode])

theorem ProbeAnswered.env (hs : ProbeAnswered s₀ ks p evs) : False := by
  obtain ⟨⟨hstart, hstop⟩, hmode, -⟩ := hs
  refine h.false_of_calm hp hstart hstop ?_ ?_ <;> cases haddr : p.addr <;> simp [Periph.quiet, hmode, haddr]

/-- The address byte in flight is answered; `ADDR` rises with an acknowledge (R76). -/
theorem ProbeAsked.env (hs : ProbeAsked s₀ ks p evs) : ProbeAnswered s₀ ks q (evs ++ es) := by
  obtain ⟨hunreq, hmode, haddr, -, old, hold, rfl⟩ := hs
  obtain ⟨hstart, hstop⟩ := hunreq
  cases h with
  | address b k hb =>
    cases hb.symm.trans hmode
    cases k with
    | false => exact ⟨⟨hstart, hstop⟩, by simp [Periph.addressed, haddr], old, hold, by simp [Periph.addressed, haddr]⟩
    | true =>
      exact ⟨⟨hstart, hstop⟩, by simp [Periph.addressed, probeByte, dirOfByte_addrByte], old, hold,
        by simp [Periph.addressed]⟩
  | extBusy b hfree => simp [hp.owner.2 (by simp [hmode])] at hfree
  | _ => simp_all

/-- A step of the environment keeps what a label says of the bus; in IDLE no start is requested. -/
theorem ScanBus.env {l : Label} (hb : ScanBus s₀ ks p evs l)
    (hl : l = .idle ∧ p.reqStart = false ∨ l = .probeStartWait ∨ l = .settle) : ScanBus s₀ ks q (evs ++ es) l := by
  obtain ⟨rfl, hreq⟩ | rfl | rfl := hl
  · obtain ⟨hb, -⟩ | ⟨hstart, -⟩ := BetweenProbes.env h hp hb
    · exact hb
    · simp [hreq] at hstart
  · obtain ⟨hreq, hb⟩ | hb := hb
    · exact (hb.env h hp).imp (fun ⟨hb, hsame⟩ => ⟨hsame.trans hreq, hb⟩) And.right
    · exact (hb.env h hp).elim
  · obtain hb | hb := hb
    · exact .inr (hb.env h hp)
    · exact (hb.env h hp).elim

end

/-! ## What the scan's own steps make of it -/

section
variable {s₀ : State} {ks : List Bool} {p : Periph} {evs : List BusEvent}

/-- The stop requested after the answer ends the probe: what is left of it is that stop. -/
theorem ProbeAnswered.issueStop (hp : p.Inv) (hs : ProbeAnswered s₀ ks p evs) :
    BetweenProbes s₀ (ks ++ [p.addr]) { p with reqStop := true, reqStart := false } evs := by
  obtain ⟨-, hmode, old, hold, rfl⟩ := hs
  have howner : p.owner = true := hp.owner.2 (by rw [hmode]; split <;> simp)
  refine .inr ⟨fun _ => ⟨rfl, ?_⟩, old, hold, ?_⟩
  · cases haddr : p.addr <;> simp [Periph.answered, hmode, haddr]
  · simp [Periph.pendingStop, howner, scanEvents_append, probeEvents, probeByte]

/-- Clearing the address status leaves the probes over (R101). -/
theorem BetweenProbes.clearAddr (hp : p.Inv) (hb : BetweenProbes s₀ ks p evs) :
    BetweenProbes s₀ ks p.clearAddr evs := by
  obtain ⟨-, hstop, -, howner⟩ := clearAddr_kept p
  unfold BetweenProbes Closing Periph.pendingStop at *
  rw [howner, hstop]
  exact hb.imp_right (.imp_left fun hheld ho => ⟨(hheld ho).1, (hheld ho).2.clearAddr hp⟩)

end

end Sys2Proof.Machine
end

section
/-! A scan under every schedule and for every oracle (R98 to R105): its 128 probes in order, and what it reports. -/

namespace Sys2Proof.Machine

open Sys2Proof

/-! ## The stages of a run -/

/-- The candidate at each label of a scan whose answers so far are `ks` (R98, R103). -/
def ScanCandidate (ks : List Bool) (sa : Option Nat) : Label → Prop
  | .scanInit => ks = []
  | .probeStart | .probeStartWait | .probeAddr | .settle | .probeStop | .inspect => sa = some ks.length
  | .probeClear | .next => ∃ n, sa = some n ∧ ks.length = n + 1
  | .done | .idle => ks.length = 128
  | _ => False

/-- The one wait of a scan. -/
theorem ScanCandidate.wait {ks : List Bool} {sa : Option Nat} {l : Label} (h : ScanCandidate ks sa l)
    (hw : l.isWait = true) : l = .probeStartWait := by
  cases l <;> cases hw
  case probeStartWait => rfl
  all_goals exact h.elim

/-- A scan at its label, whose answers so far are `ks`. -/
structure Probing (s₀ : State) (ks : List Bool) (s : State) : Prop where
  bus : ∃ evs, s.busTrace = s₀.busTrace ++ evs ∧ ScanBus s₀ ks s.p evs s.e.pc
  op : ∀ c, s.e.cmd = some c → c.op = .scan
  candidate : ScanCandidate ks s.e.sa s.e.pc
  out : s.scanOut = acknowledged 0 ks
  mem : s.mem = s₀.mem

/-- A run of one scan: it is not issued yet, it runs or has returned with its 128 answers, or it has failed and will not
return `OK`. -/
inductive ScanRun (s₀ s : State) : Prop
  | before (hpc : s.e.pc = .idle) (hcalls : s.calls = s₀.calls) (hmem : s.mem = s₀.mem) (evs : List BusEvent)
      (htrace : s.busTrace = s₀.busTrace ++ evs) (hclosing : Closing s₀ s.p evs)
  | probing (hcalls : s.calls = []) (ks : List Bool) (h : Probing s₀ ks s)
  | failed (hcalls : s.calls = []) (r : Result) (hresult : s.result = some r) (hr : r ≠ .ok)

/-! ## The engine's steps -/

/-- In IDLE no start is requested. -/
theorem State.Inv.reqStart_of_idle {s : State} (hinv : s.Inv) (hpc : s.e.pc = .idle) : s.p.reqStart = false := by
  refine Bool.eq_false_iff.2 fun hreq => ?_
  have hpending := hinv.link.pending hreq
  rw [hpc] at hpending
  cases hpending

section
variable {s₀ s t : State} {ks : List Bool}

/-- The wait for the start: a poll that sees it goes on to the address byte; one that does not stays or expires. -/
theorem Probing.startWait {c : Command} (hinv : s.Inv) (hpc : s.e.pc = .probeStartWait)
    (h : Probing s₀ ks s) (hpoll : poll .sb (.goto .probeAddr) c s = .next t) :
    Probing s₀ ks t ∨ t.result = some .timeout := by
  obtain ⟨⟨evs, htrace, hbus⟩, hop, hcand, hout, hmem⟩ := h
  rw [hpc] at hbus hcand
  cases hsb : s.p.sb with
  | true =>
    rw [poll_satisfied (w := .sb) hsb] at hpoll
    cases hpoll
    refine .inl ⟨⟨evs, htrace, hbus.resolve_left fun ⟨hreq, _⟩ => ?_⟩, hop, hcand, hout, hmem⟩
    exact absurd (hinv.link.sent hsb).2 (by simp [hreq])
  | false =>
    rw [poll_missed (w := .sb) hsb] at hpoll
    cases hpoll
    obtain ⟨-, hm⟩ | ⟨-, -, hm⟩ | ⟨-, -, hm⟩ := pollMissed_cases .sb (pollOnce .sb s).2 <;> rw [hm]
    · exact .inl ⟨⟨evs, htrace, by rwa [← hpc] at hbus⟩, hop, by rwa [← hpc] at hcand, hout, hmem⟩
    · exact .inr rfl
    · exact .inl ⟨⟨evs, htrace, by rwa [← hpc] at hbus⟩, hop, by rwa [← hpc] at hcand, hout, hmem⟩

/-- Every other step of the engine carries the scan to its next label. -/
theorem Probing.step {c : Command} (hinv : s.Inv) (hc : s.e.cmd = some c)
    (hwait : s.e.pc ≠ .probeStartWait) (h : Probing s₀ ks s) (hstep : engineStep s = .next t) :
    ∃ ks', Probing s₀ ks' t := by
  obtain ⟨hidle, -⟩ := commandInv_running hinv.command hc
  have hscan := h.op c hc
  obtain ⟨⟨evs, htrace, hbus⟩, hop, hcand, hout, hmem⟩ := h
  cases hpc : s.e.pc <;> rw [hpc] at hbus hcand
  case idle => exact absurd hpc hidle
  case probeStartWait => exact absurd hpc hwait
  case scanInit =>
    cases (engineStep_scanInit hc hscan hpc).symm.trans hstep
    cases (hcand : ks = [])
    exact ⟨_, ⟨evs, htrace, hbus⟩, hop, rfl, hout, hmem⟩
  case probeStart =>
    cases (engineStep_probeStart hc hscan hpc).symm.trans hstep
    exact ⟨ks, ⟨evs, htrace, .inl ⟨rfl, hbus⟩⟩, hop, hcand, hout, hmem⟩
  case probeAddr =>
    obtain ⟨hunreq, hmode, haddr, hprobed⟩ := hbus
    cases (engineStep_probeAddr hc hscan hpc hcand hmode).symm.trans hstep
    exact ⟨ks, ⟨evs, htrace, .inl ⟨hunreq, rfl, haddr, rfl, hprobed⟩⟩, hop, hcand, hout, hmem⟩
  case settle =>
    cases (engineStep_settle hc hscan hpc).symm.trans hstep
    split
    next hresolved =>
      obtain ⟨-, -, -, hunresolved, -⟩ | hanswered := hbus
      · simp [hresolved] at hunresolved
      · exact ⟨ks, ⟨evs, htrace, hanswered⟩, hop, hcand, hout, hmem⟩
    next => exact ⟨ks, ⟨evs, htrace, by rwa [hpc]⟩, hop, by rwa [hpc], hout, hmem⟩
  case probeStop =>
    cases (engineStep_probeStop hc hscan hpc).symm.trans hstep
    exact ⟨ks, ⟨evs, htrace, ProbeAnswered.issueStop (p := s.p) hinv.periph hbus⟩, hop, hcand, hout, hmem⟩
  case inspect =>
    cases (engineStep_inspect hc hscan hpc hcand).symm.trans hstep
    refine ⟨ks ++ [s.p.addr], ⟨evs, htrace, hbus⟩, hop, ⟨_, hcand, by simp⟩, ?_, hmem⟩
    cases haddr : s.p.addr <;> simp [acknowledged_append, hout]
  case probeClear =>
    cases (engineStep_probeClear hc hscan hpc).symm.trans hstep
    exact ⟨ks, ⟨evs, htrace, BetweenProbes.clearAddr hinv.periph hbus⟩, hop, hcand, hout, hmem⟩
  case next =>
    obtain ⟨n, hsa, hlen⟩ := hcand
    cases (engineStep_nextProbe hc hscan hpc hsa).symm.trans hstep
    split
    next => exact ⟨ks, ⟨evs, htrace, hbus⟩, hop, congrArg some hlen.symm, hout, hmem⟩
    next hlast =>
      have hrow : stepTable c.op s.e.pc = some ⟨.nextProbe, .ifSa .probeStart .done⟩ := by rw [hscan, hpc]; rfl
      obtain ⟨-, -, -, hcount⟩ := commandInv_row hinv.command hc hrow
      simp only [counterInv, hscan] at hcount
      obtain ⟨m, hm, hlt⟩ := (scanInv_iff (by simp [hpc])).1 hcount
      cases hm.symm.trans hsa
      exact ⟨ks, ⟨evs, htrace, hbus⟩, hop, show ks.length = 128 by omega, hout, hmem⟩
  case done =>
    cases (engineStep_done hpc).symm.trans hstep
    exact ⟨ks, ⟨evs, htrace, hbus⟩, nofun, hcand, hout, hmem⟩
  all_goals cases hcand

end

/-! ## Every step keeps to the run of the one scan -/

section
variable {s₀ s t : State}

theorem Probing.env {ks : List Bool} {k : EnvStep} {evs : List BusEvent} (hinv : s.Inv) (h : Probing s₀ ks s)
    (hy : s.e.pc.yields = true) (hmove : EnvMove s.p k t.p evs) (htrace : t.busTrace = s.busTrace ++ evs)
    (hsame : SameEngine s t) : Probing s₀ ks t := by
  obtain ⟨⟨before, hbefore, hbus⟩, hop, hcand, hout, hmem⟩ := h
  obtain ⟨he, -, -, hout', hmem', -⟩ := hsame
  refine ⟨⟨before ++ evs, by rw [htrace, hbefore, List.append_assoc], ?_⟩, he ▸ hop, he ▸ hcand, hout'.trans hout,
    hmem'.trans hmem⟩
  rw [he]
  refine hbus.env hmove hinv.periph ?_
  obtain hpc | hpc | hwait := Label.yields_cases hy
  · exact .inl ⟨hpc, hinv.reqStart_of_idle hpc⟩
  · exact .inr (.inr hpc)
  · exact .inr (.inl (hcand.wait hwait))

/-- The schedule does not matter to a run. -/
theorem ScanRun.rescheduled (h : ScanRun s₀ s) (script : List Pick) (i n : Nat) (w : Option (EnvStep × Nat)) :
    ScanRun s₀ { s with script := script, picks := i, waiting := w, patience := n } := by
  cases h with
  | before hpc hcalls hmem evs htrace hclosing => exact .before hpc hcalls hmem evs htrace hclosing
  | probing hcalls ks h => exact .probing hcalls ks ⟨h.bus, h.op, h.candidate, h.out, h.mem⟩
  | failed hcalls r hresult hr => exact .failed hcalls r hresult hr

theorem ScanRun.env {k : EnvStep} (hinv : s.Inv) (h : ScanRun s₀ s) (hy : s.e.pc.yields = true)
    (hk : envEnabled k s.p = true) (hstep : envStep k s = .next t) : ScanRun s₀ t := by
  obtain ⟨hsame, evs, hmove, htrace⟩ := envStep_move hstep hk
  obtain ⟨he, hresult', -, -, hmem', -, -, -, -, hcalls', -⟩ := id hsame
  cases h with
  | before hpc hcalls hmem before hbefore hclosing =>
    refine .before (he ▸ hpc) (hcalls'.trans hcalls) (hmem'.trans hmem) (before ++ evs)
      (by rw [htrace, hbefore, List.append_assoc]) ?_
    obtain ⟨hclosing, -⟩ | ⟨hreq, -⟩ := hclosing.env (c := ⟨.scan, 0, 0, 0, 0, ⟨0, 0⟩⟩) hmove hinv.periph
    · exact hclosing
    · simp [hinv.reqStart_of_idle hpc] at hreq
  | probing hcalls ks h =>
    exact .probing (hcalls'.trans hcalls) ks (h.env hinv hy hmove htrace hsame)
  | failed hcalls r hresult hr => exact .failed (hcalls'.trans hcalls) r (hresult'.trans hresult) hr

/-- The Caller's turn in IDLE latches the scan it issues (R55, R98). -/
theorem turn_scan {len : BitVec 32} {buf : BufRef} {rest : List Call} (hpc : s.e.pc = .idle)
    (hissue : s.issues .scan len buf rest) (h : turn s = .next t) :
    t = latch ⟨.scan, 0, 0, 0, len.toNat, buf⟩ .scanInit { s with calls := rest, side := ⟨len, buf⟩ } := by
  obtain ⟨cw, hcw, hcalls⟩ := hissue
  rw [turn_command hpc hcalls (decode_eq_instr_iff.2 hcw)] at h
  obtain ⟨-, ha⟩ | ⟨-, -, ha⟩ | ⟨-, -, hbuf, -⟩ | ⟨-, -, -, ha⟩ := accept_cases .scan 0 0 0 .scanInit
    { s with calls := rest, side := ⟨len, buf⟩ }
  · cases ha.symm.trans h
  · cases ha.symm.trans h
  · cases hbuf
  · cases ha.symm.trans h
    rfl

/-- The engine's or the Caller's turn keeps to the run. -/
theorem ScanRun.turn {len : BitVec 32} {buf : BufRef} (hissue : s₀.issues .scan len buf []) (hinv : s.Inv)
    (h : ScanRun s₀ s) (hturn : turn s = .next t) : ScanRun s₀ t := by
  have atRest (hpc : s.e.pc = .idle) (hcalls : s.calls = []) : t = s := by
    rw [turn_idle hpc, callerStep, hcalls] at hturn
    cases hturn
    rfl
  cases h with
  | before hpc hcalls hmem evs htrace hclosing =>
    cases turn_scan (rest := []) hpc (hissue.imp fun cw h => ⟨h.1, hcalls.trans h.2⟩) hturn
    exact .probing rfl [] ⟨⟨evs, htrace, .inl ⟨rfl, hclosing⟩⟩, fun c hc => by cases hc; rfl, rfl, rfl, hmem⟩
  | probing hcalls ks h =>
    by_cases hpc : s.e.pc = .idle
    · rw [atRest hpc hcalls]
      exact .probing hcalls ks h
    · obtain ⟨c, hc⟩ := Option.ne_none_iff_exists'.1 ((commandInv_idle hinv.command).not.1 hpc)
      rw [turn_engine hpc] at hturn
      obtain ⟨-, -, -, -, -, hcalls', -⟩ := engineStep_sameOutside hturn
      by_cases hwait : s.e.pc = .probeStartWait
      · rw [engineStep_probeStartWait hc (h.op c hc) hwait] at hturn
        obtain h | hresult := h.startWait hinv hwait hturn
        · exact .probing (hcalls'.trans hcalls) ks h
        · exact .failed (hcalls'.trans hcalls) .timeout hresult (by simp)
      · obtain ⟨ks', h⟩ := h.step hinv hc hwait hturn
        exact .probing (hcalls'.trans hcalls) ks' h
  | failed hcalls r hresult hr =>
    by_cases hpc : s.e.pc = .idle
    · rw [atRest hpc hcalls]
      exact .failed hcalls r hresult hr
    · rw [turn_engine hpc] at hturn
      obtain ⟨hidle, -⟩ | ⟨-, rfl⟩ | ⟨-, rfl⟩ | ⟨c', row, hc', hrow, -⟩ := engineStep_cases hturn
      · exact absurd hidle hpc
      · exact .failed hcalls r hresult hr
      · exact .failed hcalls r (by simp [doneStep, hresult]) hr
      · obtain ⟨-, -, hnone, -⟩ := commandInv_row hinv.command hc' hrow
        simp [hnone] at hresult

end
end Sys2Proof.Machine
end

section
/-! What the reference mock acknowledges along a run (R82), and the scan property for every schedule (R105). -/

namespace Sys2Proof.Machine

open Sys2Proof

/-! ## Runs of R70 -/

/-- A property that the schedule does not matter to and that every move keeps holds along every run of the choices of
R70. -/
theorem runSteps_moves {I : State → Prop}
    (rescheduled : ∀ s script i w n, I s →
      I { s with script := script, picks := i, waiting := w, patience := n })
    (env : ∀ s t k, s.Inv → I s → s.e.pc.yields = true → envEnabled k s.p = true → envStep k s = .next t → I t)
    (turn : ∀ s t, s.Inv → I s → turn s = .next t → I t) {s t : State} {k : Nat} (hinv : s.Inv)
    (honly : s.onlyChoices) (hs : I s) (hrun : runSteps k s = .next t) : t.Inv ∧ I t := by
  have keeps (u v : State) (h : u.Inv ∧ u.onlyChoices ∧ I u) (hstep : step u = .next v) :
      v.Inv ∧ v.onlyChoices ∧ I v := by
    obtain ⟨hu, honly, h⟩ := h
    refine ⟨hu.step hstep, fun x hx => honly x (List.mem_of_mem_tail ((step_params_script hstep).2 ▸ hx)), ?_⟩
    obtain ⟨l, rest, hs, -⟩ | ⟨w, rest, hs, -⟩ | ⟨w, hw, hmove⟩ := step_cases u
    · obtain ⟨c, hc⟩ := honly (.reset l) (by simp [hs])
      cases hc
    · exact (hu.no_prim hs).elim
    · have hinv := hu.consumed hw
      have h : I w := by
        obtain ⟨script, i, w, n, rfl⟩ := hw.eq_rescheduled
        exact rescheduled u script i w n h
      obtain ⟨k, hy, hk, henv⟩ | hturn := hmove
      · exact env w v k hinv h hy hk (henv.symm.trans hstep)
      · exact turn w v hinv h (hturn.symm.trans hstep)
  obtain ⟨hinv', -, h⟩ := runSteps_induct keeps ⟨hinv, honly, hs⟩ hrun
  exact ⟨hinv', h⟩

/-! ## What the mock acknowledges -/

/-- The acknowledge of the reference mock to an address byte; an oracle's is not known (R81, R82). -/
def State.mockAck (s : State) (a : Addr7) : Option Bool :=
  match s.slaves with
  | .mock present => some (findSlave a present).isSome
  | .oracle _ _ => none

theorem State.mockAck_congr {s t : State} (h : t.slaves = s.slaves) : t.mockAck = s.mockAck := by
  funext a
  simp only [State.mockAck, h]

theorem findSlave_putSlave_isSome (a : Addr7) (n : MockSlave) (present : List MockSlave) :
    (findSlave a (putSlave n present)).isSome = (findSlave a present).isSome := by
  induction present with
  | nil => rfl
  | cons m rest ih =>
    unfold putSlave
    split
    next hm => simp only [findSlave, hm, apply_ite Option.isSome, Option.isSome_some]
    next => simp only [findSlave, apply_ite Option.isSome, ih]

/-- A mock slave in the place of another answers like it. -/
theorem mockAck_putSlave {s u : State} {present : List MockSlave} {n : MockSlave} (hs : s.slaves = .mock present)
    (hu : u.slaves = .mock (putSlave n present)) : u.mockAck = s.mockAck := by
  funext a
  simp [State.mockAck, hs, hu, findSlave_putSlave_isSome]

theorem drawAck_mockAck (s : State) : (drawAck s).2.mockAck = s.mockAck := by
  unfold drawAck State.mockAck
  cases s.slaves with
  | mock present => rfl
  | oracle acks bytes => cases acks <;> rfl

theorem drawByte_mockAck (s : State) : (drawByte s).2.mockAck = s.mockAck := by
  unfold drawByte State.mockAck
  cases s.slaves with
  | mock present => rfl
  | oracle acks bytes => cases bytes <;> rfl

theorem slaveAddrAck_mockAck (a : Addr7) (d : Dir) (s : State) : (slaveAddrAck a d s).2.mockAck = s.mockAck ∧
    ∀ k, s.mockAck a = some k → (slaveAddrAck a d s).1 = k := by
  unfold slaveAddrAck
  split
  next present hs =>
    split
    next m hm => exact ⟨mockAck_putSlave hs rfl, by simp [State.mockAck, hs, hm]⟩
    next hm => exact ⟨rfl, by simp [State.mockAck, hs, hm]⟩
  next hs => exact ⟨drawAck_mockAck s, by simp [State.mockAck, hs]⟩

theorem slaveWrite_mockAck (a : Addr7) (b : Byte) (s : State) : (slaveWrite a b s).2.mockAck = s.mockAck := by
  unfold slaveWrite
  split
  next present hs =>
    split
    next => exact mockAck_putSlave hs rfl
    next => exact drawAck_mockAck s
  next => exact drawAck_mockAck s

theorem slaveRead_mockAck (a : Addr7) (s : State) : (slaveRead a s).2.mockAck = s.mockAck := by
  unfold slaveRead
  split
  next present hs =>
    split
    next => exact mockAck_putSlave hs rfl
    next => exact drawByte_mockAck s
  next => exact drawByte_mockAck s

/-- From `s` to `t` the mock's answers stay what they are, and every address byte on the bus got its answer. -/
def AnswersKept (s t : State) : Prop :=
  t.mockAck = s.mockAck ∧ ∃ evs, t.busTrace = s.busTrace ++ evs ∧
    ∀ b k, .A b k ∈ evs → ∀ k', s.mockAck (addrOfByte b) = some k' → k = k'

theorem AnswersKept.refl (s : State) : AnswersKept s s := ⟨rfl, [], by simp, by simp⟩

theorem AnswersKept.trans {s t u : State} (h : AnswersKept s t) (h' : AnswersKept t u) : AnswersKept s u := by
  obtain ⟨hack, evs, htrace, hevs⟩ := h
  obtain ⟨hack', evs', htrace', hevs'⟩ := h'
  refine ⟨hack'.trans hack, evs ++ evs', by rw [htrace', htrace, List.append_assoc], fun b k hb => ?_⟩
  obtain hb | hb := List.mem_append.1 hb
  · exact hevs b k hb
  · exact hack ▸ hevs' b k hb

/-- A step that puts no address byte on the bus. -/
theorem AnswersKept.of_event {s t : State} {ev : BusEvent} (hack : t.mockAck = s.mockAck) (hev : ∀ b k, ev ≠ .A b k)
    (htrace : t.busTrace = s.busTrace ++ [ev]) : AnswersKept s t :=
  ⟨hack, _, htrace, fun b k hb => absurd (List.mem_singleton.1 hb).symm (hev b k)⟩

theorem envStep_answersKept {k : EnvStep} {s t : State} (h : envStep k s = .next t)
    (hk : envEnabled k s.p = true) : AnswersKept s t := by
  cases k with
  | stop =>
    cases howner : s.p.owner with
    | true =>
      cases (envStep_stop_of_owner howner).symm.trans h
      exact .of_event rfl (by simp) rfl
    | false =>
      cases (envStep_stop_of_not_owner howner).symm.trans h
      exact .refl s
  | start =>
    cases h
    refine .of_event rfl (fun b k => ?_) rfl
    split <;> simp
  | address =>
    obtain ⟨b, hmode⟩ := envEnabled_address_iff.1 hk
    cases (envStep_address hmode rfl).symm.trans h
    obtain ⟨hack, hanswer⟩ := slaveAddrAck_mockAck (addrOfByte b) (dirOfByte b) s
    refine ⟨hack, _, rfl, fun b' k hb => ?_⟩
    cases List.mem_singleton.1 hb
    exact hanswer
  | txShift =>
    obtain ⟨-, hdr, -⟩ := envEnabled_txShift_iff.1 hk
    obtain ⟨b, hb⟩ := Option.ne_none_iff_exists'.1 hdr
    cases (envStep_txShift hb).symm.trans h
    exact .refl s
  | txDone =>
    obtain ⟨-, hshift⟩ := envEnabled_txDone_iff.1 hk
    obtain ⟨b, hb⟩ := Option.ne_none_iff_exists'.1 hshift
    cases (envStep_txDone hb rfl).symm.trans h
    refine .of_event ?_ (by simp) rfl
    change (targetWrite b s).2.mockAck = s.mockAck
    unfold targetWrite
    split
    · exact slaveWrite_mockAck _ b s
    · exact drawAck_mockAck s
  | receive =>
    cases (envStep_receive rfl).symm.trans h
    refine .of_event ?_ (by simp) rfl
    change (targetRead s).2.mockAck = s.mockAck
    unfold targetRead
    split
    · exact slaveRead_mockAck _ s
    · exact drawByte_mockAck s
  | extBusy b =>
    cases h
    exact .refl s

theorem turn_answersKept {s t : State} (h : turn s = .next t) : AnswersKept s t := by
  obtain ⟨htrace, hslaves, -⟩ := turn_next h
  exact ⟨State.mockAck_congr hslaves, [], by simpa using htrace, by simp⟩

theorem runSteps_answersKept {s t : State} {k : Nat} (hinv : s.Inv) (honly : s.onlyChoices)
    (hrun : runSteps k s = .next t) : AnswersKept s t :=
  (runSteps_moves (I := AnswersKept s) (fun _ _ _ _ _ h => h)
    (fun _ _ _ _ h _ hk hstep => h.trans (envStep_answersKept hstep hk))
    (fun _ _ _ h hturn => h.trans (turn_answersKept hturn)) hinv honly (.refl s) hrun).2

/-! ## What a scan that returned has done -/

theorem answer_mem_scanEvents {ks : List Bool} {i : Nat} (h : i < ks.length) (n : Nat) :
    .A (addrByte (probeAddr (n + i)) .write) ks[i] ∈ scanEvents n ks := by
  induction ks generalizing n i with
  | nil => cases h
  | cons k ks ih =>
    cases i with
    | zero => simp [scanEvents, probeEvents]
    | succ i =>
      have hi := ih (Nat.lt_of_succ_lt_succ h) (n + 1)
      simp only [scanEvents, List.mem_append, List.getElem_cons_succ]
      rw [show n + (i + 1) = n + 1 + i by omega]
      exact .inr hi

/-- The answers on the bus are those of the slaves that are present. -/
theorem eq_presentAcks {ks : List Bool} {present : List MockSlave} (hlen : ks.length = 128)
    (h : ∀ b k, .A b k ∈ scanEvents 0 ks → k = (findSlave (addrOfByte b) present).isSome) :
    ks = presentAcks present := by
  refine List.ext_getElem (by simp [presentAcks, hlen]) fun i hi _ => ?_
  have hanswer := h _ _ (answer_mem_scanEvents hi 0)
  rw [show addrOfByte (addrByte (probeAddr (0 + i)) .write) = probeAddr (0 + i) from addrByte_high ..] at hanswer
  simpa [presentAcks] using hanswer

/-- A scan that returned `OK` has its 128 answers. -/
theorem returned_of_scan {s t : State} {len : BitVec 32} {buf : BufRef} {k : Nat} (hinv : s.Inv)
    (hpc : s.e.pc = .idle) (honly : s.onlyChoices) (hissue : s.issues .scan len buf [])
    (hrun : runSteps k s = .next t) (hok : t.returnedOk) : ∃ ks, Probing s ks t := by
  have hclosing : Closing s s.p [] := ⟨⟨by simp, by simp, fun _ => rfl⟩, hinv.link.released (by rw [hpc]; rfl), id⟩
  obtain ⟨-, h⟩ := runSteps_moves (I := ScanRun s) (fun _ script i w n h => h.rescheduled script i n w)
    (fun _ _ _ hu h hy hk hstep => h.env hu hy hk hstep) (fun _ _ hu h hturn => h.turn hissue hu hturn) hinv honly
    (.before hpc rfl rfl [] (by simp) hclosing) hrun
  obtain ⟨-, hcalls, hresult⟩ := hok
  cases h with
  | before _ hcalls' =>
    obtain ⟨cw, -, hs⟩ := hissue
    cases hcalls.symm.trans (hcalls'.trans hs)
  | probing _ ks h => exact ⟨ks, h⟩
  | failed _ r hresult' hr => exact absurd (Option.some.inj (hresult'.symm.trans hresult)) hr

/-- Settles O60: a run of one scan makes its probes one after the other (`ScanRun.env`, `ScanRun.turn`), and with the
mock each is answered as the slave is present (`runSteps_answersKept`). -/
theorem scanAnySchedule : Obligations.ScanAnySchedule := by
  intro s t len buf k hinv hpc honly hissue hrun hok
  have hinv := State.inv_iff.1 hinv
  obtain ⟨ks, ⟨evs, htrace, hbus⟩, -, hlen, hout, hmem⟩ := returned_of_scan hinv hpc honly hissue hrun hok
  rw [hok.1] at hbus hlen
  change ks.length = 128 at hlen
  obtain ⟨rfl, -⟩ | ⟨-, old, hold, hevs⟩ := hbus
  · cases hlen
  refine ⟨old, ks, hold, hlen, hout, ?_, hmem, fun present hs => eq_presentAcks hlen fun b k hb => ?_⟩
  · rw [htrace, State.pendingStop_eq, List.append_assoc, hevs]
    simp
  · obtain ⟨-, evs', htrace', hanswers⟩ := runSteps_answersKept hinv honly hrun
    cases List.append_cancel_left (htrace.symm.trans htrace')
    have hmem : .A b k ∈ evs ++ t.p.pendingStop := by simp [hevs, hb]
    have hevs : .A b k ∈ evs := (List.mem_append.1 hmem).resolve_right (by unfold Periph.pendingStop; split <;> simp)
    exact hanswers b k hevs _ (by simp [State.mockAck, hs])

end Sys2Proof.Machine
end

section
/-! A scan under the reference scheduler with the mock: one probe after the other, and what the slaves and the outputs
are after them (R71, R98, R102, R105). -/

namespace Sys2Proof.Machine

open Sys2Proof

/-! ## The slaves after some probes -/

/-- The mock slaves after the address byte of `a` for writing (R82). -/
def addressSlave (a : Addr7) (present : List MockSlave) : List MockSlave :=
  match findSlave a present with
  | some m => putSlave (m.addressed .write) present
  | none => present

theorem slaveAddrAck_write {s : State} {present : List MockSlave} (hs : s.slaves = .mock present) (a : Addr7) :
    slaveAddrAck a .write s =
      ((findSlave a present).isSome, { s with slaves := .mock (addressSlave a present) }) := by
  cases hm : findSlave a present <;> simp [slaveAddrAck, addressSlave, hs, hm]
  rw [← hs]

theorem findSlave_addressSlave_same (a : Addr7) (present : List MockSlave) :
    findSlave a (addressSlave a present) = (findSlave a present).map (·.addressed .write) := by
  unfold addressSlave
  split
  next m hm =>
    rw [findSlave_putSlave_same hm (by rw [MockSlave.addressed_addr, findSlave_addr hm]), hm, Option.map_some]
  next hm => rw [hm, Option.map_none]

theorem findSlave_addressSlave_other {a x : Addr7} (hx : x ≠ a) (present : List MockSlave) :
    findSlave x (addressSlave a present) = findSlave x present := by
  unfold addressSlave
  split
  next m hm => exact findSlave_putSlave_other (by rw [MockSlave.addressed_addr, findSlave_addr hm]) hx present
  next => rfl

/-- The mock slaves after the first `n` probes. -/
def sweep (present : List MockSlave) : Nat → List MockSlave
  | 0 => present
  | n + 1 => addressSlave (probeAddr n) (sweep present n)

theorem probeAddr_eq_iff {a : Addr7} {n : Nat} (hn : n < 128) : a = probeAddr n ↔ a.toNat = n := by
  unfold probeAddr
  rw [← BitVec.toNat_inj, BitVec.toNat_ofNat, Nat.mod_eq_of_lt hn]

/-- A probed slave expects its pointer, and no other one has changed (R102). -/
theorem findSlave_sweep (present : List MockSlave) (a : Addr7) {n : Nat} (hn : n ≤ 128) :
    findSlave a (sweep present n) =
      if a.toNat < n then (findSlave a present).map (·.addressed .write) else findSlave a present := by
  induction n with
  | zero => rfl
  | succ n ih =>
    have hprobe := probeAddr_eq_iff (a := a) (n := n) (by omega)
    rw [sweep]
    by_cases ha : a = probeAddr n
    · have hlt := hprobe.1 ha
      rw [← ha, findSlave_addressSlave_same, ih (by omega), if_neg (by omega), if_pos (by omega)]
    · rw [findSlave_addressSlave_other ha, ih (by omega)]
      rw [hprobe] at ha
      exact if_congr (by omega) rfl rfl

/-- The answers to the first `n` probes. -/
def firstAcks (present : List MockSlave) (n : Nat) : List Bool :=
  (List.range n).map fun i => (findSlave (probeAddr i) present).isSome

theorem firstAcks_succ (present : List MockSlave) (n : Nat) :
    firstAcks present (n + 1) = firstAcks present n ++ [(findSlave (probeAddr n) present).isSome] := by
  simp [firstAcks, List.range_succ]

@[simp] theorem firstAcks_length (present : List MockSlave) (n : Nat) : (firstAcks present n).length = n := by
  simp [firstAcks]

theorem mem_acknowledged_firstAcks {present : List MockSlave} {a : Addr7} {n : Nat} (hn : n ≤ 128) :
    a ∈ acknowledged 0 (firstAcks present n) ↔ a.toNat < n ∧ (findSlave a present).isSome = true := by
  induction n with
  | zero => simp [firstAcks, acknowledged]
  | succ n ih =>
    have hprobe := probeAddr_eq_iff (a := a) (n := n) (by omega)
    rw [firstAcks_succ, acknowledged_append, List.mem_append, ih (by omega), firstAcks_length, Nat.zero_add]
    by_cases ha : a = probeAddr n
    · have hlt : ¬ a.toNat < n ∧ a.toNat < n + 1 := by
        rw [hprobe.1 ha]
        omega
      rw [← ha]
      cases hm : (findSlave a present).isSome <;> simp [hlt]
    · have hlt : a.toNat < n + 1 ↔ a.toNat < n := by
        rw [hprobe] at ha
        omega
      rw [hlt, or_iff_left]
      split <;> simp [ha]

/-! ## The steps of one probe -/

/-- The address phase of an address byte (R38, R76). -/
theorem envStep_addrByte {s u : State} {a : Addr7} {d : Dir} {k : Bool} (hmode : s.p.mode = .pAddr (addrByte a d))
    (hack : slaveAddrAck a d s = (k, u)) : envStep .address s = .next { u with
      busTrace := s.busTrace ++ [.A (addrByte a d) k]
      p := s.p.addressed a d k } := by
  have haddr : addrOfByte (addrByte a d) = a := addrByte_high a d
  have hstep := envStep_address (k := k) (u := u) hmode (by rw [haddr, dirOfByte_addrByte, hack])
  rwa [haddr, dirOfByte_addrByte] at hstep

section
variable {s t : State} {l : Label} {n : Nat} {present : List MockSlave} (hs : s.reference)
include hs

theorem step_of_engineStep (hpc : s.e.pc = l) (hy : l.yields = false) (h : engineStep s = .next t) :
    step s = .next t := by
  subst hpc
  exact (step_reference_turn hs (.inl hy)).trans ((turn_engine fun hpc => by simp [hpc, Label.yields] at hy).trans h)

theorem step_of_engineStep_atRest (hpc : s.e.pc ≠ .idle) (hrest : firstEnabled s.p = none)
    (h : engineStep s = .next t) : step s = .next t :=
  (step_reference_turn hs (.inr hrest)).trans ((turn_engine hpc).trans h)

/-- What a stop makes of a Bus Interface that holds the bus (R74). -/
def Periph.stopped (p : Periph) : Periph :=
  { p with
    owner := false, busy := p.extBusy, reqStop := false, mode := .pIdle, sb := false, txe := false, btf := false,
    drTx := none, shift := none, target := none }

theorem step_stop (hy : s.e.pc.yields = true) (howner : s.p.owner = true) (hstop : s.p.reqStop = true)
    (hquiet : s.p.quiet = true) : step s = .next ((s.setP s.p.stopped).emit .P) :=
  (step_reference_env hs hy (envEnabled_firstEnabled (envEnabled_stop_iff.2 ⟨hstop, hquiet⟩) (by simp))).trans
    (envStep_stop_of_owner howner)

/-- The bus is free and a start is requested. -/
def Periph.awaitsStart (p : Periph) : Prop :=
  p.mode = .pIdle ∧ p.owner = false ∧ p.extBusy = false ∧ p.reqStart = true ∧ p.reqStop = false ∧ p.initialized = true

theorem step_start (hy : s.e.pc.yields = true) (hp : s.p.awaitsStart) :
    step s = .next ((s.setP s.p.started).emit .S) := by
  obtain ⟨hmode, howner, hext, hstart, hstop, -⟩ := hp
  have hk : envEnabled .start s.p = true :=
    envEnabled_start_iff.2 ⟨hstart, hstop, by simp [Periph.quiet, hmode], .inr hext⟩
  rw [step_reference_env hs hy (envEnabled_firstEnabled hk (by simp))]
  simp [envStep, envStart, Periph.started, howner]

/-- The mock answers the address byte of a probe (R76, R82). -/
theorem step_probeAnswer (hy : s.e.pc.yields = true)
    (hmode : s.p.mode = .pAddr (addrByte (probeAddr n) .write)) (hslaves : s.slaves = .mock present) :
    step s = .next { s with
      slaves := .mock (addressSlave (probeAddr n) present)
      busTrace := s.busTrace ++ [.A (addrByte (probeAddr n) .write) (findSlave (probeAddr n) present).isSome]
      p := s.p.addressed (probeAddr n) .write (findSlave (probeAddr n) present).isSome } := by
  exact (step_reference_env hs hy (envEnabled_firstEnabled (envEnabled_address_iff.2 ⟨_, hmode⟩) (by simp))).trans
    (envStep_addrByte hmode (slaveAddrAck_write hslaves _))

end

/-- The address byte of a probe is answered, and `ADDR` is the answer (R76). -/
def Periph.tells (p : Periph) : Prop :=
  p.unrequested ∧ p.mode = (if p.addr then .pTxWaitClr else .pNacked) ∧ p.addrResolved = true ∧ p.owner = true ∧
    p.extBusy = false ∧ p.drTx = none ∧ p.shift = none ∧ p.initialized = true

/-- A probe is over but for its stop. -/
def Periph.endsProbe (p : Periph) : Prop :=
  p.answered ∧ p.owner = true ∧ p.extBusy = false ∧ p.reqStart = false ∧ p.reqStop = true ∧ p.initialized = true

theorem firstEnabled_of_unrequested {p : Periph} (h : p.unrequested)
    (hmode : p.mode = .pStart ∨ p.mode = .pTxWaitClr ∨ p.mode = .pNacked) : firstEnabled p = none := by
  obtain ⟨hstart, hstop⟩ := h
  obtain hmode | hmode | hmode := hmode <;> simp [firstEnabled, envEnabled, PMode.isAddr, *]

theorem Periph.tells.firstEnabled {p : Periph} (h : p.tells) : firstEnabled p = none := by
  obtain ⟨hreq, hmode, -⟩ := h
  refine firstEnabled_of_unrequested hreq (.inr ?_)
  cases haddr : p.addr <;> simp [hmode, haddr]

/-- The stop is requested and the address status read (R100, R101). -/
theorem Periph.tells.endsProbe {p : Periph} (h : p.tells) :
    ({ p with reqStop := true, reqStart := false } : Periph).clearAddr.endsProbe := by
  obtain ⟨-, hmode, -, howner, hext, hdr, hshift, hinit⟩ := h
  let q : Periph := { p with reqStop := true, reqStart := false }
  change q.clearAddr.endsProbe
  obtain haddr | haddr := Bool.eq_false_or_eq_true q.addr
  · rw [Periph.clearAddr_of_pTxWaitClr haddr (hmode.trans (if_pos haddr))]
    exact ⟨.inr (.inr ⟨rfl, hdr, hshift⟩), howner, hext, rfl, rfl, hinit⟩
  · rw [Periph.clearAddr_of_clear haddr]
    exact ⟨.inr (.inl (hmode.trans (if_neg (Bool.eq_false_iff.1 haddr)))), howner, hext, rfl, rfl, hinit⟩

section
variable {s : State} {c : Command} {n : Nat} {Q : State → Prop} {present : List MockSlave} (hs : s.reference)
  (hc : s.e.cmd = some c) (hop : c.op = .scan) (hsa : s.e.sa = some n)
include hs hc hop hsa

/-- From the wait for its start, a probe runs to the answer of its address byte. -/
theorem exists_run_answer (hpc : s.e.pc = .probeStartWait) (hp : s.p.awaitsStart) (hslaves : s.slaves = .mock present)
    (h : ∀ e p T, e.pc = .settle → e.cmd = some c → e.sa = some n → p.tells →
      p.addr = (findSlave (probeAddr n) present).isSome → ∃ k u, runSteps k { s with
        e := e, p := p, primTrace := T, slaves := .mock (addressSlave (probeAddr n) present)
        busTrace := s.busTrace ++ [.S] ++
          [.A (addrByte (probeAddr n) .write) (findSlave (probeAddr n) present).isSome] } = .next u ∧ Q u) :
    ∃ k u, runSteps k s = .next u ∧ Q u := by
  refine exists_run_step (step_start hs (by rw [hpc]; rfl) hp) ?_
  obtain ⟨-, -, hext, -, hstop, hinit⟩ := hp
  refine exists_run_step (step_of_engineStep_atRest hs (by simp [hpc])
    (firstEnabled_of_unrequested ⟨rfl, hstop⟩ (.inl rfl)) (engineStep_startSeen hc hop hpc rfl)) ?_
  refine exists_run_step (step_of_engineStep hs rfl rfl (engineStep_probeAddr hc hop rfl hsa rfl)) ?_
  refine exists_run_step (step_probeAnswer hs rfl rfl hslaves) ?_
  refine h _ _ _ rfl hc hsa ?_ ?_ <;> cases (findSlave (probeAddr n) present).isSome
  · exact ⟨⟨rfl, hstop⟩, rfl, rfl, rfl, hext, rfl, rfl, hinit⟩
  · exact ⟨⟨rfl, hstop⟩, rfl, rfl, rfl, hext, rfl, rfl, hinit⟩
  · rfl
  · rfl

/-- From its answer, a probe runs to its end. -/
theorem exists_run_inspect (hpc : s.e.pc = .settle) (hp : s.p.tells)
    (h : ∀ e p T, e.pc = .next → e.cmd = some c → e.sa = some n → p.endsProbe → ∃ k u, runSteps k { s with
      e := e, p := p, primTrace := T, snaps := s.snaps + 1
      scanOut := if s.p.addr = true then s.scanOut ++ [probeAddr n] else s.scanOut } = .next u ∧ Q u) :
    ∃ k u, runSteps k s = .next u ∧ Q u := by
  obtain ⟨-, -, hresolved, -⟩ := id hp
  refine exists_run_step (step_of_engineStep_atRest hs (by simp [hpc]) hp.firstEnabled
    (engineStep_settled hc hop hpc hresolved)) ?_
  refine exists_run_step (step_of_engineStep hs rfl rfl (engineStep_probeStop hc hop rfl)) ?_
  refine exists_run_step (step_of_engineStep hs rfl rfl (engineStep_inspect hc hop rfl hsa)) ?_
  refine exists_run_step (step_of_engineStep hs rfl rfl (engineStep_probeClear hc hop rfl)) ?_
  exact h _ _ _ rfl hc hsa hp.endsProbe

end

/-! ## One probe after the other -/

/-- `s` after the first `n` probes, its engine, Bus Interface and traces as given. -/
def State.swept (s : State) (present : List MockSlave) (n : Nat) (e : Engine) (p : Periph) (T : List PrimRecord)
    (B : List BusEvent) : State :=
  { s with
    e := e, p := p, primTrace := T, busTrace := B, slaves := .mock (sweep present n), snaps := s.snaps + n
    scanOut := acknowledged 0 (firstAcks present n) }

/-- `s` after a scan has returned and its last stop has reached the bus. -/
def State.scanned (s : State) (present : List MockSlave) (e : Engine) (p : Periph) (T : List PrimRecord)
    (B : List BusEvent) : State :=
  { s.swept present 128 e p.stopped T B with result := some (s.result.getD .ok) }

theorem findSlave_sweep_isSome (present : List MockSlave) (a : Addr7) (n : Nat) :
    (findSlave a (sweep present n)).isSome = (findSlave a present).isSome := by
  induction n with
  | zero => rfl
  | succ n ih =>
    rw [sweep, ← ih]
    unfold addressSlave
    split
    next => exact findSlave_putSlave_isSome ..
    next => rfl

section
variable {s : State} {c : Command} {n : Nat} {Q : State → Prop} {present : List MockSlave} {e : Engine} {p : Periph}
  {T : List PrimRecord} {B : List BusEvent} (hs : s.reference) (hop : c.op = .scan) (hc : e.cmd = some c)
  (hsa : e.sa = some n)
include hs hop hc hsa

/-- One more probe; what is left of it is its stop. -/
theorem exists_run_probe (hpc : e.pc = .probeStartWait) (hp : p.awaitsStart)
    (hB : B = s.busTrace ++ scanEvents 0 (firstAcks present n))
    (h : ∀ e p T B, e.pc = .next → e.cmd = some c → e.sa = some n → p.endsProbe →
      B ++ [.P] = s.busTrace ++ scanEvents 0 (firstAcks present (n + 1)) →
      ∃ k u, runSteps k (s.swept present (n + 1) e p T B) = .next u ∧ Q u) :
    ∃ k u, runSteps k (s.swept present n e p T B) = .next u ∧ Q u := by
  have hpresent := findSlave_sweep_isSome present (probeAddr n) n
  refine exists_run_answer hs hc hop hsa hpc hp rfl fun e p T hpc hc hsa htells haddr => ?_
  refine exists_run_inspect hs hc hop hsa hpc htells fun e p' T hpc hc hsa hp => ?_
  have hout : acknowledged 0 (firstAcks present (n + 1)) =
      if p.addr = true then acknowledged 0 (firstAcks present n) ++ [probeAddr n]
      else acknowledged 0 (firstAcks present n) := by
    rw [haddr, hpresent, firstAcks_succ, acknowledged_append, firstAcks_length, Nat.zero_add]
    split <;> simp
  have hrest := h e p' T (B ++ [.S] ++
      [.A (addrByte (probeAddr n) .write) (findSlave (probeAddr n) (sweep present n)).isSome]) hpc hc hsa hp
    (by simp [hB, firstAcks_succ, scanEvents_append, probeEvents, hpresent])
  rw [State.swept, hout] at hrest
  exact hrest

/-- The stop of a probe comes while the next one waits for its start (R105). -/
theorem exists_run_next (hpc : e.pc = .next) (hlt : n + 1 < 128) (hp : p.endsProbe)
    (h : ∀ e p T, e.pc = .probeStartWait → e.cmd = some c → e.sa = some (n + 1) → p.awaitsStart →
      ∃ k u, runSteps k (s.swept present (n + 1) e p T (B ++ [.P])) = .next u ∧ Q u) :
    ∃ k u, runSteps k (s.swept present (n + 1) e p T B) = .next u ∧ Q u := by
  obtain ⟨hanswered, howner, hext, hstart, hstop, hinit⟩ := hp
  refine exists_run_step (step_of_engineStep hs hpc rfl (engineStep_nextProbe hc hop hpc hsa)) ?_
  rw [if_pos hlt]
  refine exists_run_step (step_of_engineStep hs rfl rfl (engineStep_probeStart hc hop rfl)) ?_
  refine exists_run_step (step_stop hs rfl howner hstop hanswered.quiet) ?_
  exact h _ _ _ rfl hc rfl ⟨rfl, rfl, hext, rfl, rfl, hinit⟩

/-- The stop of the last probe comes after the scan has returned (R86, R105). -/
theorem exists_run_last (hpc : e.pc = .next) (hlast : n = 127) (hp : p.endsProbe)
    (h : ∀ e T, e.pc = .idle → e.cmd = none → e.polls = 0 → Q (s.scanned present e p T (B ++ [.P]))) :
    ∃ k u, runSteps k (s.swept present (n + 1) e p T B) = .next u ∧ Q u := by
  subst hlast
  obtain ⟨hanswered, howner, hext, hstart, hstop, hinit⟩ := hp
  refine exists_run_step (step_of_engineStep hs hpc rfl (engineStep_nextProbe hc hop hpc hsa)) ?_
  rw [if_neg (by decide)]
  refine exists_run_step (step_of_engineStep hs rfl rfl (engineStep_done rfl)) ?_
  refine exists_run_step (step_stop hs rfl howner hstop hanswered.quiet) ?_
  exact ⟨0, _, rfl, h _ _ rfl rfl rfl⟩

end

section
variable {s : State} {c : Command} {Q : State → Prop} {present : List MockSlave} (hs : s.reference) (hop : c.op = .scan)
  (h : ∀ (e : Engine) (p : Periph) T B, e.pc = .idle → e.cmd = none → e.polls = 0 → p.endsProbe →
    B = s.busTrace ++ scanEvents 0 (firstAcks present 128) → Q (s.scanned present e p T B))
include hs hop h

/-- From candidate `n` on, the scan probes every address to the last (R103). -/
theorem exists_run_sweep {n : Nat} (hn : n ≤ 127) (e : Engine) (p : Periph) (T : List PrimRecord) (B : List BusEvent)
    (hc : e.cmd = some c) (hsa : e.sa = some n) (hpc : e.pc = .probeStartWait) (hp : p.awaitsStart)
    (hB : B = s.busTrace ++ scanEvents 0 (firstAcks present n)) :
    ∃ k u, runSteps k (s.swept present n e p T B) = .next u ∧ Q u := by
  induction hn using Nat.decreasingInduction generalizing e p T B with
  | self =>
    refine exists_run_probe hs hop hc hsa hpc hp hB fun e p T B hpc hc hsa hp hB => ?_
    exact exists_run_last hs hop hc hsa hpc rfl hp fun e T hpc hc hpolls => h e p T _ hpc hc hpolls hp hB
  | of_succ n hn ih =>
    refine exists_run_probe hs hop hc hsa hpc hp hB fun e p T B hpc hc hsa hp hB => ?_
    exact exists_run_next hs hop hc hsa hpc (by omega) hp fun e p T hpc hc hsa hp => ih e p T _ hc hsa hpc hp hB

/-- A scan at its first wait runs through its 128 probes. -/
theorem exists_run_scan (hc : s.e.cmd = some c) (hsa : s.e.sa = some 0) (hpc : s.e.pc = .probeStartWait)
    (hp : s.p.awaitsStart) (hslaves : s.slaves = .mock present) (hout : s.scanOut = []) :
    ∃ k u, runSteps k s = .next u ∧ Q u := by
  have hzero : s.swept present 0 s.e s.p s.primTrace s.busTrace = s := by
    rw [State.swept, sweep, ← hslaves, show acknowledged 0 (firstAcks present 0) = s.scanOut from hout.symm]
    rfl
  rw [← hzero]
  exact exists_run_sweep hs hop h (Nat.zero_le 127) s.e s.p _ _ hc hsa hpc hp (by simp [firstAcks, scanEvents])

end

/-- Settles O54: the scan is latched and probes one address after the other (`exists_run_scan`); what the slaves and
the output are after 128 probes is `findSlave_sweep` and `mem_acknowledged_firstAcks`. -/
theorem scanReportsPresent : Obligations.ScanReportsPresent := by
  intro s present len buf rest hready hs hslaves hissue
  obtain ⟨hpc, -, hpolls, hinit, hmode, howner, hext, hbusy, hstart, hstop, -⟩ := hready
  obtain ⟨cw, hcw, hcalls⟩ := hissue
  have hfree : s.p.free := ⟨hmode, howner, hext, hbusy, hstart, hstop⟩
  have hissued := (step_reference_turn hs (.inr hfree.firstEnabled)).trans
    ((turn_command hpc hcalls (decode_eq_instr_iff.2 hcw)).trans
      (accept_latches (op := .scan) (s := { s with calls := rest, side := ⟨len, buf⟩ }) hpc hinit
        (by simp [Op.takesBuffer]) 0 0 0 .scanInit))
  refine exists_run_step hissued ?_
  refine exists_run_step (step_of_engineStep hs rfl rfl (engineStep_scanInit rfl rfl rfl)) ?_
  refine exists_run_step (step_of_engineStep hs rfl rfl (engineStep_probeStart rfl rfl rfl)) ?_
  refine exists_run_scan hs rfl (fun e p T B hpc hc hpolls hp hB => ?_) rfl rfl rfl
    ⟨hmode, howner, hext, rfl, hstop, hinit⟩ hslaves rfl
  obtain ⟨-, -, hext, hstart, -, hinit⟩ := hp
  have hslaveAt (a : Addr7) : s.slaveAt a = findSlave a present := slaveAt_mock hslaves a
  refine ⟨⟨?_, hs, rfl, rfl, rfl⟩, rfl, rfl, rfl, fun a => ?_, hB, fun a => ?_⟩
  · exact ⟨hpc, hc, hpolls, hinit, rfl, rfl, hext, hext, hstart, rfl, rfl, rfl, rfl, rfl, rfl, rfl⟩
  · rw [hslaveAt]
    exact (mem_acknowledged_firstAcks (le_refl 128)).trans (and_iff_right a.isLt)
  · rw [hslaveAt, slaveAt_mock rfl, findSlave_sweep present a (le_refl 128), if_pos a.isLt]
    rfl

end Sys2Proof.Machine
end

section
/-! The steps of an addressed transfer under the reference scheduler, the slave present (R71 to R78, R82): the command
issued, a start and an address byte acknowledged, data bytes sent and acknowledged, the stop. -/

namespace Sys2Proof.Machine

open Sys2Proof

/-! ## Single steps of the engine -/

theorem exists_run_steps {s t : State} {j : Nat} {Q : State → Prop} (h : runSteps j s = .next t)
    (h' : ∃ k u, runSteps k t = .next u ∧ Q u) : ∃ k u, runSteps k s = .next u ∧ Q u := by
  obtain ⟨k, u, hu, hq⟩ := h'
  exact ⟨j + k, u, (runSteps_add k h).trans hu, hq⟩

/-- `s` with a command just latched, the moves `rest` still to come (R55). -/
def State.latched (s : State) (c : Command) (len : BitVec 32) (rest : List Call) : State :=
  latch c c.op.firstLabel { s with calls := rest, side := ⟨len, c.buf⟩ }

/-- The Caller's turn in a ready state latches the command of the instruction it issues (R55). -/
theorem step_latches {s : State} {i : Instr} {op : Op} {a : Addr7} {r d : Byte} {len : BitVec 32} {buf : BufRef}
    {rest : List Call} (hready : s.ready) (hs : s.reference) (hissue : s.issues i len buf rest)
    (hexec : ∀ u, exec i u = accept op a r d op.firstLabel u)
    (hlen : op.takesBuffer = true → lengthsOk s.params len buf) :
    step s = .next (s.latched ⟨op, a, r, d, len.toNat, buf⟩ len rest) := by
  obtain ⟨hpc, -, -, hinit, hmode, howner, hext, hbusy, hstart, hstop, -⟩ := hready
  obtain ⟨cw, hcw, hcalls⟩ := hissue
  have hfree : s.p.free := ⟨hmode, howner, hext, hbusy, hstart, hstop⟩
  rw [step_reference_turn hs (.inr hfree.firstEnabled), turn_command hpc hcalls (decode_eq_instr_iff.2 hcw), hexec]
  exact accept_latches (s := { s with calls := rest, side := ⟨len, buf⟩ }) hpc hinit hlen ..

section
variable {s u : State} {c : Command} {l : Label} {a : Act} {w : WaitCond} (hs : s.reference) (hc : s.e.cmd = some c)
include hs hc

/-- The engine's turn at a step that is neither a poll nor the settle (R84). -/
theorem step_act (hrow : stepTable c.op s.e.pc = some ⟨a, .goto l⟩) (hy : s.e.pc.yields = false)
    (ha : a.isDirect = true) (hdo : doAct a c s = .ok u) : step s = .next (u.setPc l) :=
  (step_reference_row hs hc hrow (.inl hy)).trans (runRow_of_ok ha hdo)

/-- With the environment at rest, a wait whose condition holds is over at its first poll (R91). -/
theorem step_wait (hrow : stepTable c.op s.e.pc = some ⟨.wait w, .goto l⟩)
    (hrest : firstEnabled s.p = none) (hholds : w.holds s.p = true) :
    step s = .next (((pollOnce w s).2.setPolls 0).setPc l) :=
  (step_reference_row hs hc hrow (.inr hrest)).trans (poll_satisfied hholds)

end

/-! ## The Bus Interface in a transfer -/

/-- After a start and an address byte that `a` acknowledged (R75, R65, R76). -/
def Periph.selected (p : Periph) (a : Addr7) (d : Dir) : Periph :=
  { p.started with
    sb := false, addrResolved := true, addr := true, target := some (a, d), mode := .waitClr d }

/-- In the data phase of a write to `a`, no byte in flight; `btf` is true once a byte has been sent (R68, R78). -/
def Periph.writing (p : Periph) (a : Addr7) (btf : Bool) : Periph :=
  { p.selected a .write with addr := false, mode := .pTx, txe := true, btf := btf }

/-- The same with a byte in the data register (R65). -/
def Periph.loaded (p : Periph) (a : Addr7) (b : Byte) : Periph :=
  { p.writing a false with txe := false, drTx := some b }

section
variable {q : Periph} {a : Addr7} (hstop : q.reqStop = false)
include hstop

theorem firstEnabled_selected : firstEnabled (q.selected a .write) = none :=
  firstEnabled_of_unrequested ⟨rfl, hstop⟩ (.inr (.inl rfl))

theorem firstEnabled_writing (btf : Bool) : firstEnabled (q.writing a btf) = none := by
  simp [firstEnabled, envEnabled, Periph.writing, Periph.selected, Periph.started, PMode.isAddr, hstop]

end

/-- A byte is put in the empty data register (R65). -/
theorem primWriteDr_writing {s : State} {q : Periph} {a : Addr7} {btf : Bool} (hp : s.p = q.writing a btf) (b : Byte) :
    primWriteDr b s = .ok ((s.setP (q.loaded a b)).record (0x3000 ||| b.setWidth 16) none) := by
  have hsend := execWriteDr_next_iff.1 (exec_writeDr_of_empty b (s := s) (by rw [hp]; rfl) (by rw [hp]; rfl))
  rwa [hp] at hsend

/-! ## The slave in a transfer -/

/-- The mock slave last put at an address is the one that counts. -/
theorem putSlave_putSlave {n n' : MockSlave} (h : n'.addr = n.addr) (present : List MockSlave) :
    putSlave n' (putSlave n present) = putSlave n' present := by
  induction present with
  | nil => rfl
  | cons m rest ih =>
    by_cases hm : m.addr = n.addr
    · simp [putSlave, hm, h]
    · simp [putSlave, hm, h, ih]

theorem slaveAddrAck_mock {s : State} {present : List MockSlave} {a : Addr7} {m : MockSlave}
    (hs : s.slaves = .mock present) (hm : findSlave a present = some m) (d : Dir) :
    slaveAddrAck a d s = (true, { s with slaves := .mock (putSlave (m.addressed d) present) }) := by
  simp [slaveAddrAck, hs, hm]

theorem slaveWrite_mock {s : State} {present : List MockSlave} {a : Addr7} {m : MockSlave}
    (hs : s.slaves = .mock present) (hm : findSlave a present = some m) (b : Byte) :
    slaveWrite a b s = (true, { s with slaves := .mock (putSlave (m.take b) present) }) := by
  simp [slaveWrite, hs, hm]

/-- The first byte after the address byte is the register pointer (R82). -/
theorem MockSlave.addressed_take (m : MockSlave) (r : Byte) :
    (m.addressed .write).take r = { m with ptr := r, expectPtr := false } :=
  MockSlave.take_pointer rfl r

/-- The byte behind it goes to the register it points at. -/
theorem MockSlave.addressed_take_take (m : MockSlave) (r d : Byte) : ((m.addressed .write).take r).take d =
    { m with mem := m.mem.write r.toNat d, ptr := r + 1, expectPtr := false } := by
  rw [MockSlave.addressed_take, MockSlave.take_data rfl]

/-- `s` at a label of its command, the bus trace being `B` and the addressed slave being `n` now. -/
def State.inTransfer (s : State) (present : List MockSlave) (l : Label) (p : Periph) (B : List BusEvent)
    (n : MockSlave) (T : List PrimRecord) : State :=
  { s with
    e := { s.e with pc := l, polls := 0 }, p := p, busTrace := B, primTrace := T
    slaves := .mock (putSlave n present) }

/-! ## The start and the address byte -/

/-- With the bus free, the bus-free wait is over at its first poll, and a start is generated (R106, R107). -/
theorem exists_run_start {s : State} {c : Command} {d : Dir} {Q : State → Prop} (hs : s.reference)
    (hc : s.e.cmd = some c) (hd : c.op.firstDir = some d) (hfirst : c.op.firstLabel = .busFreeWait)
    (hpc : s.e.pc = .busFreeWait) (hfree : s.p.free)
    (h : ∀ T, ∃ k u, runSteps k (s.onBus (addrLabel d) s.p.started [.S] T) = .next u ∧ Q u) :
    ∃ k u, runSteps k s = .next u ∧ Q u := by
  obtain ⟨-, -, -, -, hlabel⟩ := addressing_rows hd
  obtain ⟨-, hrow⟩ := hlabel.resolve_left (by simp [hfirst])
  have hbusFree : WaitCond.holds .notBusy s.p = true := by
    obtain ⟨-, -, -, hbusy, -⟩ := hfree
    simp [WaitCond.holds, hbusy]
  have hpoll := step_wait hs hc (hpc ▸ hrow) hfree.firstEnabled hbusFree
  simp only [pollOnce_eq, if_true, primReadStatus2, hfree.clearAddr] at hpoll
  refine exists_run_step hpoll ?_
  obtain ⟨T, hrun⟩ := runSteps_start (s := (((s.setP { s.p with addr := false }).record (primWord 0x6 0)
    (some s.status2Value)).setPolls 0).setPc .start) hs hc hd rfl hfree
  exact exists_run_steps hrun (h T)

section
variable {s : State} {a : Addr7} {present : List MockSlave} {m : MockSlave} {d : Dir} {b : Byte}
  (hs : s.reference) (hy : s.e.pc.yields = true) (hslaves : s.slaves = .mock present)
  (hm : findSlave a present = some m)
include hs hy hslaves hm

/-- The slave acknowledges its address byte (R76, R82). -/
theorem step_addrAcked (hmode : s.p.mode = .pAddr (addrByte a d)) : step s = .next { s with
    slaves := .mock (putSlave (m.addressed d) present)
    busTrace := s.busTrace ++ [.A (addrByte a d) true]
    p := s.p.addressed a d true } :=
  (step_reference_env hs hy (envEnabled_firstEnabled (envEnabled_address_iff.2 ⟨_, hmode⟩) (by simp))).trans
    (envStep_addrByte hmode (slaveAddrAck_mock hslaves hm d))

/-- The slave takes and acknowledges the byte in flight (R78, R82). -/
theorem step_byteAcked (hmode : s.p.mode = .pTx) (hshift : s.p.shift = some b)
    (htarget : s.p.target = some (a, d)) : step s = .next { s with
    slaves := .mock (putSlave (m.take b) present)
    busTrace := s.busTrace ++ [.W b true]
    p := s.p.sent true } :=
  (step_reference_env hs hy (envEnabled_firstEnabled
    (envEnabled_txDone_iff.2 ⟨hmode, by simp [hshift]⟩) (by simp))).trans
    (envStep_txDone hshift ((targetWrite_some htarget b).trans (slaveWrite_mock hslaves hm b)))

end

/-- A byte in the data register is shifted out, and the slave takes and acknowledges it (R77, R78). -/
theorem exists_run_shift {s : State} {q : Periph} {a : Addr7} {b : Byte} {present : List MockSlave} {m n : MockSlave}
    {Q : State → Prop} (hs : s.reference) (hy : s.e.pc.yields = true) (hp : s.p = q.loaded a b)
    (hslaves : s.slaves = .mock (putSlave n present)) (hm : findSlave a present = some m) (hn : n.addr = a)
    (h : ∃ k u, runSteps k { s with
      slaves := .mock (putSlave (n.take b) present), busTrace := s.busTrace ++ [.W b true]
      p := q.writing a true } = .next u ∧ Q u) :
    ∃ k u, runSteps k s = .next u ∧ Q u := by
  have hloaded : envEnabled .txShift s.p = true := envEnabled_txShift_iff.2 (by rw [hp]; exact ⟨rfl, nofun, rfl⟩)
  have hshift := (step_reference_env hs hy (envEnabled_firstEnabled hloaded (by simp))).trans
    (envStep_txShift (b := b) (by rw [hp]; rfl))
  rw [hp] at hshift
  rw [← putSlave_putSlave (n.take_addr b)] at h
  refine exists_run_step hshift ?_
  exact exists_run_step (step_byteAcked hs hy hslaves (findSlave_putSlave_same hm hn) rfl rfl rfl) h

/-- The address byte is sent after a start, first or repeated, and acknowledged. -/
theorem exists_run_selected {s : State} {c : Command} {q : Periph} {present : List MockSlave} {m : MockSlave}
    {Q : State → Prop} {d : Dir} {l : Label} (hs : s.reference) (hc : s.e.cmd = some c)
    (hrow : stepTable c.op s.e.pc = some ⟨.sendAddr d, .goto l⟩) (hy : s.e.pc.yields = false) (hl : l.yields = true)
    (hp : s.p = q.started) (hslaves : s.slaves = .mock present) (hm : findSlave c.addr present = some m)
    (h : ∀ T, ∃ k u, runSteps k { s with
      e := { s.e with pc := l }, p := q.selected c.addr d, primTrace := T
      busTrace := s.busTrace ++ [.A (addrByte c.addr d) true]
      slaves := .mock (putSlave (m.addressed d) present) } = .next u ∧ Q u) :
    ∃ k u, runSteps k s = .next u ∧ Q u := by
  have hsend := execWriteDr_next_iff.1 (exec_writeDr_of_pStart (addrByte c.addr d) (s := s) (by rw [hp]; rfl))
  rw [hp] at hsend
  refine exists_run_step (step_act hs hc hrow hy rfl hsend) ?_
  refine exists_run_step (step_addrAcked hs hl hslaves hm rfl) ?_
  cases d <;> exact h _

/-! ## The data phase of a write -/

/-- From the acknowledge of its address byte, every operation that writes first goes the same way (R107). -/
theorem writing_rows {op : Op} (h : op.firstDir = some .write) :
    stepTable op .addrAcked = some ⟨.wait .addr, .goto .clearAddr⟩ ∧
    stepTable op .clearAddr = some ⟨.clearAddr, .goto .txeWait⟩ := by
  cases op <;> cases h <;> exact ⟨rfl, rfl⟩

section
variable {s : State} {c : Command} {q : Periph} {present : List MockSlave} {m n : MockSlave} {B : List BusEvent}
  {T : List PrimRecord} {l w l' : Label} {a : Act} {b : Byte} {f : Bool} {cond : WaitCond} {Q : State → Prop}
  (hs : s.reference) (hc : s.e.cmd = some c) (hstop : q.reqStop = false)
include hs hc hstop

/-- The acknowledged address is seen and its status read, and the data register is empty (R107). -/
theorem exists_run_writing (hd : c.op.firstDir = some .write)
    (hrow : stepTable c.op .txeWait = some ⟨.wait .txe, .goto l⟩)
    (h : ∀ T, ∃ k u, runSteps k (s.inTransfer present l (q.writing c.addr false) B n T) = .next u ∧ Q u) :
    ∃ k u, runSteps k (s.inTransfer present .addrAcked (q.selected c.addr .write) B n T) = .next u ∧ Q u := by
  obtain ⟨hacked, hclear⟩ := writing_rows hd
  refine exists_run_step (step_wait hs hc hacked (firstEnabled_selected hstop) rfl) ?_
  refine exists_run_step (step_act hs hc hclear rfl rfl rfl) ?_
  refine exists_run_step (step_wait hs hc hrow (firstEnabled_writing hstop false) rfl) ?_
  exact h _

/-- A byte is sent and acknowledged, and the wait behind it sees that it is (R106, R107). -/
theorem exists_run_byte (hrow : stepTable c.op l = some ⟨a, .goto w⟩) (ha : a.isDirect = true) (hy : l.yields = false)
    (hsend : ∀ u, doAct a c u = primWriteDr b u)
    (hwait : stepTable c.op w = some ⟨.wait cond, .goto l'⟩) (hw : w.yields = true) (hcond : cond = .txe ∨ cond = .btf)
    (hm : findSlave c.addr present = some m) (hn : n.addr = c.addr)
    (h : ∀ T, ∃ k u, runSteps k
      (s.inTransfer present l' (q.writing c.addr true) (B ++ [.W b true]) (n.take b) T) = .next u ∧ Q u) :
    ∃ k u, runSteps k (s.inTransfer present l (q.writing c.addr f) B n T) = .next u ∧ Q u := by
  refine exists_run_step (step_act hs hc hrow hy ha ((hsend _).trans (primWriteDr_writing rfl b))) ?_
  refine exists_run_shift hs hw rfl rfl hm hn ?_
  have hrest := firstEnabled_writing (a := c.addr) hstop true
  obtain rfl | rfl := hcond <;> exact exists_run_step (step_wait hs hc hwait hrest rfl) (h _)

end

/-! ## The return -/

/-- `s` after its command has returned, the bus trace being `B` and the addressed slave being `n` now (R86). -/
def State.returned (s : State) (present : List MockSlave) (p : Periph) (B : List BusEvent) (n : MockSlave)
    (T : List PrimRecord) : State :=
  { s with
    e := { s.e with pc := .idle, cmd := none, polls := 0 }, p := p, result := some (s.result.getD .ok), busTrace := B
    primTrace := T, slaves := .mock (putSlave n present) }

/-- At the end of a write the stop is issued, the command returns, and the stop reaches the bus (R86, R74). -/
theorem exists_run_stop {s : State} {c : Command} {q : Periph} {present : List MockSlave} {n : MockSlave}
    {B : List BusEvent} {T : List PrimRecord} {f : Bool} {Q : State → Prop} (hs : s.reference)
    (hc : s.e.cmd = some c) (hrow : stepTable c.op .stop = some ⟨.issueStop, .goto .done⟩)
    (h : ∀ T, Q (s.returned present (q.writing c.addr f).stopped (B ++ [.P]) n T)) :
    ∃ k u, runSteps k (s.inTransfer present .stop (q.writing c.addr f) B n T) = .next u ∧ Q u := by
  refine exists_run_step (step_act hs hc hrow rfl rfl rfl) ?_
  refine exists_run_step (step_of_engineStep hs rfl rfl (engineStep_done rfl)) ?_
  refine exists_run_step (step_stop hs rfl rfl rfl rfl) ?_
  exact ⟨0, _, rfl, h _⟩

end Sys2Proof.Machine
end

section
/-! The single-byte writes under the reference scheduler, the slave present (R106, R107 with R71, R82). -/

namespace Sys2Proof.Machine

open Sys2Proof

/-- `t` is where a write to `a` issued in `s` has come to its end, `evs` being its bus events and `n` the slave at `a`
now. -/
def State.wrote (s t : State) (rest : List Call) (evs : List BusEvent) (a : Addr7) (n : MockSlave) : Prop :=
  s.finished t rest .ok ∧ t.rdata = none ∧ t.scanOut = s.scanOut ∧ t.mem = s.mem ∧ t.busTrace = s.busTrace ++ evs ∧
    t.slaveAt a = some n ∧ ∀ x, x ≠ a → t.slaveAt x = s.slaveAt x

section
variable {s : State} {c : Command} {len : BitVec 32} {rest : List Call} {present : List MockSlave} {m n : MockSlave}
  (hready : s.ready) (hs : s.reference) (hslaves : s.slaves = .mock present) (hm : findSlave c.addr present = some m)
include hready hs hslaves hm

theorem returned_wrote {B evs : List BusEvent} (hscan : c.op ≠ .scan) (hn : n.addr = c.addr)
    (hB : B = s.busTrace ++ evs) (T : List PrimRecord) : s.wrote
      ((s.latched c len rest).returned present (s.p.writing c.addr true).stopped B n T) rest evs c.addr n := by
  obtain ⟨-, -, -, hinit, -, -, hext, -⟩ := hready
  refine ⟨⟨?_, hs, rfl, rfl, rfl⟩, rfl, if_neg hscan, rfl, hB, ?_, fun x hx => ?_⟩
  · exact ⟨rfl, rfl, rfl, hinit, rfl, rfl, hext, hext, rfl, rfl, rfl, rfl, rfl, rfl, rfl, rfl⟩
  · exact (slaveAt_mock rfl _).trans (findSlave_putSlave_same hm hn)
  · rw [slaveAt_mock hslaves]
    exact (slaveAt_mock rfl x).trans (findSlave_putSlave_other hn hx present)

/-- A write latched in a ready state comes to its first byte, the slave expecting its pointer. -/
theorem exists_run_firstByte {l : Label} {Q : State → Prop} (hfirst : c.op.firstLabel = .busFreeWait)
    (hd : c.op.firstDir = some .write)
    (hrow : stepTable c.op .txeWait = some ⟨.wait .txe, .goto l⟩)
    (h : ∀ T, ∃ k u, runSteps k ((s.latched c len rest).inTransfer present l (s.p.writing c.addr false)
      (s.busTrace ++ [.S] ++ [.A (addrByte c.addr .write) true]) (m.addressed .write) T) = .next u ∧ Q u) :
    ∃ k u, runSteps k (s.latched c len rest) = .next u ∧ Q u := by
  obtain ⟨-, -, -, -, hmode, howner, hext, hbusy, hstart, hstop, -⟩ := hready
  obtain ⟨-, -, hsend, -⟩ := addressing_rows hd
  have hfree : s.p.free := ⟨hmode, howner, hext, hbusy, hstart, hstop⟩
  refine exists_run_start (s := s.latched c len rest) hs rfl hd hfirst hfirst hfree fun T => ?_
  refine exists_run_selected hs rfl hsend rfl rfl rfl hslaves hm fun T => ?_
  exact exists_run_writing (s := s.latched c len rest) hs rfl hstop hd hrow h

end

section
variable {s : State} {a : Addr7} {r d : Byte} {len : BitVec 32} {buf : BufRef} {rest : List Call} {m : MockSlave}
  (hready : s.ready) (hs : s.reference) (hm : s.slaveAt a = some m)
include hready hs hm

/-- R106: the one data byte is the slave's pointer. -/
theorem exists_run_writeByte (hissue : s.issues (.writeByte a d) len buf rest) :
    ∃ k t, runSteps k s = .next t ∧ s.wrote t rest [.S, .A (addrByte a .write) true, .W d true, .P] a
      { m with ptr := d, expectPtr := false } := by
  obtain ⟨present, hslaves, hm⟩ := slaveAt_eq_some hm
  have haddr : m.addr = a := findSlave_addr hm
  obtain ⟨-, -, -, -, -, -, -, -, -, hstop, -⟩ := id hready
  refine exists_run_step (step_latches hready hs hissue (fun _ => rfl) nofun) ?_
  refine exists_run_firstByte hready hs hslaves hm rfl rfl rfl fun T => ?_
  refine exists_run_byte hs rfl hstop (b := d) rfl rfl rfl (fun _ => rfl) rfl rfl (.inr rfl) hm haddr fun T => ?_
  rw [MockSlave.addressed_take]
  refine exists_run_stop hs rfl rfl fun T => ?_
  exact returned_wrote hready hs hslaves hm (by simp) haddr (by simp) T

/-- R107: the first data byte is the slave's pointer, the second goes to the register it points at. -/
theorem exists_run_writeMemoryByte (hissue : s.issues (.writeMemoryByte a r d) len buf rest) :
    ∃ k t, runSteps k s = .next t ∧ s.wrote t rest [.S, .A (addrByte a .write) true, .W r true, .W d true, .P] a
      { m with mem := m.mem.write r.toNat d, ptr := r + 1, expectPtr := false } := by
  obtain ⟨present, hslaves, hm⟩ := slaveAt_eq_some hm
  have haddr : m.addr = a := findSlave_addr hm
  obtain ⟨-, -, -, -, -, -, -, -, -, hstop, -⟩ := id hready
  refine exists_run_step (step_latches hready hs hissue (fun _ => rfl) nofun) ?_
  refine exists_run_firstByte hready hs hslaves hm rfl rfl rfl fun T => ?_
  refine exists_run_byte hs rfl hstop (b := r) rfl rfl rfl (fun _ => rfl) rfl rfl (.inl rfl) hm haddr fun T => ?_
  refine exists_run_byte hs rfl hstop (b := d) rfl rfl rfl (fun _ => rfl) rfl rfl (.inr rfl) hm haddr fun T => ?_
  rw [MockSlave.addressed_take_take]
  refine exists_run_stop hs rfl rfl fun T => ?_
  exact returned_wrote hready hs hslaves hm (by simp) haddr (by simp) T

end

/-- Settles O49: both writes run to their end (`exists_run_writeByte`, `exists_run_writeMemoryByte`), and the register
written reads back from a canonical file. -/
theorem singleWritesReachSlave : Obligations.SingleWritesReachSlave := by
  intro s a r d len buf rest m hready hcanon hs hm
  refine ⟨exists_run_writeByte hready hs hm, fun hissue => ?_⟩
  obtain ⟨k, t, hrun, hfinished, hrdata, hout, hmem, htrace, hslave, hothers⟩ :=
    exists_run_writeMemoryByte hready hs hm hissue
  have hwf : m.mem.wf = true := by
    obtain ⟨present, hslaves, hm⟩ := slaveAt_eq_some hm
    simp only [State.canonical, hslaves, Slaves.wf, Bool.and_eq_true] at hcanon
    exact (findSlave_wf hcanon.1.2 hm).1
  refine ⟨k, t, _, hrun, hfinished, hrdata, hout, hmem, htrace, hslave, rfl, rfl, ?_, fun x hx => ?_, hothers⟩
  · exact Memory.read_write_same _ _ hwf
  · exact Memory.read_write_other _ _ hx

end Sys2Proof.Machine
end

section
/-! The steps of a read under the reference scheduler, the slave present (R71, R75, R79, R82): the repeated start, the
address byte for reading, and one byte received without an acknowledge before the stop (R97). -/

namespace Sys2Proof.Machine

open Sys2Proof

/-! ## Up to the read address byte -/

/-- A command whose first label is the start, latched in a ready state, comes to the wait for its first address byte,
which the slave has acknowledged (R110, R111, R114, R121). -/
theorem exists_run_addressed {s : State} {c : Command} {len : BitVec 32} {rest : List Call} {present : List MockSlave}
    {m : MockSlave} {d : Dir} {Q : State → Prop} (hready : s.ready) (hs : s.reference)
    (hslaves : s.slaves = .mock present) (hm : findSlave c.addr present = some m) (hfirst : c.op.firstLabel = .start)
    (hd : c.op.firstDir = some d)
    (h : ∀ T, ∃ k u, runSteps k ((s.latched c len rest).inTransfer present .addrAcked (s.p.selected c.addr d)
      (s.busTrace ++ [.S] ++ [.A (addrByte c.addr d) true]) (m.addressed d) T) = .next u ∧ Q u) :
    ∃ k u, runSteps k (s.latched c len rest) = .next u ∧ Q u := by
  obtain ⟨-, -, -, -, hmode, howner, hext, hbusy, hstart, hstop, -⟩ := hready
  obtain ⟨-, -, hsend, -⟩ := addressing_rows hd
  obtain ⟨T, hrun⟩ := runSteps_start (s := s.latched c len rest) hs rfl hd hfirst
    ⟨hmode, howner, hext, hbusy, hstart, hstop⟩
  refine exists_run_steps hrun ?_
  exact exists_run_selected hs rfl hsend (addrLabel_not_yields d) rfl rfl hslaves hm h

/-- The rows between the two address bytes, shared by the reads that first send a register byte (R111, R114). -/
theorem registerRead_rows {op : Op} (h : op.reads = true) (hd : op.firstDir = some .write) :
    stepTable op .txeWait = some ⟨.wait .txe, .goto .registerByte⟩ ∧
    stepTable op .registerByte = some ⟨.sendReg, .goto .regTxeWait⟩ ∧
    stepTable op .regTxeWait = some ⟨.wait .txe, .goto .restart⟩ ∧
    stepTable op .restart = some ⟨.issueStart, .goto .restartWait⟩ ∧
    stepTable op .restartWait = some ⟨.wait .sb, .goto .addrRead⟩ ∧
    stepTable op .addrRead = some ⟨.sendAddr .read, .goto .addrAckedR⟩ ∧ op.firstLabel = .start := by
  cases op <;> cases h <;> cases hd <;> exact ⟨rfl, rfl, rfl, rfl, rfl, rfl, rfl⟩

section
variable {s : State} {c : Command} {present : List MockSlave} {m n : MockSlave} {Q : State → Prop} (hs : s.reference)
  (hread : c.op.reads = true) (hd : c.op.firstDir = some .write) (hm : findSlave c.addr present = some m)
include hs hread hd hm

/-- After the register byte a start is requested and generated as a repeated one, and the slave acknowledges its address
byte for reading (R75, R76). -/
theorem exists_run_reselected {q : Periph} {B : List BusEvent} {T : List PrimRecord} (hc : s.e.cmd = some c)
    (hstop : q.reqStop = false) (hn : n.addr = c.addr)
    (h : ∀ T, ∃ k u, runSteps k (s.inTransfer present .addrAckedR (q.selected c.addr .read)
      (B ++ [.Sr] ++ [.A (addrByte c.addr .read) true]) n T) = .next u ∧ Q u) :
    ∃ k u, runSteps k (s.inTransfer present .restart (q.writing c.addr true) B n T) = .next u ∧ Q u := by
  obtain ⟨-, -, -, hrestart, hwait, hsend, -⟩ := registerRead_rows hread hd
  have hstart : envEnabled .start { q.writing c.addr true with reqStart := true } = true :=
    envEnabled_start_iff.2 ⟨rfl, hstop, rfl, .inl rfl⟩
  have hrest := firstEnabled_of_unrequested (p := (q.writing c.addr true).started) ⟨rfl, hstop⟩ (.inl rfl)
  refine exists_run_step (step_act hs hc hrestart rfl rfl rfl) ?_
  refine exists_run_step (step_reference_env (k := .start) hs rfl (envEnabled_firstEnabled hstart (by simp))) ?_
  refine exists_run_step (step_wait hs hc hwait hrest rfl) ?_
  refine exists_run_selected hs hc hsend rfl rfl rfl rfl (findSlave_putSlave_same hm hn) fun T => ?_
  rw [putSlave_putSlave (n.addressed_addr .read)]
  exact h T

/-- A read of a given register, latched in a ready state, comes to the acknowledge of its read address byte, the slave
pointing at the register (R111, R114). -/
theorem exists_run_pointed {len : BitVec 32} {rest : List Call} (hready : s.ready)
    (hslaves : s.slaves = .mock present)
    (h : ∀ T, ∃ k u, runSteps k ((s.latched c len rest).inTransfer present .addrAckedR (s.p.selected c.addr .read)
      (s.busTrace ++ [.S] ++ [.A (addrByte c.addr .write) true] ++ [.W c.reg true] ++ [.Sr] ++
        [.A (addrByte c.addr .read) true]) { m with ptr := c.reg, expectPtr := false } T) = .next u ∧ Q u) :
    ∃ k u, runSteps k (s.latched c len rest) = .next u ∧ Q u := by
  have haddr : m.addr = c.addr := findSlave_addr hm
  obtain ⟨-, -, -, -, -, -, -, -, -, hstop, -⟩ := id hready
  obtain ⟨hempty, hsend, hsent, -, -, -, hfirst⟩ := registerRead_rows hread hd
  refine exists_run_addressed hready hs hslaves hm hfirst hd fun T => ?_
  refine exists_run_writing (s := s.latched c len rest) hs rfl hstop hd hempty fun T => ?_
  refine exists_run_byte (s := s.latched c len rest) hs rfl hstop (b := c.reg) hsend rfl rfl (fun _ => rfl) hsent rfl
    (.inl rfl) hm haddr fun T => ?_
  rw [MockSlave.addressed_take]
  exact exists_run_reselected (s := s.latched c len rest) hs hread hd hm rfl hstop haddr h

end

/-! ## The last byte -/

/-- The slave's next byte is received, acknowledged as the bit in force says (R79, R82). -/
theorem step_byteReceived {s : State} {a : Addr7} {d : Dir} {present : List MockSlave} {m : MockSlave}
    (hs : s.reference) (hy : s.e.pc.yields = true) (hslaves : s.slaves = .mock present)
    (hm : findSlave a present = some m) (hmode : s.p.mode = .pRx) (hrxne : s.p.rxne = false)
    (htarget : s.p.target = some (a, d)) : step s = .next { s with
      slaves := .mock (putSlave m.sent present)
      busTrace := s.busTrace ++ [.R m.current s.p.ackEn]
      p := s.p.received m.current } := by
  have hread : slaveRead a s = (m.current, { s with slaves := .mock (putSlave m.sent present) }) := by
    simp [slaveRead, hslaves, hm]
  exact (step_reference_env hs hy (envEnabled_firstEnabled (envEnabled_receive_iff.2 ⟨hmode, hrxne⟩) (by simp))).trans
    (envStep_receive ((targetRead_some htarget).trans hread))

/-- The acknowledge is off and the stop requested: the last byte of a read from `a` is on its way (R97). -/
def Periph.endsRead (p : Periph) (a : Addr7) : Prop :=
  p.mode = .pRx ∧ p.rxne = false ∧ p.target = some (a, .read) ∧ p.ackEn = false ∧ p.reqStart = false ∧
    p.reqStop = true ∧ p.owner = true

/-- The last byte is received without an acknowledge, the stop follows it, and the wait behind sees the byte
(R74, R91, R97). -/
theorem exists_run_lastByte {s : State} {c : Command} {present : List MockSlave} {m : MockSlave} {l : Label}
    {Q : State → Prop} (hs : s.reference) (hc : s.e.cmd = some c)
    (hrow : stepTable c.op s.e.pc = some ⟨.wait .rxne, .goto l⟩) (hy : s.e.pc.yields = true)
    (hslaves : s.slaves = .mock present) (hm : findSlave c.addr present = some m) (hp : s.p.endsRead c.addr)
    (h : ∀ T, ∃ k u, runSteps k { s with
      e := { s.e with pc := l, polls := 0 }, p := (s.p.received m.current).stopped, primTrace := T
      busTrace := s.busTrace ++ [.R m.current false] ++ [.P]
      slaves := .mock (putSlave m.sent present) } = .next u ∧ Q u) :
    ∃ k u, runSteps k s = .next u ∧ Q u := by
  obtain ⟨hmode, hrxne, htarget, hack, hstart, hstop, howner⟩ := hp
  have hreceive := step_byteReceived hs hy hslaves hm hmode hrxne htarget
  rw [hack] at hreceive
  have hquiet : (s.p.received m.current).quiet = true := by simp [Periph.quiet, Periph.received, hack]
  have hrest : firstEnabled (s.p.received m.current).stopped = none := by
    simp [firstEnabled, envEnabled, Periph.stopped, Periph.received, PMode.isAddr, hstart]
  refine exists_run_step hreceive ?_
  refine exists_run_step (step_stop hs hy howner hstop hquiet) ?_
  exact exists_run_step (step_wait hs hc hrow hrest rfl) (h _)

/-- A received byte is the one the Caller gets (R66, R110). -/
theorem actCaptureRdata_of_some {s : State} {v : Byte} (hdr : s.p.drRx = some v) : actCaptureRdata s = .ok
    { (s.setP { s.p with rxne := false, btf := false }).record (primWord 0x4 0) (some (v.setWidth 16)) with
      rdata := some v } := by
  simp only [actCaptureRdata, primReadDr, hdr]
  rfl

end Sys2Proof.Machine
end

section
/-! The single-byte reads under the reference scheduler, the slave present (R110, R111 with R71, R82). -/

namespace Sys2Proof.Machine

open Sys2Proof

/-- Where a single-byte read waits for the acknowledge of its read address byte, and where it reads the status behind it
(R110, R111). -/
def Op.readLabels : Op → Option (Label × Label)
  | .readByte => some (.addrAcked, .clearAddr)
  | .readMemoryByte => some (.addrAckedR, .clearAddrR)
  | .scan | .writeByte | .writeMemoryByte | .readMemoryMulti | .writeMemoryMulti => none

/-- From there on both reads go the same way (R110, R111). -/
theorem singleRead_rows {op : Op} {w l : Label} (h : op.readLabels = some (w, l)) :
    stepTable op w = some ⟨.wait .addr, .goto .disableAck⟩ ∧ stepTable op .disableAck = some ⟨.ackOff, .goto l⟩ ∧
    stepTable op l = some ⟨.clearAddr, .goto .stop⟩ ∧ stepTable op .stop = some ⟨.issueStop, .goto .rxneWait⟩ ∧
    stepTable op .rxneWait = some ⟨.wait .rxne, .goto .capture⟩ ∧
    stepTable op .capture = some ⟨.captureRdata, .goto .done⟩ ∧ l.yields = false := by
  cases op <;> cases h <;> exact ⟨rfl, rfl, rfl, rfl, rfl, rfl, rfl⟩

/-- `t` is where a read from `a` issued in `s` has come to its end, `v` being the byte read, `evs` its bus events and `n`
the slave at `a` now. -/
def State.hasRead (s t : State) (rest : List Call) (v : Byte) (evs : List BusEvent) (a : Addr7) (n : MockSlave) :
    Prop :=
  s.finished t rest .ok ∧ t.rdata = some v ∧ t.scanOut = s.scanOut ∧ t.mem = s.mem ∧ t.busTrace = s.busTrace ++ evs ∧
    t.slaveAt a = some n ∧ ∀ x, x ≠ a → t.slaveAt x = s.slaveAt x

section
variable {s : State} {c : Command} {len : BitVec 32} {rest : List Call} {present : List MockSlave} {m n : MockSlave}
  (hready : s.ready) (hs : s.reference) (hslaves : s.slaves = .mock present) (hm : findSlave c.addr present = some m)
include hready hs hslaves hm

/-- From the acknowledge of its read address byte, a single-byte read runs to its end. -/
theorem exists_run_readEnd {w l : Label} {B evs : List BusEvent} {T : List PrimRecord}
    (hl : c.op.readLabels = some (w, l)) (hn : n.addr = c.addr)
    (hB : B ++ [.R n.current false] ++ [.P] = s.busTrace ++ evs) :
    ∃ k t, runSteps k ((s.latched c len rest).inTransfer present w (s.p.selected c.addr .read) B n T) = .next t ∧
      s.hasRead t rest n.current evs c.addr n.sent := by
  obtain ⟨hacked, hackOff, hclear, hstop, hrxne, hcapture, hy⟩ := singleRead_rows hl
  obtain ⟨-, -, -, hinit, -, -, hext, -, -, hreqStop, -⟩ := hready
  have hrest : firstEnabled (s.p.selected c.addr .read) = none := by
    simp [firstEnabled, envEnabled, Periph.selected, PMode.waitClr, Periph.started, PMode.isAddr, hreqStop]
  have hfound : findSlave c.addr (putSlave n present) = some n := findSlave_putSlave_same hm hn
  have hscan : c.op ≠ .scan := fun h => by simp [h, Op.readLabels] at hl
  refine exists_run_step (step_wait hs rfl hacked hrest rfl) ?_
  refine exists_run_step (step_act hs rfl hackOff rfl rfl rfl) ?_
  refine exists_run_step (step_act hs rfl hclear hy rfl rfl) ?_
  refine exists_run_step (step_act hs rfl hstop rfl rfl rfl) ?_
  refine exists_run_lastByte (m := n) hs rfl hrxne rfl rfl hfound ⟨rfl, rfl, rfl, rfl, rfl, rfl, rfl⟩ fun T => ?_
  refine exists_run_step (step_act hs rfl hcapture rfl rfl (actCaptureRdata_of_some rfl)) ?_
  refine exists_run_step (step_of_engineStep hs rfl rfl (engineStep_done rfl)) ?_
  refine ⟨0, _, rfl, ⟨?_, hs, rfl, rfl, rfl⟩, rfl, if_neg hscan, rfl, hB, ?_, fun x hx => ?_⟩
  · exact ⟨rfl, rfl, rfl, hinit, rfl, rfl, hext, hext, rfl, rfl, rfl, rfl, rfl, rfl, rfl, rfl⟩
  · exact (slaveAt_mock rfl _).trans (findSlave_putSlave_same hfound hn)
  · rw [slaveAt_mock hslaves]
    refine (slaveAt_mock rfl x).trans ?_
    rw [findSlave_putSlave_other (n := n.sent) hn hx, findSlave_putSlave_other hn hx]

end

section
variable {s : State} {a : Addr7} {r : Byte} {len : BitVec 32} {buf : BufRef} {rest : List Call} {m : MockSlave}
  (hready : s.ready) (hs : s.reference) (hm : s.slaveAt a = some m)
include hready hs hm

/-- R110: the byte read is the register the slave points at. -/
theorem exists_run_readByte (hissue : s.issues (.readByte a) len buf rest) :
    ∃ k t, runSteps k s = .next t ∧ s.hasRead t rest m.current
      [.S, .A (addrByte a .read) true, .R m.current false, .P] a m.sent := by
  obtain ⟨present, hslaves, hm⟩ := slaveAt_eq_some hm
  have haddr : m.addr = a := findSlave_addr hm
  refine exists_run_step (step_latches hready hs hissue (fun _ => rfl) nofun) ?_
  refine exists_run_addressed hready hs hslaves hm rfl rfl fun T => ?_
  exact exists_run_readEnd (n := m) hready hs hslaves hm rfl haddr (by simp)

/-- R111: the register byte is the slave's pointer, and the byte read is the register it points at. -/
theorem exists_run_readMemoryByte (hissue : s.issues (.readMemoryByte a r) len buf rest) :
    ∃ k t, runSteps k s = .next t ∧ s.hasRead t rest (m.mem.read r.toNat)
      [.S, .A (addrByte a .write) true, .W r true, .Sr, .A (addrByte a .read) true,
        .R (m.mem.read r.toNat) false, .P] a { m with ptr := r + 1, expectPtr := false } := by
  obtain ⟨present, hslaves, hm⟩ := slaveAt_eq_some hm
  have haddr : m.addr = a := findSlave_addr hm
  refine exists_run_step (step_latches hready hs hissue (fun _ => rfl) nofun) ?_
  refine exists_run_pointed hs rfl rfl hm hready hslaves fun T => ?_
  exact exists_run_readEnd (n := { m with ptr := r, expectPtr := false }) hready hs hslaves hm rfl haddr
    (by simp [MockSlave.current])

end

/-- Settles O50: both reads run to their end (`exists_run_readByte`, `exists_run_readMemoryByte`). -/
theorem singleReadsReturnRegister : Obligations.SingleReadsReturnRegister := by
  intro s a r len buf rest m hready hs hm
  exact ⟨exists_run_readByte hready hs hm, exists_run_readMemoryByte hready hs hm⟩

end Sys2Proof.Machine
end

section
/-! The statements of 46_multi_read.md on single steps: the length errors at acceptance (R118, R55), and the captures
(R115, R35). -/

namespace Sys2Proof.Machine

open Sys2Proof

/-! ## Acceptance (R118, R55) -/

theorem not_lengthsOk {q : Params} {len : BitVec 32} {buf : BufRef}
    (h : len = 0 ∨ q.lenMax < len.toNat ∨ buf.size < len.toNat) : ¬ lengthsOk q len buf := by
  rintro ⟨hpos, hmax, hsize⟩
  obtain rfl | h | h := h
  · simp at hpos
  · omega
  · omega

/-- Settles O13: the lengths are not those that acceptance asks for (`not_lengthsOk`), so both commands are rejected
(`accept_rejects`). -/
theorem badLengthsRejected : Obligations.BadLengthsRejected := by
  intro s a r hpc hinit hlen
  have hbad := not_lengthsOk hlen
  exact ⟨accept_rejects hpc hinit rfl hbad .., accept_rejects hpc hinit rfl hbad ..⟩

/-! ## Captures (R115, R35, R110, R111) -/

/-- `s` after the received byte `v` has been read (R66) and stored at index `i` of the buffer, `r` bytes being left
before it (R115). -/
def State.captured (s : State) (buf : BufRef) (i r : Nat) (v : Byte) : State :=
  { (s.setP { s.p with rxne := false, btf := false }).record (primWord 0x4 0) (some (v.setWidth 16)) with
    mem := s.mem.write (buf.base + i) v, e := { s.e with idx := some (i + 1), rem := some (r - 1) } }

/-- `READ_DR` returns the received byte (R66). -/
theorem primReadDr_of_some {s : State} {v : Byte} (hdr : s.p.drRx = some v) : primReadDr s =
    .ok (v, (s.setP { s.p with rxne := false, btf := false }).record (primWord 0x4 0) (some (v.setWidth 16))) := by
  have hread : readWritten s.p.drRx = .ok v := (readWritten_ok_iff _ _).2 hdr
  rw [primReadDr, hread]
  rfl

theorem actCaptureBuf_of_some {c : Command} {s : State} {i r : Nat} {v : Byte} (hidx : s.e.idx = some i)
    (hrem : s.e.rem = some r) (hdr : s.p.drRx = some v) (hi : i < c.buf.size) :
    actCaptureBuf c s = .ok (s.captured c.buf i r v) := by
  have hwrite (u : State) : bufWrite c.buf i v u = .ok { u with mem := u.mem.write (c.buf.base + i) v } := if_pos hi
  simp only [actCaptureBuf, hidx, hrem, primReadDr_of_some hdr, readWritten_some, bind, Except.bind, hwrite]
  rfl

/-- Where a capture of the multi-byte read goes on (R114). -/
theorem multiRead_capture_row {l : Label} (hl : l = .captureN ∨ l = .capture) :
    readMemoryMultiTable l = some ⟨.captureBuf, .goto (if l = .captureN then .loop else .done)⟩ := by
  obtain rfl | rfl := hl <;> rfl

/-- Settles O28: each capture is its row's action (`actCaptureBuf_of_some`, `actCaptureRdata_of_some`), and in a memory
in canonical form the byte stored reads back. -/
theorem capturesStoreByte : Obligations.CapturesStoreByte := by
  refine ⟨fun s c i r v hwf hc hop hpc hidx hrem hdr hi => ?multi, fun s c r hc hop hpc hrem => ?loop,
    fun s c v hc hop hpc hdr => ?single⟩
  case multi =>
    have hrow := multiRead_capture_row hpc
    have hrun := runRow_of_ok (row := ⟨.captureBuf, .goto (if s.e.pc = .captureN then .loop else .done)⟩) rfl
      (actCaptureBuf_of_some hidx hrem hdr hi)
    refine ⟨_, (engineStep_row hc (by rw [hop]; exact hrow)).trans hrun,
      Memory.read_write_same _ _ hwf, fun x hx => Memory.read_write_other _ _ hx, rfl, rfl, rfl, rfl, rfl, rfl⟩
  case loop =>
    have hrow : stepTable c.op s.e.pc = some ⟨.test, .ifRem .rxneWaitN .disableAck⟩ := by rw [hop, hpc]; rfl
    rw [engineStep_row hc hrow, runRow_of_ok (u := s) rfl rfl]
    exact advance_ifRem hrem
  case single =>
    have hrow : stepTable c.op s.e.pc = some ⟨.captureRdata, .goto .done⟩ := by
      obtain hop | hop := hop <;> rw [hop, hpc] <;> rfl
    have hrun := runRow_of_ok (row := ⟨.captureRdata, .goto .done⟩) (c := c) rfl (actCaptureRdata_of_some hdr)
    exact (engineStep_row hc hrow).trans hrun

end Sys2Proof.Machine
end

section
/-! The multi-byte read under the reference scheduler, the slave present (R114, R115 with R71, R82). -/

namespace Sys2Proof.Machine

open Sys2Proof

/-! ## Memories in canonical form -/

theorem State.canonical_mem {s : State} (h : s.canonical = true) : s.mem.wf = true := by
  simp only [State.canonical, Bool.and_eq_true] at h
  exact h.1.1

theorem State.canonical_slaveAt {s : State} {a : Addr7} {m : MockSlave} (h : s.canonical = true)
    (hm : s.slaveAt a = some m) : m.mem.wf = true := by
  obtain ⟨present, hslaves, hm⟩ := slaveAt_eq_some hm
  simp only [State.canonical, hslaves, Slaves.wf, Bool.and_eq_true] at h
  exact (findSlave_wf h.1.2 hm).1

/-! ## Consecutive bytes -/

theorem Memory.readBytes_writeBytes {m : Memory} (base : Nat) (bs : List Byte) (hm : m.wf = true) :
    (m.writeBytes base bs).readBytes base bs.length = bs := by
  induction bs generalizing m base with
  | nil => rfl
  | cons b bs ih =>
    have hm' := Memory.write_wf base b hm
    have hfirst : ((m.write base b).writeBytes (base + 1) bs).read base = b := by
      rw [Memory.read_writeBytes_other (by omega), Memory.read_write_same _ _ hm]
    rw [Memory.writeBytes, List.length_cons, Memory.readBytes, hfirst, ih _ hm']

/-- The bytes that a slave sends next depend on its registers alone. -/
theorem MockSlave.bytesFrom_congr {m n : MockSlave} (h : m.mem = n.mem) (r : Byte) (k : Nat) :
    m.bytesFrom r k = n.bytesFrom r k := by
  induction k generalizing r with
  | zero => rfl
  | succ k ih => rw [MockSlave.bytesFrom, MockSlave.bytesFrom, ih, h]

theorem receiveEvents_cons {vs : List Byte} (v : Byte) (h : vs ≠ []) :
    receiveEvents (v :: vs) = .R v true :: receiveEvents vs := by
  cases vs with
  | nil => exact absurd rfl h
  | cons w rest => rfl

/-! ## The data phase of a multi-byte read -/

/-- In the data phase of a read from `a`, no byte waiting to be read; `dr` is the byte received last (R79). -/
def Periph.reading (p : Periph) (a : Addr7) (ack : Bool) (dr : Option Byte) : Periph :=
  { p.selected a .read with addr := false, mode := .pRx, ackEn := ack, drRx := dr }

/-- The same once the last byte `v` has been received and read, and the stop has followed it (R97). -/
def Periph.readDone (p : Periph) (a : Addr7) (v : Byte) : Periph :=
  { (p.reading a false (some v)).stopped with rxne := false }

/-- `s` with `i` bytes of a multi-byte read in the buffer of the caller's memory `mem`, and `r` bytes left (R115). -/
def State.filling (s : State) (i r : Nat) (mem : Memory) : State :=
  { s with e := { s.e with idx := some i, rem := some r }, mem := mem }

section
variable {s : State} {c : Command} {q : Periph} {present : List MockSlave} {m n : MockSlave} {B : List BusEvent}
  {T : List PrimRecord} {mem : Memory} {i r : Nat} {ack : Bool} {dr : Option Byte} {Q : State → Prop}
  (hs : s.reference) (hc : s.e.cmd = some c) (hop : c.op = .readMemoryMulti) (hstop : q.reqStop = false)
  (hm : findSlave c.addr present = some m)
include hs hc hop

/-- The loop goes on exactly while more than one byte is left (R114). -/
theorem step_loop (p : Periph) : step ((s.filling i r mem).inTransfer present .loop p B n T) =
    .next ((s.filling i r mem).inTransfer present (if r > 1 then .rxneWaitN else .disableAck) p B n T) := by
  have hrow : stepTable c.op .loop = some ⟨.test, .ifRem .rxneWaitN .disableAck⟩ := by rw [hop]; rfl
  rw [step_reference_row (s := (s.filling i r mem).inTransfer present .loop p B n T) hs hc hrow (.inl rfl)]
  exact (runRow_of_ok rfl rfl).trans (advance_ifRem rfl)

include hstop

/-- The acknowledge bit is set for the bytes to come, and reading the status starts the counters (R95, R114). -/
theorem exists_run_filling
    (h : ∀ T, ∃ k u, runSteps k ((s.filling 0 c.len s.mem).inTransfer present .loop
      (q.reading c.addr (decide (1 < c.len)) q.drRx) B n T) = .next u ∧ Q u) :
    ∃ k u, runSteps k (s.inTransfer present .addrAckedR (q.selected c.addr .read) B n T) = .next u ∧ Q u := by
  have hrow (l : Label) : stepTable c.op l = readMemoryMultiTable l := by rw [hop]; rfl
  have hrest : firstEnabled (q.selected c.addr .read) = none := by
    simp [firstEnabled, envEnabled, Periph.selected, PMode.waitClr, Periph.started, PMode.isAddr, hstop]
  refine exists_run_step (step_wait hs hc (hrow .addrAckedR) hrest rfl) ?_
  refine exists_run_step (step_act hs hc (hrow .initAck) rfl rfl rfl) ?_
  refine exists_run_step (step_act hs hc (hrow .clearAddrR) rfl rfl rfl) ?_
  exact h _

include hm

/-- One more byte is received, acknowledged, and stored behind the others (R79, R115). -/
theorem exists_run_oneMore (hr : 1 < r) (hi : i < c.buf.size) (hn : n.addr = c.addr)
    (h : ∀ T, ∃ k u, runSteps k ((s.filling (i + 1) (r - 1) (mem.write (c.buf.base + i) n.current)).inTransfer present
      .loop (q.reading c.addr true (some n.current)) (B ++ [.R n.current true]) n.sent T) = .next u ∧ Q u) :
    ∃ k u, runSteps k ((s.filling i r mem).inTransfer present .loop (q.reading c.addr true dr) B n T) = .next u ∧
      Q u := by
  have hrow (l : Label) : stepTable c.op l = readMemoryMultiTable l := by rw [hop]; rfl
  have hfound := findSlave_putSlave_same hm hn
  have hreceived : (q.reading c.addr true dr).received n.current =
      { q.reading c.addr true (some n.current) with rxne := true } := by
    simp [Periph.received, Periph.reading, Periph.selected, Periph.started, hstop]
  have hrest : firstEnabled { q.reading c.addr true (some n.current) with rxne := true } = none := by
    simp [firstEnabled, envEnabled, Periph.reading, Periph.selected, Periph.started, PMode.isAddr, hstop]
  refine exists_run_step (step_loop hs hc hop _) ?_
  rw [if_pos hr]
  refine exists_run_step (step_byteReceived (a := c.addr) hs rfl rfl hfound rfl rfl rfl) ?_
  dsimp only [State.inTransfer, State.setPc_p]
  rw [hreceived, putSlave_putSlave (n.sent_addr)]
  refine exists_run_step (step_wait hs hc (hrow .rxneWaitN) hrest rfl) ?_
  refine exists_run_step (step_act hs hc (hrow .captureN) rfl rfl (actCaptureBuf_of_some rfl rfl rfl hi)) ?_
  exact h _

omit hstop in
/-- The last byte is received without an acknowledge and stored, the stop follows it, and the command returns
(R97, R114). -/
theorem exists_run_lastOne (hi : i < c.buf.size) (hn : n.addr = c.addr)
    (h : ∀ T, Q ((s.filling (i + 1) 0 (mem.write (c.buf.base + i) n.current)).returned present
      (q.readDone c.addr n.current) (B ++ [.R n.current false] ++ [.P]) n.sent T)) :
    ∃ k u, runSteps k ((s.filling i 1 mem).inTransfer present .loop (q.reading c.addr ack dr) B n T) = .next u ∧
      Q u := by
  have hrow (l : Label) : stepTable c.op l = readMemoryMultiTable l := by rw [hop]; rfl
  have hfound := findSlave_putSlave_same hm hn
  refine exists_run_step (step_loop hs hc hop _) ?_
  refine exists_run_step (step_act hs hc (hrow .disableAck) rfl rfl rfl) ?_
  refine exists_run_step (step_act hs hc (hrow .stop) rfl rfl rfl) ?_
  refine exists_run_lastByte hs hc (hrow .rxneWait) rfl rfl hfound ⟨rfl, rfl, rfl, rfl, rfl, rfl, rfl⟩ fun T => ?_
  refine exists_run_step (step_act hs hc (hrow .capture) rfl rfl (actCaptureBuf_of_some rfl rfl rfl hi)) ?_
  refine exists_run_step (step_of_engineStep hs rfl rfl (engineStep_done rfl)) ?_
  rw [putSlave_putSlave n.sent_addr]
  exact ⟨0, _, rfl, h _⟩

/-- The loop brings the slave's next `r + 1` bytes into the buffer, in transfer order, all acknowledged but the last
(R97, R114, R115). -/
theorem exists_run_loop (hack : r ≠ 0 → ack = true) (hi : i + r < c.buf.size) (hn : n.addr = c.addr)
    (h : ∀ T v, Q ((s.filling (i + r + 1) 0 (mem.writeBytes (c.buf.base + i) (n.bytesFrom n.ptr (r + 1)))).returned
      present (q.readDone c.addr v) (B ++ receiveEvents (n.bytesFrom n.ptr (r + 1)) ++ [.P])
      { n with ptr := n.ptr + BitVec.ofNat 8 (r + 1) } T)) :
    ∃ k u, runSteps k ((s.filling i (r + 1) mem).inTransfer present .loop (q.reading c.addr ack dr) B n T) = .next u ∧
      Q u := by
  induction r generalizing i mem B n dr T ack with
  | zero => exact exists_run_lastOne hs hc hop hm hi hn fun T => h T _
  | succ r ih =>
    cases hack (by simp)
    refine exists_run_oneMore hs hc hop hstop hm (by omega) (by omega) hn fun T => ?_
    refine ih (fun _ => rfl) (by omega) hn fun T v => ?_
    have hlast := h T v
    have hptr : n.sent.ptr + BitVec.ofNat 8 (r + 1) = n.ptr + BitVec.ofNat 8 (r + 1 + 1) := by
      simp only [MockSlave.sent, BitVec.ofNat_add]
      ac_rfl
    rw [MockSlave.bytesFrom, receiveEvents_cons _ (by simp [MockSlave.bytesFrom])] at hlast
    rw [hptr, MockSlave.bytesFrom_congr (m := n.sent) (n := n) rfl]
    simpa [Memory.writeBytes, MockSlave.sent, MockSlave.current, Nat.add_assoc, Nat.add_comm 1] using hlast

end

/-! ## The whole command -/

/-- `t` is where a multi-byte read from `a` issued in `s` has come to its end, `vs` being the bytes read, `evs` its bus
events and `n` the slave at `a` now. -/
def State.hasFilled (s t : State) (rest : List Call) (buf : BufRef) (vs : List Byte) (evs : List BusEvent) (a : Addr7)
    (n : MockSlave) : Prop :=
  s.finished t rest .ok ∧ t.rdata = none ∧ t.scanOut = s.scanOut ∧ t.mem = s.mem.writeBytes buf.base vs ∧
    t.busTrace = s.busTrace ++ evs ∧ t.slaveAt a = some n ∧ ∀ x, x ≠ a → t.slaveAt x = s.slaveAt x

/-- R114, R115: the register byte is the slave's pointer, and the bytes read are the registers from there on. -/
theorem exists_run_readMemoryMulti {s : State} {a : Addr7} {r : Byte} {len : BitVec 32} {buf : BufRef}
    {rest : List Call} {m : MockSlave} (hready : s.ready) (hs : s.reference) (hm : s.slaveAt a = some m)
    (hissue : s.issues (.readMemoryMulti a r) len buf rest) (hlen : lengthsOk s.params len buf) :
    ∃ k t, runSteps k s = .next t ∧ s.hasFilled t rest buf (m.bytesFrom r len.toNat)
      ([.S, .A (addrByte a .write) true, .W r true, .Sr, .A (addrByte a .read) true] ++
        receiveEvents (m.bytesFrom r len.toNat) ++ [.P]) a
      { m with ptr := r + BitVec.ofNat 8 len.toNat, expectPtr := false } := by
  obtain ⟨present, hslaves, hm⟩ := slaveAt_eq_some hm
  have haddr : m.addr = a := findSlave_addr hm
  obtain ⟨hpos, -, hsize⟩ := id hlen
  obtain ⟨j, hj⟩ := Nat.exists_eq_add_of_le' hpos
  have hbytes := MockSlave.bytesFrom_congr (m := { m with ptr := r, expectPtr := false }) (n := m) rfl r (j + 1)
  refine exists_run_step (step_latches hready hs hissue (fun _ => rfl) fun _ => hlen) ?_
  refine exists_run_pointed hs rfl rfl hm hready hslaves fun T => ?_
  obtain ⟨-, -, -, hinit, -, -, hext, -, -, hstop, -⟩ := hready
  refine exists_run_filling (s := s.latched _ len rest) hs rfl rfl hstop fun T => ?_
  dsimp only
  rw [hj]
  refine exists_run_loop (s := s.latched _ len rest) hs rfl rfl hstop hm (by simp; omega) (by simp; omega) haddr
    fun T v => ?_
  refine ⟨⟨?_, hs, rfl, rfl, rfl⟩, rfl, rfl, ?_, ?_, ?_, fun x hx => ?_⟩
  · exact ⟨rfl, rfl, rfl, hinit, rfl, rfl, hext, hext, rfl, rfl, rfl, rfl, rfl, rfl, rfl, rfl⟩
  · exact congrArg (s.mem.writeBytes buf.base) hbytes
  · simp [State.returned, hbytes]
  · exact (slaveAt_mock rfl _).trans (findSlave_putSlave_same hm (by exact haddr))
  · rw [slaveAt_mock hslaves]
    exact (slaveAt_mock rfl x).trans (findSlave_putSlave_other (by exact haddr) hx present)

/-- Settles O51: the read runs to its end (`exists_run_readMemoryMulti`), the bytes stored in a canonical memory read
back, and no other byte is written. -/
theorem multiReadFillsBuffer : Obligations.MultiReadFillsBuffer := by
  intro s a r len buf rest m hready hcanon hs hm hissue hlen
  obtain ⟨k, t, hrun, hfinished, hrdata, hout, hmem, htrace, hslave, hothers⟩ :=
    exists_run_readMemoryMulti hready hs hm hissue hlen
  have hlength := m.bytesFrom_length r len.toNat
  refine ⟨k, t, hrun, hfinished, hrdata, hout, by simp [htrace], ?_, fun x hx => ?_, hslave, hothers⟩
  · have hread := Memory.readBytes_writeBytes buf.base (m.bytesFrom r len.toNat) (State.canonical_mem hcanon)
    rwa [hlength, ← hmem] at hread
  · rw [hmem]
    exact Memory.read_writeBytes_other (by rwa [hlength])

end Sys2Proof.Machine
end

section
/-! The multi-byte write under the reference scheduler, the slave present (R121 with R71, R82): what a slave holds after
some bytes, and the run that brings it the bytes of a buffer. -/

namespace Sys2Proof.Machine

open Sys2Proof

/-! ## A slave that takes several bytes -/

section
variable {n : MockSlave} (hn : n.expectPtr = false) (bs : List Byte)
include hn

/-- The bytes go to the register file, and the pointer moves on behind each (R82). -/
theorem MockSlave.foldl_take : (bs.foldl MockSlave.take n).addr = n.addr ∧
    (bs.foldl MockSlave.take n).expectPtr = false ∧
    (bs.foldl MockSlave.take n).ptr = n.ptr + BitVec.ofNat 8 bs.length := by
  induction bs generalizing n with
  | nil => simp [hn]
  | cons b bs ih =>
    obtain ⟨haddr, hexpect, hptr⟩ := ih (n := n.take b) (n.take_expectPtr b)
    refine ⟨haddr.trans (n.take_addr b), hexpect, hptr.trans ?_⟩
    simp only [n.take_data hn, List.length_cons, BitVec.ofNat_add]
    ac_rfl

/-- The register of the `i`-th byte holds it, unless as many as 256 bytes followed it (R82, R123). -/
theorem MockSlave.read_foldl_take (hwf : n.mem.wf = true) : (bs.foldl MockSlave.take n).mem.wf = true ∧
    ∀ i (h : i < bs.length), bs.length ≤ i + 256 →
      (bs.foldl MockSlave.take n).mem.read (n.ptr + BitVec.ofNat 8 i).toNat = bs[i] := by
  induction bs using List.reverseRecOn with
  | nil => exact ⟨hwf, nofun⟩
  | append_singleton bs b ih =>
    obtain ⟨hwf', hread⟩ := ih
    obtain ⟨-, hexpect, hptr⟩ := MockSlave.foldl_take hn bs
    rw [List.foldl_concat, MockSlave.take_data hexpect, hptr]
    refine ⟨Memory.write_wf _ _ hwf', fun i hi hwrap => ?_⟩
    simp only [List.length_append, List.length_singleton] at hi hwrap
    by_cases hlast : i = bs.length
    · subst hlast
      rw [Memory.read_write_same _ _ hwf', List.getElem_concat_length rfl]
    · have hne : (n.ptr + BitVec.ofNat 8 i).toNat ≠ (n.ptr + BitVec.ofNat 8 bs.length).toNat := by
        simp only [BitVec.toNat_add, BitVec.toNat_ofNat]
        omega
      rw [Memory.read_write_other _ _ hne, hread i (by omega) (by omega), List.getElem_append_left]

end

/-- A slave whose registers from `r` on hold some bytes sends them. -/
theorem MockSlave.bytesFrom_eq {n : MockSlave} {r : Byte} {bs : List Byte}
    (h : ∀ i (hi : i < bs.length), n.mem.read (r + BitVec.ofNat 8 i).toNat = bs[i]) :
    n.bytesFrom r bs.length = bs := by
  induction bs generalizing r with
  | nil => rfl
  | cons b bs ih =>
    rw [List.length_cons, MockSlave.bytesFrom]
    congr 1
    · have hfirst := h 0 (Nat.succ_pos _)
      rw [List.getElem_cons_zero, BitVec.add_zero] at hfirst
      exact hfirst
    · refine ih fun i hi => ?_
      have hnext := h (i + 1) (by simpa using hi)
      rw [BitVec.ofNat_add] at hnext
      rw [show r + 1 + BitVec.ofNat 8 i = r + (BitVec.ofNat 8 i + 1) by ac_rfl]
      exact hnext

/-- What a slave has taken from a register on it sends from there, for payloads up to its 256 registers (R120). -/
theorem MockSlave.bytesFrom_foldl_take {n : MockSlave} (hn : n.expectPtr = false) (hwf : n.mem.wf = true)
    {bs : List Byte} (hlen : bs.length ≤ 256) :
    (bs.foldl MockSlave.take n).bytesFrom n.ptr bs.length = bs :=
  MockSlave.bytesFrom_eq fun i hi => (MockSlave.read_foldl_take hn bs hwf).2 i hi (by omega)

/-! ## The data phase -/

/-- `s` with the index of a multi-byte write at `i` (R121). -/
def State.indexed (s : State) (i : Nat) : State := { s with e := { s.e with idx := some i } }

/-- Whatever else sets the index, a byte of a multi-byte write goes to the data register (R121). -/
def Act.sendsIndexed (a : Act) (c : Command) (s : State) (b : Byte) (i : Nat) : Prop :=
  doAct a c s = (primWriteDr b s).map fun u => u.indexed i

theorem sendRegClearIdx_sends (c : Command) (s : State) : Act.sendRegClearIdx.sendsIndexed c s c.reg 0 := by
  unfold Act.sendsIndexed
  rw [doAct_sendRegClearIdx]
  rfl

theorem sendBuf_sends {c : Command} {s : State} {i : Nat} (hidx : s.e.idx = some i) (hi : i < c.buf.size) :
    Act.sendBuf.sendsIndexed c s (s.mem.read (c.buf.base + i)) (i + 1) := by
  have hread : bufRead c.buf i s = .ok (s.mem.read (c.buf.base + i)) := if_pos hi
  unfold Act.sendsIndexed
  simp only [doAct, actSendBuf, hidx, readWritten_some, bind, Except.bind, hread]
  rfl

section
variable {s : State} {c : Command} {q : Periph} {present : List MockSlave} {m n : MockSlave} {B : List BusEvent}
  {T : List PrimRecord} {l w : Label} {a : Act} {b : Byte} {i j : Nat} {f : Bool} {Q : State → Prop}
  (hs : s.reference) (hc : s.e.cmd = some c) (hop : c.op = .writeMemoryMulti) (hstop : q.reqStop = false)
  (hm : findSlave c.addr present = some m)
include hs hc

include hm in
/-- A byte of a multi-byte write is sent and acknowledged, the index being set with it (R121). -/
theorem exists_run_indexedByte (hrow : stepTable c.op l = some ⟨a, .goto w⟩) (ha : a.isDirect = true)
    (hy : l.yields = false) (hw : w.yields = true)
    (hsend : a.sendsIndexed c (s.inTransfer present l (q.writing c.addr f) B n T) b i) (hn : n.addr = c.addr)
    (h : ∀ T, ∃ k u, runSteps k ((s.indexed i).inTransfer present w (q.writing c.addr true) (B ++ [.W b true])
      (n.take b) T) = .next u ∧ Q u) :
    ∃ k u, runSteps k (s.inTransfer present l (q.writing c.addr f) B n T) = .next u ∧ Q u := by
  have hdo := hsend.trans (congrArg _ (primWriteDr_writing rfl b))
  refine exists_run_step (step_act hs hc hrow hy ha hdo) ?_
  exact exists_run_shift hs hw rfl rfl hm hn (h _)

include hop hstop

include hm

/-- The register byte is sent and acknowledged, and the first of the buffer's bytes comes next (R121). -/
theorem exists_run_registerByte (hn : n.addr = c.addr)
    (h : ∀ T, ∃ k u, runSteps k ((s.indexed 0).inTransfer present .dataByte (q.writing c.addr true)
      (B ++ [.W c.reg true]) (n.take c.reg) T) = .next u ∧ Q u) :
    ∃ k u, runSteps k (s.inTransfer present .registerByte (q.writing c.addr f) B n T) = .next u ∧ Q u := by
  have hrow (l : Label) : stepTable c.op l = writeMemoryMultiTable l := by rw [hop]; rfl
  refine exists_run_indexedByte hs hc hm (hrow .registerByte) rfl rfl rfl (sendRegClearIdx_sends c _) hn fun T => ?_
  exact exists_run_step (step_wait hs hc (hrow .regTxeWait) (firstEnabled_writing hstop true) rfl) (h _)

/-- The buffer's byte at the index is sent and acknowledged, and the next one follows exactly while some are left
(R121). -/
theorem exists_run_sendOne (hi : s.e.idx = some i) (hsize : i < c.buf.size) (hn : n.addr = c.addr)
    (h : ∀ T, ∃ k u, runSteps k ((s.indexed (i + 1)).inTransfer present (if i + 1 < c.len then .dataByte else .stop)
      (q.writing c.addr true) (B ++ [.W (s.mem.read (c.buf.base + i)) true])
      (n.take (s.mem.read (c.buf.base + i))) T) = .next u ∧ Q u) :
    ∃ k u, runSteps k (s.inTransfer present .dataByte (q.writing c.addr f) B n T) = .next u ∧ Q u := by
  have hrow (l : Label) : stepTable c.op l = writeMemoryMultiTable l := by rw [hop]; rfl
  have hrest := firstEnabled_writing (a := c.addr) hstop true
  refine exists_run_indexedByte hs hc hm (hrow .dataByte) rfl rfl rfl (sendBuf_sends hi hsize) hn fun T => ?_
  have hpoll := (step_reference_row (s := (s.indexed (i + 1)).inTransfer present .transferComplete
    (q.writing c.addr true) (B ++ [.W (s.mem.read (c.buf.base + i)) true]) (n.take (s.mem.read (c.buf.base + i))) T)
    hs hc (hrow .transferComplete) (.inr hrest)).trans ((poll_satisfied rfl).trans (advance_ifIdx rfl))
  exact exists_run_step hpoll (h _)

/-- The loop sends the buffer's `j + 1` bytes from index `i` on, each acknowledged, and comes to the stop (R121). -/
theorem exists_run_sendLoop (hi : s.e.idx = some i) (hlen : i + (j + 1) = c.len) (hsize : c.len ≤ c.buf.size)
    (hn : n.addr = c.addr)
    (h : ∀ T, ∃ k u, runSteps k ((s.indexed c.len).inTransfer present .stop (q.writing c.addr true)
      (B ++ (s.mem.readBytes (c.buf.base + i) (j + 1)).map (.W · true))
      ((s.mem.readBytes (c.buf.base + i) (j + 1)).foldl MockSlave.take n) T) = .next u ∧ Q u) :
    ∃ k u, runSteps k (s.inTransfer present .dataByte (q.writing c.addr f) B n T) = .next u ∧ Q u := by
  induction j generalizing s i B n T f with
  | zero =>
    refine exists_run_sendOne hs hc hop hstop hm hi (by omega) hn fun T => ?_
    rw [if_neg (by omega), show i + 1 = c.len from hlen]
    exact h T
  | succ j ih =>
    refine exists_run_sendOne hs hc hop hstop hm hi (by omega) hn fun T => ?_
    rw [if_pos (by omega)]
    refine ih (s := s.indexed (i + 1)) hs hc rfl (by omega) ((n.take_addr _).trans hn) fun T => ?_
    rw [List.append_assoc]
    exact h T

end

/-! ## The whole command -/

/-- R121: the register byte is the slave's pointer, and the buffer's bytes go to the registers from there on. -/
theorem exists_run_writeMemoryMulti {s : State} {a : Addr7} {r : Byte} {len : BitVec 32} {buf : BufRef}
    {rest : List Call} {m : MockSlave} (hready : s.ready) (hs : s.reference) (hm : s.slaveAt a = some m)
    (hissue : s.issues (.writeMemoryMulti a r) len buf rest) (hlen : lengthsOk s.params len buf) :
    ∃ k t, runSteps k s = .next t ∧ s.wrote t rest
      ([.S, .A (addrByte a .write) true, .W r true] ++ (s.mem.readBytes buf.base len.toNat).map (.W · true) ++ [.P]) a
      ((s.mem.readBytes buf.base len.toNat).foldl MockSlave.take { m with ptr := r, expectPtr := false }) := by
  obtain ⟨present, hslaves, hm⟩ := slaveAt_eq_some hm
  have haddr : m.addr = a := findSlave_addr hm
  obtain ⟨hpos, -, hsize⟩ := id hlen
  obtain ⟨-, -, -, -, -, -, -, -, -, hstop, -⟩ := id hready
  obtain ⟨j, hj⟩ := Nat.exists_eq_add_of_le' hpos
  refine exists_run_step (step_latches hready hs hissue (fun _ => rfl) fun _ => hlen) ?_
  refine exists_run_addressed hready hs hslaves hm rfl rfl fun T => ?_
  refine exists_run_writing (s := s.latched _ len rest) hs rfl hstop rfl rfl fun T => ?_
  refine exists_run_registerByte (s := s.latched _ len rest) hs rfl rfl hstop hm haddr fun T => ?_
  rw [MockSlave.addressed_take]
  refine exists_run_sendLoop (s := (s.latched _ len rest).indexed 0) (j := j) hs rfl rfl hstop hm rfl (by simp [hj])
    hsize haddr fun T => ?_
  refine exists_run_stop (s := (s.latched _ len rest).indexed _) hs rfl rfl fun T => ?_
  have hslave := MockSlave.foldl_take (n := { m with ptr := r, expectPtr := false }) rfl
    (s.mem.readBytes buf.base (j + 1))
  rw [hj]
  exact returned_wrote (c := ⟨.writeMemoryMulti, a, r, 0, j + 1, buf⟩) (len := len) hready hs hslaves hm (by simp)
    (hslave.1.trans haddr) (by simp [State.indexed, State.latched, latch]) T

end Sys2Proof.Machine
end

section
/-! The round trips under the reference scheduler, the slave present (R120 with R71, R82). -/

namespace Sys2Proof.Machine

open Sys2Proof

theorem State.finished.trans {s t u : State} {rest rest' : List Call} {r r' : Result} (h : s.finished t rest r)
    (h' : t.finished u rest' r') : s.finished u rest' r' := by
  obtain ⟨-, -, -, -, hparams⟩ := h
  obtain ⟨hready, href, hcalls, hresult, hparams'⟩ := h'
  exact ⟨hready, href, hcalls, hresult, hparams'.trans hparams⟩

section
variable {s : State} {a : Addr7} {r d : Byte} {m : MockSlave} {w₁ w₂ : CmdWord} {b₁ b₂ : BufRef} {rest : List Call}
  (hready : s.ready) (hcanon : s.canonical = true) (hs : s.reference) (hm : s.slaveAt a = some m)
include hready hcanon hs hm

/-- A byte written to a register is read back from it (R120). -/
theorem exists_run_byteTrip {l₁ l₂ : BitVec 32} (h₁ : encode (.writeMemoryByte a r d) = .cmd w₁)
    (h₂ : encode (.readMemoryByte a r) = .cmd w₂)
    (hcalls : s.calls = .command w₁ l₁ b₁ :: .command w₂ l₂ b₂ :: rest) :
    ∃ k t, runSteps k s = .next t ∧ s.finished t rest .ok ∧ t.rdata = some d := by
  refine exists_run_trans (exists_run_writeMemoryByte hready hs hm ⟨w₁, h₁, hcalls⟩) ?_
  rintro t ⟨hfinished, -, -, -, -, hslave, -⟩
  obtain ⟨hready', hs', hcalls', -⟩ := id hfinished
  obtain ⟨k, u, hrun, hfinished', hrdata, -⟩ := exists_run_readMemoryByte hready' hs' hslave ⟨w₂, h₂, hcalls'⟩
  refine ⟨k, u, hrun, hfinished.trans hfinished', hrdata.trans ?_⟩
  rw [Memory.read_write_same _ _ (State.canonical_slaveAt hcanon hm)]

/-- What is written from one buffer is read back into the other, in order, up to the slave's 256 registers (R120). -/
theorem exists_run_multiTrip {len : BitVec 32} (h₁ : encode (.writeMemoryMulti a r) = .cmd w₁)
    (h₂ : encode (.readMemoryMulti a r) = .cmd w₂)
    (hcalls : s.calls = .command w₁ len b₁ :: .command w₂ len b₂ :: rest) (hlen₁ : lengthsOk s.params len b₁)
    (hlen₂ : lengthsOk s.params len b₂) (hlen : len.toNat ≤ 256) :
    ∃ k t, runSteps k s = .next t ∧ s.finished t rest .ok ∧
      t.mem.readBytes b₂.base len.toNat = s.mem.readBytes b₁.base len.toNat := by
  refine exists_run_trans (exists_run_writeMemoryMulti hready hs hm ⟨w₁, h₁, hcalls⟩ hlen₁) ?_
  rintro t ⟨hfinished, -, -, hmem, -, hslave, -⟩
  obtain ⟨hready', hs', hcalls', -, hparams⟩ := id hfinished
  obtain ⟨k, u, hrun, hfinished', -, -, hmem', -⟩ :=
    exists_run_readMemoryMulti hready' hs' hslave ⟨w₂, h₂, hcalls'⟩ (hparams ▸ hlen₂)
  refine ⟨k, u, hrun, hfinished.trans hfinished', ?_⟩
  have hwf := State.canonical_slaveAt hcanon hm
  have hback := MockSlave.bytesFrom_foldl_take (n := { m with ptr := r, expectPtr := false })
    (bs := s.mem.readBytes b₁.base len.toNat) rfl hwf (by simpa using hlen)
  rw [Memory.readBytes_length] at hback
  have hread := Memory.readBytes_writeBytes b₂.base (s.mem.readBytes b₁.base len.toNat) (State.canonical_mem hcanon)
  rw [Memory.readBytes_length] at hread
  rw [hmem', hback, hmem, hread]

end

end Sys2Proof.Machine
end

section
/-! What a mock slave makes of the bus events, one by one (R82), under every schedule: the events of a run, replayed,
give the slave at its end. -/

namespace Sys2Proof.Machine

open Sys2Proof

/-! ## A slave that hears bus events -/

/-- What a slave makes of a bus event, its flag saying whether it is the one addressed; `none` if it would have sent
another byte (R76, R78, R79, R82). -/
def MockSlave.hear : MockSlave × Bool → BusEvent → Option (MockSlave × Bool)
  | (m, _), .S | (m, _), .Sr | (m, _), .P => some (m, false)
  | (m, _), .A b _ => some (if addrOfByte b = m.addr then (m.addressed (dirOfByte b), true) else (m, false))
  | (m, sel), .W b _ => some (if sel then m.take b else m, sel)
  | (m, sel), .R v _ => if sel then if v = m.current then some (m.sent, true) else none else some (m, false)

/-- What a slave makes of several bus events. -/
def MockSlave.hears (v : MockSlave × Bool) (evs : List BusEvent) : Option (MockSlave × Bool) :=
  evs.foldlM MockSlave.hear v

theorem MockSlave.hears_append (v : MockSlave × Bool) (evs es : List BusEvent) :
    MockSlave.hears v (evs ++ es) = (MockSlave.hears v evs).bind fun w => MockSlave.hears w es :=
  List.foldlM_append ..

/-- The slave at `a`, and whether it is the one addressed. -/
def State.listener (s : State) (a : Addr7) : Option (MockSlave × Bool) :=
  (s.slaveAt a).map fun m => (m, decide (s.p.target.map Prod.fst = some a))

theorem listener_eq_some {s : State} {a : Addr7} {v : MockSlave × Bool} : s.listener a = some v ↔
    s.slaveAt a = some v.1 ∧ v.2 = decide (s.p.target.map Prod.fst = some a) := by
  obtain ⟨m, sel⟩ := v
  cases h : s.slaveAt a <;> simp [State.listener, h, eq_comm]

/-! ## Its answers -/

/-- A present slave is replaced by what it has become, the others stay. -/
theorem findSlave_putSlave {f : MockSlave → MockSlave} (hf : ∀ n, (f n).addr = n.addr) {a x : Addr7}
    {present : List MockSlave} {m n : MockSlave} (hx : findSlave x present = some n)
    (hm : findSlave a present = some m) : findSlave a (putSlave (f n) present) = some (if x = a then f m else m) := by
  have haddr := (hf n).trans (findSlave_addr hx)
  by_cases hxa : x = a
  · subst hxa
    cases hx.symm.trans hm
    rw [if_pos rfl, findSlave_putSlave_same hx haddr]
  · rw [if_neg hxa, findSlave_putSlave_other haddr (Ne.symm hxa), hm]

/-- The mock answers for a slave that is not present without a change to those that are (log 5). -/
theorem draw_slaveAt {s : State} {present : List MockSlave} (hs : s.slaves = .mock present) (a : Addr7) :
    (drawAck s).2.slaveAt a = s.slaveAt a ∧ (drawByte s).2.slaveAt a = s.slaveAt a := by
  simp [drawAck, drawByte, hs, State.slaveAt]

section
variable {s : State} {a : Addr7} {m : MockSlave} (hm : s.slaveAt a = some m) (x : Addr7)
include hm

theorem slaveAddrAck_slaveAt (d : Dir) : (slaveAddrAck x d s).2.slaveAt a = some (if x = a then m.addressed d else m) ∧
    (x = a → (slaveAddrAck x d s).1 = true) := by
  obtain ⟨present, hs, hm'⟩ := slaveAt_eq_some hm
  cases hx : findSlave x present with
  | none =>
    have hne : x ≠ a := by rintro rfl; simp [hx] at hm'
    rw [slaveAddrAck_absent hs ((slaveAt_mock hs x).trans hx), if_neg hne]
    exact ⟨hm, fun h => absurd h hne⟩
  | some n =>
    rw [slaveAddrAck_mock hs hx]
    exact ⟨(slaveAt_mock rfl a).trans (findSlave_putSlave (fun n => n.addressed_addr d) hx hm'), fun _ => rfl⟩

theorem slaveWrite_slaveAt (b : Byte) : (slaveWrite x b s).2.slaveAt a = some (if x = a then m.take b else m) := by
  obtain ⟨present, hs, hm'⟩ := slaveAt_eq_some hm
  cases hx : findSlave x present with
  | none =>
    have hne : x ≠ a := by rintro rfl; simp [hx] at hm'
    simp only [slaveWrite, hs, hx, if_neg hne, (draw_slaveAt hs a).1, hm]
  | some n =>
    rw [slaveWrite_mock hs hx]
    exact (slaveAt_mock rfl a).trans (findSlave_putSlave (fun n => n.take_addr b) hx hm')

theorem slaveRead_slaveAt : (slaveRead x s).2.slaveAt a = some (if x = a then m.sent else m) ∧
    (x = a → (slaveRead x s).1 = m.current) := by
  obtain ⟨present, hs, hm'⟩ := slaveAt_eq_some hm
  cases hx : findSlave x present with
  | none =>
    have hne : x ≠ a := by rintro rfl; simp [hx] at hm'
    simp only [slaveRead, hs, hx, if_neg hne, (draw_slaveAt hs a).2, hm]
    exact ⟨trivial, fun h => absurd h hne⟩
  | some n =>
    simp only [slaveRead, hs, hx]
    refine ⟨(slaveAt_mock rfl a).trans (findSlave_putSlave MockSlave.sent_addr hx hm'), ?_⟩
    rintro rfl
    cases hx.symm.trans hm'
    rfl

end

/-! ## Every step of the environment is heard -/

/-- `t` continues the bus trace of `s`, and the slave at `a` has heard what is new in it. -/
def Heard (a : Addr7) (s t : State) : Prop :=
  ∀ v, s.listener a = some v → ∃ evs w, t.busTrace = s.busTrace ++ evs ∧ MockSlave.hears v evs = some w ∧
    t.listener a = some w

theorem Heard.of_silent {a : Addr7} {s t : State} (htrace : t.busTrace = s.busTrace) (hslaves : t.slaves = s.slaves)
    (htarget : t.p.target = s.p.target) : Heard a s t :=
  fun v hv => ⟨[], v, by simp [htrace], rfl, by rw [← hv]; simp only [State.listener, State.slaveAt, hslaves, htarget]⟩

theorem Heard.refl (a : Addr7) (s : State) : Heard a s s := .of_silent rfl rfl rfl

theorem Heard.trans {a : Addr7} {s t u : State} (h : Heard a s t) (h' : Heard a t u) : Heard a s u := by
  intro v hv
  obtain ⟨evs, w, htrace, hears, hw⟩ := h v hv
  obtain ⟨es, x, htrace', hears', hx⟩ := h' w hw
  exact ⟨evs ++ es, x, by rw [htrace', htrace, List.append_assoc], by simp [MockSlave.hears_append, hears, hears'], hx⟩

/-- One event is heard. -/
theorem Heard.of_event {a : Addr7} {s t : State} {ev : BusEvent} (htrace : t.busTrace = s.busTrace ++ [ev])
    (h : ∀ m, s.slaveAt a = some m → ∃ w, MockSlave.hear (m, decide (s.p.target.map Prod.fst = some a)) ev = some w ∧
      t.slaveAt a = some w.1 ∧ w.2 = decide (t.p.target.map Prod.fst = some a)) : Heard a s t := by
  rintro ⟨m, sel⟩ hv
  obtain ⟨hm, rfl⟩ := listener_eq_some.1 hv
  obtain ⟨w, hear, hw⟩ := h m hm
  exact ⟨[ev], w, htrace, by simpa [MockSlave.hears] using hear, listener_eq_some.2 hw⟩

/-- A transfer phase has a target (R72, R76). -/
theorem Periph.Inv.exists_target {p : Periph} (hp : p.Inv) (h : p.mode = .pTx ∨ p.mode = .pRx) :
    ∃ x d, p.target = some (x, d) := by
  have htarget := hp.target
  cases hx : p.target with
  | none => obtain h | h := h <;> simp [Periph.targetOk, h, hx] at htarget
  | some y => exact ⟨y.1, y.2, rfl⟩

theorem envStep_heard {k : EnvStep} {s t : State} (a : Addr7) (hp : s.p.Inv) (h : envStep k s = .next t)
    (hk : envEnabled k s.p = true) : Heard a s t := by
  cases k with
  | stop =>
    cases howner : s.p.owner with
    | true =>
      rw [envStep_stop_of_owner howner] at h
      cases h
      exact .of_event rfl fun m hm => ⟨(m, false), rfl, hm, rfl⟩
    | false =>
      rw [envStep_stop_of_not_owner howner] at h
      cases h
      exact .of_silent rfl rfl rfl
  | start =>
    cases h
    refine .of_event rfl fun m hm => ⟨(m, false), ?_, hm, rfl⟩
    cases s.p.owner <;> rfl
  | address =>
    obtain ⟨b, hmode⟩ := envEnabled_address_iff.1 hk
    have hnone : s.p.target = none := by simpa [Periph.targetOk, hmode] using hp.target
    obtain ⟨k, u, hanswer⟩ : ∃ k u, slaveAddrAck (addrOfByte b) (dirOfByte b) s = (k, u) := ⟨_, _, rfl⟩
    rw [envStep_address hmode hanswer] at h
    cases h
    refine .of_event rfl fun m hm => ⟨_, rfl, ?_⟩
    obtain ⟨present, -, hfound⟩ := slaveAt_eq_some hm
    obtain ⟨hslave, hack⟩ := slaveAddrAck_slaveAt hm (addrOfByte b) (dirOfByte b)
    rw [hanswer] at hslave hack
    rw [findSlave_addr hfound]
    by_cases hb : addrOfByte b = a
    · rw [if_pos hb] at hslave ⊢
      exact ⟨hslave, by simp [show k = true from hack hb, Periph.addressed, hb]⟩
    · rw [if_neg hb] at hslave ⊢
      exact ⟨hslave, by cases k <;> simp [Periph.addressed, hnone, hb]⟩
  | txShift =>
    obtain ⟨-, hdr, -⟩ := envEnabled_txShift_iff.1 hk
    obtain ⟨b, hb⟩ := Option.ne_none_iff_exists'.1 hdr
    rw [envStep_txShift hb] at h
    cases h
    exact .of_silent rfl rfl rfl
  | txDone =>
    obtain ⟨hmode, hshift⟩ := envEnabled_txDone_iff.1 hk
    obtain ⟨b, hb⟩ := Option.ne_none_iff_exists'.1 hshift
    obtain ⟨x, d, htarget⟩ := hp.exists_target (.inl hmode)
    obtain ⟨k, u, hanswer⟩ : ∃ k u, slaveWrite x b s = (k, u) := ⟨_, _, rfl⟩
    rw [envStep_txDone hb ((targetWrite_some htarget b).trans hanswer)] at h
    cases h
    refine .of_event rfl fun m hm => ⟨_, rfl, ?_, by cases k <;> rfl⟩
    have hslave := slaveWrite_slaveAt hm x b
    rw [hanswer] at hslave
    refine hslave.trans ?_
    simp [htarget]
  | receive =>
    obtain ⟨hmode, -⟩ := envEnabled_receive_iff.1 hk
    obtain ⟨x, d, htarget⟩ := hp.exists_target (.inr hmode)
    obtain ⟨v, u, hanswer⟩ : ∃ v u, slaveRead x s = (v, u) := ⟨_, _, rfl⟩
    rw [envStep_receive ((targetRead_some htarget).trans hanswer)] at h
    cases h
    refine .of_event rfl fun m hm => ?_
    obtain ⟨hslave, hbyte⟩ := slaveRead_slaveAt hm x
    rw [hanswer] at hslave hbyte
    by_cases hx : x = a
    · rw [if_pos hx] at hslave
      exact ⟨(m.sent, true), by simp [MockSlave.hear, htarget, hx, show v = m.current from hbyte hx], hslave,
        by simp [Periph.received, htarget, hx]⟩
    · rw [if_neg hx] at hslave
      exact ⟨(m, false), by simp [MockSlave.hear, htarget, hx], hslave, by simp [Periph.received, htarget, hx]⟩
  | extBusy b =>
    cases h
    exact .of_silent rfl rfl rfl

/-! ## A run is heard -/

theorem Act.Moves.target {a : Act} {p q : Periph} (h : a.Moves p q) (hp : p.Inv) : q.target = p.target := by
  cases a
  case sendAddr | sendProbe | sendReg | sendRegClearIdx | sendData | sendBuf =>
    obtain ⟨b, ⟨hmode, rfl⟩ | ⟨-, -, rfl⟩⟩ := h
    · have htarget : p.target = none := by simpa [Periph.targetOk, hmode] using hp.target
      exact htarget.symm
    · rfl
  case clearAddr | clearAddrInitCount => cases h; rw [Periph.clearAddr_frame]
  case ackOff | ackIfMany => obtain ⟨e, rfl⟩ := h; rfl
  all_goals cases h; rfl

theorem runRow_target {row : Row} {c : Command} {s t : State} (hp : s.p.Inv) (h : runRow row c s = .next t) :
    t.p.target = s.p.target := by
  obtain ⟨w, -, hpoll⟩ | ⟨-, hsettle⟩ | ⟨u, l, -, hu, -, rfl⟩ := runRow_cases h
  · have hread : (pollOnce w s).2.p.target = s.p.target := by
      obtain hp | ⟨-, hp⟩ := pollOnce_p w s <;> rw [hp]
      rw [Periph.clearAddr_frame]
    unfold poll at hpoll
    split at hpoll
    · obtain ⟨l, -, rfl⟩ := advance_next hpoll
      exact hread
    · cases hpoll
      obtain ⟨-, hm⟩ | ⟨-, -, hm⟩ | ⟨-, -, hm⟩ := pollMissed_cases w (pollOnce w s).2 <;> rw [hm] <;> exact hread
  · unfold settleStep at hsettle
    split at hsettle
    · obtain ⟨l, -, rfl⟩ := advance_next hsettle
      rfl
    · cases hsettle
      rfl
  · exact (doAct_moves hu).1.target hp

/-- A command word leaves the Bus Interface alone (R55, R56). -/
theorem runWord_cmd_p {w : CmdWord} {s t : State} (h : runWord (.cmd w) s = .next t) : t.p = s.p := by
  by_cases hd : ∃ i, decode (.cmd w) = .instr i
  · obtain ⟨i, hi⟩ := hd
    rw [runWord_instr hi] at h
    exact (commandsFrame i s t ((isCommand_iff i).2 ⟨w, decode_eq_instr_iff.1 hi⟩) h).1
  · rw [runWord_rejectWord fun i hi => hd ⟨i, hi⟩] at h
    cases gated_next h
    rfl

/-- No turn of the engine or of the Caller changes the slave that is addressed. -/
theorem turn_target {s t : State} (hp : s.p.Inv) (h : turn s = .next t) : t.p.target = s.p.target := by
  by_cases hpc : s.e.pc = .idle
  · simp only [turn_idle hpc, callerStep] at h
    split at h
    · cases h
      rfl
    · unfold initCall at h
      split at h <;> cases h
      rfl
    · rw [runWord_cmd_p h]
  · rw [turn_engine hpc] at h
    obtain ⟨-, rfl⟩ | ⟨-, rfl⟩ | ⟨-, rfl⟩ | ⟨c, row, -, -, hrun⟩ := engineStep_cases h
    · rfl
    · rfl
    · rfl
    · exact runRow_target hp hrun

theorem turn_heard {s t : State} (a : Addr7) (hp : s.p.Inv) (h : turn s = .next t) : Heard a s t := by
  obtain ⟨htrace, hslaves, -⟩ := turn_next h
  exact .of_silent htrace hslaves (turn_target hp h)

/-- The slave at `a` has heard all that a run put on the bus, whatever the schedule. -/
theorem runSteps_heard {s t : State} {k : Nat} (a : Addr7) (hinv : s.Inv) (honly : s.onlyChoices)
    (hrun : runSteps k s = .next t) : Heard a s t :=
  (runSteps_moves (I := fun u => Heard a s u)
    (fun _ _ _ _ _ h => h)
    (fun _ _ _ hu h _ hk henv => h.trans (envStep_heard a hu.periph henv hk))
    (fun _ _ hu h hturn => h.trans (turn_heard a hu.periph hturn)) hinv honly (.refl a s) hrun).2

end Sys2Proof.Machine
end

section
/-! The stages of a write transaction on the bus, from the close of an earlier one to its own stop, and what the
environment makes of each (R106, R107, R121). -/

namespace Sys2Proof.Machine

open Sys2Proof

/-! ## The stages -/

/-- The stages of a write: those of its address byte, which it shares with a read, and those of its bytes. -/
inductive WriteStage where
  | addressing (st : ReadStage) | sending | sent | returned
  deriving DecidableEq

/-- Whether it is a stage of the address byte. -/
def WriteStage.isAddressing : WriteStage → Bool
  | .addressing _ => true
  | .sending | .sent | .returned => false

/-- The write operations. -/
def Op.writes : Op → Bool
  | .writeByte | .writeMemoryByte | .writeMemoryMulti => true
  | .scan | .readByte | .readMemoryByte | .readMemoryMulti => false

/-- The stage at a label of a write's step table; every other label stands at the last one. -/
def Label.writeStage : Label → WriteStage
  | .busFreeWait | .start => .addressing .closing
  | .startWait => .addressing (.opening .write)
  | .addrWrite => .addressing (.opened .write)
  | .addrAcked => .addressing (.selecting .write)
  | .clearAddr => .addressing (.selected .write)
  | .txeWait | .registerByte | .regTxeWait | .dataByte | .transferComplete => .sending
  | .stop => .sent
  | _ => .returned

/-- The actions that hand a byte of the transfer to the data register (R106, R107, R121). -/
def Act.hands : Act → Bool
  | .sendReg | .sendRegClearIdx | .sendData | .sendBuf => true
  | _ => false

/-- Whether an action carries a write on from a stage to a stage. -/
def WriteStage.leads (a : Act) : WriteStage → WriteStage → Bool
  | .addressing .closing, .addressing .closing => a = .wait .notBusy
  | .addressing .closing, .addressing (.opening .write) => a = .issueStart
  | .addressing (.opening .write), .addressing (.opened .write) => a = .wait .sb
  | .addressing (.opened .write), .addressing (.selecting .write) => a = .sendAddr .write
  | .addressing (.selecting .write), .addressing (.selected .write) => a = .wait .addr
  | .addressing (.selected .write), .sending => a = .clearAddr
  | .sending, .sending => a.hands || a = .wait .txe || a = .wait .btf
  | .sending, .sent => a = .wait .btf
  | .sent, .returned => a = .issueStop
  | _, _ => false

/-- The step tables of the writes go through the stages. -/
theorem row_writeStage {op : Op} {l m : Label} {row : Row} (hop : op.writes = true) (hrow : stepTable op l = some row)
    (hm : m ∈ row.succ.targets) : l.writeStage.leads row.act m.writeStage = true := by
  have hall : everyRow (fun op l row => !op.writes || row.succ.targets.all fun m =>
    l.writeStage.leads row.act m.writeStage) = true := by decide
  have h := of_everyRow hall hrow
  rw [hop] at h
  exact List.all_eq_true.1 h m hm

/-! ## What stands on the bus -/

section
variable (s₀ : State) (c : Command)

/-- The events up to some bytes that were sent, all acknowledged. -/
def Written (bs : List Byte) (evs : List BusEvent) : Prop :=
  ∃ head, Selected s₀ c .write head ∧ evs = head ++ bs.map (.W · true)

/-- Some bytes have been handed over: those that are on the bus, the one in flight and the one that waits. A byte that
is not acknowledged ends the transfer. -/
def Transmitting (bs : List Byte) (p : Periph) (evs : List BusEvent) : Prop :=
  p.reqStart = false ∧ p.reqStop = false ∧
    (p.mode = .pNacked ∨
      p.mode = .pTx ∧ ∃ done, Written s₀ c done evs ∧ bs = done ++ p.shift.toList ++ p.drTx.toList)

/-- All bytes are on the bus, and no stop is. -/
def Periph.emptied (p : Periph) : Prop := p.reqStart = false ∧ p.mode = .pTx ∧ p.drTx = none ∧ p.shift = none

/-- All bytes are on the bus, and the stop is or is still requested. -/
def WriteEnded (bs : List Byte) (p : Periph) (evs : List BusEvent) : Prop :=
  p.emptied ∧ p.reqStop = true ∧ Written s₀ c bs evs ∨
    p.reqStart = false ∧ p.owner = false ∧ ∃ body, Written s₀ c bs body ∧ evs = body ++ [.P]

/-- The Bus Interface and the events since the start of the run at each stage, `bs` being the bytes handed over. -/
def WriteStage.Holds (bs : List Byte) (p : Periph) (evs : List BusEvent) : WriteStage → Prop
  | .addressing st => st.Holds s₀ c [] p evs
  | .sending => Transmitting s₀ c bs p evs
  | .sent => p.emptied ∧ Written s₀ c bs evs
  | .returned => WriteEnded s₀ c bs p evs

end

/-! ## What the environment makes of a stage -/

section
variable {s₀ : State} {c : Command} {k : EnvStep} {p q : Periph} {evs es : List BusEvent} {bs : List Byte}
  (h : EnvMove p k q es) (hp : p.Inv)
include h hp

/-- The bytes go out one after the other (R77, R78). -/
theorem Transmitting.env (hc : Transmitting s₀ c bs p evs) : Transmitting s₀ c bs q (evs ++ es) := by
  obtain ⟨hstart, hstop, hmode | ⟨hmode, done, ⟨head, hsel, rfl⟩, rfl⟩⟩ := hc
  · exact (h.false_of_calm hp hstart hstop (by simp [Periph.quiet, hmode]) (by simp [hmode])).elim
  · have howner : p.owner = true := hp.owner.2 (by simp [hmode])
    cases h with
    | txShift b _ hdr hshift =>
      exact ⟨hstart, hstop, .inr ⟨hmode, done, ⟨head, hsel, by simp⟩, by simp [hdr, hshift]⟩⟩
    | txDone b k _ hshift =>
      cases k with
      | true => exact ⟨hstart, hstop, .inr ⟨hmode, done ++ [b], ⟨head, hsel, by simp⟩, by simp [Periph.sent, hshift]⟩⟩
      | false => exact ⟨hstart, hstop, .inl rfl⟩
    | _ => simp_all

/-- After the last byte only the stop can come (R86). -/
theorem WriteEnded.env (hc : WriteEnded s₀ c bs p evs) : WriteEnded s₀ c bs q (evs ++ es) := by
  obtain ⟨⟨hstart, hmode, hdr, hshift⟩, hreq, hbody⟩ | ⟨hstart, howner, body, hbody, rfl⟩ := hc
  · have howner : p.owner = true := hp.owner.2 (by simp [hmode])
    cases h with
    | stop => exact .inr ⟨hstart, rfl, evs, hbody, rfl⟩
    | _ => simp_all
  · have hmode : p.mode = .pIdle := by simpa [howner] using hp.owner
    cases h with
    | drop | extBusy => exact .inr ⟨hstart, howner, body, hbody, by simp⟩
    | _ => simp_all

/-- Every stage at which the environment may move stays what it is. -/
theorem WriteStage.Holds.env {st : WriteStage} (hc : st.Holds s₀ c bs p evs)
    (hst : st ≠ .sent ∧ st ≠ .addressing .between ∧ st ≠ .addressing .last)
    (hclosing : st = .addressing .closing → p.reqStart = false) : st.Holds s₀ c bs q (evs ++ es) := by
  cases st with
  | addressing st => exact ReadStage.Holds.env h hp hc (by simpa using hst.2) fun hst => hclosing (by rw [hst])
  | sending => exact Transmitting.env h hp hc
  | sent => exact absurd rfl hst.1
  | returned => exact WriteEnded.env h hp hc

end

/-! ## What the actions make of a stage -/

section
variable {s₀ : State} {c : Command} {evs : List BusEvent} {bs : List Byte}

/-- A byte handed to the data register waits behind the others (R65). -/
theorem Transmitting.hand {s u : State} {b : Byte} (hc : Transmitting s₀ c bs s.p evs) (h : primWriteDr b s = .ok u) :
    Transmitting s₀ c (bs ++ [b]) u.p evs := by
  obtain ⟨hstart, hstop, hmode⟩ := hc
  obtain ⟨hp, -⟩ | ⟨hp, hdr, rfl⟩ := primWriteDr_cases h
  · obtain hmode | ⟨hmode, -⟩ := hmode <;> simp [hp] at hmode
  · obtain ⟨-, done, hdone, rfl⟩ := hmode.resolve_left (by simp [hp])
    exact ⟨hstart, hstop, .inr ⟨hp, done, hdone, by simp [hdr]⟩⟩

/-- `BTF` says that all bytes handed over are on the bus (R78). -/
theorem Transmitting.sent {p : Periph} (hc : Transmitting s₀ c bs p evs) (hp : p.Inv) (hbtf : p.btf = true) :
    p.emptied ∧ Written s₀ c bs evs := by
  obtain ⟨hmode, hdr, hshift⟩ := hp.btf hbtf
  obtain ⟨hstart, -, hbytes⟩ := hc
  obtain ⟨-, done, hdone, rfl⟩ := hbytes.resolve_left (by simp [hmode])
  exact ⟨⟨hstart, hmode, hdr, hshift⟩, by simpa [hdr, hshift] using hdone⟩

/-- Clearing the address status leaves a closing transaction what it is (R68). -/
theorem Closing.clearAddr {p : Periph} (hc : Closing s₀ p evs) : Closing s₀ p.clearAddr evs := by
  rw [Periph.clearAddr_frame]
  exact hc

/-- The actions that hand over no byte carry a write on. -/
theorem WriteStage.Holds.act {a : Act} {s u : State} {st st' : WriteStage} (hinv : s.Inv)
    (hc : st.Holds s₀ c bs s.p evs) (hlead : st.leads a st' = true) (hop : c.op.writes = true)
    (hhands : a.hands = false) (hdo : doAct a c s = .ok u) (hwait : ∀ w, a = .wait w → w.holds s.p = true)
    (hbs : st = .addressing (.selected .write) → bs = []) : st'.Holds s₀ c bs u.p evs := by
  unfold WriteStage.leads at hlead
  split at hlead <;> simp only [decide_eq_true_eq, Bool.or_eq_true, hhands, Bool.false_eq_true, false_or] at hlead
  -- the wait for the bus
  · subst hlead
    cases hdo
    exact hc
  -- the start is asked for
  · subst hlead
    cases hdo
    have hdir : c.op.readDir = .write := if_neg fun h => by simp [h, Op.writes] at hop
    exact .inl ⟨hdir.symm, rfl, hc⟩
  -- the start is on the bus
  · subst hlead
    cases hdo
    refine Or.resolve_left hc fun ⟨_, hreq, _⟩ => ?_
    simp [(hinv.link.sent (hwait _ rfl)).2] at hreq
  -- the address byte is handed over
  · subst hlead
    obtain ⟨hcalm, hmode, haddr, hhead⟩ := hc
    obtain ⟨-, rfl⟩ | ⟨htx, -⟩ := primWriteDr_cases hdo
    · exact ⟨hcalm, .inl ⟨rfl, haddr, hhead⟩⟩
    · simp [hmode] at htx
  -- the address byte is acknowledged
  · subst hlead
    cases hdo
    have haddr := hwait _ rfl
    obtain ⟨hcalm, ⟨-, hclear, -⟩ | ⟨-, hclear⟩ | ⟨hmode, hsel⟩⟩ := hc
    · simp [WaitCond.holds, hclear] at haddr
    · simp [WaitCond.holds, hclear] at haddr
    · exact ⟨hcalm, hmode, hsel⟩
  -- ADDR is cleared: the bytes may follow
  · subst hlead
    cases hdo
    obtain ⟨⟨hstart, hstop, -⟩, hmode, hsel⟩ := hc
    obtain ⟨hdr, hshift⟩ := hinv.periph.tx (by simp [hmode, PMode.waitClr])
    have hp : s.p.clearAddr = _ := Periph.clearAddr_of_pTxWaitClr (hinv.periph.waits (.inl hmode)) hmode
    show Transmitting s₀ c bs s.p.clearAddr evs
    rw [hp, hbs rfl]
    exact ⟨hstart, hstop, .inr ⟨rfl, [], ⟨evs, hsel, by simp⟩, by simp [hdr, hshift]⟩⟩
  -- a wait between two bytes
  · obtain rfl | rfl := hlead <;> cases hdo <;> exact hc
  -- the last byte is out
  · subst hlead
    cases hdo
    exact Transmitting.sent hc hinv.periph (hwait _ rfl)
  -- the stop is asked for
  · subst hlead
    cases hdo
    obtain ⟨⟨-, hmode, hdr, hshift⟩, hwritten⟩ := hc
    exact .inl ⟨⟨rfl, hmode, hdr, hshift⟩, rfl, hwritten⟩

end

end Sys2Proof.Machine
end

section
/-! A write under every schedule and for every oracle: the sequencer carries it through its stages, and what returns
`OK` is one whole transaction (R106, R107, R121, R123). -/

namespace Sys2Proof.Machine

open Sys2Proof

/-! ## The bytes handed over -/

/-- The bytes that a write sends, the register byte among them (R106, R107, R121). -/
def Command.payload (c : Command) (m : Memory) : List Byte :=
  match c.op with
  | .writeByte => [c.data]
  | .writeMemoryByte => [c.reg, c.data]
  | .writeMemoryMulti => c.reg :: m.readBytes c.buf.base c.len
  | .scan | .readByte | .readMemoryByte | .readMemoryMulti => []

/-- How many of them have been handed over at a label, the index being `i`; from the stop on it is all of them. -/
def Command.handed (c : Command) (i : Nat) (l : Label) : Nat :=
  match l, c.op with
  | .clearAddr, _ | .txeWait, _ | .registerByte, _ | .dataByte, .writeByte => 0
  | .regTxeWait, _ | .dataByte, .writeMemoryByte | .transferComplete, .writeByte => 1
  | .transferComplete, .writeMemoryByte => 2
  | .dataByte, .writeMemoryMulti | .transferComplete, .writeMemoryMulti => i + 1
  | _, _ => c.len + 2

theorem Command.payload_length_le (c : Command) (m : Memory) : (c.payload m).length ≤ c.len + 2 := by
  unfold Command.payload
  split <;> simp

theorem getElem?_readBytes {m : Memory} {base n i : Nat} (h : i < n) :
    (m.readBytes base n)[i]? = some (m.read (base + i)) := by
  induction n generalizing base i with
  | zero => omega
  | succ n ih =>
    cases i with
    | zero => rfl
    | succ i => rw [Memory.readBytes, List.getElem?_cons_succ, ih (by omega), Nat.add_assoc, Nat.add_comm 1]

section
variable {c : Command} {l m : Label} {row : Row} {s u : State} (hop : c.op.writes = true)
  (hrow : stepTable c.op l = some row)
include hop hrow

/-- The labels of the data phase with their rows. -/
theorem row_hands (h : row.act.hands = true) :
    (l = .registerByte ∧ c.op = .writeMemoryByte ∧ row = ⟨.sendReg, .goto .regTxeWait⟩) ∨
    (l = .registerByte ∧ c.op = .writeMemoryMulti ∧ row = ⟨.sendRegClearIdx, .goto .regTxeWait⟩) ∨
    (l = .dataByte ∧ (c.op = .writeByte ∨ c.op = .writeMemoryByte) ∧ row = ⟨.sendData, .goto .transferComplete⟩) ∨
    (l = .dataByte ∧ c.op = .writeMemoryMulti ∧ row = ⟨.sendBuf, .goto .transferComplete⟩) := by
  have hall : everyRow (fun op l row => !op.writes || !row.act.hands || decide (
    (l = .registerByte ∧ op = .writeMemoryByte ∧ row = ⟨.sendReg, .goto .regTxeWait⟩) ∨
    (l = .registerByte ∧ op = .writeMemoryMulti ∧ row = ⟨.sendRegClearIdx, .goto .regTxeWait⟩) ∨
    (l = .dataByte ∧ (op = .writeByte ∨ op = .writeMemoryByte) ∧ row = ⟨.sendData, .goto .transferComplete⟩) ∨
    (l = .dataByte ∧ op = .writeMemoryMulti ∧ row = ⟨.sendBuf, .goto .transferComplete⟩))) = true := by decide
  have hrow := of_everyRow hall hrow
  rw [hop, h] at hrow
  exact of_decide_eq_true hrow

/-- A handing row hands over the next byte of the payload (R107, R121). -/
theorem handed_of_hands (h : row.act.hands = true) (hdo : doAct row.act c s = .ok u) (hm : m ∈ row.succ.targets)
    (hcount : counterInv c l s.e = true) :
    l.writeStage = .sending ∧ m.writeStage = .sending ∧ ∃ b v, primWriteDr b s = .ok v ∧ u.p = v.p ∧ u.mem = v.mem ∧
      (c.payload s.mem)[c.handed (s.e.idx.getD 0) l]? = some b ∧
      c.handed (u.e.idx.getD 0) m = c.handed (s.e.idx.getD 0) l + 1 := by
  obtain ⟨rfl, hop, rfl⟩ | ⟨rfl, hop, rfl⟩ | ⟨rfl, hop, rfl⟩ | ⟨rfl, hop, rfl⟩ := row_hands hop hrow h <;>
    cases List.mem_singleton.1 hm <;> refine ⟨rfl, rfl, ?_⟩
  · exact ⟨_, u, hdo, rfl, rfl, by simp [Command.payload, Command.handed, hop], by simp [Command.handed]⟩
  · have hdo := (doAct_sendRegClearIdx c s).symm.trans hdo
    cases hv : primWriteDr c.reg s with
    | error f => rw [hv] at hdo; cases hdo
    | ok v =>
      rw [hv] at hdo
      cases hdo
      exact ⟨_, v, hv, rfl, rfl, by simp [Command.payload, Command.handed, hop], by simp [Command.handed]⟩
  · refine ⟨_, u, hdo, rfl, rfl, ?_, ?_⟩ <;>
      obtain hop | hop := hop <;> simp [Command.payload, Command.handed, hop]
  · obtain ⟨i, b, v, hi, hread, hv, rfl⟩ := actSendBuf_ok hdo
    obtain ⟨-, rfl⟩ := bufRead_ok hread
    have hlt : i < c.len := by simpa [counterInv, hop, multiWriteInv, hi] using hcount
    refine ⟨_, v, hv, rfl, rfl, ?_, ?_⟩
    · simpa [Command.payload, Command.handed, hop, hi] using getElem?_readBytes hlt
    · simp [Command.handed, hop, hi]

theorem row_sendingWait {w : WaitCond} (h : row.act = .wait w) (hl : l.writeStage = .sending) :
    (l = .txeWait ∧ c.op = .writeByte ∧ row.succ = .goto .dataByte) ∨
    (l = .txeWait ∧ row.succ = .goto .registerByte) ∨
    (l = .regTxeWait ∧ (c.op = .writeMemoryByte ∨ c.op = .writeMemoryMulti) ∧ row.succ = .goto .dataByte) ∨
    (l = .transferComplete ∧ (c.op = .writeByte ∨ c.op = .writeMemoryByte) ∧ row.succ = .goto .stop) ∨
    (l = .transferComplete ∧ c.op = .writeMemoryMulti ∧ row.succ = .ifIdx .dataByte .stop) := by
  have hall : everyRow (fun op l row => !op.writes || row.act.isDirect || !decide (l.writeStage = .sending) || decide (
    (l = .txeWait ∧ op = .writeByte ∧ row.succ = .goto .dataByte) ∨
    (l = .txeWait ∧ row.succ = .goto .registerByte) ∨
    (l = .regTxeWait ∧ (op = .writeMemoryByte ∨ op = .writeMemoryMulti) ∧ row.succ = .goto .dataByte) ∨
    (l = .transferComplete ∧ (op = .writeByte ∨ op = .writeMemoryByte) ∧ row.succ = .goto .stop) ∨
    (l = .transferComplete ∧ op = .writeMemoryMulti ∧ row.succ = .ifIdx .dataByte .stop))) = true := by decide
  have hrow := of_everyRow hall hrow
  rw [hop, h, decide_eq_true hl] at hrow
  exact of_decide_eq_true hrow

/-- A wait of the data phase leaves what is handed over alone, and behind the last byte that is all (R107, R121). -/
theorem handed_of_wait {w : WaitCond} (h : row.act = .wait w) (hl : l.writeStage = .sending)
    (hm : succLabel row.succ c s = .ok m) (hcount : counterInv c l s.e = true) :
    c.handed (s.e.idx.getD 0) m = c.handed (s.e.idx.getD 0) l ∨
      m = .stop ∧ (c.payload s.mem).length ≤ c.handed (s.e.idx.getD 0) l := by
  obtain ⟨rfl, hop, hsucc⟩ | ⟨rfl, hsucc⟩ | ⟨rfl, hop, hsucc⟩ | ⟨rfl, hop, hsucc⟩ | ⟨rfl, hop, hsucc⟩ :=
    row_sendingWait hop hrow h hl <;> rw [hsucc] at hm
  · cases hm
    exact .inl (by simp [Command.handed, hop])
  · cases hm
    exact .inl (by simp [Command.handed])
  · cases hm
    obtain hop | hop := hop
    · exact .inl (by simp [Command.handed, hop])
    · cases hi : s.e.idx with
      | none => simp [counterInv, hop, multiWriteInv, hi] at hcount
      | some i =>
        have hzero : i = 0 := by simpa [counterInv, hop, multiWriteInv, hi] using hcount
        exact .inl (by simp [Command.handed, hop, hzero])
  · cases hm
    refine .inr ⟨rfl, ?_⟩
    obtain hop | hop := hop <;> simp [Command.payload, Command.handed, hop]
  · cases hi : s.e.idx with
    | none => simp [counterInv, hop, multiWriteInv, hi] at hcount
    | some i =>
      have hm : (if i < c.len then .dataByte else .stop) = m := by simpa [succLabel, hi, Except.map] using hm
      subst hm
      split
      · exact .inl (by simp [Command.handed, hop])
      · refine .inr ⟨rfl, ?_⟩
        simp [Command.payload, Command.handed, hop]
        omega

/-- Where the free bus is waited for, an earlier transaction may still be closing (R106, R107). -/
theorem row_busFree (h : row.act = .wait .notBusy) (hm : m ∈ row.succ.targets) :
    l.writeStage = .addressing .closing ∧ m.writeStage = .addressing .closing := by
  have hall : everyRow (fun op l row => !op.writes || !decide (row.act = .wait .notBusy) ||
    row.succ.targets.all fun m =>
      decide (l.writeStage = .addressing .closing ∧ m.writeStage = .addressing .closing)) = true := by decide
  have hrow := of_everyRow hall hrow
  rw [hop, decide_eq_true h] at hrow
  exact of_decide_eq_true (List.all_eq_true.1 hrow m hm)

/-- Into the data phase and out of it a write goes at one label each, and there is no settle. -/
theorem row_phase (hm : m ∈ row.succ.targets) : row.act ≠ .settle ∧
    (l.writeStage = .sending ∨ m.writeStage.isAddressing = true ∨ (l = .clearAddr ∧ m = .txeWait) ∨
      l = .stop ∧ m = .done) := by
  have hall : everyRow (fun op l row => !op.writes || row.succ.targets.all fun m => decide (row.act ≠ .settle ∧
    (l.writeStage = .sending ∨ m.writeStage.isAddressing = true ∨ (l = .clearAddr ∧ m = .txeWait) ∨
      l = .stop ∧ m = .done))) = true := by decide
  have hrow := of_everyRow hall hrow
  rw [hop] at hrow
  exact of_decide_eq_true (List.all_eq_true.1 hrow m hm)

end

/-! ## The rows of the step tables carry a write on -/

section
variable {s₀ : State} {c : Command}

/-- A write at a label: what stands on the bus, and the caller's memory as it was. -/
structure Writing (s₀ : State) (c : Command) (l : Label) (s : State) : Prop where
  bus : ∃ evs, s.busTrace = s₀.busTrace ++ evs ∧
    l.writeStage.Holds s₀ c ((c.payload s₀.mem).take (c.handed (s.e.idx.getD 0) l)) s.p evs
  mem : s.mem = s₀.mem

theorem Writing.congr {l : Label} {s t : State} (h : Writing s₀ c l s) (htrace : t.busTrace = s.busTrace)
    (hp : t.p = s.p) (hmem : t.mem = s.mem) (hidx : t.e.idx = s.e.idx) : Writing s₀ c l t := by
  obtain ⟨hbus, hm⟩ := h
  exact ⟨by rw [htrace, hp, hidx]; exact hbus, hmem.trans hm⟩

/-- The read of a poll leaves a write where it is (R68, R90). -/
theorem Writing.polled {l : Label} {s : State} {w : WaitCond} (h : Writing s₀ c l s)
    (hfree : w = .notBusy → l.writeStage = .addressing .closing) : Writing s₀ c l (pollOnce w s).2 := by
  obtain ⟨⟨htrace, -⟩, he, hmem⟩ := pollOnce_sameOutside w s
  obtain hp | ⟨hw, hp⟩ := pollOnce_p w s
  · exact h.congr htrace hp hmem (by rw [he])
  · obtain ⟨⟨evs, hevs, hbus⟩, hm⟩ := h
    refine ⟨⟨evs, htrace.trans hevs, ?_⟩, hmem.trans hm⟩
    rw [hp]
    rw [hfree hw] at hbus ⊢
    exact Closing.clearAddr hbus

/-- The actions that hand over no byte, as they stand in the tables of the writes. -/
theorem act_of_leads {a : Act} {st st' : WriteStage} (h : st.leads a st' = true) (hhands : a.hands = false) :
    a = .issueStart ∨ a = .issueStop ∨ a = .clearAddr ∨ a = .sendAddr .write ∨ ∃ w, a = .wait w := by
  unfold WriteStage.leads at h
  split at h <;> simp only [decide_eq_true_eq, Bool.or_eq_true, hhands, Bool.false_eq_true, false_or] at h
  case h_7 => obtain rfl | rfl := h <;> simp
  all_goals subst h; simp

theorem act_of_leads_sending {a : Act} {st : WriteStage} (h : WriteStage.sending.leads a st = true)
    (hhands : a.hands = false) : ∃ w, a = .wait w := by
  cases st <;> simp only [WriteStage.leads, hhands, Bool.or_eq_true, decide_eq_true_eq, Bool.false_eq_true,
    false_or] at h
  · obtain rfl | rfl := h <;> exact ⟨_, rfl⟩
  · exact ⟨_, h⟩

/-- At the stages of the address byte it does not matter what has been handed over. -/
theorem WriteStage.Holds.of_isAddressing {st : WriteStage} {bs bs' : List Byte} {p : Periph} {evs : List BusEvent}
    (hst : st.isAddressing = true) (h : st.Holds s₀ c bs p evs) : st.Holds s₀ c bs' p evs := by
  cases st with
  | addressing st => exact h
  | _ => cases hst

theorem eq_clearAddr_of_writeStage {l : Label} (h : l.writeStage = .addressing (.selected .write)) :
    l = .clearAddr := by
  cases l <;> simp [Label.writeStage] at h ⊢

section
variable {s u : State} {m : Label} {row : Row} (hop : c.op.writes = true) (hinv : s.Inv) (hcmd : s.e.cmd = some c)
  (hrow : stepTable c.op s.e.pc = some row)
include hop hinv hcmd hrow

/-- What is handed over does not change at a row that hands over nothing, once the address byte is acknowledged. -/
theorem take_handed (hm : succLabel row.succ c u = .ok m) (hdo : doAct row.act c s = .ok u)
    (hhands : row.act.hands = false) (hnext : m.writeStage.isAddressing = false) :
    (c.payload s.mem).take (c.handed (u.e.idx.getD 0) m) =
      (c.payload s.mem).take (c.handed (s.e.idx.getD 0) s.e.pc) := by
  obtain ⟨-, -, -, hcount⟩ := commandInv_row hinv.command hcmd hrow
  have hmem := succLabel_mem hm
  obtain ⟨-, hl | hm' | ⟨hl, rfl⟩ | ⟨hl, rfl⟩⟩ := row_phase hop hrow hmem
  · have hleads := row_writeStage hop hrow hmem
    rw [hl] at hleads
    obtain ⟨w, hw⟩ := act_of_leads_sending hleads hhands
    rw [hw] at hdo
    cases hdo
    obtain heq | ⟨rfl, hall⟩ := handed_of_wait hop hrow hw hl hm hcount
    · rw [heq]
    · rw [List.take_of_length_le hall]
      exact List.take_of_length_le (c.payload_length_le s.mem)
  · simp [hm'] at hnext
  · rw [hl]
    rfl
  · rw [hl]
    rfl

/-- An action of a row carries the write to the next label. -/
theorem Writing.of_row (hm : succLabel row.succ c u = .ok m) (hdo : doAct row.act c s = .ok u)
    (hwait : ∀ w, row.act = .wait w → w.holds s.p = true) (h : Writing s₀ c s.e.pc s) : Writing s₀ c m u := by
  obtain ⟨⟨evs, htrace, hbus⟩, hmem⟩ := h
  obtain ⟨-, -, -, hcount⟩ := commandInv_row hinv.command hcmd hrow
  have htarget := succLabel_mem hm
  have hleads := row_writeStage hop hrow htarget
  have hout := (doAct_sameOutside hdo).1.trans htrace
  cases hhands : row.act.hands with
  | true =>
    obtain ⟨hl, hm', b, v, hv, hp, humem, hbyte, hnext⟩ := handed_of_hands hop hrow hhands hdo htarget hcount
    obtain ⟨-, -, hvmem⟩ := primWriteDr_sameOutside hv
    rw [hl] at hbus
    refine ⟨⟨evs, hout, ?_⟩, humem.trans (hvmem.trans hmem)⟩
    rw [hm', hnext, List.take_add_one, ← hmem, hbyte, hp, hmem]
    exact Transmitting.hand hbus hv
  | false =>
    have hbs (hl : s.e.pc.writeStage = .addressing (.selected .write)) :
        (c.payload s₀.mem).take (c.handed (s.e.idx.getD 0) s.e.pc) = [] := by
      rw [eq_clearAddr_of_writeStage hl]
      rfl
    have hnext := hbus.act hinv hleads hop hhands hdo hwait hbs
    have humem : u.mem = s.mem := (doAct_mem hdo).resolve_right fun ⟨ha, _⟩ => by
      obtain h | h | h | h | ⟨w, h⟩ := act_of_leads hleads hhands <;> simp [h] at ha
    refine ⟨⟨evs, hout, ?_⟩, humem.trans hmem⟩
    cases haddr : m.writeStage.isAddressing with
    | true => exact hnext.of_isAddressing haddr
    | false =>
      rw [← hmem, take_handed hop hinv hcmd hrow hm hdo hhands haddr, hmem]
      exact hnext

end
end

end Sys2Proof.Machine
end

section
/-! What a write that returns `OK` put on the bus, under every schedule and for every oracle (R106, R107, R121, R123),
with further moves of the Caller still to come. -/

namespace Sys2Proof.Machine

open Sys2Proof

/-- A run of one write command, the moves `rest` coming after it: it is not issued yet, it runs, it has returned, it has
failed and will not return `OK`, or the Caller has moved on. -/
inductive WriteRun (s₀ : State) (c : Command) (rest : List Call) (s : State) : Prop
  | before (hpc : s.e.pc = .idle) (hcalls : s.calls = s₀.calls) (hmem : s.mem = s₀.mem) (evs : List BusEvent)
      (htrace : s.busTrace = s₀.busTrace ++ evs) (hclosing : Closing s₀ s.p evs)
  | running (hcalls : s.calls = rest) (hcmd : s.e.cmd = some c) (habort : s.e.pc ≠ .abort) (hresult : s.result = none)
      (hwrite : Writing s₀ c s.e.pc s)
  | returned (hcalls : s.calls = rest) (hpc : s.e.pc = .idle) (hwrite : Writing s₀ c .done s)
  | failed (hcalls : s.calls = rest) (r : Result) (hresult : s.result = some r) (hr : r ≠ .ok)
  | later (hcalls : s.calls.length < rest.length)

/-- The command the Caller issues next, the moves `rest` coming after it. -/
def State.issuesNext (s : State) (c : Command) (rest : List Call) : Prop :=
  ∃ i cw len, encode i = .cmd cw ∧ s.calls = .command cw len c.buf :: rest ∧ c.len = len.toNat ∧
    ∀ u, exec i u = accept c.op c.addr c.reg c.data c.op.firstLabel u

/-- The Caller issues its command: it is rejected or latched (R55). -/
theorem turn_issues {s t : State} {c : Command} {rest : List Call} (hissue : s.issuesNext c rest)
    (hpc : s.e.pc = .idle) (h : turn s = .next t) :
    (t.calls = rest ∧ t.result = some .rejected ∧ t.e = s.e ∧ t.p = s.p ∧ t.busTrace = s.busTrace) ∨
      ∃ len, t = s.latched c len rest := by
  obtain ⟨i, cw, len, hcw, hcalls, hlen, hexec⟩ := hissue
  rw [turn_command hpc hcalls (decode_eq_instr_iff.2 hcw), hexec] at h
  obtain ⟨-, ha⟩ | ⟨-, -, ha⟩ | ⟨-, -, -, -, ha⟩ | ⟨-, -, -, ha⟩ :=
    accept_cases c.op c.addr c.reg c.data c.op.firstLabel
      { s with calls := rest, side := ⟨len, c.buf⟩ } <;> rw [ha] at h <;> cases h
  · exact .inl ⟨rfl, rfl, rfl, rfl, rfl⟩
  · have hcommand : commandOf c.op c.addr c.reg c.data { s with calls := rest, side := ⟨len, c.buf⟩ } = c := by
      simp only [commandOf, ← hlen]
    exact .inr ⟨len, by rw [hcommand]; rfl⟩

/-- A turn takes at most the Caller's next move; an IDLE engine's turn takes it (R84). -/
theorem turn_calls {s t : State} (h : turn s = .next t) :
    t.calls = s.calls ∧ (s.e.pc = .idle → s.calls = [] ∧ t = s) ∨ s.e.pc = .idle ∧ ∃ x, s.calls = x :: t.calls := by
  obtain ⟨-, hcalls, ht⟩ | ⟨rest, hpc, hcalls, ht⟩ | ⟨cw, len, buf, rest, hpc, hcalls, ht⟩ | ⟨hpc, ht⟩ | ⟨hpc, ht⟩ |
    ⟨hpc, -, -, ht⟩ := turn_cases s
  · cases ht.symm.trans h
    exact .inl ⟨rfl, fun _ => ⟨hcalls, rfl⟩⟩
  · rw [ht] at h
    unfold initCall at h
    split at h <;> cases h
    exact .inr ⟨hpc, _, hcalls⟩
  · obtain ⟨-, -, -, -, -, hsame, -⟩ := runWord_sameOutside (ht.symm.trans h)
    exact .inr ⟨hpc, _, by rw [hcalls, hsame]⟩
  · cases ht.symm.trans h
    exact .inl ⟨rfl, by simp [hpc]⟩
  · cases ht.symm.trans h
    exact .inl ⟨rfl, by simp [hpc]⟩
  · rw [turn_engine hpc] at h
    obtain ⟨-, -, -, -, -, hsame, -⟩ := engineStep_sameOutside h
    exact .inl ⟨hsame, fun hidle => absurd hidle hpc⟩

section
variable {s₀ : State} {c : Command} {rest : List Call} {s t : State}

theorem WriteRun.rescheduled (h : WriteRun s₀ c rest s) (script : List Pick) (i n : Nat) (w : Option (EnvStep × Nat)) :
    WriteRun s₀ c rest { s with script := script, picks := i, waiting := w, patience := n } := by
  cases h with
  | before hpc hcalls hmem evs htrace hclosing => exact .before hpc hcalls hmem evs htrace hclosing
  | running hcalls hcmd habort hresult h => exact .running hcalls hcmd habort hresult (h.congr rfl rfl rfl rfl)
  | returned hcalls hpc h => exact .returned hcalls hpc (h.congr rfl rfl rfl rfl)
  | failed hcalls r hresult hr => exact .failed hcalls r hresult hr
  | later hcalls => exact .later hcalls

theorem State.Inv.no_start {s : State} {l : Label} (hinv : s.Inv) (hpc : s.e.pc = l) (hl : l.startPending = false) :
    s.p.reqStart = false := by
  refine Bool.eq_false_iff.2 fun hreq => ?_
  simpa [hpc, hl] using hinv.link.pending hreq

/-- At a scheduling point a write is at no stage that a step of the environment would change. -/
theorem Writing.env {k : EnvStep} {evs : List BusEvent} {l : Label} (hinv : s.Inv) (h : Writing s₀ c l s)
    (hmove : EnvMove s.p k t.p evs) (htrace : t.busTrace = s.busTrace ++ evs) (hsame : SameEngine s t)
    (hl : l = .done ∨ l = s.e.pc ∧ l.yields = true) : Writing s₀ c l t := by
  obtain ⟨⟨before, hbefore, hbus⟩, hmem⟩ := h
  obtain ⟨he, -, -, -, hmem', -⟩ := hsame
  refine ⟨⟨before ++ evs, by rw [htrace, hbefore, List.append_assoc], ?_⟩, hmem'.trans hmem⟩
  rw [he]
  refine hbus.env hmove hinv.periph ?_ fun hstage => ?_
  · obtain rfl | ⟨-, hy⟩ := hl
    · simp [Label.writeStage]
    · cases l <;> simp [Label.yields, Label.isWait, Label.writeStage] at hy ⊢
  · obtain rfl | ⟨hpc, -⟩ := hl
    · cases hstage
    · exact hinv.no_start hpc.symm (by cases l <;> simp [Label.writeStage] at hstage <;> rfl)

theorem WriteRun.env {k : EnvStep} (hinv : s.Inv) (h : WriteRun s₀ c rest s) (hy : s.e.pc.yields = true)
    (hk : envEnabled k s.p = true) (hstep : envStep k s = .next t) : WriteRun s₀ c rest t := by
  obtain ⟨hsame, evs, hmove, htrace⟩ := envStep_move hstep hk
  obtain ⟨he, hresult', -, -, hmem', -, -, -, -, hcalls', -⟩ := id hsame
  cases h with
  | before hpc hcalls hmem before hbefore hclosing =>
    refine .before (he ▸ hpc) (hcalls'.trans hcalls) (hmem'.trans hmem) (before ++ evs)
      (by rw [htrace, hbefore, List.append_assoc]) ?_
    exact ReadStage.Holds.env (st := .closing) (c := c) (vs := []) hmove hinv.periph hclosing (by simp) fun _ =>
      hinv.no_start hpc rfl
  | running hcalls hcmd habort hresult hwrite =>
    exact .running (hcalls'.trans hcalls) (he ▸ hcmd) (he ▸ habort) (hresult'.trans hresult)
      (he ▸ hwrite.env hinv hmove htrace hsame (.inr ⟨rfl, hy⟩))
  | returned hcalls hpc hwrite =>
    exact .returned (hcalls'.trans hcalls) (he ▸ hpc) (hwrite.env hinv hmove htrace hsame (.inl rfl))
  | failed hcalls r hresult hr => exact .failed (hcalls'.trans hcalls) r (hresult'.trans hresult) hr
  | later hcalls => exact .later (hcalls' ▸ hcalls)

/-- The Caller's turn at the start of a run: the command is rejected, or the write begins (R55). -/
theorem WriteRun.issue (hop : c.op.writes = true) (hissue : s₀.issuesNext c rest) (hpc : s.e.pc = .idle)
    (hcalls : s.calls = s₀.calls) (hmem : s.mem = s₀.mem) {evs : List BusEvent}
    (htrace : s.busTrace = s₀.busTrace ++ evs) (hclosing : Closing s₀ s.p evs) (h : turn s = .next t) :
    WriteRun s₀ c rest t := by
  have hissue : s.issuesNext c rest := by simpa only [State.issuesNext, hcalls] using hissue
  obtain ⟨hcalls', hresult, -⟩ | ⟨len, rfl⟩ := turn_issues hissue hpc h
  · exact .failed hcalls' .rejected hresult (by simp)
  · have hfirst : c.op.firstLabel.writeStage = .addressing .closing ∧ c.op.firstLabel ≠ .abort := by
      cases hc : c.op <;> simp [hc, Op.writes] at hop <;> exact ⟨rfl, by simp [Op.firstLabel]⟩
    refine .running rfl rfl hfirst.2 rfl ⟨⟨evs, htrace, ?_⟩, hmem⟩
    show c.op.firstLabel.writeStage.Holds ..
    rw [hfirst.1]
    exact hclosing

section
variable (hop : c.op.writes = true) (hinv : s.Inv)
include hop hinv

/-- A row carries a running write on, or its wait expires. -/
theorem WriteRun.row {row : Row} (hcmd : s.e.cmd = some c) (hrow : stepTable c.op s.e.pc = some row)
    (hcalls : s.calls = rest) (hresult : s.result = none) (hwrite : Writing s₀ c s.e.pc s)
    (h : runRow row c s = .next t) : WriteRun s₀ c rest t := by
  have moved {u : State} {m : Label} (hm : m ∈ row.succ.targets) (hucmd : u.e.cmd = some c) (hucalls : u.calls = rest)
      (hures : u.result = none) (h : Writing s₀ c m u) : WriteRun s₀ c rest (u.setPc m) := by
    refine .running hucalls hucmd ?_ hures (h.congr rfl rfl rfl rfl)
    obtain rfl | hsome := row_target hrow hm
    · simp
    · obtain ⟨row', hrow'⟩ := Option.isSome_iff_exists.1 hsome
      exact (pc_of_row hrow').2.2
  obtain ⟨w, ha, hpoll⟩ | ⟨ha, hsettle⟩ | ⟨u, m, hdirect, hu, hm, rfl⟩ := runRow_cases h
  · obtain ⟨⟨-, -, -, -, -, hcalls', -⟩, he, -⟩ := pollOnce_sameOutside w s
    have hres := (pollOnce_result w s).trans hresult
    have hfree (m : Label) (hm : m ∈ row.succ.targets) (hw : w = .notBusy) := row_busFree hop hrow (hw ▸ ha) hm
    cases hw : w.holds s.p with
    | true =>
      rw [poll_satisfied hw] at hpoll
      obtain ⟨m, hm, rfl⟩ := advance_next hpoll
      have hm' : succLabel row.succ c s = .ok m := by
        simpa only [succLabel, he, State.setPolls_e] using hm
      have hnext := hwrite.of_row hop hinv hcmd hrow hm' (by rw [ha]; rfl) (by simp [ha, hw])
      exact moved (succLabel_mem hm) (by simp [he, hcmd]) (hcalls'.trans hcalls) hres
        ((hnext.polled fun hw => (hfree m (succLabel_mem hm) hw).2).congr rfl rfl rfl rfl)
    | false =>
      rw [poll_missed hw] at hpoll
      cases hpoll
      have hstay : Writing s₀ c s.e.pc (pollOnce w s).2 := hwrite.polled fun hw => by
        obtain ⟨m, hm⟩ : ∃ m, m ∈ row.succ.targets := by cases row.succ <;> exact ⟨_, .head _⟩
        exact (hfree m hm hw).1
      obtain ⟨-, hm⟩ | ⟨-, -, hm⟩ | ⟨-, -, hm⟩ := pollMissed_cases w (pollOnce w s).2 <;> rw [hm]
      · exact .running (hcalls'.trans hcalls) (by rw [he, hcmd]) (by rw [he]; exact (pc_of_row hrow).2.2) hres
          (by rw [he]; exact hstay)
      · exact .failed (hcalls'.trans hcalls) w.expiry rfl (by cases w <;> simp [WaitCond.expiry])
      · have hpc : ((pollOnce w s).2.setPolls ((pollOnce w s).2.e.polls + 1)).e.pc = s.e.pc := by simp [he]
        exact .running (hcalls'.trans hcalls) (by simp [he, hcmd]) (hpc ▸ (pc_of_row hrow).2.2) hres
          (hpc ▸ hstay.congr rfl rfl rfl rfl)
  · obtain ⟨m, hm⟩ : ∃ m, m ∈ row.succ.targets := by cases row.succ <;> exact ⟨_, .head _⟩
    exact absurd ha (row_phase hop hrow hm).1
  · obtain ⟨-, -, -, -, -, hcalls', -⟩ := doAct_sameOutside hu
    obtain ⟨-, hcounts⟩ := doAct_moves hu
    exact moved (succLabel_mem hm) (hcounts.kept.1.trans hcmd) (hcalls'.trans hcalls)
      ((doAct_result_pc hu).1.trans hresult)
      (hwrite.of_row hop hinv hcmd hrow hm hu fun w hw => by rw [hw] at hdirect; cases hdirect)

/-- The engine's or the Caller's turn keeps to the run. -/
theorem WriteRun.turn (hissue : s₀.issuesNext c rest) (h : WriteRun s₀ c rest s) (hturn : turn s = .next t) :
    WriteRun s₀ c rest t := by
  have idle (hpc : s.e.pc = .idle) (hcalls : s.calls = rest) (hstay : t = s → WriteRun s₀ c rest t) :
      WriteRun s₀ c rest t := by
    obtain ⟨-, hidle⟩ | ⟨-, x, hx⟩ := turn_calls hturn
    · exact hstay (hidle hpc).2
    · exact .later (by rw [← hcalls, hx, List.length_cons]; exact Nat.lt_succ_self _)
  cases h with
  | before hpc hcalls hmem evs htrace hclosing => exact .issue hop hissue hpc hcalls hmem htrace hclosing hturn
  | running hcalls hcmd habort hresult hwrite =>
    obtain ⟨hpc, -, -⟩ := commandInv_running hinv.command hcmd
    rw [turn_engine hpc] at hturn
    obtain ⟨hidle, -⟩ | ⟨hab, -⟩ | ⟨hdone, rfl⟩ | ⟨c', row, hc', hrow, hrun⟩ := engineStep_cases hturn
    · exact absurd hidle hpc
    · exact absurd hab habort
    · rw [hdone] at hwrite
      exact .returned hcalls rfl (hwrite.congr rfl rfl rfl rfl)
    · cases hc'.symm.trans hcmd
      exact .row hop hinv hcmd hrow hcalls hresult hwrite hrun
  | returned hcalls hpc hwrite => exact idle hpc hcalls fun ht => ht ▸ .returned hcalls hpc hwrite
  | failed hcalls r hresult hr =>
    by_cases hpc : s.e.pc = .idle
    · exact idle hpc hcalls fun ht => ht ▸ .failed hcalls r hresult hr
    · rw [turn_engine hpc] at hturn
      obtain ⟨hidle, -⟩ | ⟨-, rfl⟩ | ⟨-, rfl⟩ | ⟨c', row, hc', hrow, -⟩ := engineStep_cases hturn
      · exact absurd hidle hpc
      · exact .failed hcalls r hresult hr
      · exact .failed hcalls r (by simp [doneStep, hresult]) hr
      · obtain ⟨-, -, hnone, -⟩ := commandInv_row hinv.command hc' hrow
        simp [hnone] at hresult
  | later hcalls =>
    obtain ⟨hsame, -⟩ | ⟨-, x, hx⟩ := turn_calls hturn
    · exact .later (hsame ▸ hcalls)
    · rw [hx, List.length_cons] at hcalls
      exact .later (by omega)

end

/-- A write that returned `OK` stands at its end. -/
theorem returned_of_write {k : Nat} (hop : c.op.writes = true) (hinv : s.Inv) (hpc : s.e.pc = .idle)
    (honly : s.onlyChoices) (hissue : s.issuesNext c rest) (hrun : runSteps k s = .next t) (hok : t.okBefore rest) :
    t.Inv ∧ t.mem = s.mem ∧ ∃ evs, t.busTrace = s.busTrace ++ evs ∧ WriteEnded s c (c.payload s.mem) t.p evs := by
  have hreleased : s.p.owner = false ∨ s.p.reqStop = true := hinv.link.released (by rw [hpc]; rfl)
  have hstart : WriteRun s c rest s :=
    .before hpc rfl rfl [] (by simp) ⟨⟨by simp, by simp, fun _ => rfl⟩, hreleased, id⟩
  obtain ⟨hinv', h⟩ := runSteps_moves (I := WriteRun s c rest)
    (fun _ script i w n h => h.rescheduled script i n w)
    (fun _ _ _ hu h hy hk henv => h.env hu hy hk henv)
    (fun _ _ hu h hturn => h.turn hop hu hissue hturn) hinv honly hstart hrun
  obtain ⟨hpc', hcalls', hresult'⟩ := hok
  refine ⟨hinv', ?_⟩
  cases h with
  | before _ hcalls =>
    obtain ⟨_, _, _, _, hs, _⟩ := hissue
    have hlen := congrArg List.length (hcalls'.symm.trans (hcalls.trans hs))
    simp at hlen
  | running _ hcmd => exact absurd hpc' (commandInv_running hinv'.command hcmd).1
  | returned _ _ hwrite =>
    obtain ⟨⟨evs, htrace, hended⟩, hmem⟩ := hwrite
    rw [List.take_of_length_le (by exact c.payload_length_le s.mem)] at hended
    exact ⟨hmem, evs, htrace, hended⟩
  | failed _ r hresult hr => exact absurd (Option.some.inj (hresult.symm.trans hresult')) hr
  | later hcalls => simp [hcalls'] at hcalls

end

end Sys2Proof.Machine
end

section
/-! A read that is issued when a write has returned: what is left of the write on the bus before the read's start (R86,
R128, R150). -/

namespace Sys2Proof.Machine

open Sys2Proof

/-- Nothing of a transfer is left but its stop. -/
def Periph.stopsOnly (p : Periph) : Prop :=
  p.owner = false ∨ p.mode = .pTx ∧ p.drTx = none ∧ p.shift = none ∧ p.reqStop = true

theorem WriteEnded.stopsOnly {s₀ : State} {c : Command} {bs : List Byte} {p : Periph} {evs : List BusEvent}
    (h : WriteEnded s₀ c bs p evs) : p.stopsOnly := by
  obtain ⟨⟨-, hmode, hdr, hshift⟩, hstop, -⟩ | ⟨-, howner, -⟩ := h
  · exact .inr ⟨hmode, hdr, hshift, hstop⟩
  · exact .inl howner

/-- What is on the bus between a transfer and the next start: nothing yet, or the stop. -/
def StopAtMost (evs : List BusEvent) : Prop := evs = [] ∨ evs = [.P]

theorem StopAtMost.no_start {evs : List BusEvent} (h : StopAtMost evs) : .S ∉ evs := by
  obtain rfl | rfl := h <;> simp

/-- Where the engine stands before the start of the read `c` is generated, or when it will not be. -/
def State.beforeStart (s₀ : State) (c : Command) (s : State) : Prop :=
  (s.e.pc = .idle ∧ (s.calls = s₀.calls ∨ s.calls = [])) ∨
    s.calls = [] ∧ (s.e.pc = .abort ∨ s.e.pc = .done ∨ s.e.cmd = some c ∧ (s.e.pc = .start ∨ s.e.pc = .startWait))

/-- A run of a read from `s₀`, where a stop may be pending: no start yet, or a start behind that stop. -/
inductive StopThenStart (s₀ : State) (c : Command) (s : State) : Prop
  | waiting (evs : List BusEvent) (hevs : StopAtMost evs) (htrace : s.busTrace = s₀.busTrace ++ evs)
      (hp : s.p.stopsOnly) (hnone : s.p.owner = true → evs = []) (hpc : s₀.beforeStart c s)
  | started (evs post : List BusEvent) (hevs : StopAtMost evs)
      (htrace : s.busTrace = s₀.busTrace ++ (evs ++ .S :: post))

section
variable {s₀ : State} {c : Command} {s t : State}

theorem StopThenStart.env {k : EnvStep} (hinv : s.Inv) (h : StopThenStart s₀ c s) (hk : envEnabled k s.p = true)
    (hstep : envStep k s = .next t) : StopThenStart s₀ c t := by
  obtain ⟨⟨he, -, -, -, -, -, -, -, -, hcalls, -⟩, es, hmove, htrace'⟩ := envStep_move hstep hk
  cases h with
  | started evs post hevs htrace =>
    exact .started evs (post ++ es) hevs (by rw [htrace', htrace]; simp)
  | waiting evs hevs htrace hp hnone hpc =>
    have hpc' : s₀.beforeStart c t := by simpa only [State.beforeStart, he, hcalls] using hpc
    have htrace'' : t.busTrace = s₀.busTrace ++ (evs ++ es) := by rw [htrace', htrace, List.append_assoc]
    obtain howner | ⟨hmode, hdr, hshift, hstop⟩ := hp
    · have hmode : s.p.mode = .pIdle := by simpa [howner] using hinv.periph.owner
      generalize hq : t.p = q at hmove
      cases hmove with
      | start =>
        refine .started evs [] hevs ?_
        rw [htrace'', if_neg (by simp [howner])]
      | drop | extBusy =>
        rw [List.append_nil] at htrace''
        exact .waiting evs hevs htrace'' (.inl (by rw [hq]; exact howner)) (by rw [hq]; simp [howner]) hpc'
      | _ => simp_all
    · have howner : s.p.owner = true := hinv.periph.owner.2 (by simp [hmode])
      cases hnone howner
      generalize hq : t.p = q at hmove
      cases hmove with
      | stop => exact .waiting [.P] (.inr rfl) htrace'' (.inl (by rw [hq])) (by rw [hq]; simp) hpc'
      | _ => simp_all

/-- Every read starts with its start and the wait for it, but for the label behind it (R110, R111, R114). -/
theorem reads_start {op : Op} (h : op.reads = true) : op.firstLabel = .start ∧
    stepTable op .start = some ⟨.issueStart, .goto .startWait⟩ ∧
    ∃ l, stepTable op .startWait = some ⟨.wait .sb, .goto l⟩ := by
  cases op <;> cases h <;> exact ⟨rfl, rfl, _, rfl⟩

theorem StopThenStart.turn (hop : c.op.reads = true) (hissue : s₀.issuesNext c []) (hinv : s.Inv)
    (h : StopThenStart s₀ c s) (hturn : turn s = .next t) : StopThenStart s₀ c t := by
  obtain ⟨hbus, -⟩ := turn_next hturn
  have hbus : t.busTrace = s.busTrace := hbus
  obtain ⟨hfirst, hstart, l, hwait⟩ := reads_start hop
  cases h with
  | started evs post hevs htrace => exact .started evs post hevs (hbus.trans htrace)
  | waiting evs hevs htrace hp hnone hpc =>
    have stays (hpt : t.p.owner = s.p.owner ∧ t.p.stopsOnly) (hpct : s₀.beforeStart c t) : StopThenStart s₀ c t :=
      .waiting evs hevs (hbus.trans htrace) hpt.2 (hpt.1 ▸ hnone) hpct
    obtain ⟨hidle, hcalls⟩ | ⟨hcalls, hpc⟩ := hpc
    · obtain ⟨-, hsame⟩ | ⟨-, x, hx⟩ := turn_calls hturn
      · obtain ⟨-, rfl⟩ := hsame hidle
        exact .waiting evs hevs htrace hp hnone (.inl ⟨hidle, hcalls⟩)
      · have hissue : s.issuesNext c [] := by
          simpa only [State.issuesNext, hcalls.resolve_right (by simp [hx])] using hissue
        obtain ⟨hcalls', -, he, hpt, -⟩ | ⟨len, rfl⟩ := turn_issues hissue hidle hturn
        · exact stays (by rw [hpt]; exact ⟨rfl, hp⟩) (.inl ⟨by rw [he, hidle], .inr hcalls'⟩)
        · exact stays ⟨rfl, hp⟩ (.inr ⟨rfl, .inr (.inr ⟨rfl, .inl hfirst⟩)⟩)
    · have hne : s.e.pc ≠ .idle := by obtain h | h | ⟨-, h | h⟩ := hpc <;> simp [h]
      rw [turn_engine hne] at hturn
      obtain ⟨-, -, -, -, -, hcalls', -⟩ := engineStep_sameOutside hturn
      have hcalls := hcalls'.trans hcalls
      obtain hpc | hpc | ⟨hcmd, hpc | hpc⟩ := hpc
      · rw [engineStep_abort hpc] at hturn
        cases hturn
        refine stays ⟨rfl, hp.imp id ?_⟩ (.inr ⟨hcalls, .inr (.inl rfl)⟩)
        exact fun ⟨hmode, hdr, hshift, _⟩ => ⟨hmode, hdr, hshift, rfl⟩
      · rw [engineStep_done hpc] at hturn
        cases hturn
        exact stays ⟨rfl, hp⟩ (.inl ⟨rfl, .inr hcalls⟩)
      · rw [engineStep_row hcmd (hpc ▸ hstart)] at hturn
        cases hturn
        exact stays ⟨rfl, hp⟩ (.inr ⟨hcalls, .inr (.inr ⟨hcmd, .inr rfl⟩)⟩)
      · have hsb : WaitCond.holds .sb s.p = false := by
          refine Bool.eq_false_iff.2 fun hsb => ?_
          have hmode := hinv.periph.sb.1 hsb
          obtain howner | ⟨htx, -⟩ := hp
          · simp [hinv.periph.owner.2 (by simp [hmode])] at howner
          · simp [hmode] at htx
        rw [engineStep_row hcmd (hpc ▸ hwait), runRow_wait, poll_missed hsb] at hturn
        cases hturn
        obtain ⟨-, hm⟩ | ⟨-, -, hm⟩ | ⟨-, -, hm⟩ := pollMissed_cases .sb (pollOnce .sb s).2 <;>
          rw [hm] at stays hcalls ⊢
        · exact stays ⟨rfl, hp⟩ (.inr ⟨hcalls, .inr (.inr ⟨hcmd, .inr hpc⟩)⟩)
        · exact stays ⟨rfl, hp⟩ (.inr ⟨hcalls, .inl rfl⟩)
        · exact stays ⟨rfl, hp⟩ (.inr ⟨hcalls, .inr (.inr ⟨hcmd, .inr hpc⟩)⟩)

theorem StopThenStart.rescheduled (h : StopThenStart s₀ c s) (script : List Pick) (i n : Nat)
    (w : Option (EnvStep × Nat)) :
    StopThenStart s₀ c { s with script := script, picks := i, waiting := w, patience := n } := by
  cases h with
  | waiting evs hevs htrace hp hnone hpc => exact .waiting evs hevs htrace hp hnone hpc
  | started evs post hevs htrace => exact .started evs post hevs htrace

theorem State.stopAtMost_pendingStop (s : State) : StopAtMost s.pendingStop := by
  unfold State.pendingStop
  split
  · exact .inr rfl
  · exact .inl rfl

/-- What stands before the first start of a trace is determined by it. -/
theorem eq_of_first_start {l l' a b : List BusEvent} (hl : .S ∉ l) (hl' : .S ∉ l') (h : l ++ .S :: a = l' ++ .S :: b) :
    l = l' := by
  have before {l a : List BusEvent} (hl : .S ∉ l) : (l ++ .S :: a).takeWhile (· ≠ .S) = l := by
    rw [List.takeWhile_append_of_pos fun x hx => decide_eq_true (ne_of_mem_of_not_mem hx hl)]
    simp
  rw [← before hl, h, before hl']

/-- Before the start of a read that is issued with nothing but a stop left, only that stop is on the bus. -/
theorem stop_before_start {k : Nat} {old post : List BusEvent} (hop : c.op.reads = true)
    (hissue : s.issuesNext c []) (hinv : s.Inv) (hpc : s.e.pc = .idle) (honly : s.onlyChoices) (hp : s.p.stopsOnly)
    (hrun : runSteps k s = .next t) (hold : .S ∉ old)
    (htrace : t.busTrace ++ t.pendingStop = s.busTrace ++ (old ++ .S :: post)) : StopAtMost old := by
  obtain ⟨-, h⟩ := runSteps_moves (I := StopThenStart s c)
    (fun _ script i w n h => h.rescheduled script i n w)
    (fun _ _ _ hu h _ hk henv => h.env hu hk henv)
    (fun _ _ hu h hturn => h.turn hop hissue hu hturn) hinv honly
    (.waiting [] (.inl rfl) (by simp) hp (fun _ => rfl) (.inl ⟨hpc, .inl rfl⟩)) hrun
  cases h with
  | waiting evs hevs htrace' =>
    rw [htrace', List.append_assoc, List.append_cancel_left_eq] at htrace
    have hmem : .S ∈ evs ++ t.pendingStop := by simp [htrace]
    exact absurd hmem (by simp [hevs.no_start, t.stopAtMost_pendingStop.no_start])
  | started evs post' hevs htrace' =>
    rw [htrace', List.append_assoc, List.append_cancel_left_eq, List.append_assoc, List.cons_append] at htrace
    exact eq_of_first_start hevs.no_start hold htrace ▸ hevs

end

end Sys2Proof.Machine
end

section
/-! The round trips: what was written is what is read back, under the reference scheduler and under every schedule in
which both commands return `OK` (R120). -/

namespace Sys2Proof.Machine

open Sys2Proof

/-! ## What a slave hears of a write and of a read -/

theorem addrOfByte_addrByte (a : Addr7) (d : Dir) : addrOfByte (addrByte a d) = a := addrByte_high a d

theorem MockSlave.hear_keeps {v w : MockSlave × Bool} {ev : BusEvent} (h : MockSlave.hear v ev = some w) :
    w.1.addr = v.1.addr ∧ (v.1.mem.wf = true → w.1.mem.wf = true) := by
  obtain ⟨m, sel⟩ := v
  have take (b : Byte) (hwf : m.mem.wf = true) : (m.take b).mem.wf = true := by
    unfold MockSlave.take
    split
    · exact hwf
    · exact Memory.write_wf _ _ hwf
  cases ev with
  | S | Sr | P => cases h; exact ⟨rfl, id⟩
  | A b k =>
    cases h
    split
    · exact ⟨m.addressed_addr _, by cases dirOfByte b <;> exact id⟩
    · exact ⟨rfl, id⟩
  | W b k =>
    cases h
    split
    · exact ⟨m.take_addr b, take b⟩
    · exact ⟨rfl, id⟩
  | R b k =>
    simp only [MockSlave.hear] at h
    split at h
    · split at h <;> cases h
      exact ⟨rfl, id⟩
    · cases h
      exact ⟨rfl, id⟩

theorem MockSlave.hears_cons (v : MockSlave × Bool) (ev : BusEvent) (evs : List BusEvent) :
    MockSlave.hears v (ev :: evs) = (MockSlave.hear v ev).bind fun w => MockSlave.hears w evs := rfl

theorem MockSlave.hears_keeps {v w : MockSlave × Bool} {evs : List BusEvent} (h : MockSlave.hears v evs = some w) :
    w.1.addr = v.1.addr ∧ (v.1.mem.wf = true → w.1.mem.wf = true) := by
  induction evs generalizing v with
  | nil => cases h; exact ⟨rfl, id⟩
  | cons ev evs ih =>
    rw [MockSlave.hears_cons, Option.bind_eq_some_iff] at h
    obtain ⟨x, hx, hw⟩ := h
    obtain ⟨haddr, hwf⟩ := MockSlave.hear_keeps hx
    obtain ⟨haddr', hwf'⟩ := ih hw
    exact ⟨haddr'.trans haddr, hwf' ∘ hwf⟩

section
variable (n : MockSlave) (sel : Bool)

/-- A start and the slave's address byte for writing: it expects its pointer. -/
theorem MockSlave.hears_addressed (k : Bool) :
    MockSlave.hears (n, sel) [.S, .A (addrByte n.addr .write) k] = some ({ n with expectPtr := true }, true) := by
  simp [MockSlave.hears, MockSlave.hear, addrOfByte_addrByte, dirOfByte_addrByte, MockSlave.addressed]

theorem MockSlave.hears_written (bs : List Byte) :
    MockSlave.hears (n, true) (bs.map (.W · true)) = some (bs.foldl MockSlave.take n, true) := by
  induction bs generalizing n with
  | nil => rfl
  | cons b bs ih => exact ih (n.take b)

/-- The opening of a register-addressed read points the slave at the register (R111, R114). -/
theorem MockSlave.hears_pointed (r : Byte) (k : Bool) :
    MockSlave.hears (n, sel)
      [.S, .A (addrByte n.addr .write) true, .W r k, .Sr, .A (addrByte n.addr .read) true] =
      some ({ n with ptr := r, expectPtr := false }, true) := by
  simp [MockSlave.hears, MockSlave.hear, addrOfByte_addrByte, dirOfByte_addrByte, MockSlave.addressed, MockSlave.take]

/-- The bytes that were received from the slave are those it holds from its pointer on (R82). -/
theorem MockSlave.received_eq {vs : List Byte} {w : MockSlave × Bool}
    (h : MockSlave.hears (n, true) (receiveEvents vs) = some w) : vs = n.bytesFrom n.ptr vs.length := by
  induction vs generalizing n with
  | nil => rfl
  | cons v vs ih =>
    have hfirst : ∃ k, receiveEvents (v :: vs) = .R v k :: receiveEvents vs := by
      cases vs with
      | nil => exact ⟨false, rfl⟩
      | cons x rest => exact ⟨true, rfl⟩
    obtain ⟨k, hfirst⟩ := hfirst
    rw [hfirst, MockSlave.hears_cons, Option.bind_eq_some_iff] at h
    obtain ⟨x, hx, hrest⟩ := h
    by_cases hv : v = n.current
    · rw [MockSlave.hear, if_pos rfl, if_pos hv] at hx
      cases hx
      have hbytes : n.sent.bytesFrom (n.ptr + 1) vs.length = n.bytesFrom (n.ptr + 1) vs.length :=
        MockSlave.bytesFrom_congr (m := n.sent) (n := n) rfl _ _
      rw [List.length_cons, MockSlave.bytesFrom]
      exact congrArg₂ List.cons hv ((ih n.sent hrest).trans hbytes)
    · simp [MockSlave.hear, hv] at hx

end

/-- A pending or a generated stop does not touch the slave. -/
theorem StopAtMost.hears {evs : List BusEvent} (h : StopAtMost evs) (n : MockSlave) (sel : Bool) :
    ∃ sel', MockSlave.hears (n, sel) evs = some (n, sel') := by
  obtain rfl | rfl := h
  · exact ⟨sel, rfl⟩
  · exact ⟨false, rfl⟩

/-- A write and then a read of the same registers, as the slave hears them: what is read is what was written, for
payloads up to the slave's 256 registers (R120). -/
theorem MockSlave.read_of_written {v w : MockSlave × Bool} {r : Byte} {k : Bool} {bs vs : List Byte}
    {old stop : List BusEvent} (hwf : v.1.mem.wf = true) (hlen : vs.length = bs.length) (hmax : bs.length ≤ 256)
    (hstop : StopAtMost stop)
    (h : MockSlave.hears v (old ++ [.S, .A (addrByte v.1.addr .write) true] ++ (r :: bs).map (.W · true) ++ stop ++
      [.S, .A (addrByte v.1.addr .write) true, .W r k, .Sr, .A (addrByte v.1.addr .read) true] ++
      receiveEvents vs) = some w) : vs = bs := by
  simp only [MockSlave.hears_append, Option.bind_eq_some_iff] at h
  obtain ⟨x₅, ⟨x₄, ⟨x₃, ⟨x₂, ⟨⟨n, sel⟩, hold, haddressed⟩, hwritten⟩, hstopped⟩, hpointed⟩, hreceived⟩ := h
  obtain ⟨haddr, hnwf⟩ := MockSlave.hears_keeps hold
  rw [← haddr] at haddressed hpointed
  cases (n.hears_addressed sel true).symm.trans haddressed
  cases (MockSlave.hears_written _ (r :: bs)).symm.trans hwritten
  rw [List.foldl_cons, MockSlave.take_pointer rfl] at hstopped
  have hpointer : ({ n with ptr := r, expectPtr := false } : MockSlave).expectPtr = false := rfl
  obtain ⟨haddr', -⟩ := MockSlave.foldl_take hpointer bs
  have hback := MockSlave.bytesFrom_foldl_take hpointer (hnwf hwf) hmax
  generalize bs.foldl MockSlave.take { n with ptr := r, expectPtr := false } = n' at hstopped haddr' hback
  obtain ⟨sel', hx₄⟩ := hstop.hears n' true
  cases hx₄.symm.trans hstopped
  rw [← haddr'] at hpointed
  cases (n'.hears_pointed sel' r k).symm.trans hpointed
  have hread := MockSlave.received_eq _ hreceived
  rw [hlen] at hread
  have hsame := MockSlave.bytesFrom_congr (m := { n' with ptr := r, expectPtr := false }) (n := n') rfl r bs.length
  exact hread.trans (hsame.trans hback)

end Sys2Proof.Machine
end

section
/-! O53: what one command wrote, the next one reads back (R120). -/

namespace Sys2Proof.Machine

open Sys2Proof

/-- Between a write's last byte and the start of the read behind it there is at most one stop: the write's own. -/
theorem WriteEnded.closed {s u : State} {c : Command} {bs : List Byte} {evs old : List BusEvent}
    (h : WriteEnded s c bs u.p evs) (hold : u.closes old) (hstop : StopAtMost old) :
    ∃ body stop, Written s c bs body ∧ StopAtMost stop ∧ evs ++ old = body ++ stop := by
  obtain ⟨-, -, hwritten⟩ | ⟨-, howner, body, hwritten, rfl⟩ := h
  · exact ⟨evs, old, hwritten, hstop, rfl⟩
  · obtain ⟨-, -, hnone⟩ := hold
    exact ⟨body, [.P], hwritten, .inr rfl, by simp [hnone howner]⟩

/-- The slave has heard the transaction that ends a run, whether its stop is on the bus yet or not. -/
theorem Heard.closed {a : Addr7} {s t : State} {v : MockSlave × Bool} {evs : List BusEvent} (h : Heard a s t)
    (hv : s.listener a = some v) (htrace : t.busTrace ++ t.pendingStop = s.busTrace ++ (evs ++ [.P])) :
    ∃ w, MockSlave.hears v evs = some w := by
  obtain ⟨es, w, htrace', hears, -⟩ := h v hv
  rw [htrace', List.append_assoc, List.append_cancel_left_eq] at htrace
  obtain hp | hp := t.stopAtMost_pendingStop <;> rw [hp] at htrace
  · rw [List.append_nil] at htrace
    rw [htrace, MockSlave.hears_append, Option.bind_eq_some_iff] at hears
    obtain ⟨x, hx, -⟩ := hears
    exact ⟨x, hx⟩
  · exact ⟨w, List.append_cancel_right htrace ▸ hears⟩

/-- A run keeps to a schedule of choices, and the memories in canonical form. -/
theorem runSteps_keeps {s t : State} {k : Nat} (honly : s.onlyChoices) (hcanon : s.canonical = true)
    (hrun : runSteps k s = .next t) : t.onlyChoices ∧ t.canonical = true :=
  runSteps_induct (I := fun u => u.onlyChoices ∧ u.canonical = true)
    (fun u v ⟨honly, hcanon⟩ hstep =>
      ⟨fun x hx => honly x (List.mem_of_mem_tail ((step_params_script hstep).2 ▸ hx)),
        canonicalKept.1 u v hcanon hstep⟩)
    ⟨honly, hcanon⟩ hrun

/-- A write that returned `OK` and then a register-addressed read of as many bytes: the bytes received are those
written, whatever the schedule (R120). -/
theorem received_of_written {s u t : State} {c c' : Command} {m : MockSlave} {rest : List Call} {r : Byte} {kr : Bool}
    {j k : Nat} {bs vs : List Byte} {old : List BusEvent} (hinv : s.Inv) (hcanon : s.canonical = true) (hpc : s.e.pc = .idle)
    (honly : s.onlyChoices) (hm : s.slaveAt c.addr = some m) (hop : c.op.writes = true) (hop' : c'.op.reads = true)
    (hissue : s.issuesNext c rest) (hissue' : u.issuesNext c' []) (hpayload : c.payload s.mem = r :: bs)
    (hlen : vs.length = bs.length) (hmax : bs.length ≤ 256) (hrun : runSteps j s = .next u) (hok : u.okBefore rest)
    (hrun' : runSteps k u = .next t) (hold : u.closes old)
    (htrace : t.busTrace ++ t.pendingStop = u.busTrace ++ old ++
      [.S, .A (addrByte c.addr .write) true, .W r kr, .Sr, .A (addrByte c.addr .read) true] ++
      receiveEvents vs ++ [.P]) : vs = bs := by
  obtain ⟨hinvU, -, evs, htraceU, hended⟩ := returned_of_write hop hinv hpc honly hissue hrun hok
  obtain ⟨honlyU, -⟩ := runSteps_keeps honly hcanon hrun
  have hstop : StopAtMost old :=
    stop_before_start hop' hissue' hinvU hok.1 honlyU hended.stopsOnly hrun' hold.1
      (htrace.trans (by simp only [List.append_assoc, List.cons_append]; rfl))
  obtain ⟨body, stop, hwritten, hstop, hbody⟩ := hended.closed hold hstop
  rw [hpayload] at hwritten
  obtain ⟨-, ⟨-, ⟨-, before, -, rfl⟩, rfl⟩, rfl⟩ := hwritten
  have hheard : Heard c.addr s t := (runSteps_heard _ hinv honly hrun).trans (runSteps_heard _ hinvU honlyU hrun')
  rw [htraceU, List.append_assoc s.busTrace, hbody] at htrace
  simp only [List.append_assoc s.busTrace] at htrace
  obtain ⟨v, hv⟩ : ∃ v, s.listener c.addr = some v := ⟨(m, _), listener_eq_some.2 ⟨hm, rfl⟩⟩
  obtain ⟨hslave, -⟩ := listener_eq_some.1 hv
  have haddr : v.1.addr = c.addr := by
    obtain ⟨present, -, hfind⟩ := slaveAt_eq_some hslave
    exact findSlave_addr hfind
  obtain ⟨w, hw⟩ := hheard.closed hv htrace
  refine MockSlave.read_of_written (State.canonical_slaveAt hcanon hslave) hlen hmax hstop
    (old := before) (r := r) (k := kr) (w := w) ?_
  rw [haddr, ← hw, List.append_assoc before [.S]]
  rfl

/-- Settles O53: under the reference scheduler by the runs of the two commands, one after the other
(`exists_run_byteTrip`, `exists_run_multiTrip`); under every schedule because the slave has heard the write before the
read (`received_of_written`). -/
theorem roundTrips : Obligations.RoundTrips := by
  unfold Obligations.RoundTrips
  refine ⟨fun s a r d m hready hcanon hs hm =>
    ⟨fun _ _ _ _ _ _ _ h₁ h₂ hcalls => exists_run_byteTrip hready hcanon hs hm h₁ h₂ hcalls,
      fun _ _ _ _ _ _ h₁ h₂ hcalls hlen₁ hlen₂ hlen =>
        exists_run_multiTrip hready hcanon hs hm h₁ h₂ hcalls hlen₁ hlen₂ hlen⟩, ?_⟩
  intro s u t a r d m j k rest hinv hcanon hpc honly hm hrun hok hrun' hok'
  have hinv := State.inv_iff.1 hinv
  obtain ⟨honlyU, hcanonU⟩ := runSteps_keeps honly hcanon hrun
  have reads (len : BitVec 32) (buf : BufRef) (hinvU : u.Inv) :=
    readsAnySchedule u t a r len buf k (State.inv_iff.2 hinvU) hcanonU hok.1 honlyU hrun' hok'
  constructor
  · intro l₁ l₂ b₁ b₂ w₁ w₂ h₁ h₂ hrest hcalls
    have hissue : s.issuesNext ⟨.writeMemoryByte, a, r, d, l₁.toNat, b₁⟩ rest :=
      ⟨_, w₁, l₁, h₁, hcalls, rfl, fun _ => rfl⟩
    have hcallsU : u.calls = [.command w₂ l₂ b₂] := hok.2.1.trans hrest
    have hissueU : u.issuesNext ⟨.readMemoryByte, a, r, 0, l₂.toNat, b₂⟩ [] :=
      ⟨_, w₂, l₂, h₂, hcallsU, rfl, fun _ => rfl⟩
    have hinvU : u.Inv := (returned_of_write rfl hinv hpc honly hissue hrun hok).1
    obtain ⟨old, hold, -, hread, -⟩ := reads l₂ b₂ hinvU
    obtain ⟨kr, v, hv, -, htrace⟩ := hread ⟨w₂, h₂, hcallsU⟩
    have hback : [v] = [d] := received_of_written (vs := [v]) (bs := [d]) (kr := kr) (old := old) hinv hcanon hpc honly
      hm rfl rfl hissue hissueU rfl rfl (by simp) hrun hok hrun' hold (by rw [htrace]; simp [receiveEvents])
    rw [hv, List.singleton_inj.1 hback]
  · intro len b₁ b₂ w₁ w₂ h₁ h₂ hrest hcalls hmax
    have hissue : s.issuesNext ⟨.writeMemoryMulti, a, r, 0, len.toNat, b₁⟩ rest :=
      ⟨_, w₁, len, h₁, hcalls, rfl, fun _ => rfl⟩
    have hcallsU : u.calls = [.command w₂ len b₂] := hok.2.1.trans hrest
    have hissueU : u.issuesNext ⟨.readMemoryMulti, a, r, 0, len.toNat, b₂⟩ [] :=
      ⟨_, w₂, len, h₂, hcallsU, rfl, fun _ => rfl⟩
    have hinvU : u.Inv := (returned_of_write rfl hinv hpc honly hissue hrun hok).1
    obtain ⟨old, hold, -, -, hread⟩ := reads len b₂ hinvU
    obtain ⟨kr, vs, hvs, hbytes, -, htrace⟩ := hread ⟨w₂, h₂, hcallsU⟩
    have hcount : (s.mem.readBytes b₁.base len.toNat).length = len.toNat := by simp
    exact hbytes.trans (received_of_written hinv hcanon hpc honly hm rfl rfl hissue hissueU rfl
      (hvs.trans hcount.symm) (hcount.trans_le hmax) hrun hok hrun' hold htrace)

end Sys2Proof.Machine
end

section
/-! The multi-byte write as a whole: what it leaves in the slave under the reference scheduler (R123 with R71, R82), and
one byte of its loop (R121, R122). -/

namespace Sys2Proof.Machine

open Sys2Proof

/-- A register that none of the bytes goes to keeps what it held (R82). -/
theorem MockSlave.read_foldl_take_other {n : MockSlave} (hn : n.expectPtr = false) {bs : List Byte} {x : Nat}
    (hx : ∀ i, i < bs.length → x ≠ (n.ptr + BitVec.ofNat 8 i).toNat) :
    (bs.foldl MockSlave.take n).mem.read x = n.mem.read x := by
  induction bs using List.reverseRecOn with
  | nil => rfl
  | append_singleton bs b ih =>
    obtain ⟨-, hexpect, hptr⟩ := MockSlave.foldl_take hn bs
    rw [List.foldl_concat, MockSlave.take_data hexpect, hptr, Memory.read_write_other _ _ (hx _ (by simp))]
    exact ih fun i hi => hx i (by simp; omega)

/-- Settles O52: the write runs to its end (`exists_run_writeMemoryMulti`), and the slave that has taken the buffer's
bytes holds each in its register (`MockSlave.read_foldl_take`) and every other register as before. -/
theorem multiWriteStoresBuffer : Obligations.MultiWriteStoresBuffer := by
  intro s a r len buf rest m hready hcanon hs hm hissue hlen
  obtain ⟨k, t, hrun, hfinished, hrdata, hout, hmem, htrace, hslave, hothers⟩ :=
    exists_run_writeMemoryMulti hready hs hm hissue hlen
  have hwf := State.canonical_slaveAt hcanon hm
  have hlength := Memory.readBytes_length s.mem buf.base len.toNat
  obtain ⟨-, hexpect, hptr⟩ := MockSlave.foldl_take (n := { m with ptr := r, expectPtr := false }) rfl
    (s.mem.readBytes buf.base len.toNat)
  obtain ⟨-, hread⟩ := MockSlave.read_foldl_take (n := { m with ptr := r, expectPtr := false }) rfl
    (s.mem.readBytes buf.base len.toNat) hwf
  rw [hlength] at hptr
  refine ⟨k, t, _, hrun, hfinished, hrdata, hout, hmem, by simp [htrace], hslave, hptr, hexpect, fun i hi hwrap => ?_,
    fun x hx => ?_, hothers⟩
  · have hsent := (List.getElem_eq_iff (by rwa [hlength])).2 (getElem?_readBytes (m := s.mem) (base := buf.base) hi)
    exact (hread i (by rwa [hlength]) (by rwa [hlength])).trans hsent
  · exact MockSlave.read_foldl_take_other rfl (by rwa [hlength])

/-- Settles O29: the data byte is the row's action (`sendBuf_sends`) on an empty data register, and the satisfied wait
goes on by the index (`advance_ifIdx`). -/
theorem sendTakesBufferByte : Obligations.SendTakesBufferByte := by
  refine ⟨fun s c i hc hop hpc hidx hi hmode hdr => ?send, fun s c i hc hop hpc hidx hbtf => ?wait⟩
  case send =>
    have hrow : stepTable c.op s.e.pc = some ⟨.sendBuf, .goto .transferComplete⟩ := by rw [hop, hpc]; rfl
    have hwrite := execWriteDr_next_iff.1
      (exec_writeDr_of_empty (s.mem.read (c.buf.base + i)) hmode hdr)
    have hsend := (sendBuf_sends hidx hi).trans (congrArg _ hwrite)
    rw [engineStep_row hc hrow, runRow_of_ok rfl hsend]
    rfl
  case wait =>
    have hrow : stepTable c.op s.e.pc = some ⟨.wait .btf, .ifIdx .dataByte .stop⟩ := by rw [hop, hpc]; rfl
    rw [engineStep_row hc hrow]
    exact (poll_satisfied (w := .btf) hbtf).trans (advance_ifIdx hidx)

end Sys2Proof.Machine
end

section
/-! O59: what a write that returned `OK` put on the bus, under every schedule and for every oracle (R106, R107,
R123). -/

namespace Sys2Proof.Machine

open Sys2Proof

/-- The stop of a write that ended is on the bus or pending. -/
theorem WriteEnded.pendingStop {s t : State} {c : Command} {bs : List Byte} {evs : List BusEvent} (hp : t.p.Inv)
    (h : WriteEnded s c bs t.p evs) : ∃ body, Written s c bs body ∧ evs ++ t.pendingStop = body ++ [.P] := by
  obtain ⟨⟨-, hmode, -, -⟩, -, hbody⟩ | ⟨-, howner, body, hbody, rfl⟩ := h
  · have howner : t.p.owner = true := hp.owner.2 (by simp [hmode])
    exact ⟨evs, hbody, by simp [State.pendingStop, howner]⟩
  · exact ⟨body, hbody, by simp [State.pendingStop, howner]⟩

/-- The Caller's next move is the command with the record that its acceptance latches (R55). -/
theorem State.issues.issuesNext {s : State} {c : Command} {i : Instr} {len : BitVec 32} {rest : List Call}
    (h : s.issues i len c.buf rest) (hlen : c.len = len.toNat)
    (hexec : ∀ u, exec i u = accept c.op c.addr c.reg c.data c.op.firstLabel u) : s.issuesNext c rest := by
  obtain ⟨cw, hcw, hcalls⟩ := h
  exact ⟨i, cw, len, hcw, hcalls, hlen, hexec⟩

/-- A write that returned `OK` added its one transaction to the bus, behind what an earlier one still added, and wrote
no memory (R106, R107, R123). -/
theorem events_of_write {s t : State} {c : Command} {k : Nat} (hop : c.op.writes = true) (hinv : s.Inv)
    (hpc : s.e.pc = .idle) (honly : s.onlyChoices) (hissue : s.issuesNext c []) (hrun : runSteps k s = .next t)
    (hok : t.returnedOk) : ∃ old, s.closes old ∧ t.mem = s.mem ∧ t.busTrace ++ t.pendingStop =
      s.busTrace ++ old ++ [.S, .A (addrByte c.addr .write) true] ++ (c.payload s.mem).map (.W · true) ++ [.P] := by
  obtain ⟨hinv', hmem, evs, htrace, hended⟩ := returned_of_write hop hinv hpc honly hissue hrun hok
  obtain ⟨body, ⟨sel, ⟨head, ⟨-, old, hold, rfl⟩, rfl⟩, rfl⟩, hstop⟩ := hended.pendingStop hinv'.periph
  exact ⟨old, hold, hmem, by rw [htrace, List.append_assoc, hstop]; simp⟩

/-- Settles O59: the write that was issued put its payload on the bus between its address byte and its stop
(`events_of_write`), and no other write was issued (`State.issues_inj`). -/
theorem writesAnySchedule : Obligations.WritesAnySchedule := by
  unfold Obligations.WritesAnySchedule
  intro s t a r d len buf k hinv hpc honly hrun hok
  have events (c : Command) (hop : c.op.writes = true) (hissue : s.issuesNext c []) :=
    events_of_write hop (State.inv_iff.1 hinv) hpc honly hissue hrun hok
  by_cases h1 : s.issues (.writeByte a d) len buf []
  · obtain ⟨old, hold, hmem, hevents⟩ :=
      events ⟨.writeByte, a, 0, d, len.toNat, buf⟩ rfl (h1.issuesNext rfl fun _ => rfl)
    refine ⟨old, hold, fun _ => ⟨hmem, by rw [hevents]; simp [Command.payload]⟩, fun h => ?_, fun h => ?_⟩ <;>
      cases State.issues_inj h1 h
  by_cases h2 : s.issues (.writeMemoryByte a r d) len buf []
  · obtain ⟨old, hold, hmem, hevents⟩ :=
      events ⟨.writeMemoryByte, a, r, d, len.toNat, buf⟩ rfl (h2.issuesNext rfl fun _ => rfl)
    refine ⟨old, hold, fun h => absurd h h1, fun _ => ⟨hmem, by rw [hevents]; simp [Command.payload]⟩, fun h => ?_⟩
    cases State.issues_inj h2 h
  by_cases h3 : s.issues (.writeMemoryMulti a r) len buf []
  · obtain ⟨old, hold, hmem, hevents⟩ :=
      events ⟨.writeMemoryMulti, a, r, 0, len.toNat, buf⟩ rfl (h3.issuesNext rfl fun _ => rfl)
    exact ⟨old, hold, fun h => absurd h h1, fun h => absurd h h2,
      fun _ => ⟨hmem, by rw [hevents]; simp [Command.payload]⟩⟩
  · exact ⟨[], ⟨by simp, by simp, fun _ => rfl⟩, fun h => absurd h h1, fun h => absurd h h2, fun h => absurd h h3⟩

end Sys2Proof.Machine
end

section
/-! Launch, hardware reset, initialization and refusal (R133, R134, R143 to R145), and what the invariant gives to every
run from a launch: no fault is reached and the bus is never left held (R132, R152). -/

namespace Sys2Proof.Machine

open Sys2Proof

/-! ## Every step keeps the invariant -/

/-- Settles O45: the case split along what a step can be (a hardware reset, an environment step, a turn of the engine or
the Caller) stands in `State.Inv.step`. -/
theorem stepKeepsInv : Obligations.StepKeepsInv := by
  intro s t hinv h
  rw [State.inv_iff] at hinv ⊢
  exact hinv.step h

/-! ## No step faults in the invariant -/

theorem gated_ne_fault {s : State} {run : State → Host.Outcome State Fault Refusal} {f : Fault} (h : run s ≠ .fault f) :
    gated s run ≠ .fault f := by
  unfold gated
  split
  · split
    · exact h
    · simp
  · simp

/-- A command word is refused, rejected or accepted, but it never faults (R133). -/
theorem runWord_cmd_ne_fault (w : CmdWord) (s : State) (f : Fault) : runWord (.cmd w) s ≠ .fault f := by
  by_cases hd : ∃ i, decode (.cmd w) = .instr i
  · obtain ⟨i, hi⟩ := hd
    obtain ⟨op, -, -, hexec⟩ := exec_command (decode_eq_instr_iff.1 hi)
    rw [runWord_instr hi, hexec]
    obtain ⟨-, ha⟩ | ⟨-, -, ha⟩ | ⟨-, -, -, -, ha⟩ | ⟨-, -, -, ha⟩ :=
      accept_cases op (CmdWord.addr w) (CmdWord.reg w) (CmdWord.data w) op.firstLabel s <;> simp [ha]
  · rw [runWord_rejectWord fun i hi => hd ⟨i, hi⟩]
    exact gated_ne_fault (by simp)

/-- No move of the Caller faults. -/
theorem callerStep_ne_fault (s : State) (f : Fault) : callerStep s ≠ .fault f := by
  unfold callerStep
  split
  · simp
  · unfold initCall
    split <;> simp
  · exact runWord_cmd_ne_fault _ _ f

theorem State.Inv.turn_ne_fault {s : State} (hinv : s.Inv) (f : Fault) : Machine.turn s ≠ .fault f := by
  by_cases hpc : s.e.pc = .idle
  · rw [turn_idle hpc]
    exact callerStep_ne_fault s f
  · obtain ⟨t, ht⟩ := turn_answers hinv hpc
    simp [ht]

/-- No step faults: neither a reset nor the environment can, the engine's rows answer (`turn_answers`), and no primitive
comes from outside. -/
theorem State.Inv.step_ne_fault {s : State} (hinv : s.Inv) (f : Fault) : Machine.step s ≠ .fault f := by
  obtain ⟨l, rest, -, hl⟩ | ⟨w, rest, hs, -⟩ | ⟨u, hu, ⟨k, -, -, hk⟩ | ht⟩ := step_cases s
  · simp [hl]
  · exact (hinv.no_prim hs).elim
  · obtain ⟨t, ht⟩ := envStep_answers k u
    simp [hk, ht]
  · rw [ht]
    exact (hinv.consumed hu).turn_ne_fault f

/-- Settles O46, by `State.Inv.step_ne_fault`. -/
theorem invNeverFaults : Obligations.InvNeverFaults := by
  intro s f hinv
  rw [State.inv_iff] at hinv
  exact hinv.step_ne_fault f

/-! ## Runs from a launch -/

/-- A launch with well-formed parameters and no primitive from outside is in the invariant (R10, R143). -/
theorem State.Inv.launch {q : Params} {script : List Pick} (hwf : q.wellFormed = true) (hown : ∀ w, .prim w ∉ script)
    (l : Launch) (mem : Memory) (calls : List Call) : (State.launch q l mem calls script).Inv := by
  refine ⟨hwf, Periph.Inv.reset l.extBusy, rfl, pollsInv_of_zero hwf rfl,
    ⟨rfl, fun h => (by cases h), fun h => (by cases h), fun _ => .inl rfl⟩, ?_⟩
  refine List.all_eq_true.2 fun k hk => ?_
  cases k with
  | prim w => exact absurd hk (hown w)
  | choose c => rfl
  | reset l => rfl

/-- Settles O44: a launch by `State.Inv.launch`, and the reset state is one. -/
theorem invAtLaunch : Obligations.InvAtLaunch := by
  constructor
  · intro q l mem calls script hwf hown
    exact State.inv_iff.2 (.launch hwf hown l mem calls)
  · exact State.inv_iff.2 (.launch (by decide) (by simp) _ _ _)

/-- Where every step keeps a property that shuts out faults, no run faults. -/
theorem runSteps_ne_fault {I : State → Prop} {f : Fault} (hstep : ∀ s t, I s → step s = .next t → I t)
    (hsafe : ∀ s, I s → step s ≠ .fault f) (k : Nat) {s : State} (hs : I s) : runSteps k s ≠ .fault f := by
  induction k generalizing s with
  | zero => simp
  | succ k ih =>
    cases h : step s with
    | next t => rw [runSteps_succ k h]; exact ih (hstep s t hs h)
    | fault g => exact fun hf => hsafe s hs (by simpa [runSteps, h] using hf)
    | refused r => simp [runSteps, h]

/-- Settles O48: the invariant holds at the launch and is kept along the run; it shuts out every fault, and in IDLE its
link says that the bus is released. -/
theorem runsNeverFaultOrHoldBus : Obligations.RunsNeverFaultOrHoldBus := by
  intro q l mem calls script k hwf hown
  have hlaunch : (State.launch q l mem calls script).Inv := .launch hwf hown l mem calls
  have hkept : ∀ s t : State, s.Inv → step s = .next t → t.Inv := fun _ _ hs h => hs.step h
  constructor
  · intro f
    exact runSteps_ne_fault hkept (fun _ hs => hs.step_ne_fault f) k hlaunch
  · intro t hrun hpc
    exact (runSteps_induct hkept hlaunch hrun).link.released (by rw [hpc]; rfl)

/-! ## Refusal and initialization -/

section
variable {s : State} (run : State → Host.Outcome State Fault Refusal)

theorem gated_busy (hpc : s.e.pc ≠ .idle) : gated s run = .refused .engineBusy := if_neg hpc

theorem gated_uninitialized (hpc : s.e.pc = .idle) (hinit : s.p.initialized = false) :
    gated s run = .refused .notInitialized := by
  simp [gated, hpc, hinit]

end

/-- Settles O14: every command word, reserved ones among them, passes the one gate first (`runWord_cmd_gated`). -/
theorem commandsRefused : Obligations.CommandsRefused := by
  intro s cw
  obtain ⟨run, hrun⟩ := runWord_cmd_gated cw s
  rw [hrun]
  exact ⟨gated_busy run, gated_uninitialized run⟩

/-- Settles O9: the Caller's turn is the initialization call, which `P.initialized` alone decides; a command before it
meets the gate (`commandsRefused`). -/
theorem initializationCall : Obligations.InitializationCall := by
  constructor
  · intro s rest hpc hcalls
    rw [turn_idle hpc]
    constructor <;> intro hinit <;> simp [callerStep, hcalls, initCall, hinit, State.setP]
  · intro s cw len buf rest hpc hcalls hinit
    rw [turn_idle hpc, callerStep, hcalls]
    exact (commandsRefused _ cw).2 hpc hinit

/-! ## Launch and hardware reset -/

/-- A mock slave at launch is as given but for its `expect_ptr` (R82, R143). -/
theorem slaveAt_launch {l : Launch} {present : List MockSlave} (h : l.slaves = .mock present) (q : Params)
    (mem : Memory) (calls : List Call) (script : List Pick) (a : Addr7) :
    (State.launch q l mem calls script).slaveAt a =
      (findSlave a present).map fun m => { m with expectPtr := false } := by
  rw [slaveAt_mock (by simp only [State.launch, h]; rfl)]
  exact findSlave_map (f := fun m => { m with expectPtr := false }) (fun _ => rfl) a present

/-- An oracle at launch is as given. -/
theorem launch_slaves_oracle {l : Launch} {acks : List Bool} {bytes : List Byte} (h : l.slaves = .oracle acks bytes)
    (q : Params) (mem : Memory) (calls : List Call) (script : List Pick) :
    (State.launch q l mem calls script).slaves = .oracle acks bytes := by
  simp only [State.launch, h]
  rfl

/-- Settles O7: every field is the launch's own, and the slaves are as `slaveAt_launch` and `launch_slaves_oracle` say. -/
theorem launchState : Obligations.LaunchState := by
  refine ⟨fun q l mem calls script => ?_, .atReset, _, [], [], [], rfl⟩
  refine ⟨rfl, rfl, rfl, rfl, rfl, rfl, rfl, rfl, rfl, rfl, rfl, rfl, rfl, rfl, rfl, rfl, rfl, rfl,
    rfl, rfl, rfl, rfl, rfl, rfl, rfl, rfl, rfl, rfl, rfl, rfl, rfl, rfl, rfl, rfl, rfl, rfl, fun a => ?_,
    fun acks bytes h => launch_slaves_oracle h .., rfl, rfl, rfl, rfl, rfl, rfl, rfl, rfl, rfl, rfl, rfl, rfl, rfl⟩
  split
  · exact slaveAt_launch ‹_› ..
  · simp only [State.slaveAt, launch_slaves_oracle ‹_›]

/-- Settles O8: the step is the reset (`step_reset`), which brings a launch with the slaves as given (R144). -/
theorem hardwareResetRelaunches : Obligations.HardwareResetRelaunches := by
  intro s l rest hs
  exact ⟨_, step_reset hs, rfl, rfl, rfl, rfl, rfl, rfl, rfl, rfl, rfl, rfl, rfl, rfl, rfl⟩

end Sys2Proof.Machine
end
